-- ==== Sys2Proof/Word.lean ====
section
/-! DEFINITION. The words of the block: a byte, a host register address, a device Address. -/

namespace Sys2Proof

/-- One register, one command, one datum of the host interface (20_memory R61: every register is 8 bits wide). -/
abbrev Byte := BitVec 8

/-- A byte address of the host register space, 0x000 to 0xFFF (20_memory R60). -/
abbrev HostAddr := BitVec 12

/-- A device Address (00_scope R8): bit `p` of the word is `A.bit[p]`, so the word is the integer `N(A)`. -/
abbrev Address := BitVec 64

end Sys2Proof
end

