-- ==== Sys2Proof/Syntax.lean ====
section
/-! DEFINITION. The seven operations a command byte selects (30_encoding R102), one constructor per row of
spec/opcode_table.json. The byte operand of WRITE_OCTET and SEND_COMMAND is not part of the command: it is `DATA`. -/

namespace Sys2Proof

/-- A command. `ARG` (30_encoding R100, bits [6:4]) is kept as the 3-bit field it is. -/
inductive Instr where
  /-- RESET_PULSE, 41_transaction R161. -/
  | resetPulse
  /-- WRITE_BIT, 40_timeslot R134; `ARG` is the value and must be 0 or 1 (30_encoding R101). -/
  | writeBit (value : BitVec 3)
  /-- READ_BIT_OR, 40_timeslot R135; `ARG` is the bit position, 0 to 7. -/
  | readBitOr (bitPosition : BitVec 3)
  /-- WRITE_OCTET, 41_transaction R163. -/
  | writeOctet
  /-- READ_OCTET, 41_transaction R166. -/
  | readOctet
  /-- SEND_COMMAND, 41_transaction R167. -/
  | sendCommand
  /-- SEARCH, 42_search R190. -/
  | search
  deriving DecidableEq, Repr

end Sys2Proof
end

