-- ==== Sys2Proof/WellFormed.lean ====
section
/-! DEFINITION. Which commands have a legal byte. -/

namespace Sys2Proof

/-- 30_encoding R101: WRITE_BIT's `ARG` must be 0 or 1; every other operand the syntax can hold is legal
(READ_BIT_OR takes all eight positions, the other operations take none). -/
def Instr.wf : Instr → Bool
  | .resetPulse => true
  | .writeBit value => decide (value.toNat < 2)
  | .readBitOr _ => true
  | .writeOctet => true
  | .readOctet => true
  | .sendCommand => true
  | .search => true

end Sys2Proof
end

