-- ==== Sys2Proof/Decode.lean ====
section
/-! DEFINITION. The command byte: decoding, total on all 256 bytes and rejecting by name (30_encoding R100 to R103,
R108), and the encoder. -/

namespace Sys2Proof

/-- Why a byte is no legal command (30_encoding R108). -/
inductive DecodeError where
  /-- `Z`, bit 7, is 1. -/
  | zSet
  /-- `OP` is 0 or 8 to 15. -/
  | reservedOp
  /-- `ARG` is not 0 where the operation takes no immediate. -/
  | argNotZero
  /-- WRITE_BIT's `ARG` is not 0 or 1. -/
  | argNotBit
  deriving DecidableEq, Repr

/-- `OP`, bits [3:0] of a command byte (30_encoding R100). -/
def opField (w : Byte) : BitVec 4 := w.extractLsb' 0 4

/-- `ARG`, bits [6:4] of a command byte (30_encoding R100). -/
def argField (w : Byte) : BitVec 3 := w.extractLsb' 4 3

/-- `Z`, bit 7 of a command byte (30_encoding R100). -/
def zField (w : Byte) : Bool := w.getLsbD 7

/-- An operation that takes no immediate: its `ARG` must be 0 (30_encoding R101). -/
def plainOp (w : Byte) (i : Instr) : Except DecodeError Instr :=
  if argField w = 0#3 then .ok i else .error .argNotZero

/-- The decoder of 30_encoding R102, R103: one of the seven operations with its immediate, or why the byte is illegal. -/
def decode (w : Byte) : Except DecodeError Instr :=
  if zField w then .error .zSet
  else match (opField w).toNat with
    | 1 => plainOp w .resetPulse
    | 2 => if (argField w).toNat < 2 then .ok (.writeBit (argField w)) else .error .argNotBit
    | 3 => .ok (.readBitOr (argField w))
    | 4 => plainOp w .writeOctet
    | 5 => plainOp w .readOctet
    | 6 => plainOp w .sendCommand
    | 7 => plainOp w .search
    | _ => .error .reservedOp

/-- Format C (30_encoding R100): `Z = 0` in bit 7, `ARG` in [6:4], `OP` in [3:0]. -/
def commandByte (arg : BitVec 3) (op : BitVec 4) : Byte := 0#1 ++ arg ++ op

/-- The command byte of an operation (30_encoding R102, R111). -/
def encode : Instr → Byte
  | .resetPulse => commandByte 0#3 1#4
  | .writeBit value => commandByte value 2#4
  | .readBitOr bitPosition => commandByte bitPosition 3#4
  | .writeOctet => commandByte 0#3 4#4
  | .readOctet => commandByte 0#3 5#4
  | .sendCommand => commandByte 0#3 6#4
  | .search => commandByte 0#3 7#4

/-- The host's question about a row of the opcode table: the operation this decoder reads from the one byte `w`. -/
def decodeTableWord (nbits w : Nat) : Option Instr :=
  if nbits ≤ 8 ∧ w < 256 then (decode (BitVec.ofNat 8 w)).toOption else none

end Sys2Proof
end

