-- ==== Sys2Proof/Config.lean ====
section
/-! DEFINITION. What an instance of the block fixes (00_scope R5, R6, R7), and the free values: values the spec
leaves open (`any`), as constants without a body. -/

namespace Sys2Proof

namespace Config

/-- `T_SLOT`, one timeslot in ticks (00_scope R5). -/
def tSlot : Nat := 60

/-- `T_Q`, one quarter-timeslot in ticks (00_scope R5). -/
def tQ : Nat := 15

/-- `ADDR_BITS` (00_scope R5). -/
def addrBits : Nat := 64

/-- `ADDR_BYTES` (00_scope R5). -/
def addrBytes : Nat := 8

/-- `RESET_LOW_SLOTS` (00_scope R5). -/
def resetLowSlots : Nat := 10

/-- `RESET_LOW_MIN_SLOTS`, the protocol minimum of the reset pulse (00_scope R5). -/
def resetLowMinSlots : Nat := 8

/-- `PRES_LOW_MIN_Q`, the least accepted presence count (00_scope R5). -/
def presLowMinQ : Nat := 3

/-- `RECOVERY_SLOTS` (00_scope R5). -/
def recoverySlots : Nat := 8

/-- FREE VALUE (assumption 4): the `n`-th byte the spec calls `any` (93 U1 to U4). Nothing constrains it. -/
opaque freeByte : Nat → Byte

/-- FREE VALUE (assumption 5): the level of a released line at a tick, where nothing is known of the environment
(20_memory R68). Nothing constrains it. -/
opaque freeLevel : Nat → Bool

end Config

/-- The nine parameters the source leaves to the implementation, with their constraints (00_scope R6; an instance
that breaks one cannot be built, 93 U11). All durations are in ticks of 1 µs. -/
structure Config where
  /-- `MAX_DEVICES`, capacity of the device table. -/
  maxDevices : Nat
  /-- `T_W_LOW`, write low-pulse window. -/
  tWLow : Nat
  /-- `T_REC`, recovery window after a write slot. -/
  tRec : Nat
  /-- `T_R_LOW`, read pulse. -/
  tRLow : Nat
  /-- `T_R_SAMPLE`, delay from the release to the data sample. -/
  tRSample : Nat
  /-- `FLOAT_TIMEOUT_US`. -/
  floatTimeoutUs : Nat
  /-- `PRES_HIGH_MAX_Q`. -/
  presHighMaxQ : Nat
  /-- `PRES_LOW_MAX_Q`. -/
  presLowMaxQ : Nat
  /-- `SEARCH_CMD`. -/
  searchCmd : Byte
  maxDevices_le : maxDevices ≤ 255 := by decide
  tWLow_range : 1 ≤ tWLow ∧ tWLow < Config.tSlot := by decide
  tRec_pos : 1 ≤ tRec := by decide
  tRLow_pos : 1 ≤ tRLow := by decide
  tRSample_pos : 1 ≤ tRSample := by decide
  tRead_lt : tRLow + tRSample < Config.tSlot := by decide
  floatTimeoutUs_range : 1 ≤ floatTimeoutUs ∧ floatTimeoutUs ≤ 255 := by decide
  presHighMaxQ_range : 1 ≤ presHighMaxQ ∧ presHighMaxQ ≤ 254 := by decide
  presLowMaxQ_range : 3 ≤ presLowMaxQ ∧ presLowMaxQ ≤ 254 := by decide
  deriving DecidableEq, Repr

/-- The reference values of 00_scope R7: the assignment the spec's own vectors are computed with. -/
def Config.reference : Config where
  maxDevices := 4
  tWLow := 5
  tRec := 15
  tRLow := 2
  tRSample := 10
  floatTimeoutUs := 120
  presHighMaxQ := 90
  presLowMaxQ := 32
  searchCmd := 0xF0#8

end Sys2Proof
end

