-- ==== Sys2Proof/Machine/State.lean ====
section
/-! DEFINITION. The state of one OWC instance (10_state R20), with what stands outside it and answers it: the line
environment (20_memory R68, R82, R83) and the host's pending accesses. All of it is plain data. -/

namespace Sys2Proof.Machine

/-- The Result of an operation, a closed type (10_state R23). -/
inductive Result where
  | ok
  | commError
  | noDevices
  | tooManyDevices
  deriving DecidableEq, Repr

/-- One statement of the operations' pseudocode (00_scope R9): what the sequencer position `seq` (10_state R38) is made
of. `Machine/Program.lean` writes the operations as lists of these, `Machine/Sequencer.lean` executes one. -/
inductive Stmt where
  /-- `Drive()`. -/
  | drive
  /-- `Release()`. -/
  | release
  /-- `Wait(n)`, or what is left of it. -/
  | wait (n : Nat)
  /-- `s <- Sample()` of `ReadSlot`. -/
  | sampleData
  /-- `e <- Sample()` of `ReadSlot`. -/
  | sampleEnd
  /-- `finish(r)`. -/
  | finish (r : Result)
  /-- READ_BIT_OR: `DATA[k] <- DATA[k] OR s`. -/
  | orData (k : Nat)
  /-- READ_BIT_OR: `finish(r)` with the Result of its slot. -/
  | finishRead
  /-- `ResetSeq`: both presence counters to 0. -/
  | clearPresence
  /-- `ResetSeq` step 2: `n_float <- 0`. -/
  | floatStart
  /-- `ResetSeq` step 2: the loop's test. -/
  | floatTest
  /-- `ResetSeq` step 2: `n_float <- n_float + 1`. -/
  | floatNext
  /-- `ResetSeq` step 3: the loop's test. -/
  | highTest
  /-- `ResetSeq` step 3: count a quarter, compare. -/
  | highNext
  /-- `ResetSeq` step 4: the loop's test. -/
  | lowTest
  /-- `ResetSeq` step 4: count a quarter, compare. -/
  | lowNext
  /-- `ResetSeq` steps 5 and 6. -/
  | acceptPresence
  /-- `i <- 0` before an octet loop. -/
  | octetStart
  /-- `WriteOctetSeq`: the loop's head. -/
  | octetSend (byte : Byte)
  /-- READ_OCTET: `DATA <- 0`. -/
  | clearData
  /-- READ_OCTET: the loop's head. -/
  | octetReceive
  /-- READ_OCTET: the OR into `DATA` and the abort. -/
  | octetLatch
  /-- An octet loop: next `i`. -/
  | octetNext
  /-- SEARCH: `last_disc <- NONE`, `device_position <- 0`. -/
  | searchStart
  /-- SEARCH: the top of a pass. -/
  | passTop
  /-- SEARCH: `position <- 0`. -/
  | positionStart
  /-- SEARCH: the head of the position loop. -/
  | positionTop
  /-- SEARCH: `v` from the slot just read, or the abort. -/
  | latchV
  /-- SEARCH: `c` from the slot just read, or the abort. -/
  | latchC
  /-- SEARCH: the bit-pair decoded, `b` decided, the write-back issued. -/
  | decidePair
  /-- SEARCH: `rom[position] <- b`. -/
  | romLatch
  /-- SEARCH: next `position`. -/
  | positionNext
  /-- SEARCH: the end of a pass. -/
  | passEnd
  deriving DecidableEq, Repr

/-- What the host does at one tick (20_memory R76): a byte read, a byte write, or a change of the hardware reset input, which
is a level (70 R270). -/
inductive HostAct where
  | read (a : HostAddr)
  | write (a : HostAddr) (w : Byte)
  /-- The hardware reset input is asserted. -/
  | hwReset
  /-- The hardware reset input is released. -/
  | hwRelease
  deriving DecidableEq, Repr

/-- A pending host action: it takes place at `tick`, or as soon after it as the actions before it allow. -/
structure HostEvent where
  tick : Nat
  act : HostAct
  deriving DecidableEq, Repr

/-- What a `HostRead` returned. -/
structure HostAnswer where
  tick : Nat
  addr : HostAddr
  value : Byte
  deriving DecidableEq, Repr

/-- What happens on the line at a tick: an edge of `drive_low`, or a `Sample()` with its value. -/
inductive LineEvent where
  | drive
  | release
  | sample (level : Bool)
  deriving DecidableEq, Repr

/-- The protocol state of a device of the reference bus (20_memory R82). -/
inductive SlavePhase where
  | idle
  | cmd (k : Nat) (byte : Byte)
  | value (p : Nat)
  | compl (p : Nat)
  | dir (p : Nat)
  deriving DecidableEq, Repr

/-- A device of the reference bus (20_memory R82, R83), with the faults the named vectors use. -/
structure Slave where
  /-- Its ROM code; bit `p` is sent at position `p`. -/
  rom : Address
  /-- The command byte it takes as the search command. -/
  searchCmd : Byte
  /-- `T_PDH`: from the release of a reset pulse to its presence pulse. -/
  tPdh : Nat
  /-- `T_PDL`: the width of its presence pulse. -/
  tPdl : Nat
  /-- Fault: it goes `Idle` instead of answering this position. -/
  silentFrom : Option Nat
  /-- Fault: in the value slot (`false`) or complement slot (`true`) of this position it holds the line low for 70 µs. -/
  stretch : Option (Nat × Bool)
  phase : SlavePhase
  /-- The intervals `lo ≤ t < hi` of ticks during which it pulls the line low. -/
  pulls : List (Nat × Nat)
  deriving DecidableEq, Repr

/-- The reference bus (20_memory R82, R83). -/
structure Bus where
  slaves : List Slave
  /-- The tick of the master's last falling edge. -/
  fall : Nat
  /-- The tick from which the pull-up has raised the line. -/
  up : Nat
  /-- Rise time of the pull-up (0 on the reference bus; 95 V16 uses another). -/
  rise : Nat
  /-- Fault: `line_in = 0` always. -/
  stuckLow : Bool
  deriving DecidableEq, Repr

/-- The line environment: what answers `Sample()` while the block releases the line (20_memory R68). -/
inductive LineEnv where
  /-- Nothing is known of it: every tick's level is a free value. -/
  | any
  /-- A fixed waveform: high until the first listed tick, then the level of the last listed tick not after `t`. -/
  | wave (levels : List (Nat × Bool))
  /-- The reference bus. -/
  | bus (b : Bus)
  deriving DecidableEq, Repr

/-- Memory as (address, byte) pairs, addresses strictly rising. It holds the device table (10_state R29): byte `j` of
entry `k` at its window address 0x800 + 8·k + j (20_memory R61, R64). -/
abbrev Memory := List Host.Cell

/-- What an unlisted address reads as: no value. The table is unspecified after reset (10_state R42), so a byte that
nothing has written has none, and a host read of it draws a free value (assumption 6). -/
def Memory.unlisted : Option Byte := none

/-- The canonical form: addresses strictly rising. (No entry can equal what an unlisted address reads as.) -/
def Memory.wf : Memory → Bool
  | [] => true
  | [_] => true
  | (a, _) :: (b, v) :: m => decide (a < b) && Memory.wf ((b, v) :: m)

/-- The state. The first three groups are 10_state R20; the last is the model's own (assumptions 1 to 5, 7, 17). -/
@[ext]
structure State where
  /-- The instance's parameters (00_scope R6): fixed, written by nothing. -/
  cfg : Config
  -- visible to the host
  /-- `DATA`, R21. -/
  data : Byte
  /-- `BUSY`, R22. -/
  busy : Bool
  /-- `RESULT`, R23. -/
  result : Result
  /-- `ILL`, R24. -/
  ill : Bool
  /-- `pres_high_q`, R25. -/
  presHighQ : Byte
  /-- `pres_low_q`, R26. -/
  presLowQ : Byte
  /-- `num_devices`, R27. -/
  numDevices : Byte
  /-- `devices`, R29. -/
  devices : Memory
  /-- `cmd`, R30. -/
  cmd : Byte
  /-- `drive_low`, R31: the line output. -/
  driveLow : Bool
  -- hidden
  /-- `rom`, R32. -/
  rom : Address
  /-- `device_position`, R33. -/
  devicePosition : BitVec 8
  /-- `last_disc`, R34: a position, or `NONE`. -/
  lastDisc : Option (Fin 64)
  /-- `cur_disc`, R34. -/
  curDisc : Option (Fin 64)
  /-- `position`, R35. -/
  position : BitVec 7
  /-- `i`, R36. -/
  i : BitVec 4
  /-- `v`, R37. -/
  v : Bool
  /-- `c`, R37. -/
  c : Bool
  /-- `b`, R37. -/
  b : Bool
  /-- `s`, R37. -/
  s : Bool
  /-- `e`, R37. -/
  e : Bool
  /-- `n_float`, R37. -/
  nFloat : BitVec 8
  /-- `t_rel`, R37. -/
  tRel : BitVec 16
  -- the sequencer
  /-- `seq`, R38: what is left of the running operation, the statement about to execute first; `[]` is `IDLE`. -/
  seq : List Stmt
  -- the model's own
  /-- The tick, counted from the model's start; `State.now` (00_scope R10) counts it from the last hardware reset. -/
  clock : Nat
  /-- The hardware reset input (70 R270) is asserted. -/
  resetIn : Bool
  /-- The tick at which the hardware reset was last asserted or released. -/
  resetAt : Nat
  /-- The line environment. -/
  line : LineEnv
  /-- The host's pending accesses, in the order it makes them. -/
  host : List HostEvent
  /-- What host reads have returned, newest first. -/
  answers : List HostAnswer
  /-- What has happened on the line, newest first. -/
  trace : List (Nat × LineEvent)
  /-- How many free bytes have been drawn. -/
  freeCtr : Nat
  deriving DecidableEq, Repr

/-- No instruction and no access of this block faults: there are no traps (60_exceptions R242) and no access can fault
(43 R222); a failing operation finishes with a Result. The type is therefore empty (assumption 15). -/
inductive Fault where
  deriving DecidableEq, Repr

/-- Why the model has no next state. -/
inductive Refusal where
  /-- Raised only by an arm of `exec` whose operation has no meaning yet; there is none left. Safe: nothing can be
  proved of what follows. -/
  | notModelled (mnemonic : String)
  deriving DecidableEq, Repr

/-- The instance with parameters `c` right after the release of hardware reset (10_state R42, 70 R270), the line in an environment of
which nothing is known and no host access pending. The registers R42 calls unspecified hold 0, `false` or `NONE`
(DESIGN CHOICE, assumption 3); no table byte has a value. -/
def State.resetOf (c : Config) : State where
  cfg := c
  data := 0x00#8
  busy := false
  result := .ok
  ill := false
  presHighQ := 0#8
  presLowQ := 0#8
  numDevices := 0#8
  devices := []
  cmd := 0x00#8
  driveLow := false
  rom := 0#64
  devicePosition := 0#8
  lastDisc := none
  curDisc := none
  position := 0#7
  i := 0#4
  v := false
  c := false
  b := false
  s := false
  e := false
  nFloat := 0#8
  tRel := 0#16
  seq := []
  clock := 0
  resetIn := false
  resetAt := 0
  line := .any
  host := []
  answers := []
  trace := []
  freeCtr := 0

/-- The machine after reset, as the instance with the reference values of 00_scope R7 (DESIGN CHOICE, assumption 2). -/
def State.reset : State := State.resetOf Config.reference

end Sys2Proof.Machine
end

