-- ==== Sys2Proof/Machine/Memory.lean ====
section
/-! DEFINITION. The device table as memory, and the bit and byte arithmetic of an Address (00_scope R8). -/

namespace Sys2Proof.Machine

/-- The value of one byte, if anything has written it. -/
def Memory.read : Memory → Nat → Option Byte
  | [], _ => Memory.unlisted
  | (k, v) :: m, a => if k = a then some v else Memory.read m a

/-- Write one byte, keeping the addresses strictly rising. -/
def Memory.write : Memory → Nat → Byte → Memory
  | [], a, v => [(a, v)]
  | (k, w) :: m, a, v =>
    if a < k then (a, v) :: (k, w) :: m
    else if a = k then (a, v) :: m
    else (k, w) :: Memory.write m a v

/-- `A.byte[j]` (00_scope R8). -/
def addrByte (a : Address) (j : Nat) : Byte := a.extractLsb' (8 * j) 8

/-- `K(A)` (00_scope R8): the Address read with position 0 as the most significant bit. -/
def keyK (a : Address) : Nat := a.reverse.toNat

/-- `name[k] <- b`, one bit of a word (00_scope R9). -/
def setBit {n : Nat} (w : BitVec n) (k : Nat) (b : Bool) : BitVec n :=
  if b then w ||| BitVec.twoPow n k else w &&& ~~~(BitVec.twoPow n k)

/-- `name[k] <- name[k] OR b`. -/
def orBit {n : Nat} (w : BitVec n) (k : Nat) (b : Bool) : BitVec n :=
  if b then w ||| BitVec.twoPow n k else w

/-- The first address of the table window (20_memory R61). -/
def tableBase : Nat := 0x800

/-- The window address of byte `j` of entry `k` (20_memory R61, R64). -/
def tableAddr (k j : Nat) : Nat := tableBase + Config.addrBytes * k + j

/-- Bytes `j`, `j+1`, … (`n` of them) of entry `k`. -/
def Memory.writeBytes (m : Memory) (k : Nat) (a : Address) (j : Nat) : Nat → Memory
  | 0 => m
  | n + 1 => Memory.writeBytes (Memory.write m (tableAddr k j) (addrByte a j)) k a (j + 1) n

/-- `devices[k] <- a`, one whole entry (42_search R198): byte `j` at window offset `8·k + j` (20_memory R74). -/
def Memory.writeEntry (m : Memory) (k : Nat) (a : Address) : Memory := m.writeBytes k a 0 Config.addrBytes

/-- Entry `k` holds the Address `a`: its eight bytes do. -/
def Memory.holdsEntry (m : Memory) (k : Nat) (a : Address) : Prop :=
  ∀ j < Config.addrBytes, m.read (tableAddr k j) = some (addrByte a j)

end Sys2Proof.Machine
end

