-- ==== Sys2Proof/Machine/Line.lean ====
section
/-! DEFINITION. The line environment: its level, and how it answers the edges of `drive_low` (20_memory R66, R68).
The reference bus of 20_memory R82, R83 is a test fixture of the spec, not part of the block. -/

namespace Sys2Proof.Machine

/-- A fixed waveform: high until its first listed tick (the line idles high, 70 R273), then the level of the last
listed tick not after `t`. -/
def waveLevel (levels : List (Nat × Bool)) (t : Nat) : Bool :=
  levels.foldl (fun l e => if e.1 ≤ t then e.2 else l) true

/-- How long a device sending 0 holds the line low in a read slot (20_memory R83). -/
def slaveHold : Nat := 30

/-- How long the stretching fault device holds the line low (20_memory R83). -/
def slaveStretch : Nat := 70

/-- A device receives 0 if the master's low time is at least this (20_memory R83). -/
def slaveWriteZero : Nat := 30

/-- A master low time of at least this is a reset pulse (20_memory R82: 480 µs, the protocol minimum). -/
def slaveReset : Nat := Config.resetLowMinSlots * Config.tSlot

/-- A device that answers position `p` next, or has fallen silent there (fault, 20_memory R83). -/
def Slave.enter (d : Slave) (p : Nat) : SlavePhase :=
  match d.silentFrom with
  | some q => if q ≤ p then .idle else .value p
  | none => .value p

/-- What a device does to the line in a read slot that begins at tick `f` (20_memory R82, R83): it sends 1 by doing
nothing and 0 by pulling low. -/
def Slave.send (d : Slave) (f : Nat) (bit : Bool) (slot : Nat × Bool) : Slave :=
  if d.stretch = some slot then { d with pulls := (f, f + slaveStretch) :: d.pulls }
  else if bit then d
  else { d with pulls := (f, f + slaveHold) :: d.pulls }

/-- The falling edge of a slot, at tick `f`. -/
def Slave.onDrive (f : Nat) (d : Slave) : Slave :=
  match d.phase with
  | .value p => d.send f (d.rom.getLsbD p) (p, false)
  | .compl p => d.send f (!d.rom.getLsbD p) (p, true)
  | _ => d

/-- The end of the master's low time of `low` ticks, at tick `r`: a reset pulse, or the phase's next state
(20_memory R82). -/
def Slave.onRelease (r low : Nat) (d : Slave) : Slave :=
  if slaveReset ≤ low then
    { d with phase := .cmd 0 0#8, pulls := (r + d.tPdh, r + d.tPdh + d.tPdl) :: d.pulls }
  else
    let m := decide (low < slaveWriteZero)
    match d.phase with
    | .idle => d
    | .cmd k byte =>
      let byte' := setBit byte k m
      if k + 1 < 8 then { d with phase := .cmd (k + 1) byte' }
      else { d with phase := if byte' = d.searchCmd then d.enter 0 else .idle }
    | .value p => { d with phase := .compl p }
    | .compl p => { d with phase := .dir p }
    | .dir p =>
      { d with phase := if m = d.rom.getLsbD p ∧ p < 63 then d.enter (p + 1) else .idle }

/-- A device pulls the line low at tick `t`. -/
def Slave.pulling (d : Slave) (t : Nat) : Bool := d.pulls.any fun x => decide (x.1 ≤ t) && decide (t < x.2)

/-- The wired AND of all outputs while the master releases the line (20_memory R82). -/
def Bus.level (b : Bus) (t : Nat) : Bool :=
  !b.stuckLow && decide (b.up ≤ t) && !b.slaves.any (fun d => d.pulling t)

/-- The bus at a falling edge of the master. -/
def Bus.onDrive (b : Bus) (t : Nat) : Bus :=
  { b with slaves := b.slaves.map (Slave.onDrive t), fall := t }

/-- The bus at a release of the master. -/
def Bus.onRelease (b : Bus) (t : Nat) : Bus :=
  { b with slaves := b.slaves.map (Slave.onRelease t (t - b.fall)), up := t + b.rise }

/-- A standard device of the reference bus, idle (20_memory R83: `T_PDH` 30, `T_PDL` 120). -/
def Slave.standard (searchCmd : Byte) (rom : Address) : Slave where
  rom := rom
  searchCmd := searchCmd
  tPdh := 30
  tPdl := 120
  silentFrom := none
  stretch := none
  phase := .idle
  pulls := []

/-- The reference bus with these devices, the line idle high. -/
def Bus.ofSlaves (slaves : List Slave) : Bus where
  slaves := slaves
  fall := 0
  up := 0
  rise := 0
  stuckLow := false

/-- The level of the line at a tick while the block releases it. -/
def LineEnv.level : LineEnv → Nat → Bool
  | .any, t => Config.freeLevel t
  | .wave levels, t => waveLevel levels t
  | .bus b, t => b.level t

/-- The environment at a falling edge of `drive_low`'s line. -/
def LineEnv.onDrive : LineEnv → Nat → LineEnv
  | .any, _ => .any
  | .wave levels, _ => .wave levels
  | .bus b, t => .bus (b.onDrive t)

/-- The environment at the release of the line. -/
def LineEnv.onRelease : LineEnv → Nat → LineEnv
  | .any, _ => .any
  | .wave levels, _ => .wave levels
  | .bus b, t => .bus (b.onRelease t)

/-- `line_in` at the current tick (20_memory R66, R68): low while the block drives, else what the environment makes it. -/
def State.lineIn (s : State) : Bool := if s.driveLow then false else s.line.level s.clock

/-- `drive_low <- 1`; an edge only if it was 0. -/
def State.driveLine (s : State) : State :=
  if s.driveLow then s
  else { s with driveLow := true, line := s.line.onDrive s.clock, trace := (s.clock, .drive) :: s.trace }

/-- `drive_low <- 0`; an edge only if it was 1 (40_timeslot R131: a second `Release()` has no effect). -/
def State.releaseLine (s : State) : State :=
  if s.driveLow then
    { s with driveLow := false, line := s.line.onRelease s.clock, trace := (s.clock, .release) :: s.trace }
  else s

/-- `Sample()` leaves its mark on the trace only. -/
def State.noteSample (s : State) : State := { s with trace := (s.clock, .sample s.lineIn) :: s.trace }

end Sys2Proof.Machine
end

