-- ==== Sys2Proof/Machine/Operands.lean ====
section
/-! DEFINITION. The operands of an operation (30_encoding R101): the immediate in `ARG`, and the register operand
`DATA`. -/

namespace Sys2Proof.Machine

/-- WRITE_BIT's `value = cmd[4]` (30_encoding R101): bit 0 of `ARG`. -/
def writeValue (arg : BitVec 3) : Bool := arg.getLsbD 0

/-- READ_BIT_OR's `bit_position = cmd[6:4]` (30_encoding R101). -/
def readPosition (arg : BitVec 3) : Nat := arg.toNat

/-- `DATA[k] <- DATA[k] OR s`, with the `s` of the slot just sampled (40_timeslot R135). -/
def State.orData (k : Nat) (s : State) : State := { s with data := orBit s.data k s.s }

end Sys2Proof.Machine
end

