-- ==== Sys2Proof/Machine/Flags.lean ====
section
/-! DEFINITION. The status: Results and their codes, `finish` (what stands for trap entry, 60_exceptions R236), the
refusal that sets `ILL`, and the STATUS and RESULT bytes. -/

namespace Sys2Proof.Machine

/-- The numeric code of a Result (10_state R23). -/
def Result.code : Result → Byte
  | .ok => 0#8
  | .commError => 1#8
  | .noDevices => 2#8
  | .tooManyDevices => 3#8

/-- The Result of a read slot by its end-of-slot sample (40_timeslot R132). -/
def slotResult (e : Bool) : Result := if e then .ok else .commError

/-- STATUS (20_memory R61): bit 0 `BUSY`, bit 1 `ILL`, the rest 0. -/
def State.statusByte (s : State) : Byte := orBit (orBit 0#8 0 s.busy) 1 s.ill

/-- `finish(r)` (60_exceptions R236): `RESULT <- r`, `BUSY <- 0`, `seq <- IDLE`, and nothing else. So the hidden registers
keep what the operation last wrote to them, after a failed one too (R240), where 93 U12 calls them any value: DEDUCED,
assumption 19. -/
def State.finish (r : Result) (s : State) : State := { s with result := r, busy := false, seq := [] }

/-- A refused host access (60_exceptions R243): `ILL <- 1` and nothing else. -/
def State.refuse (s : State) : State := { s with ill := true }

end Sys2Proof.Machine
end

