-- ==== Sys2Proof/Machine/Program.lean ====
section
/-! DEFINITION. The operations' pseudocode as lists of statements: what acceptance loads into `seq` (10_state R38). -/

namespace Sys2Proof.Machine

/-- `WriteSlot(b)`, 40_timeslot R131. -/
def writeSlotStmts (c : Config) (b : Bool) : List Stmt :=
  [.drive, .wait c.tWLow] ++ (if b then [.release] else []) ++
    [.wait (Config.tSlot - c.tWLow), .release, .wait c.tRec]

/-- `ReadSlot()`, 40_timeslot R132; `atSample` runs at the data-sample tick. -/
def readSlotStmts (c : Config) (atSample : List Stmt) : List Stmt :=
  [.drive, .wait c.tRLow, .release, .wait c.tRSample, .sampleData] ++ atSample ++
    [.wait (Config.tSlot - c.tRLow - c.tRSample), .sampleEnd]

/-- `ResetSeq()`, 41_transaction R160. A non-Ok return ends the calling operation with that Result in all three callers
(R161, R167, R168, 42 R200), so those returns stand as the finish. -/
def resetSeqStmts : List Stmt :=
  [.clearPresence, .drive, .wait (Config.resetLowSlots * Config.tSlot), .release, .floatStart, .floatTest,
    .highTest, .lowTest, .acceptPresence]

/-- `WriteOctetSeq(byte)`, 41_transaction R162. -/
def writeOctetStmts (byte : Byte) : List Stmt := [.octetStart, .octetSend byte]

/-- The operation an accepted command runs; `data` is `DATA` at acceptance (20_memory R70). -/
def program (c : Config) (data : Byte) : Instr → List Stmt
  | .resetPulse => resetSeqStmts ++ [.finish .ok]
  | .writeBit value => writeSlotStmts c (writeValue value) ++ [.finish .ok]
  | .readBitOr pos => readSlotStmts c [.orData (readPosition pos)] ++ [.finishRead]
  | .writeOctet => writeOctetStmts data ++ [.finish .ok]
  | .readOctet => [.clearData, .octetStart, .octetReceive, .finish .ok]
  | .sendCommand => resetSeqStmts ++ writeOctetStmts data ++ [.finish .ok]
  | .search => [.searchStart, .passTop]

end Sys2Proof.Machine
end

