-- ==== Sys2Proof/Machine/Ops.lean ====
section
/-! DEFINITION. The shared operations: host accesses (20_memory R60 to R72), the hardware reset (70 R270, R271), the
passing of time with the host accesses that fall into it, and the pseudocode primitives of 00_scope R9. -/

namespace Sys2Proof.Machine

/-! ### Host accesses -/

/-- Draw a free byte (`any`, 00_scope R9). -/
def State.freshByte (s : State) : Byte × State :=
  (Config.freeByte s.freeCtr, { s with freeCtr := s.freeCtr + 1 })

/-- A byte of the table window (20_memory R64): exact for an entry of index < `num_devices`, `any` for the others, and
`any` for a byte that nothing has written. -/
def State.readTable (s : State) (a : Nat) : Byte × State :=
  if (a - tableBase) / Config.addrBytes < s.numDevices.toNat then
    match s.devices.read a with
    | some v => (v, s)
    | none => s.freshByte
  else s.freshByte

/-- `HostRead(a)` while `BUSY = 0` (20_memory R61 to R65). -/
def State.readIdle (s : State) (a : HostAddr) : Byte × State :=
  match a.toNat with
  | 0 => (s.cmd, s)
  | 1 => (s.data, s)
  | 2 => (s.statusByte, s)
  | 3 => (s.result.code, s)
  | 4 => (s.presHighQ, s)
  | 5 => (s.presLowQ, s)
  | 6 => (s.numDevices, s)
  | 7 => (BitVec.ofNat 8 s.cfg.maxDevices, s)
  | n =>
    if tableBase ≤ n ∧ n < tableAddr s.cfg.maxDevices 0 then s.readTable n
    else (0x00#8, s)

/-- `HostRead(a)` while `BUSY = 1` (20_memory R72): STATUS and MAX_DEVICES exact, every other address `any`. -/
def State.readBusy (s : State) (a : HostAddr) : Byte × State :=
  match a.toNat with
  | 2 => (s.statusByte, s)
  | 7 => (BitVec.ofNat 8 s.cfg.maxDevices, s)
  | _ => s.freshByte

/-- `HostRead(a)`: the answer goes to the host, the read has no other effect (20_memory R65, R72). -/
def State.hostRead (s : State) (a : HostAddr) : State :=
  let (v, s') := if s.busy then s.readBusy a else s.readIdle a
  { s' with answers := ⟨s.clock, a, v⟩ :: s'.answers }

/-- `HostWrite(a, w)` while `BUSY = 1` (20_memory R71): to CMD or DATA refused, elsewhere ignored. -/
def State.writeBusy (s : State) (a : HostAddr) : State :=
  if a.toNat = 0 ∨ a.toNat = 1 then s.refuse else s

/-- `HostWrite(a, w)` to an address other than CMD while `BUSY = 0` (20_memory R62, R65). -/
def State.writeIdle (s : State) (a : HostAddr) (w : Byte) : State :=
  if a.toNat = 1 then { s with data := w } else s

/-- `now` (00_scope R10): the ticks since hardware reset; 0 while it lasts. -/
def State.now (s : State) : Nat := if s.resetIn then 0 else s.clock - s.resetAt

/-- Hardware reset asserted (70 R270, R271): the line is released at that tick, no `finish` runs, every element takes its
reset value. The table and the registers R42 calls unspecified are forgotten: the table's bytes have no value
(assumption 6), the hidden registers those of `State.resetOf` (assumption 3). -/
def State.hwReset (s : State) : State :=
  let r := s.releaseLine
  { State.resetOf r.cfg with
    clock := r.clock, resetIn := true, resetAt := r.clock, line := r.line, host := r.host, answers := r.answers,
    trace := r.trace, freeCtr := r.freeCtr }

/-- Hardware reset released (70 R270): every element keeps the reset value it was held at; `now` counts from here. -/
def State.hwRelease (s : State) : State :=
  if s.resetIn then { s with resetIn := false, resetAt := s.clock } else s

/-- A host action while an operation runs: the reset input is not asserted then (70 R270), so a release changes nothing. -/
def State.busyAct (s : State) : HostAct → State
  | .read a => s.hostRead a
  | .write a _ => s.writeBusy a
  | .hwReset => s.hwReset
  | .hwRelease => s

/-- The tick at which a pending action takes place: its own, or the current one if that has passed. -/
def State.arrive (s : State) (e : HostEvent) (rest : List HostEvent) : State :=
  { s with clock := max s.clock e.tick, host := rest }

/-- Command acceptance (20_memory R70): `cmd`, `BUSY`, `seq`; `RESULT` keeps its value. -/
def State.accept (i : Instr) (s : State) : State :=
  { s with cmd := encode i, busy := true, seq := program s.cfg s.data i }

/-! ### The running operation -/

/-- Why the statements of an operation end: its `finish`, or a hardware reset. -/
inductive Stop where
  | finished
  | hardReset
  deriving DecidableEq, Repr

/-- A piece of the pseudocode: from a state to a value and a state, or to the state in which the operation ended. -/
abbrev Op (α : Type) := EStateM Stop State α

/-- Change state elements; takes no time (00_scope R10). -/
def upd (f : State → State) : Op Unit := fun s => .ok () (f s)

/-- Look at state elements; takes no time. -/
def look {α : Type} (f : State → α) : Op α := fun s => .ok (f s) s

/-- `Drive()`. -/
def drive : Op Unit := upd State.driveLine

/-- `Release()`. -/
def release : Op Unit := upd State.releaseLine

/-- `if b = 1 then Release()`. -/
def releaseIf (b : Bool) : Op Unit := if b then release else pure ()

/-- `Sample()`. -/
def sample : Op Bool := fun s => .ok s.lineIn s.noteSample

/-- `finish(r)`: nothing after it is executed. -/
def finish (r : Result) : Op Unit := fun s => .error .finished (s.finish r)

/-- `if c then finish(r)`. -/
def finishIf (c : Bool) (r : Result) : Op Unit := if c then finish r else pure ()

/-- Time passes up to tick `till`, and the host's actions before `till` take place at their ticks, in order. A hardware
reset among them ends the operation. (At one tick the sequencer's own actions come first: assumption 8.) -/
def serveUntil (till : Nat) : List HostEvent → State → EStateM.Result Stop State Unit
  | [], s => .ok () { s with clock := till, host := [] }
  | e :: es, s =>
    if e.tick < till then
      let s' := (s.arrive e es).busyAct e.act
      if e.act = .hwReset then .error .hardReset s' else serveUntil till es s'
    else .ok () { s with clock := till, host := e :: es }

/-- `Wait(n)`: n ticks pass with `drive_low` unchanged. -/
def wait (n : Nat) : Op Unit := fun s => serveUntil (s.clock + n) s.host s

/-- `for k in a..a+n-1 do body k`. -/
def forUp (body : Nat → Op Unit) (a : Nat) : Nat → Op Unit
  | 0 => pure ()
  | n + 1 => do
    body a
    forUp body (a + 1) n

/-- The state in which an operation's statements end. -/
def lastState {α : Type} : EStateM.Result Stop State α → State
  | .ok _ s => s
  | .error _ s => s

/-- A command written to CMD: while `BUSY = 1` it is refused (20_memory R71), while hardware reset is asserted it changes
nothing (70 R270), else it is accepted and runs to its end. -/
def runOp (i : Instr) (body : Op Unit) (s : State) : Host.Outcome State Fault Refusal :=
  .next (if s.busy then s.refuse else if s.resetIn then s else lastState (body.run (s.accept i)))

end Sys2Proof.Machine
end

