-- ==== Sys2Proof/Machine/Timeslot.lean ====
section
/-! DEFINITION. The bit-timing generator and the two operations that expose it: WRITE_BIT, READ_BIT_OR (40_timeslot). -/

namespace Sys2Proof.Machine

/-- `WriteSlot(b)`, 40_timeslot R131. -/
def writeSlot (b : Bool) : Op Unit := do
  let c ← look State.cfg
  drive
  wait c.tWLow
  releaseIf b
  wait (Config.tSlot - c.tWLow)
  release
  wait c.tRec

/-- `ReadSlot()`, 40_timeslot R132: the data sample and the slot's Result. `atSample` is what the caller does with `s` at
the data-sample tick (R135). -/
def readSlot (atSample : State → State) : Op (Bool × Result) := do
  let c ← look State.cfg
  drive
  wait c.tRLow
  release
  wait c.tRSample
  let s ← sample
  upd fun st => atSample { st with s := s }
  wait (Config.tSlot - c.tRLow - c.tRSample)
  let e ← sample
  upd fun st => { st with e := e }
  pure (s, slotResult e)

/-- WRITE_BIT, 40_timeslot R134. -/
def execWriteBit (value : BitVec 3) (s : State) : Host.Outcome State Fault Refusal :=
  runOp (.writeBit value) (do
    writeSlot (writeValue value)
    finish .ok) s

/-- READ_BIT_OR, 40_timeslot R135: the OR is done whatever the slot's Result. -/
def execReadBitOr (bitPosition : BitVec 3) (s : State) : Host.Outcome State Fault Refusal :=
  runOp (.readBitOr bitPosition) (do
    let (_, r) ← readSlot (State.orData (readPosition bitPosition))
    finish r) s

end Sys2Proof.Machine
end

