-- ==== Sys2Proof/Machine/Transaction.lean ====
section
/-! DEFINITION. The reset/presence state machine, octet transfer and command dispatch: RESET_PULSE, WRITE_OCTET,
READ_OCTET, SEND_COMMAND (41_transaction). -/

namespace Sys2Proof.Machine

/-- `pres_high_q <- 0 ; pres_low_q <- 0`. -/
def State.clearPresence (s : State) : State := { s with presHighQ := 0#8, presLowQ := 0#8 }

/-- `n_float <- n_float + 1`. -/
def State.countFloat (s : State) : State := { s with nFloat := s.nFloat + 1#8 }

/-- `pres_high_q <- pres_high_q + 1`. -/
def State.countHigh (s : State) : State := { s with presHighQ := s.presHighQ + 1#8 }

/-- `pres_low_q <- pres_low_q + 1`. -/
def State.countLow (s : State) : State := { s with presLowQ := s.presLowQ + 1#8 }

/-- `t_rel <- n_float + T_Q * (pres_high_q + pres_low_q)`. -/
def State.noteRelease (s : State) : State :=
  { s with
    tRel := BitVec.ofNat 16 (s.nFloat.toNat + Config.tQ * (s.presHighQ.toNat + s.presLowQ.toNat)) }

/-- `RECOVERY_SLOTS * T_SLOT`, the recovery window since reset release. -/
def recoveryTicks : Nat := Config.recoverySlots * Config.tSlot

/-- Step 2 of `ResetSeq` (41_transaction R160): sample once per tick until the line is high; `false` if it is still low
after `FLOAT_TIMEOUT_US` ticks. `fuel` bounds the loop and is never used up: the caller gives more than the bound. -/
def floatLoop : Nat → Op Bool
  | 0 => pure false
  | fuel + 1 => do
    if ← sample then pure true
    else
      if ← look fun st => decide (st.nFloat.toNat = st.cfg.floatTimeoutUs) then pure false
      else
        wait 1
        upd State.countFloat
        floatLoop fuel

/-- Step 3: count quarters while the line stays high; `false` if the count exceeds `PRES_HIGH_MAX_Q`. -/
def highLoop : Nat → Op Bool
  | 0 => pure false
  | fuel + 1 => do
    if ← sample then
      wait Config.tQ
      upd State.countHigh
      if ← look fun st => decide (st.presHighQ.toNat > st.cfg.presHighMaxQ) then pure false else highLoop fuel
    else pure true

/-- Step 4: count quarters while the line stays low; `false` if the count exceeds `PRES_LOW_MAX_Q`. -/
def lowLoop : Nat → Op Bool
  | 0 => pure false
  | fuel + 1 => do
    if ← sample then pure true
    else
      wait Config.tQ
      upd State.countLow
      if ← look fun st => decide (st.presLowQ.toNat > st.cfg.presLowMaxQ) then pure false else lowLoop fuel

/-- Steps 5 and 6: a pulse of fewer than 3 quarters is rejected; after an accepted one the rest of the recovery window
passes. -/
def acceptPresence : Op Result := do
  if ← look fun st => decide (st.presLowQ.toNat < Config.presLowMinQ) then pure .commError
  else
    upd State.noteRelease
    let t ← look fun st => st.tRel.toNat
    if t < recoveryTicks then
      wait (recoveryTicks - t)
      pure .ok
    else pure .ok

/-- `ResetSeq()`, 41_transaction R160. -/
def resetSeq : Op Result := do
  let c ← look State.cfg
  upd State.clearPresence
  drive
  wait (Config.resetLowSlots * Config.tSlot)
  release
  upd fun st => { st with nFloat := 0#8 }
  if ← floatLoop (c.floatTimeoutUs + 1) then
    if ← highLoop (c.presHighMaxQ + 1) then
      if ← lowLoop (c.presLowMaxQ + 1) then acceptPresence
      else pure .commError
    else pure .noDevices
  else pure .commError

/-- `i <- k`. -/
def State.setI (k : Nat) (s : State) : State := { s with i := BitVec.ofNat 4 k }

/-- `WriteOctetSeq(byte)`, 41_transaction R162: bit 0 first. -/
def writeOctetSeq (byte : Byte) : Op Unit := do
  forUp (fun k => do
    upd (State.setI k)
    writeSlot (byte.getLsbD k)) 0 8
  upd (State.setI 8)

/-- `DATA <- any` (41_transaction R166; 93 U1): a free value. -/
def State.anyData (s : State) : State :=
  let (v, s') := s.freshByte
  { s' with data := v }

/-- One slot of READ_OCTET. A failing one leaves `DATA` free (93 U1); `i`, `s` and `e` keep what was written (R236, R240; 93
U12 calls them any value: DEDUCED, assumption 19). -/
def receiveBit (k : Nat) : Op Unit := do
  upd (State.setI k)
  let (_, r) ← readSlot id
  upd (State.orData k)
  if r = .ok then pure ()
  else
    upd State.anyData
    finish .commError

/-- `SendCommandSeq(byte)`, 41_transaction R168. -/
def sendCommandSeq (byte : Byte) : Op Result := do
  let r ← resetSeq
  if r = .ok then
    writeOctetSeq byte
    pure .ok
  else pure r

/-- RESET_PULSE, 41_transaction R161. -/
def execResetPulse (s : State) : Host.Outcome State Fault Refusal :=
  runOp .resetPulse (do
    let r ← resetSeq
    finish r) s

/-- WRITE_OCTET, 41_transaction R163: the byte is `DATA` at acceptance. -/
def execWriteOctet (s : State) : Host.Outcome State Fault Refusal :=
  runOp .writeOctet (do
    writeOctetSeq s.data
    finish .ok) s

/-- READ_OCTET, 41_transaction R166. -/
def execReadOctet (s : State) : Host.Outcome State Fault Refusal :=
  runOp .readOctet (do
    upd fun st => { st with data := 0#8 }
    forUp receiveBit 0 8
    upd (State.setI 8)
    finish .ok) s

/-- SEND_COMMAND, 41_transaction R167: the byte is `DATA` at acceptance. -/
def execSendCommand (s : State) : Host.Outcome State Fault Refusal :=
  runOp .sendCommand (do
    let r ← sendCommandSeq s.data
    finish r) s

end Sys2Proof.Machine
end

