-- ==== Sys2Proof/Machine/Search.lean ====
section
/-! DEFINITION. The search engine: SEARCH (42_search). -/

namespace Sys2Proof.Machine

/-- `position <- p`. -/
def State.setPosition (p : Nat) (s : State) : State := { s with position := BitVec.ofNat 7 p }

/-- The bit taken at a collision at position `p` (42_search R194): below the previous pass's marker the previous pass's
bit, at the marker 1, beyond it or with no marker 0. -/
def collisionBit (lastDisc : Option (Fin 64)) (rom : Address) (p : Fin 64) : Bool :=
  match lastDisc with
  | none => false
  | some l => if p < l then rom.getLsbD p else decide (p = l)

/-- The decided bit of a bit-pair other than (1, 1), and the marker of a collision resolved to 0 (42_search R193 to R195,
R197). -/
def State.decideBit (p : Fin 64) (s : State) : State :=
  if !s.v && !s.c then
    let b := collisionBit s.lastDisc s.rom p
    { s with b := b, curDisc := if b then s.curDisc else some p }
  else { s with b := s.v }

/-- `rom[p] <- b` (42_search R196). -/
def State.latchRom (p : Nat) (s : State) : State := { s with rom := setBit s.rom p s.b }

/-- One position of a pass (42_search R190, R193 to R197). -/
def searchPosition (p : Nat) : Op Unit := do
  upd (State.setPosition p)
  let (v, r) ← readSlot id
  upd fun st => { st with v := v }
  finishIf (r ≠ .ok) .commError
  let (c, r) ← readSlot id
  upd fun st => { st with c := c }
  finishIf (r ≠ .ok) .commError
  finishIf (v && c) (if p = 0 then .noDevices else .commError)
  upd (State.decideBit (Fin.ofNat 64 p))
  let b ← look State.b
  writeSlot b
  upd (State.latchRom p)

/-- `last_disc <- NONE`, `device_position <- 0`. -/
def State.startSearch (s : State) : State := { s with lastDisc := none, devicePosition := 0#8 }

/-- `cur_disc <- NONE` (42_search R192). -/
def State.startPass (s : State) : State := { s with curDisc := none }

/-- The end of a pass (42_search R198, R199): the whole entry stored, the next index, the marker handed on. -/
def State.storePass (s : State) : State :=
  { s with
    devices := s.devices.writeEntry s.devicePosition.toNat s.rom
    devicePosition := s.devicePosition + 1#8
    lastDisc := s.curDisc }

/-- `num_devices <- device_position` (42_search R199). -/
def State.countDevices (s : State) : State := { s with numDevices := s.devicePosition }

/-- One pass (42_search R190): the reset sequence and the search command, 64 positions, the store. -/
def searchPass : Op Unit := do
  let c ← look State.cfg
  upd State.startPass
  let r ← sendCommandSeq c.searchCmd
  finishIf (r ≠ .ok) r
  forUp searchPosition 0 Config.addrBits
  upd (State.setPosition Config.addrBits)
  upd State.storePass

/-- The pass loop (42_search R190, R191, R199). `fuel` bounds it and is never used up: at most `MAX_DEVICES` passes. -/
def searchLoop : Nat → Op Unit
  | 0 => finish .tooManyDevices
  | fuel + 1 => do
    let full ← look fun st => decide (st.devicePosition.toNat = st.cfg.maxDevices)
    finishIf full .tooManyDevices
    searchPass
    let done ← look fun st => decide (st.curDisc = none)
    if done then
      upd State.countDevices
      finish .ok
    else searchLoop fuel

/-- SEARCH, 42_search R190. -/
def execSearch (s : State) : Host.Outcome State Fault Refusal :=
  runOp .search (do
    upd State.startSearch
    searchLoop (s.cfg.maxDevices + 1)) s

end Sys2Proof.Machine
end

