-- ==== Sys2Proof/Machine/Dispatch.lean ====
section
/-! DEFINITION. One arm per operation. -/

namespace Sys2Proof.Machine

def exec (i : Instr) (s : State) : Host.Outcome State Fault Refusal :=
  match i with
  | .resetPulse => Sys2Proof.Machine.execResetPulse s
  | .writeBit value => Sys2Proof.Machine.execWriteBit value s
  | .readBitOr bitPosition => Sys2Proof.Machine.execReadBitOr bitPosition s
  | .writeOctet => Sys2Proof.Machine.execWriteOctet s
  | .readOctet => Sys2Proof.Machine.execReadOctet s
  | .sendCommand => Sys2Proof.Machine.execSendCommand s
  | .search => Sys2Proof.Machine.execSearch s

end Sys2Proof.Machine
end

