-- ==== Sys2Proof/Machine/Sequencer.lean ====
section
/-! DEFINITION. The sequencer statement by statement (10_state R38): what one step does while `BUSY = 1`. The same
pseudocode as `Timeslot`, `Transaction`, `Search`, which give each operation its whole effect at once. -/

namespace Sys2Proof.Machine

/-- One step of `Wait(n)`: a host action due before its end, else the end. -/
def State.waitStep (s : State) (n : Nat) (k : List Stmt) : State :=
  match s.host with
  | e :: es =>
    if e.tick < s.clock + n then
      ({ s.arrive e es with seq := .wait (s.clock + n - max s.clock e.tick) :: k }).busyAct e.act
    else { s with clock := s.clock + n, seq := k }
  | [] => { s with clock := s.clock + n, seq := k }

/-- The statement `a` executed with `k` after it. -/
def State.stmtStep (s : State) (a : Stmt) (k : List Stmt) : State :=
  match a with
  | .drive => { s.driveLine with seq := k }
  | .release => { s.releaseLine with seq := k }
  | .wait n => s.waitStep n k
  | .sampleData => { s.noteSample with s := s.lineIn, seq := k }
  | .sampleEnd => { s.noteSample with e := s.lineIn, seq := k }
  | .finish r => s.finish r
  | .orData p => { s.orData p with seq := k }
  | .finishRead => s.finish (slotResult s.e)
  | .clearPresence => { s.clearPresence with seq := k }
  | .floatStart => { s with nFloat := 0#8, seq := k }
  | .floatTest =>
    if s.lineIn then { s.noteSample with seq := k }
    else if s.nFloat.toNat = s.cfg.floatTimeoutUs then s.noteSample.finish .commError
    else { s.noteSample with seq := .wait 1 :: .floatNext :: .floatTest :: k }
  | .floatNext => { s.countFloat with seq := k }
  | .highTest =>
    if s.lineIn then { s.noteSample with seq := .wait Config.tQ :: .highNext :: .highTest :: k }
    else { s.noteSample with seq := k }
  | .highNext =>
    if s.countHigh.presHighQ.toNat > s.cfg.presHighMaxQ then s.countHigh.finish .noDevices
    else { s.countHigh with seq := k }
  | .lowTest =>
    if s.lineIn then { s.noteSample with seq := k }
    else { s.noteSample with seq := .wait Config.tQ :: .lowNext :: .lowTest :: k }
  | .lowNext =>
    if s.countLow.presLowQ.toNat > s.cfg.presLowMaxQ then s.countLow.finish .commError
    else { s.countLow with seq := k }
  | .acceptPresence =>
    if s.presLowQ.toNat < Config.presLowMinQ then s.finish .commError
    else if s.noteRelease.tRel.toNat < recoveryTicks then
      { s.noteRelease with seq := .wait (recoveryTicks - s.noteRelease.tRel.toNat) :: k }
    else { s.noteRelease with seq := k }
  | .octetStart => { s.setI 0 with seq := k }
  | .octetSend byte =>
    if s.i.toNat = 8 then { s with seq := k }
    else { s with seq := writeSlotStmts s.cfg (byte.getLsbD s.i.toNat) ++ .octetNext :: .octetSend byte :: k }
  | .clearData => { s with data := 0#8, seq := k }
  | .octetReceive =>
    if s.i.toNat = 8 then { s with seq := k }
    else { s with seq := readSlotStmts s.cfg [] ++ .octetLatch :: .octetNext :: .octetReceive :: k }
  | .octetLatch =>
    if s.e then { s.orData s.i.toNat with seq := k } else (s.orData s.i.toNat).anyData.finish .commError
  | .octetNext => { s with i := s.i + 1#4, seq := k }
  | .searchStart => { s.startSearch with seq := k }
  | .passTop =>
    if s.devicePosition.toNat = s.cfg.maxDevices then s.finish .tooManyDevices
    else
      { s.startPass with
        seq := resetSeqStmts ++ writeOctetStmts s.cfg.searchCmd ++ .positionStart :: .positionTop :: .passEnd :: k }
  | .positionStart => { s.setPosition 0 with seq := k }
  | .positionTop =>
    if s.position.toNat = Config.addrBits then { s with seq := k }
    else
      { s with
        seq := readSlotStmts s.cfg [] ++ .latchV :: readSlotStmts s.cfg [] ++
          .latchC :: .decidePair :: .romLatch :: .positionNext :: .positionTop :: k }
  | .latchV =>
    if s.e then { s with v := s.s, seq := k } else ({ s with v := s.s }).finish .commError
  | .latchC =>
    if s.e then { s with c := s.s, seq := k } else ({ s with c := s.s }).finish .commError
  | .decidePair =>
    if s.v && s.c then s.finish (if s.position.toNat = 0 then .noDevices else .commError)
    else
      let d := s.decideBit (Fin.ofNat 64 s.position.toNat)
      { d with seq := writeSlotStmts d.cfg d.b ++ k }
  | .romLatch => { s.latchRom s.position.toNat with seq := k }
  | .positionNext => { s with position := s.position + 1#7, seq := k }
  | .passEnd =>
    if s.curDisc = none then s.storePass.countDevices.finish .ok else { s.storePass with seq := .passTop :: k }

/-- One step of the sequencer. (`BUSY = 1` with nothing left to execute is no state of a run; time then passes.) -/
def State.seqStep (s : State) : State :=
  match s.seq with
  | [] => s.waitStep 1 []
  | a :: k => s.stmtStep a k

/-- `n` steps of the sequencer, while an operation runs. -/
def State.seqRun : Nat → State → State
  | 0, s => s
  | n + 1, s => if s.busy then State.seqRun n s.seqStep else s

end Sys2Proof.Machine
end

