-- ==== Sys2Proof/Machine/Step.lean ====
section
/-! DEFINITION. One step of the machine. While an operation runs it is one statement of the sequencer; while the block is
idle it is the host's next action, and a legal command written to CMD runs its whole operation. -/

namespace Sys2Proof.Machine

/-- The host's action on the idle block (20_memory R62, R65, R70, R76). While hardware reset is asserted a write changes
nothing, `ILL` included: every element is held at its reset value (70 R270). -/
def hostStep (s : State) : HostAct → Host.Outcome State Fault Refusal
  | .read a => .next (s.hostRead a)
  | .write a w =>
    if s.resetIn then .next s
    else if a.toNat = 0 then
      match decode w with
      | .ok i => exec i s
      | .error _ => .next s.refuse
    else .next (s.writeIdle a w)
  | .hwReset => .next s.hwReset
  | .hwRelease => .next s.hwRelease

/-- One step. With no operation running and no host action pending nothing happens (00_scope R12: there is no background
activity). -/
def step (s : State) : Host.Outcome State Fault Refusal :=
  if s.busy then .next s.seqStep
  else
    match s.host with
    | [] => .next s
    | e :: es => hostStep (s.arrive e es) e.act

/-- `s` with the host about to write the command byte `w` to CMD at once: what stands for the instruction fetch (20_memory
R80). The block must be idle and out of hardware reset to accept it. -/
def State.withFetchWord (s : State) (_nbits w : Nat) : State :=
  { s with
    busy := false
    seq := []
    resetIn := false
    host := ⟨s.clock, .write 0x000#12 (BitVec.ofNat 8 w)⟩ :: s.host }

end Sys2Proof.Machine
end

