-- ==== Sys2Proof/Machine/HostProgram.lean ====
section
/-! DEFINITION. The host-level statements of 30_encoding R111 and the pseudo-instructions of R112. -/

namespace Sys2Proof.Machine

/-- A register name of R111. -/
inductive HostReg where
  | cmd | data | status | result | presHighQ | presLowQ | numDevices | maxDevices
  /-- `DEV[k].BYTE[j]`. -/
  | dev (k j : Nat)
  deriving DecidableEq, Repr

/-- The address of a register (20_memory R61). -/
def HostReg.addr : HostReg → HostAddr
  | .cmd => 0x000#12
  | .data => 0x001#12
  | .status => 0x002#12
  | .result => 0x003#12
  | .presHighQ => 0x004#12
  | .presLowQ => 0x005#12
  | .numDevices => 0x006#12
  | .maxDevices => 0x007#12
  | .dev k j => BitVec.ofNat 12 (tableAddr k j)

/-- A statement of R111. -/
inductive HostStmt where
  /-- `WR CMD, w`. -/
  | wrCmd (w : Byte)
  /-- `WR DATA, w`. -/
  | wrData (w : Byte)
  /-- `RD reg`. -/
  | rd (reg : HostReg)
  /-- `<MNEMONIC> [<arg>]`: the write of its command byte. -/
  | op (i : Instr)
  /-- `WAIT`: `RD STATUS` until `BUSY` reads 0. -/
  | wait
  deriving DecidableEq, Repr

/-- The host access a statement stands for. The model gives an operation its whole effect before the host's next access,
so the first STATUS read of a `WAIT` already finds `BUSY = 0`. -/
def HostStmt.act : HostStmt → HostAct
  | .wrCmd w => .write HostReg.cmd.addr w
  | .wrData w => .write HostReg.data.addr w
  | .rd reg => .read reg.addr
  | .op i => .write HostReg.cmd.addr (encode i)
  | .wait => .read HostReg.status.addr

/-- One host access, made now. -/
def State.access (s : State) (act : HostAct) : Host.Outcome State Fault Refusal :=
  step { s with host := ⟨s.clock, act⟩ :: s.host }

/-- The statements in order, each at the tick the one before it ended. -/
def runHost : List HostStmt → State → Host.Outcome State Fault Refusal
  | [], s => .next s
  | h :: hs, s =>
    match s.access h.act with
    | .next t => runHost hs t
    | .fault r => .fault r
    | .refused r => .refused r

/-- `WRITE_OCTET #b` (R112). -/
def writeOctetByte (b : Byte) : List HostStmt := [.wrData b, .op .writeOctet, .wait]

/-- `SEND_COMMAND #b` (R112). -/
def sendCommandByte (b : Byte) : List HostStmt := [.wrData b, .op .sendCommand, .wait]

/-- `READ_OCTET!` (R112). -/
def readOctetByte : List HostStmt := [.op .readOctet, .wait, .rd .result, .rd .data]

/-- `READ_BIT p, clear` (R112). -/
def readBitClear (p : BitVec 3) : List HostStmt := [.wrData 0#8, .op (.readBitOr p), .wait]

end Sys2Proof.Machine
end

