-- ==== Sys2Proof/Safety.lean ====
section
/-! DEFINITION. The terms claims are made in: when an operation may start, the invariant of a run, the state less what the
host does to it, and the spec's own formulas for waveforms, samples, durations and Results. -/

namespace Sys2Proof.Machine

/-- No assertion of the hardware reset is pending. -/
def State.noHwReset (s : State) : Prop := ∀ e ∈ s.host, e.act ≠ .hwReset

/-- The block is idle with the line released (10_state R39 (b)), hardware reset is not asserted, and no assertion of it is
pending. -/
structure State.Ready (s : State) : Prop where
  idle : s.busy = false
  released : s.driveLow = false
  running : s.resetIn = false
  noReset : s.noHwReset

/-- The state less everything a host access during an operation can change: the pending accesses, their answers, `ILL`
and the count of free bytes drawn (20_memory R71, R72). Two states equal under it agree on every other element. -/
def State.noHost (s : State) : State := { s with host := [], answers := [], ill := false, freeCtr := 0 }

/-- The elements with a stated reset value hold it (10_state R42, 70 R270) and `now` is 0 (00_scope R10). That no table byte
has a value is the model's rendering of R42's "unspecified" (DESIGN CHOICE, assumption 6). -/
structure State.AtReset (s : State) : Prop where
  data : s.data = 0x00#8
  busy : s.busy = false
  result : s.result = .ok
  ill : s.ill = false
  presHighQ : s.presHighQ = 0#8
  presLowQ : s.presLowQ = 0#8
  numDevices : s.numDevices = 0#8
  cmd : s.cmd = 0x00#8
  released : s.driveLow = false
  idle : s.seq = []
  now : s.now = 0
  table : ∀ a, s.devices.read a = none

/-- What holds in every state of a run, between steps (10_state R39, R64, R241): the block is idle with the line released,
`num_devices` fits the capacity, the table memory is canonical and inside the window, every byte of an entry of index
below `num_devices` has been written, and while hardware reset is asserted every element is at its reset value (70 R270). -/
structure State.Inv (s : State) : Prop where
  idle : s.busy = false
  seqIdle : s.seq = []
  released : s.driveLow = false
  count : s.numDevices.toNat ≤ s.cfg.maxDevices
  canonical : s.devices.wf = true
  window : ∀ cell ∈ s.devices, tableBase ≤ cell.1 ∧ cell.1 < tableAddr s.cfg.maxDevices 0
  written : ∀ k j, k < s.numDevices.toNat → j < Config.addrBytes → (s.devices.read (tableAddr k j)).isSome
  held : s.resetIn = true → s.AtReset

/-- A machine step that answers a next state: what a safe run consists of. -/
def safeStep (s : State) : Prop := ∃ t, step s = .next t

/-- The action writes CMD or DATA. -/
def HostAct.writesCommandOrData : HostAct → Bool
  | .write a _ => a.toNat = 0 ∨ a.toNat = 1
  | _ => false

/-- The action writes a legal byte to CMD: on the idle block it starts an operation. -/
def HostAct.writesCommand : HostAct → Bool
  | .write a w => a.toNat = 0 ∧ (decode w).isOk
  | _ => false

/-- The tick at which the last of these actions takes place, taken one after the other from tick `t` on (`State.arrive`). -/
def lastArrival (t : Nat) (es : List HostEvent) : Nat := es.foldl (fun u e => max u e.tick) t

/-! ### The line -/

/-- The environment after a low pulse of the master, from tick `t` for `low` ticks. -/
def LineEnv.pulse (l : LineEnv) (t low : Nat) : LineEnv := (l.onDrive t).onRelease (t + low)

/-- How long a write slot drives the line low (40_timeslot R131). -/
def lowTime (c : Config) (b : Bool) : Nat := if b then c.tWLow else Config.tSlot

/-- The duration of a write slot, `D_W` (70 R284). -/
def slotWrite (c : Config) : Nat := Config.tSlot + c.tRec

/-- The waveform of `WriteSlot(b)` from tick `t`, newest event first (40_timeslot R131). -/
def writeSlotTrace (c : Config) (t : Nat) (b : Bool) : List (Nat × LineEvent) :=
  [(t + lowTime c b, .release), (t, .drive)]

/-- The tick of the data sample of a read slot that begins at tick `t` (40_timeslot R132). -/
def dataTick (c : Config) (t : Nat) : Nat := t + c.tRLow + c.tRSample

/-- The waveform of `ReadSlot()` from tick `t` with its two samples, newest event first (40_timeslot R132). -/
def readSlotTrace (c : Config) (t : Nat) (s e : Bool) : List (Nat × LineEvent) :=
  [(t + Config.tSlot, .sample e), (dataTick c t, .sample s), (t + c.tRLow, .release), (t, .drive)]

/-- The waveform of the first `n` slots of `WriteOctetSeq(byte)` from tick `t` (41_transaction R162). -/
def writeOctetTrace (c : Config) (t : Nat) (byte : Byte) : Nat → List (Nat × LineEvent)
  | 0 => []
  | n + 1 => writeSlotTrace c (t + n * slotWrite c) (byte.getLsbD n) ++ writeOctetTrace c t byte n

/-- The environment after the first `n` slots of `WriteOctetSeq(byte)` from tick `t`. -/
def LineEnv.afterWrites (l : LineEnv) (c : Config) (t : Nat) (byte : Byte) : Nat → LineEnv
  | 0 => l
  | n + 1 => (l.afterWrites c t byte n).pulse (t + n * slotWrite c) (lowTime c (byte.getLsbD n))

/-- The environment after the first `n` of consecutive read slots from tick `t`. -/
def LineEnv.afterReads (l : LineEnv) (c : Config) (t : Nat) : Nat → LineEnv
  | 0 => l
  | n + 1 => (l.afterReads c t n).pulse (t + n * Config.tSlot) c.tRLow

/-- The data sample of the `k`-th of consecutive read slots from tick `t`. -/
def LineEnv.readBit (l : LineEnv) (c : Config) (t k : Nat) : Bool :=
  (l.afterReads c t (k + 1)).level (dataTick c (t + k * Config.tSlot))

/-- The end-of-slot sample of the `k`-th of consecutive read slots from tick `t`. -/
def LineEnv.readEnd (l : LineEnv) (c : Config) (t k : Nat) : Bool :=
  (l.afterReads c t (k + 1)).level (t + k * Config.tSlot + Config.tSlot)

/-- The waveform of the first `n` of consecutive read slots from tick `t`. -/
def readOctetTrace (l : LineEnv) (c : Config) (t : Nat) : Nat → List (Nat × LineEvent)
  | 0 => []
  | n + 1 => readSlotTrace c (t + n * Config.tSlot) (l.readBit c t n) (l.readEnd c t n) ++ readOctetTrace l c t n

/-- The byte of `n` consecutive read slots from tick `t`: bit `k` is the `k`-th data sample (41_transaction R166). -/
def LineEnv.readByte (l : LineEnv) (c : Config) (t : Nat) : Nat → Byte
  | 0 => 0#8
  | n + 1 => setBit (l.readByte c t n) n (l.readBit c t n)

/-! ### The reset sequence (41_transaction R164), for a line whose level is `L` from its release at tick `r` on -/

/-- `n` samples of the value `v`, the first at tick `t`, `step` ticks apart, newest first. -/
def sampleRun (t step : Nat) (v : Bool) : Nat → List (Nat × LineEvent)
  | 0 => []
  | n + 1 => (t + step * n, .sample v) :: sampleRun t step v n

/-- The low time of a reset pulse. -/
def resetLow : Nat := Config.resetLowSlots * Config.tSlot

/-- The line first reads high at tick `r + f`. -/
def floatsAt (L : Nat → Bool) (r f : Nat) : Prop := L (r + f) = true ∧ ∀ j < f, L (r + j) = false

/-- The `j`-th quarter sampling tick, counted from the rise at `r + f`. -/
def quarter (r f j : Nat) : Nat := r + f + Config.tQ * j

/-- The line reads high at quarters 0 to `h - 1` and low at quarter `h`. -/
def highFor (L : Nat → Bool) (r f h : Nat) : Prop :=
  1 ≤ h ∧ L (quarter r f h) = false ∧ ∀ j < h, L (quarter r f j) = true

/-- The line reads low at quarters `h` to `h + l - 1` and high at quarter `h + l`. -/
def lowFor (L : Nat → Bool) (r f h l : Nat) : Prop :=
  1 ≤ l ∧ L (quarter r f (h + l)) = true ∧ ∀ j < l, L (quarter r f (h + j)) = false

/-- The level of the line after the reset pulse of an operation accepted in `s`. -/
def State.afterReset (s : State) (t : Nat) : Bool := (s.line.pulse s.clock resetLow).level t

/-- The float phase's events: the release at `r`, `f` samples low, one high. -/
def floatTrace (r f : Nat) : List (Nat × LineEvent) :=
  (r + f, .sample true) :: sampleRun r 1 false f ++ [(r, .release)]

/-- The high phase's events: `h` samples high, one low. -/
def highTrace (r f h : Nat) : List (Nat × LineEvent) :=
  (quarter r f h, .sample false) :: sampleRun (quarter r f 0) Config.tQ true h

/-- The low phase's events: `l` samples low, one high. -/
def lowTrace (r f h l : Nat) : List (Nat × LineEvent) :=
  (quarter r f (h + l), .sample true) :: sampleRun (quarter r f h) Config.tQ false l

/-- The events of an `Ok` reset sequence that begins at tick `t` (41_transaction R164). -/
def resetTrace (t f h l : Nat) : List (Nat × LineEvent) :=
  lowTrace (t + resetLow) f h l ++ highTrace (t + resetLow) f h ++ floatTrace (t + resetLow) f ++ [(t, .drive)]

/-- A presence pulse that `ResetSeq` accepts (41_transaction R160, R165): the line rises after `f` ticks, stays high for `h`
quarters and low for `l`, all within their bounds. -/
structure State.Presence (s : State) (f h l : Nat) : Prop where
  floats : floatsAt s.afterReset (s.clock + resetLow) f
  high : highFor s.afterReset (s.clock + resetLow) f h
  low : lowFor s.afterReset (s.clock + resetLow) f h l
  floatBound : f ≤ s.cfg.floatTimeoutUs
  highBound : h ≤ s.cfg.presHighMaxQ
  lowBound : l ≤ s.cfg.presLowMaxQ
  wide : Config.presLowMinQ ≤ l

/-- The `Ok` duration of `ResetSeq` (41_transaction R165). -/
def resetDuration (f h l : Nat) : Nat := resetLow + max recoveryTicks (f + Config.tQ * (h + l))

/-! ### Durations and Results -/

/-- `D_RESET_MAX` (70 R284). -/
def resetMax (c : Config) : Nat :=
  resetLow + max recoveryTicks (c.floatTimeoutUs + Config.tQ * (c.presHighMaxQ + c.presLowMaxQ + 1))

/-- The upper bound on an operation's duration, for any outcome (70 R284). -/
def durationBound (c : Config) : Instr → Nat
  | .resetPulse => resetMax c
  | .writeBit _ => slotWrite c
  | .readBitOr _ => Config.tSlot
  | .writeOctet => 8 * slotWrite c
  | .readOctet => 8 * Config.tSlot
  | .sendCommand => resetMax c + 8 * slotWrite c
  | .search => c.maxDevices * (resetMax c + 8 * slotWrite c + 64 * (2 * Config.tSlot + slotWrite c))

/-- Which Results an operation can finish with (60_exceptions R252). -/
def mayFinish : Instr → Result → Bool
  | .writeBit _, r => r = .ok
  | .writeOctet, r => r = .ok
  | .readBitOr _, r => r = .ok ∨ r = .commError
  | .readOctet, r => r = .ok ∨ r = .commError
  | .resetPulse, r => r ≠ .tooManyDevices
  | .sendCommand, r => r ≠ .tooManyDevices
  | .search, _ => true

/-- `legal(w)` as 30_encoding R103 writes it. -/
def legal (w : Byte) : Bool :=
  !w.getLsbD 7 &&
    ((w.extractLsb' 0 4 = 1#4 ∧ w.extractLsb' 4 3 = 0#3)
      || (w.extractLsb' 0 4 = 2#4 ∧ w.extractLsb' 5 2 = 0#2)
      || w.extractLsb' 0 4 = 3#4
      || ((w.extractLsb' 0 4 = 4#4 ∨ w.extractLsb' 0 4 = 5#4 ∨ w.extractLsb' 0 4 = 6#4 ∨ w.extractLsb' 0 4 = 7#4)
          ∧ w.extractLsb' 4 3 = 0#3))

/-! ### The reference bus (20_memory R82 to R84) -/

end Sys2Proof.Machine

namespace Sys2Proof

/-- The instance's windows suit the reference bus (40_timeslot R133 with the numbers of 20_memory R83), and its presence
bounds admit a standard presence pulse. -/
structure Config.SuitsReferenceBus (c : Config) : Prop where
  write : c.tWLow < Machine.slaveWriteZero
  read : c.tRLow + c.tRSample < Machine.slaveHold
  high : 2 ≤ c.presHighMaxQ
  low : 8 ≤ c.presLowMaxQ

end Sys2Proof

namespace Sys2Proof.Machine

/-- A standard device of the reference bus that takes `cmd` as the search command (20_memory R83), in any phase. -/
structure Slave.IsStandard (d : Slave) (cmd : Byte) : Prop where
  searchCmd : d.searchCmd = cmd
  tPdh : d.tPdh = 30
  tPdl : d.tPdl = 120
  answers : d.silentFrom = none
  punctual : d.stretch = none

/-- The device does not pull the line from tick `t` on. -/
def Slave.Quiet (d : Slave) (t : Nat) : Prop := ∀ x ∈ d.pulls, x.2 ≤ t

/-- At tick `t` the bus is one of standard devices with the ROM codes `roms`, in this order, which take `cmd` as the search
command; each is in whatever phase earlier operations left it, none pulls the line, and the pull-up has raised it. -/
structure Bus.Standard (b : Bus) (cmd : Byte) (t : Nat) (roms : List Address) : Prop where
  rise : b.rise = 0
  sound : b.stuckLow = false
  up : b.up ≤ t
  codes : b.slaves.map Slave.rom = roms
  standard : ∀ d ∈ b.slaves, d.IsStandard cmd
  quiet : ∀ d ∈ b.slaves, d.Quiet t

/-- The duration of one completed search pass on the reference bus (42_search R206). -/
def passDuration (c : Config) : Nat :=
  resetDuration 0 2 8 + 8 * slotWrite c + 64 * (2 * Config.tSlot + slotWrite c)

end Sys2Proof.Machine
end

