-- ==== Sys2Proof/Certificates/Slice0/Obligations.lean ====
section
/-! DEFINITION. The statements for the provers. Each docstring names the rule of spec/ it formalises. Where a statement says
`t.noHost = (…).noHost`, it fixes EVERY element of the next state but the four that a host access during the operation may
change (pending accesses, their answers, `ILL`, the count of free bytes): it is the operation's effect and its frame at once,
every byte of memory included. -/

open Sys2Proof Sys2Proof.Machine

/-! ### Encoding -/

/-- 30_encoding R102, R103: the byte of every well-formed operation decodes to it, and every byte that decodes is the byte of
the operation it decodes to. -/
def Obligations.DecodeAndEncodeAgree : Prop :=
  (∀ i : Instr, i.wf = true → decode (encode i) = .ok i) ∧
  (∀ (w : Byte) (i : Instr), decode w = .ok i → i.wf = true ∧ encode i = w)

/-- 30_encoding R103: `legal(w)`; and 15 of the 256 bytes are legal (R102). -/
def Obligations.LegalBytesAreTheFifteen : Prop :=
  (∀ w : Byte, (decode w).isOk = legal w) ∧
  ((List.range 256).filter fun n => (decode (BitVec.ofNat 8 n)).isOk).length = 15

/-- 30_encoding R102: bytes written out from the table. -/
def Obligations.TableBytesDecode : Prop :=
  decode 0b00000001#8 = .ok .resetPulse ∧ decode 0b00000010#8 = .ok (.writeBit 0#3) ∧
  decode 0b00010010#8 = .ok (.writeBit 1#3) ∧ decode 0b01010011#8 = .ok (.readBitOr 5#3) ∧
  decode 0b00000100#8 = .ok .writeOctet ∧ decode 0b00000101#8 = .ok .readOctet ∧
  decode 0b00000110#8 = .ok .sendCommand ∧ decode 0b00000111#8 = .ok .search ∧
  decode 0b00100010#8 = .error .argNotBit ∧ decode 0b00010001#8 = .error .argNotZero ∧
  decode 0b00001000#8 = .error .reservedOp ∧ decode 0b10000001#8 = .error .zSet

/-! ### Hardware reset -/

/-- 10_state R42: every instance's reset state holds the stated reset values. That no table byte has a value is the model's
rendering of R42's "unspecified" (DESIGN CHOICE, log entry 6; R29: reset does not clear the table); that `now` counts from the
release, where this state stands, is log entry 7 (DESIGN CHOICE). -/
def Obligations.ResetValues : Prop :=
  ∀ c : Config, (State.resetOf c).cfg = c ∧ (State.resetOf c).AtReset

/-- 70 R270: the hardware reset input, asserted on the idle block, leaves every element at its stated reset value, `now` at 0
(00_scope R10) and the instance's parameters alone. That every table byte loses its value is the model's rendering of
"unspecified" (DESIGN CHOICE, log entry 6), that `clock` goes on
counting while `now` is 0 log entry 7 (DESIGN CHOICE). -/
def Obligations.HardwareResetWhileIdle : Prop :=
  ∀ (s : State) (e : HostEvent) (es : List HostEvent), s.busy = false → s.host = e :: es → e.act = .hwReset →
    ∃ t, step s = .next t ∧ t.cfg = s.cfg ∧ t.AtReset ∧ t.resetIn = true ∧ t.clock = max s.clock e.tick ∧ t.host = es

/-- 70 R271: a hardware reset asserted at any tick before an operation's `finish`, after whatever other accesses, stops the
operation at its tick: the line is released, `BUSY` falls, no `finish` is executed (`RESULT` is `Ok` by the reset), every
element is at its reset value. `u` is where the operation would end undisturbed, so `u.clock` is the tick of its `finish`. A
reset at that tick or later finds the block idle (the order within one tick is the model's choice, log entry 8). Log entry 6:
the table bytes lose their value; log entry 7: `clock` goes on counting, `now` is 0. -/
def Obligations.HardwareResetStopsTheOperation : Prop :=
  ∀ (i : Instr) (s u : State) (pre es : List HostEvent) (e : HostEvent), s.busy = false → s.resetIn = false →
    s.host = pre ++ e :: es → (∀ x ∈ pre, x.act ≠ .hwReset) → e.act = .hwReset → exec i { s with host := [] } = .next u →
    s.clock < u.clock → (∀ x ∈ pre ++ [e], x.tick < u.clock) →
    ∃ t, exec i s = .next t ∧ t.cfg = s.cfg ∧ t.AtReset ∧ t.resetIn = true ∧ t.clock = lastArrival s.clock (pre ++ [e]) ∧
      t.host = es

/-! ### The host interface -/

/-- A step on the idle block, out of hardware reset, whose next host action writes a legal byte to CMD is `exec` of the
operation the byte decodes to, at the tick of the write (20_memory R70). -/
def Obligations.StepRunsTheCommandWritten : Prop :=
  ∀ (s : State) (k : Nat) (a : HostAddr) (w : Byte) (es : List HostEvent) (i : Instr), s.busy = false → s.resetIn = false →
    s.host = ⟨k, .write a w⟩ :: es → a.toNat = 0 → decode w = .ok i →
    step s = exec i { s with host := es, clock := max s.clock k }

/-- 30_encoding R108: an illegal byte written to CMD is refused whatever `BUSY` is: it sets `ILL` and changes nothing else, on
the idle block out of hardware reset and (`k` falling in the running `Wait`) during an operation. -/
def Obligations.IllegalByteOnlySetsIll : Prop :=
  ∀ (s : State) (k : Nat) (a : HostAddr) (w : Byte) (es : List HostEvent), s.host = ⟨k, .write a w⟩ :: es → a.toNat = 0 →
    legal w = false →
    (s.busy = false → s.resetIn = false → step s = .next { s with host := es, clock := max s.clock k, ill := true }) ∧
    (∀ n q, s.busy = true → s.seq = .wait n :: q → k < s.clock + n →
      step s = .next { s with
        host := es
        clock := max s.clock k
        seq := .wait (s.clock + n - max s.clock k) :: q
        ill := true })

/-- 20_memory R71: a write to CMD or DATA while an operation runs changes nothing but `ILL`, which it sets; a write elsewhere
changes nothing at all. (The operation is in a `Wait`: the only statements that take time.) -/
def Obligations.WritesWhileBusyAreRefused : Prop :=
  ∀ (s : State) (n k : Nat) (q : List Stmt) (a : HostAddr) (w : Byte) (es : List HostEvent), s.busy = true →
    s.seq = .wait n :: q → s.host = ⟨k, .write a w⟩ :: es → k < s.clock + n →
    step s = .next { s with
      host := es
      clock := max s.clock k
      seq := .wait (s.clock + n - max s.clock k) :: q
      ill := s.ill || decide (a.toNat = 0 ∨ a.toNat = 1) }

/-- 20_memory R72: while an operation runs a read of STATUS or MAX_DEVICES returns the exact value, a read of any other address
a free value, and no read has another effect. (That a reserved address is among the free ones is log entry 9, DEDUCED from
R72 against R65; that the free value is `Config.freeByte` at the counter is log entry 4, DESIGN CHOICE.) -/
def Obligations.ReadsWhileBusy : Prop :=
  ∀ (s : State) (n k : Nat) (q : List Stmt) (a : HostAddr) (es : List HostEvent), s.busy = true →
    s.seq = .wait n :: q → s.host = ⟨k, .read a⟩ :: es → k < s.clock + n →
    ∃ t v, step s = .next t ∧ t.answers = ⟨max s.clock k, a, v⟩ :: s.answers ∧
      (a.toNat = 2 → v.getLsbD 0 = true ∧ v.getLsbD 1 = s.ill ∧ ∀ j, 2 ≤ j → v.getLsbD j = false) ∧
      (a.toNat = 7 → v.toNat = s.cfg.maxDevices) ∧
      (a.toNat ≠ 2 → a.toNat ≠ 7 → v = Config.freeByte s.freeCtr) ∧
      t.ill = s.ill ∧ t.noHost = ({ s with
        clock := max s.clock k
        seq := .wait (s.clock + n - max s.clock k) :: q }).noHost

/-- 20_memory R61, R63: what the idle block's registers read as; a read changes nothing but its answer. -/
def Obligations.RegistersReadWhileIdle : Prop :=
  ∀ (s : State) (k : Nat) (a : HostAddr) (es : List HostEvent), s.busy = false → s.host = ⟨k, .read a⟩ :: es →
    a.toNat < 8 →
    ∃ v, step s = .next { s with host := es, clock := max s.clock k, answers := ⟨max s.clock k, a, v⟩ :: s.answers } ∧
      (a.toNat = 0 → v = s.cmd) ∧ (a.toNat = 1 → v = s.data) ∧
      (a.toNat = 2 → v.getLsbD 0 = false ∧ v.getLsbD 1 = s.ill ∧ ∀ j, 2 ≤ j → v.getLsbD j = false) ∧
      (a.toNat = 3 → v.toNat = match s.result with
        | .ok => 0 | .commError => 1 | .noDevices => 2 | .tooManyDevices => 3) ∧
      (a.toNat = 4 → v = s.presHighQ) ∧ (a.toNat = 5 → v = s.presLowQ) ∧ (a.toNat = 6 → v = s.numDevices) ∧
      (a.toNat = 7 → v.toNat = s.cfg.maxDevices)

/-- 20_memory R64: byte `j` of entry `k` below `num_devices` reads at 0x800 + 8·k + j; a byte of an entry at or beyond
`num_devices` reads as a free value (93 U2; the free value's form is log entry 4, DESIGN CHOICE). -/
def Obligations.TableWindowReads : Prop :=
  ∀ (s : State) (tick k j : Nat) (a : HostAddr) (w : Address) (es : List HostEvent), s.busy = false →
    s.host = ⟨tick, .read a⟩ :: es → k < s.cfg.maxDevices → j < 8 → a.toNat = 0x800 + 8 * k + j →
    (k < s.numDevices.toNat → s.devices.holdsEntry k w → step s = .next { s with
      host := es
      clock := max s.clock tick
      answers := ⟨max s.clock tick, a, w.extractLsb' (8 * j) 8⟩ :: s.answers }) ∧
    (s.numDevices.toNat ≤ k → step s = .next { s with
      host := es
      clock := max s.clock tick
      answers := ⟨max s.clock tick, a, Config.freeByte s.freeCtr⟩ :: s.answers
      freeCtr := s.freeCtr + 1 })

/-- 20_memory R65: reserved addresses read 0, below the table window and above the table. -/
def Obligations.ReservedAddressesReadZero : Prop :=
  ∀ (s : State) (k : Nat) (a : HostAddr) (es : List HostEvent), s.busy = false → s.host = ⟨k, .read a⟩ :: es →
    8 ≤ a.toNat → (a.toNat < 0x800 ∨ 0x800 + 8 * s.cfg.maxDevices ≤ a.toNat) →
    step s = .next { s with
      host := es, clock := max s.clock k, answers := ⟨max s.clock k, a, 0x00#8⟩ :: s.answers }

/-- 20_memory R62, R65: on the idle block, out of hardware reset, a write to DATA sets `DATA`, and a write to a read-only or reserved address changes
nothing. -/
def Obligations.WritesWhileIdle : Prop :=
  ∀ (s : State) (k : Nat) (a : HostAddr) (w : Byte) (es : List HostEvent), s.busy = false → s.resetIn = false →
    s.host = ⟨k, .write a w⟩ :: es → a.toNat ≠ 0 →
    step s = .next { s with
      host := es, clock := max s.clock k, data := if a.toNat = 1 then w else s.data }

/-- 00_scope R12: there is no background activity. -/
def Obligations.NothingHappensUnasked : Prop :=
  ∀ s : State, s.busy = false → s.host = [] → step s = .next s

/-- 20_memory R68: while the block drives the line, it reads low, whatever the environment. -/
def Obligations.DrivenLineReadsLow : Prop :=
  ∀ s t : State, s.driveLow = true → sample.run s = .ok true t → False

/-! ### Timeslots -/

/-- 40_timeslot R134, R131: WRITE_BIT. The line is low for `T_W_LOW` ticks if the value is 1 and for 60 if it is 0, the
operation ends `Ok` after `T_SLOT + T_REC` ticks, and nothing else changes; the line is never sampled. -/
def Obligations.WriteBitWaveform : Prop :=
  ∀ (s : State) (v : BitVec 3), s.Ready → v.toNat < 2 →
    ∃ t, exec (.writeBit v) s = .next t ∧ t.noHost = ({ s with
      cmd := encode (.writeBit v)
      result := .ok
      seq := []
      line := s.line.pulse s.clock (lowTime s.cfg (decide (v = 1#3)))
      clock := s.clock + slotWrite s.cfg
      trace := writeSlotTrace s.cfg s.clock (decide (v = 1#3)) ++ s.trace }).noHost

/-- 40_timeslot R135, R132: READ_BIT_OR. The sample at `T_R_LOW + T_R_SAMPLE` is ORed into `DATA` at the bit position, whatever
the slot's Result; the Result is `Ok` if the line is high at tick 60 and `CommError` if not; nothing else changes. (That `s`
and `e` keep the samples after a `CommError` is log entry 19, DEDUCED.) -/
def Obligations.ReadBitOrResult : Prop :=
  ∀ (s : State) (p : BitVec 3), s.Ready →
    ∃ t, exec (.readBitOr p) s = .next t ∧
      (∀ j, t.data.getLsbD j = (s.data.getLsbD j || (decide (j = p.toNat) && s.line.readBit s.cfg s.clock 0))) ∧
      t.noHost = ({ s with
        cmd := encode (.readBitOr p)
        result := if s.line.readEnd s.cfg s.clock 0 then .ok else .commError
        seq := []
        data := t.data
        s := s.line.readBit s.cfg s.clock 0
        e := s.line.readEnd s.cfg s.clock 0
        line := s.line.pulse s.clock s.cfg.tRLow
        clock := s.clock + 60
        trace := readSlotTrace s.cfg s.clock (s.line.readBit s.cfg s.clock 0) (s.line.readEnd s.cfg s.clock 0) ++
          s.trace }).noHost

/-! ### Octets -/

/-- 41_transaction R163, R162: WRITE_OCTET sends the eight bits of `DATA`, bit 0 first, in `8·(T_SLOT + T_REC)` ticks, ends `Ok`
and changes nothing else; the line is never sampled. -/
def Obligations.WriteOctetWaveform : Prop :=
  ∀ s : State, s.Ready →
    ∃ t, exec .writeOctet s = .next t ∧ t.noHost = ({ s with
      cmd := encode .writeOctet
      result := .ok
      seq := []
      i := 8#4
      line := s.line.afterWrites s.cfg s.clock s.data 8
      clock := s.clock + 8 * slotWrite s.cfg
      trace := writeOctetTrace s.cfg s.clock s.data 8 ++ s.trace }).noHost

/-- 41_transaction R166, all eight slots ending high: READ_OCTET ends `Ok` after 480 ticks, bit `k` of `DATA` is the sample of
slot `k`, and nothing else changes. -/
def Obligations.ReadOctetAssemblesTheSamples : Prop :=
  ∀ s : State, s.Ready → (∀ k < 8, s.line.readEnd s.cfg s.clock k = true) →
    ∃ t, exec .readOctet s = .next t ∧ (∀ k < 8, t.data.getLsbD k = s.line.readBit s.cfg s.clock k) ∧
      t.noHost = ({ s with
        cmd := encode .readOctet
        result := .ok
        seq := []
        data := t.data
        i := 8#4
        s := s.line.readBit s.cfg s.clock 7
        e := true
        line := s.line.afterReads s.cfg s.clock 8
        clock := s.clock + 480
        trace := readOctetTrace s.line s.cfg s.clock 8 ++ s.trace }).noHost

/-- 41_transaction R166, slot `m` the first to end low: READ_OCTET ends `CommError` after `60·(m+1)` ticks, the remaining slots
are not issued, `DATA` is a free value (log entry 4), and nothing else changes. (What the hidden registers `i`, `s`, `e` hold
after the failure is log entry 19, DEDUCED.) -/
def Obligations.ReadOctetAbortsAtTheFirstLowEnd : Prop :=
  ∀ (s : State) (m : Nat), s.Ready → m < 8 → (∀ k < m, s.line.readEnd s.cfg s.clock k = true) →
    s.line.readEnd s.cfg s.clock m = false →
    ∃ t n, exec .readOctet s = .next t ∧ t.data = Config.freeByte n ∧
      t.noHost = ({ s with
        cmd := encode .readOctet
        result := .commError
        seq := []
        data := t.data
        i := BitVec.ofNat 4 m
        s := s.line.readBit s.cfg s.clock m
        e := false
        line := s.line.afterReads s.cfg s.clock (m + 1)
        clock := s.clock + 60 * (m + 1)
        trace := readOctetTrace s.line s.cfg s.clock (m + 1) ++ s.trace }).noHost

/-! ### The reset/presence sequence -/

/-- 41_transaction R161, R165, the `Ok` row: a presence pulse of 3 quarters or more within the bounds. -/
def Obligations.ResetPulseFindsPresence : Prop :=
  ∀ (s : State) (f h l : Nat), s.Ready → s.Presence f h l →
    ∃ t, exec .resetPulse s = .next t ∧ t.noHost = ({ s with
      cmd := encode .resetPulse
      result := .ok
      seq := []
      presHighQ := BitVec.ofNat 8 h
      presLowQ := BitVec.ofNat 8 l
      nFloat := BitVec.ofNat 8 f
      tRel := BitVec.ofNat 16 (f + 15 * (h + l))
      line := s.line.pulse s.clock 600
      clock := s.clock + (600 + max 480 (f + 15 * (h + l)))
      trace := resetTrace s.clock f h l ++ s.trace }).noHost

/-- 41_transaction R165, the row `CommError` (never floats high). (What `n_float` holds after the failure is log entry 19,
DEDUCED; so in the other failing rows.) -/
def Obligations.ResetPulseOnAShortedLine : Prop :=
  ∀ s : State, s.Ready → (∀ j ≤ s.cfg.floatTimeoutUs, s.afterReset (s.clock + 600 + j) = false) →
    ∃ t, exec .resetPulse s = .next t ∧ t.noHost = ({ s with
      cmd := encode .resetPulse
      result := .commError
      seq := []
      presHighQ := 0#8
      presLowQ := 0#8
      nFloat := BitVec.ofNat 8 s.cfg.floatTimeoutUs
      line := s.line.pulse s.clock 600
      clock := s.clock + (600 + s.cfg.floatTimeoutUs)
      trace := sampleRun (s.clock + 600) 1 false (s.cfg.floatTimeoutUs + 1) ++
        [(s.clock + 600, LineEvent.release), (s.clock, LineEvent.drive)] ++ s.trace }).noHost

/-- 41_transaction R165, the row `NoDevices`: high at the quarters 0 to `PRES_HIGH_MAX_Q`. -/
def Obligations.ResetPulseWithoutPresence : Prop :=
  ∀ (s : State) (f : Nat), s.Ready → f ≤ s.cfg.floatTimeoutUs → floatsAt s.afterReset (s.clock + 600) f →
    (∀ j ≤ s.cfg.presHighMaxQ, s.afterReset (s.clock + 600 + f + 15 * j) = true) →
    ∃ t, exec .resetPulse s = .next t ∧ t.noHost = ({ s with
      cmd := encode .resetPulse
      result := .noDevices
      seq := []
      presHighQ := BitVec.ofNat 8 (s.cfg.presHighMaxQ + 1)
      presLowQ := 0#8
      nFloat := BitVec.ofNat 8 f
      line := s.line.pulse s.clock 600
      clock := s.clock + (600 + f + 15 * (s.cfg.presHighMaxQ + 1))
      trace := sampleRun (s.clock + 600 + f) 15 true (s.cfg.presHighMaxQ + 1) ++ floatTrace (s.clock + 600) f ++
        [(s.clock, LineEvent.drive)] ++ s.trace }).noHost

/-- 41_transaction R165, the row `CommError` (stuck low): low at the quarters `h` to `h + PRES_LOW_MAX_Q`. -/
def Obligations.ResetPulseWithAStuckSlave : Prop :=
  ∀ (s : State) (f h : Nat), s.Ready → f ≤ s.cfg.floatTimeoutUs → floatsAt s.afterReset (s.clock + 600) f →
    h ≤ s.cfg.presHighMaxQ → highFor s.afterReset (s.clock + 600) f h →
    (∀ j ≤ s.cfg.presLowMaxQ, s.afterReset (s.clock + 600 + f + 15 * (h + j)) = false) →
    ∃ t, exec .resetPulse s = .next t ∧ t.noHost = ({ s with
      cmd := encode .resetPulse
      result := .commError
      seq := []
      presHighQ := BitVec.ofNat 8 h
      presLowQ := BitVec.ofNat 8 (s.cfg.presLowMaxQ + 1)
      nFloat := BitVec.ofNat 8 f
      line := s.line.pulse s.clock 600
      clock := s.clock + (600 + f + 15 * (h + s.cfg.presLowMaxQ + 1))
      trace := sampleRun (s.clock + 600 + f + 15 * h) 15 false (s.cfg.presLowMaxQ + 1) ++ highTrace (s.clock + 600) f h ++
        floatTrace (s.clock + 600) f ++ [(s.clock, LineEvent.drive)] ++ s.trace }).noHost

/-- 41_transaction R165, the row `CommError` (short pulse): a presence pulse of 1 or 2 quarters. -/
def Obligations.ResetPulseRejectsAShortPulse : Prop :=
  ∀ (s : State) (f h l : Nat), s.Ready → f ≤ s.cfg.floatTimeoutUs → floatsAt s.afterReset (s.clock + 600) f →
    h ≤ s.cfg.presHighMaxQ → highFor s.afterReset (s.clock + 600) f h → lowFor s.afterReset (s.clock + 600) f h l → l < 3 →
    ∃ t, exec .resetPulse s = .next t ∧ t.noHost = ({ s with
      cmd := encode .resetPulse
      result := .commError
      seq := []
      presHighQ := BitVec.ofNat 8 h
      presLowQ := BitVec.ofNat 8 l
      nFloat := BitVec.ofNat 8 f
      line := s.line.pulse s.clock 600
      clock := s.clock + (600 + f + 15 * (h + l))
      trace := resetTrace s.clock f h l ++ s.trace }).noHost

/-- 41_transaction R167, R168 with an accepted presence pulse: SEND_COMMAND's reset sequence, then the eight slots of `DATA`
from the tick at which the reset sequence returns; it ends `Ok`. -/
def Obligations.SendCommandSendsData : Prop :=
  ∀ (s : State) (f h l : Nat), s.Ready → s.Presence f h l →
    ∃ t, exec .sendCommand s = .next t ∧ t.noHost = ({ s with
      cmd := encode .sendCommand
      result := .ok
      seq := []
      presHighQ := BitVec.ofNat 8 h
      presLowQ := BitVec.ofNat 8 l
      nFloat := BitVec.ofNat 8 f
      tRel := BitVec.ofNat 16 (f + 15 * (h + l))
      i := 8#4
      line := (s.line.pulse s.clock 600).afterWrites s.cfg (s.clock + resetDuration f h l) s.data 8
      clock := s.clock + resetDuration f h l + 8 * slotWrite s.cfg
      trace := writeOctetTrace s.cfg (s.clock + resetDuration f h l) s.data 8 ++ resetTrace s.clock f h l ++ s.trace }).noHost

/-- 41_transaction R167, R168 with a failing reset sequence: SEND_COMMAND ends with its Result and no slot is written, so it
leaves exactly what RESET_PULSE would leave, but for the command latched. (The hidden registers after the failure: log entry
19, DEDUCED.) -/
def Obligations.SendCommandPropagatesResetFailure : Prop :=
  ∀ s t : State, s.Ready → exec .resetPulse s = .next t → t.result ≠ .ok →
    exec .sendCommand s = .next { t with cmd := encode .sendCommand }

/-- 41_transaction R160 step 5 and 10_state R39 (f): every `ResetSeq` that returns `Ok` leaves `pres_low_q` at 3 or more, whatever
the line did; so does every operation that begins with one and ends `Ok`, and a SEARCH that ends `TooManyDevices` after at
least one pass. -/
def Obligations.OkPresenceIsAtLeastThreeQuarters : Prop :=
  (∀ s t : State, s.noHwReset → resetSeq.run s = .ok .ok t → 3 ≤ t.presLowQ.toNat) ∧
  (∀ (i : Instr) (s t : State), s.Ready → (i = .resetPulse ∨ i = .sendCommand ∨ i = .search) → exec i s = .next t →
    t.result = .ok → 3 ≤ t.presLowQ.toNat) ∧
  (∀ s t : State, s.Ready → 0 < s.cfg.maxDevices → exec .search s = .next t → t.result = .tooManyDevices →
    3 ≤ t.presLowQ.toNat)

/-- 20_memory R84 (a): with the reference values of R7, RESET_PULSE on a reference bus with at least one standard device, in
whatever phases earlier operations left them, ends `Ok` after 1080 µs with the counters 2 and 8. -/
def Obligations.ReferenceBusAnswersReset : Prop :=
  ∀ (s : State) (b : Bus) (roms : List Address), s.Ready → s.cfg = Config.reference → s.line = .bus b →
    b.Standard s.cfg.searchCmd s.clock roms → roms ≠ [] →
    ∃ t, exec .resetPulse s = .next t ∧ t.result = .ok ∧ t.presHighQ = 2#8 ∧ t.presLowQ = 8#8 ∧ t.clock = s.clock + 1080

/-- 20_memory R84 (a): on an empty reference bus RESET_PULSE ends `NoDevices` after 1965 µs with the counters 91 and 0. -/
def Obligations.EmptyReferenceBusIsAbsent : Prop :=
  ∀ (s : State) (b : Bus), s.Ready → s.cfg = Config.reference → s.line = .bus b → b.Standard s.cfg.searchCmd s.clock [] →
    ∃ t, exec .resetPulse s = .next t ∧ t.result = .noDevices ∧ t.presHighQ = 91#8 ∧ t.presLowQ = 0#8 ∧
      t.clock = s.clock + 1965

/-! ### SEARCH -/

/-- 42_search R191: with no capacity SEARCH ends `TooManyDevices` at the tick of its acceptance, without touching the line, and
nothing else changes. (That the hidden registers keep what they held or were last given after this failed search, where 93 U12
calls them any value, is log entry 19, DEDUCED from 60_exceptions R236, R240.) -/
def Obligations.SearchWithoutCapacity : Prop :=
  ∀ s : State, s.Ready → s.cfg.maxDevices = 0 →
    exec .search s = .next { s with
      cmd := encode .search, result := .tooManyDevices, seq := [], lastDisc := none, devicePosition := 0#8 }

/-- 42_search R194: the bit taken at a collision. -/
def Obligations.CollisionResolution : Prop :=
  ∀ (last : Option (Fin 64)) (rom : Address) (p : Fin 64),
    (∀ l, last = some l → p < l → collisionBit last rom p = rom.getLsbD p) ∧
    (∀ l, last = some l → p = l → collisionBit last rom p = true) ∧
    ((last = none ∨ ∃ l, last = some l ∧ l < p) → collisionBit last rom p = false)

/-- 42_search R193 to R197: one position of a pass, whatever the host does short of a hardware reset. Two read slots give `v` and `c`. A slot that ends
low ends the search `CommError`; the pair (1, 1) ends it `NoDevices` at position 0 and `CommError` elsewhere. Otherwise the
decided bit `b` is `v` if the pair is unambiguous and R194's bit at a collision, the marker moves to this position exactly at a
collision resolved to 0, `b` is written back, `rom[p]` becomes `b`, and no other bit of `rom` changes. (That `rom` keeps its
bits where the search ends is R240, log entry 19, DEDUCED.) -/
def Obligations.OnePositionOfAPass : Prop :=
  ∀ (s : State) (p : Fin 64), s.noHwReset → s.driveLow = false →
    let v := s.line.readBit s.cfg s.clock 0
    let c := s.line.readBit s.cfg s.clock 1
    (s.line.readEnd s.cfg s.clock 0 = false →
      ∃ t, (searchPosition p).run s = .error .finished t ∧ t.result = .commError ∧ t.clock = s.clock + 60 ∧ t.rom = s.rom) ∧
    (s.line.readEnd s.cfg s.clock 0 = true → s.line.readEnd s.cfg s.clock 1 = false →
      ∃ t, (searchPosition p).run s = .error .finished t ∧ t.result = .commError ∧ t.clock = s.clock + 120 ∧ t.rom = s.rom) ∧
    (s.line.readEnd s.cfg s.clock 0 = true → s.line.readEnd s.cfg s.clock 1 = true →
      (v = true ∧ c = true →
        ∃ t, (searchPosition p).run s = .error .finished t ∧ t.clock = s.clock + 120 ∧ t.rom = s.rom ∧
          t.result = if p = 0 then .noDevices else .commError) ∧
      (¬(v = true ∧ c = true) →
        ∃ t b, (searchPosition p).run s = .ok () t ∧
          b = (if v = false ∧ c = false then collisionBit s.lastDisc s.rom p else v) ∧
          (∀ j, t.rom.getLsbD j = if j = p.val then b else s.rom.getLsbD j) ∧
          t.curDisc = (if v = false ∧ c = false ∧ b = false then some p else s.curDisc) ∧
          t.lastDisc = s.lastDisc ∧ t.data = s.data ∧ t.devices = s.devices ∧ t.numDevices = s.numDevices ∧
          t.line = (s.line.afterReads s.cfg s.clock 2).pulse (s.clock + 120) (lowTime s.cfg b) ∧
          t.clock = s.clock + 120 + slotWrite s.cfg))

/-- 42_search R207, R199, R200, R191: SEARCH always completes. `DATA` is unchanged. Ending `Ok`, `num_devices` is the number of
passes, at least 1 and at most the capacity, and no marker is left; ending otherwise, `num_devices` is unchanged; ending
`TooManyDevices`, the table is full and (for a capacity above 0) a marker is left. The bytes of the entries the passes stored
are written, the last one with the code left in `rom` (`PassStoresItsRom` says it of every pass); every other byte of memory is
unchanged. (That the hidden `device_position` and the markers keep what the passes wrote, so that it counts them also after
a failure, is log entry 19, DEDUCED from 60_exceptions R236, R240 against 93 U12.) -/
def Obligations.SearchOutcomes : Prop :=
  ∀ s : State, s.Ready →
    ∃ t, exec .search s = .next t ∧ t.data = s.data ∧ t.cmd = encode .search ∧
      t.devicePosition.toNat ≤ s.cfg.maxDevices ∧
      (t.result = .ok → 1 ≤ t.devicePosition.toNat ∧ t.numDevices = t.devicePosition ∧ t.lastDisc = none ∧
        t.curDisc = none) ∧
      (t.result ≠ .ok → t.numDevices = s.numDevices) ∧
      (t.result = .tooManyDevices → t.devicePosition.toNat = s.cfg.maxDevices ∧
        (0 < s.cfg.maxDevices → t.lastDisc ≠ none)) ∧
      (t.result = .ok ∨ t.result = .tooManyDevices → 0 < t.devicePosition.toNat →
        t.devices.holdsEntry (t.devicePosition.toNat - 1) t.rom) ∧
      (∀ k j, k < t.devicePosition.toNat → j < 8 → (t.devices.read (tableAddr k j)).isSome) ∧
      (∀ a, ¬(0x800 ≤ a ∧ a < 0x800 + 8 * t.devicePosition.toNat) → t.devices.read a = s.devices.read a)

/-- 42_search R202, R203, R206: on a reference bus of at least one and at most `MAX_DEVICES` standard devices with distinct ROM
codes, in any order, SEARCH ends `Ok` after exactly one pass per device, and entry `k` of the table is the code with the `k`-th
least key `K`. (`sorted` lists the codes in strictly ascending `K`.) The devices may be in any phase earlier operations left
them in, and the bus left is again such a bus. -/
def Obligations.SearchEnumeratesTheBus : Prop :=
  ∀ (s : State) (b : Bus) (roms sorted : List Address), s.Ready → s.cfg.SuitsReferenceBus → s.line = .bus b →
    b.Standard s.cfg.searchCmd s.clock roms → roms.Perm sorted → sorted.Pairwise (fun x y => keyK x < keyK y) → sorted ≠ [] →
    sorted.length ≤ s.cfg.maxDevices →
    ∃ t, exec .search s = .next t ∧ t.result = .ok ∧ t.numDevices.toNat = sorted.length ∧
      (∀ k (hk : k < sorted.length), t.devices.holdsEntry k sorted[k]) ∧
      t.clock = s.clock + sorted.length * passDuration s.cfg ∧
      ∃ b', t.line = .bus b' ∧ b'.Standard s.cfg.searchCmd t.clock roms

/-- 42_search R202, its last sentence: with more devices than capacity the passes store the `MAX_DEVICES` codes of least key, in
order, the search ends `TooManyDevices`, and `num_devices` keeps its value. -/
def Obligations.SearchOverflowsInOrder : Prop :=
  ∀ (s : State) (b : Bus) (roms sorted : List Address), s.Ready → s.cfg.SuitsReferenceBus → s.line = .bus b →
    b.Standard s.cfg.searchCmd s.clock roms → roms.Perm sorted → sorted.Pairwise (fun x y => keyK x < keyK y) →
    s.cfg.maxDevices < sorted.length →
    ∃ t, exec .search s = .next t ∧ t.result = .tooManyDevices ∧ t.numDevices = s.numDevices ∧
      (∀ k (hk : k < sorted.length), k < s.cfg.maxDevices → t.devices.holdsEntry k sorted[k]) ∧
      t.clock = s.clock + s.cfg.maxDevices * passDuration s.cfg ∧
      ∃ b', t.line = .bus b' ∧ b'.Standard s.cfg.searchCmd t.clock roms

/-- 95 S1, 42_search R190's worked example for every code: one standard device with ROM code `rom` is found, alone. -/
def Obligations.SearchFindsTheSingleDevice : Prop :=
  ∀ (s : State) (b : Bus) (rom : Address), s.Ready → s.cfg.SuitsReferenceBus → s.line = .bus b →
    b.Standard s.cfg.searchCmd s.clock [rom] → 1 ≤ s.cfg.maxDevices →
    ∃ t, exec .search s = .next t ∧ t.result = .ok ∧ t.numDevices = 1#8 ∧ t.devices.holdsEntry 0 rom ∧
      t.presHighQ = 2#8 ∧ t.presLowQ = 8#8 ∧ t.data = s.data ∧ t.clock = s.clock + passDuration s.cfg ∧
      (∀ a, ¬(0x800 ≤ a ∧ a < 0x808) → t.devices.read a = s.devices.read a)

/-- 42_search R205: SEARCH reads no state left by an earlier operation. From two states that agree on the instance, the tick and
the line environment alone, it ends with the same Result, counters, passes, `last_disc` and (capacity above 0) `cur_disc`, and
stores the same entries. (In the unknown environment two runs share the free levels of each tick: log entry 5. What the
markers hold after a failure is log entry 19.) -/
def Obligations.SearchForgetsThePast : Prop :=
  ∀ s s' t t' : State, s.Ready → s'.Ready → s.cfg = s'.cfg → s.clock = s'.clock → s.line = s'.line →
    exec .search s = .next t → exec .search s' = .next t' →
    t.result = t'.result ∧ t.clock = t'.clock ∧ t.line = t'.line ∧
      (0 < s.cfg.maxDevices → t.presHighQ = t'.presHighQ ∧ t.presLowQ = t'.presLowQ ∧ t.curDisc = t'.curDisc) ∧
      t.devicePosition = t'.devicePosition ∧ t.lastDisc = t'.lastDisc ∧ (t.result = .ok → t.numDevices = t'.numDevices) ∧
      (∀ k j, k < t.devicePosition.toNat → j < 8 → t.devices.read (tableAddr k j) = t'.devices.read (tableAddr k j))

/-! ### Rules over all operations -/

/-- 60_exceptions R236, R237, 70 R284: every operation ends, with `BUSY = 0`, the sequencer idle and the line released, whatever
the host and the line do. -/
def Obligations.EveryOperationEndsReleased : Prop :=
  ∀ (i : Instr) (s : State), s.busy = false → s.resetIn = false → s.driveLow = false →
    ∃ t, exec i s = .next t ∧ t.busy = false ∧ t.seq = [] ∧ t.driveLow = false

/-- 60_exceptions R252: which operation can finish with which Result. -/
def Obligations.ResultsByOperation : Prop :=
  ∀ (i : Instr) (s t : State), s.Ready → exec i s = .next t → mayFinish i t.result = true

/-- 70 R284: no operation takes longer than its bound. -/
def Obligations.DurationsAreBounded : Prop :=
  ∀ (i : Instr) (s t : State), s.Ready → exec i s = .next t → t.clock ≤ s.clock + durationBound s.cfg i

/-- 10_state R30: the accepted command stays latched. -/
def Obligations.CommandStaysLatched : Prop :=
  ∀ (i : Instr) (s t : State), s.Ready → exec i s = .next t → t.cmd = encode i

/-- 10_state R27, R29: no operation but SEARCH changes `num_devices` or a byte of the device table. -/
def Obligations.OnlySearchWritesTheTable : Prop :=
  ∀ (i : Instr) (s t : State), s.Ready → i ≠ .search → exec i s = .next t →
    t.numDevices = s.numDevices ∧ ∀ a, t.devices.read a = s.devices.read a

/-- 10_state R21: RESET_PULSE, WRITE_BIT, WRITE_OCTET, SEND_COMMAND and SEARCH do not write `DATA`. -/
def Obligations.DataIsKept : Prop :=
  ∀ (i : Instr) (s t : State), s.Ready →
    (i = .resetPulse ∨ (∃ v, i = .writeBit v) ∨ i = .writeOctet ∨ i = .sendCommand ∨ i = .search) →
    exec i s = .next t → t.data = s.data

/-- 10_state R25, R26: the presence counters are written by RESET_PULSE, SEND_COMMAND and SEARCH only. -/
def Obligations.PresenceCountersAreKept : Prop :=
  ∀ (i : Instr) (s t : State), s.Ready →
    ((∃ v, i = .writeBit v) ∨ (∃ p, i = .readBitOr p) ∨ i = .writeOctet ∨ i = .readOctet) →
    exec i s = .next t → t.presHighQ = s.presHighQ ∧ t.presLowQ = s.presLowQ

/-- 10_state R24: `ILL` is cleared by the hardware reset only. -/
def Obligations.IllIsSticky : Prop :=
  ∀ s t : State, s.noHwReset → s.ill = true → step s = .next t → t.ill = true

/-- 60_exceptions R243: `ILL` is set by a write of an illegal byte to CMD and by a write to CMD or DATA while an operation runs,
and by nothing else. A step on the idle block whose own action is no illegal command keeps `ILL` clear, unless it starts an
operation and a later write to CMD or DATA is due before the step's end, `t.clock`. (A write due at exactly the tick of the
`finish` finds the block idle: log entry 8, DESIGN CHOICE.) -/
def Obligations.IllIsSetByRefusalsOnly : Prop :=
  ∀ (s t : State) (e : HostEvent) (es : List HostEvent), s.busy = false → s.ill = false → s.host = e :: es →
    (∀ a w, e.act = .write a w → a.toNat = 0 → legal w = true) → step s = .next t →
    (e.act.writesCommand = true → ∀ x ∈ es, x.tick < t.clock → x.act.writesCommandOrData = false) → t.ill = false

/-- 10_state R28: no step changes the instance's parameters. -/
def Obligations.ParametersNeverChange : Prop :=
  ∀ s t : State, step s = .next t → t.cfg = s.cfg

/-- 20_memory R71, R72, R80: nothing the host does during an operation, short of a hardware reset, changes what the operation
does. With and without the pending accesses it leaves the same state but for the accesses themselves, their answers, `ILL`, the
count of free bytes and, after a READ_OCTET that failed, the free value in `DATA`. (In the unknown environment the two runs
share the free levels of each tick: log entry 5. That the hidden registers agree after a failed operation too, where 93 U12
calls them any value, is log entry 19, DEDUCED from 60_exceptions R236, R240.) -/
def Obligations.HostCannotDisturbAnOperation : Prop :=
  ∀ (i : Instr) (s t u : State), s.Ready → exec i s = .next t → exec i { s with host := [] } = .next u →
    ({ t with data := 0#8 }).noHost = ({ u with data := 0#8 }).noHost ∧
    (i ≠ .readOctet ∨ t.result = .ok → t.data = u.data)

/-- 10_state R38: the sequencer, started at the operation's first statement and stepped until `BUSY` falls, reaches exactly the
state `exec` gives. Log entry 10 rests on it. (The hidden registers after a failed operation among the rest: log entry 19,
DEDUCED.) -/
def Obligations.SequencerRunsTheOperation : Prop :=
  ∀ (i : Instr) (s t : State), s.busy = false → s.resetIn = false → exec i s = .next t →
    ∃ n, State.seqRun n (s.accept i) = t

/-- The invariant of a run holds right after reset, for every instance (10_state R39). -/
def Obligations.InvariantHoldsAtReset : Prop :=
  ∀ c : Config, (State.resetOf c).Inv

/-- 10_state R39 (a), (b); 20_memory R64; 70 R270: every step keeps the invariant: the block idle with the line released between
steps, `num_devices` within the capacity, the table memory canonical and inside the window, every entry below `num_devices`
written, every element at its reset value while hardware reset is asserted. (That `BUSY` is 0 between steps, a step running a
whole operation, is log entry 10, beside R39 (b); the table's bytes under reset are log entry 6, and `now`, 0 as long as reset
is asserted, log entry 7.) -/
def Obligations.InvariantIsKept : Prop :=
  ∀ s t : State, s.Inv → step s = .next t → t.Inv

/-! ### Added after the first review -/

/-- 70 R270: while hardware reset stays asserted, no host access changes an element. A write changes nothing at all, `ILL`
included (log entry 17, DEDUCED), a read only its answer; the release changes only where `now` counts from. (That `now` is 0
until the release and counts from it is log entry 7, DESIGN CHOICE: 00_scope R10 says only "since hardware reset".) -/
def Obligations.HardwareResetIsHeld : Prop :=
  ∀ (s : State) (e : HostEvent) (es : List HostEvent), s.busy = false → s.resetIn = true → s.host = e :: es →
    (∃ t, step s = .next t ∧ (s.AtReset → t.AtReset) ∧ t.resetIn = decide (e.act ≠ .hwRelease) ∧ t.now = 0) ∧
    (∀ a w, e.act = .write a w → step s = .next { s with host := es, clock := max s.clock e.tick }) ∧
    (∀ a, e.act = .read a → ∃ v n, step s = .next { s with
      host := es
      clock := max s.clock e.tick
      answers := ⟨max s.clock e.tick, a, v⟩ :: s.answers
      freeCtr := n }) ∧
    (e.act = .hwRelease → step s = .next { s with
      host := es, clock := max s.clock e.tick, resetIn := false, resetAt := max s.clock e.tick })

/-- 42_search R198, R199: a completed pass stores the code it decided, whole, at index `device_position`, counts the pass, hands
its marker on, and writes no other byte of the table; a pass that ends the search stores nothing. Whatever the line and the
host do, short of a hardware reset. (That the hidden `device_position` and `last_disc` keep their values after a pass that
ends the search is log entry 19, DEDUCED from 60_exceptions R236, R240 against 93 U12.) -/
def Obligations.PassStoresItsRom : Prop :=
  ∀ s : State, s.noHwReset →
    (∀ t, searchPass.run s = .ok () t →
      t.devices.holdsEntry s.devicePosition.toNat t.rom ∧ t.devicePosition = s.devicePosition + 1#8 ∧
        t.lastDisc = t.curDisc ∧ t.numDevices = s.numDevices ∧ t.data = s.data ∧
        ∀ a, ¬(tableAddr s.devicePosition.toNat 0 ≤ a ∧ a < tableAddr s.devicePosition.toNat 0 + 8) →
          t.devices.read a = s.devices.read a) ∧
    (∀ e t, searchPass.run s = .error e t →
      t.devices = s.devices ∧ t.devicePosition = s.devicePosition ∧ t.lastDisc = s.lastDisc ∧
        t.numDevices = s.numDevices ∧ t.data = s.data)

/-- 42_search R205, 95 S7: a second SEARCH on the unchanged bus, at any later tick, leaves the same Result, count and table. -/
def Obligations.SearchIsIdempotent : Prop :=
  ∀ (s : State) (b : Bus) (roms sorted : List Address), s.Ready → s.cfg.SuitsReferenceBus → s.line = .bus b →
    b.Standard s.cfg.searchCmd s.clock roms → roms.Perm sorted → sorted.Pairwise (fun x y => keyK x < keyK y) → sorted ≠ [] →
    sorted.length ≤ s.cfg.maxDevices →
    ∃ t, exec .search s = .next t ∧ ∀ u : State, u.Ready → u.cfg = t.cfg → u.line = t.line → t.clock ≤ u.clock →
      u.devices = t.devices → u.numDevices = t.numDevices →
      ∃ w, exec .search u = .next w ∧ w.result = t.result ∧ w.numDevices = t.numDevices ∧
        ∀ a, w.devices.read a = t.devices.read a

/-- 20_memory R82, R83, R84 (d): every operation leaves a bus of standard devices such a bus, so what is stated of the first
operation on it holds of the next. -/
def Obligations.StandardBusStaysStandard : Prop :=
  ∀ (i : Instr) (s t : State) (b : Bus) (roms : List Address), s.Ready → s.cfg.SuitsReferenceBus → s.line = .bus b →
    b.Standard s.cfg.searchCmd s.clock roms → exec i s = .next t →
    ∃ b', t.line = .bus b' ∧ b'.Standard s.cfg.searchCmd t.clock roms
end

