-- ==== Sys2Proof/Laws/State.lean ====
section
/-! SUPPORT. One lemma per field per update of the state, so that no proof unfolds a record update. -/

namespace Sys2Proof.Machine

/-- Time passes, the line unchanged. -/
def State.tick (n : Nat) (st : State) : State := { st with clock := st.clock + n }

/-- A piece of line activity: the environment it leaves, the tick it ends at, and its events. -/
def State.lineTo (l : LineEnv) (n : Nat) (tr : List (Nat × LineEvent)) (st : State) : State :=
  { st with line := l, clock := n, trace := tr ++ st.trace }

/-- The two samples of a read slot, and what the caller makes of `DATA`. -/
def State.sampled (x y : Bool) (d : Byte) (st : State) : State := { st with s := x, e := y, data := d }

variable (st : State)

/-! ### `finish` -/

@[simp] theorem finish_cfg (r : Result) : (st.finish r).cfg = st.cfg := rfl
@[simp] theorem finish_data (r : Result) : (st.finish r).data = st.data := rfl
@[simp] theorem finish_busy (r : Result) : (st.finish r).busy = false := rfl
@[simp] theorem finish_result (r : Result) : (st.finish r).result = r := rfl
@[simp] theorem finish_ill (r : Result) : (st.finish r).ill = st.ill := rfl
@[simp] theorem finish_presHighQ (r : Result) : (st.finish r).presHighQ = st.presHighQ := rfl
@[simp] theorem finish_presLowQ (r : Result) : (st.finish r).presLowQ = st.presLowQ := rfl
@[simp] theorem finish_numDevices (r : Result) : (st.finish r).numDevices = st.numDevices := rfl
@[simp] theorem finish_devices (r : Result) : (st.finish r).devices = st.devices := rfl
@[simp] theorem finish_cmd (r : Result) : (st.finish r).cmd = st.cmd := rfl
@[simp] theorem finish_driveLow (r : Result) : (st.finish r).driveLow = st.driveLow := rfl
@[simp] theorem finish_rom (r : Result) : (st.finish r).rom = st.rom := rfl
@[simp] theorem finish_devicePosition (r : Result) : (st.finish r).devicePosition = st.devicePosition := rfl
@[simp] theorem finish_lastDisc (r : Result) : (st.finish r).lastDisc = st.lastDisc := rfl
@[simp] theorem finish_curDisc (r : Result) : (st.finish r).curDisc = st.curDisc := rfl
@[simp] theorem finish_position (r : Result) : (st.finish r).position = st.position := rfl
@[simp] theorem finish_i (r : Result) : (st.finish r).i = st.i := rfl
@[simp] theorem finish_v (r : Result) : (st.finish r).v = st.v := rfl
@[simp] theorem finish_c (r : Result) : (st.finish r).c = st.c := rfl
@[simp] theorem finish_b (r : Result) : (st.finish r).b = st.b := rfl
@[simp] theorem finish_s (r : Result) : (st.finish r).s = st.s := rfl
@[simp] theorem finish_e (r : Result) : (st.finish r).e = st.e := rfl
@[simp] theorem finish_nFloat (r : Result) : (st.finish r).nFloat = st.nFloat := rfl
@[simp] theorem finish_tRel (r : Result) : (st.finish r).tRel = st.tRel := rfl
@[simp] theorem finish_seq (r : Result) : (st.finish r).seq = [] := rfl
@[simp] theorem finish_clock (r : Result) : (st.finish r).clock = st.clock := rfl
@[simp] theorem finish_resetIn (r : Result) : (st.finish r).resetIn = st.resetIn := rfl
@[simp] theorem finish_resetAt (r : Result) : (st.finish r).resetAt = st.resetAt := rfl
@[simp] theorem finish_line (r : Result) : (st.finish r).line = st.line := rfl
@[simp] theorem finish_host (r : Result) : (st.finish r).host = st.host := rfl
@[simp] theorem finish_answers (r : Result) : (st.finish r).answers = st.answers := rfl
@[simp] theorem finish_trace (r : Result) : (st.finish r).trace = st.trace := rfl
@[simp] theorem finish_freeCtr (r : Result) : (st.finish r).freeCtr = st.freeCtr := rfl

/-! ### `refuse` -/

@[simp] theorem refuse_cfg : (st.refuse).cfg = st.cfg := rfl
@[simp] theorem refuse_data : (st.refuse).data = st.data := rfl
@[simp] theorem refuse_busy : (st.refuse).busy = st.busy := rfl
@[simp] theorem refuse_result : (st.refuse).result = st.result := rfl
@[simp] theorem refuse_ill : (st.refuse).ill = true := rfl
@[simp] theorem refuse_presHighQ : (st.refuse).presHighQ = st.presHighQ := rfl
@[simp] theorem refuse_presLowQ : (st.refuse).presLowQ = st.presLowQ := rfl
@[simp] theorem refuse_numDevices : (st.refuse).numDevices = st.numDevices := rfl
@[simp] theorem refuse_devices : (st.refuse).devices = st.devices := rfl
@[simp] theorem refuse_cmd : (st.refuse).cmd = st.cmd := rfl
@[simp] theorem refuse_driveLow : (st.refuse).driveLow = st.driveLow := rfl
@[simp] theorem refuse_rom : (st.refuse).rom = st.rom := rfl
@[simp] theorem refuse_devicePosition : (st.refuse).devicePosition = st.devicePosition := rfl
@[simp] theorem refuse_lastDisc : (st.refuse).lastDisc = st.lastDisc := rfl
@[simp] theorem refuse_curDisc : (st.refuse).curDisc = st.curDisc := rfl
@[simp] theorem refuse_position : (st.refuse).position = st.position := rfl
@[simp] theorem refuse_i : (st.refuse).i = st.i := rfl
@[simp] theorem refuse_v : (st.refuse).v = st.v := rfl
@[simp] theorem refuse_c : (st.refuse).c = st.c := rfl
@[simp] theorem refuse_b : (st.refuse).b = st.b := rfl
@[simp] theorem refuse_s : (st.refuse).s = st.s := rfl
@[simp] theorem refuse_e : (st.refuse).e = st.e := rfl
@[simp] theorem refuse_nFloat : (st.refuse).nFloat = st.nFloat := rfl
@[simp] theorem refuse_tRel : (st.refuse).tRel = st.tRel := rfl
@[simp] theorem refuse_seq : (st.refuse).seq = st.seq := rfl
@[simp] theorem refuse_clock : (st.refuse).clock = st.clock := rfl
@[simp] theorem refuse_resetIn : (st.refuse).resetIn = st.resetIn := rfl
@[simp] theorem refuse_resetAt : (st.refuse).resetAt = st.resetAt := rfl
@[simp] theorem refuse_line : (st.refuse).line = st.line := rfl
@[simp] theorem refuse_host : (st.refuse).host = st.host := rfl
@[simp] theorem refuse_answers : (st.refuse).answers = st.answers := rfl
@[simp] theorem refuse_trace : (st.refuse).trace = st.trace := rfl
@[simp] theorem refuse_freeCtr : (st.refuse).freeCtr = st.freeCtr := rfl

/-! ### `accept` -/

@[simp] theorem accept_cfg (i : Instr) : (st.accept i).cfg = st.cfg := rfl
@[simp] theorem accept_data (i : Instr) : (st.accept i).data = st.data := rfl
@[simp] theorem accept_busy (i : Instr) : (st.accept i).busy = true := rfl
@[simp] theorem accept_result (i : Instr) : (st.accept i).result = st.result := rfl
@[simp] theorem accept_ill (i : Instr) : (st.accept i).ill = st.ill := rfl
@[simp] theorem accept_presHighQ (i : Instr) : (st.accept i).presHighQ = st.presHighQ := rfl
@[simp] theorem accept_presLowQ (i : Instr) : (st.accept i).presLowQ = st.presLowQ := rfl
@[simp] theorem accept_numDevices (i : Instr) : (st.accept i).numDevices = st.numDevices := rfl
@[simp] theorem accept_devices (i : Instr) : (st.accept i).devices = st.devices := rfl
@[simp] theorem accept_cmd (i : Instr) : (st.accept i).cmd = encode i := rfl
@[simp] theorem accept_driveLow (i : Instr) : (st.accept i).driveLow = st.driveLow := rfl
@[simp] theorem accept_rom (i : Instr) : (st.accept i).rom = st.rom := rfl
@[simp] theorem accept_devicePosition (i : Instr) : (st.accept i).devicePosition = st.devicePosition := rfl
@[simp] theorem accept_lastDisc (i : Instr) : (st.accept i).lastDisc = st.lastDisc := rfl
@[simp] theorem accept_curDisc (i : Instr) : (st.accept i).curDisc = st.curDisc := rfl
@[simp] theorem accept_position (i : Instr) : (st.accept i).position = st.position := rfl
@[simp] theorem accept_i (i : Instr) : (st.accept i).i = st.i := rfl
@[simp] theorem accept_v (i : Instr) : (st.accept i).v = st.v := rfl
@[simp] theorem accept_c (i : Instr) : (st.accept i).c = st.c := rfl
@[simp] theorem accept_b (i : Instr) : (st.accept i).b = st.b := rfl
@[simp] theorem accept_s (i : Instr) : (st.accept i).s = st.s := rfl
@[simp] theorem accept_e (i : Instr) : (st.accept i).e = st.e := rfl
@[simp] theorem accept_nFloat (i : Instr) : (st.accept i).nFloat = st.nFloat := rfl
@[simp] theorem accept_tRel (i : Instr) : (st.accept i).tRel = st.tRel := rfl
@[simp] theorem accept_seq (i : Instr) : (st.accept i).seq = program st.cfg st.data i := rfl
@[simp] theorem accept_clock (i : Instr) : (st.accept i).clock = st.clock := rfl
@[simp] theorem accept_resetIn (i : Instr) : (st.accept i).resetIn = st.resetIn := rfl
@[simp] theorem accept_resetAt (i : Instr) : (st.accept i).resetAt = st.resetAt := rfl
@[simp] theorem accept_line (i : Instr) : (st.accept i).line = st.line := rfl
@[simp] theorem accept_host (i : Instr) : (st.accept i).host = st.host := rfl
@[simp] theorem accept_answers (i : Instr) : (st.accept i).answers = st.answers := rfl
@[simp] theorem accept_trace (i : Instr) : (st.accept i).trace = st.trace := rfl
@[simp] theorem accept_freeCtr (i : Instr) : (st.accept i).freeCtr = st.freeCtr := rfl

/-! ### `orData` -/

@[simp] theorem orData_cfg (k : Nat) : (st.orData k).cfg = st.cfg := rfl
@[simp] theorem orData_data (k : Nat) : (st.orData k).data = orBit st.data k st.s := rfl
@[simp] theorem orData_busy (k : Nat) : (st.orData k).busy = st.busy := rfl
@[simp] theorem orData_result (k : Nat) : (st.orData k).result = st.result := rfl
@[simp] theorem orData_ill (k : Nat) : (st.orData k).ill = st.ill := rfl
@[simp] theorem orData_presHighQ (k : Nat) : (st.orData k).presHighQ = st.presHighQ := rfl
@[simp] theorem orData_presLowQ (k : Nat) : (st.orData k).presLowQ = st.presLowQ := rfl
@[simp] theorem orData_numDevices (k : Nat) : (st.orData k).numDevices = st.numDevices := rfl
@[simp] theorem orData_devices (k : Nat) : (st.orData k).devices = st.devices := rfl
@[simp] theorem orData_cmd (k : Nat) : (st.orData k).cmd = st.cmd := rfl
@[simp] theorem orData_driveLow (k : Nat) : (st.orData k).driveLow = st.driveLow := rfl
@[simp] theorem orData_rom (k : Nat) : (st.orData k).rom = st.rom := rfl
@[simp] theorem orData_devicePosition (k : Nat) : (st.orData k).devicePosition = st.devicePosition := rfl
@[simp] theorem orData_lastDisc (k : Nat) : (st.orData k).lastDisc = st.lastDisc := rfl
@[simp] theorem orData_curDisc (k : Nat) : (st.orData k).curDisc = st.curDisc := rfl
@[simp] theorem orData_position (k : Nat) : (st.orData k).position = st.position := rfl
@[simp] theorem orData_i (k : Nat) : (st.orData k).i = st.i := rfl
@[simp] theorem orData_v (k : Nat) : (st.orData k).v = st.v := rfl
@[simp] theorem orData_c (k : Nat) : (st.orData k).c = st.c := rfl
@[simp] theorem orData_b (k : Nat) : (st.orData k).b = st.b := rfl
@[simp] theorem orData_s (k : Nat) : (st.orData k).s = st.s := rfl
@[simp] theorem orData_e (k : Nat) : (st.orData k).e = st.e := rfl
@[simp] theorem orData_nFloat (k : Nat) : (st.orData k).nFloat = st.nFloat := rfl
@[simp] theorem orData_tRel (k : Nat) : (st.orData k).tRel = st.tRel := rfl
@[simp] theorem orData_seq (k : Nat) : (st.orData k).seq = st.seq := rfl
@[simp] theorem orData_clock (k : Nat) : (st.orData k).clock = st.clock := rfl
@[simp] theorem orData_resetIn (k : Nat) : (st.orData k).resetIn = st.resetIn := rfl
@[simp] theorem orData_resetAt (k : Nat) : (st.orData k).resetAt = st.resetAt := rfl
@[simp] theorem orData_line (k : Nat) : (st.orData k).line = st.line := rfl
@[simp] theorem orData_host (k : Nat) : (st.orData k).host = st.host := rfl
@[simp] theorem orData_answers (k : Nat) : (st.orData k).answers = st.answers := rfl
@[simp] theorem orData_trace (k : Nat) : (st.orData k).trace = st.trace := rfl
@[simp] theorem orData_freeCtr (k : Nat) : (st.orData k).freeCtr = st.freeCtr := rfl

/-! ### `clearPresence` -/

@[simp] theorem clearPresence_cfg : (st.clearPresence).cfg = st.cfg := rfl
@[simp] theorem clearPresence_data : (st.clearPresence).data = st.data := rfl
@[simp] theorem clearPresence_busy : (st.clearPresence).busy = st.busy := rfl
@[simp] theorem clearPresence_result : (st.clearPresence).result = st.result := rfl
@[simp] theorem clearPresence_ill : (st.clearPresence).ill = st.ill := rfl
@[simp] theorem clearPresence_presHighQ : (st.clearPresence).presHighQ = 0#8 := rfl
@[simp] theorem clearPresence_presLowQ : (st.clearPresence).presLowQ = 0#8 := rfl
@[simp] theorem clearPresence_numDevices : (st.clearPresence).numDevices = st.numDevices := rfl
@[simp] theorem clearPresence_devices : (st.clearPresence).devices = st.devices := rfl
@[simp] theorem clearPresence_cmd : (st.clearPresence).cmd = st.cmd := rfl
@[simp] theorem clearPresence_driveLow : (st.clearPresence).driveLow = st.driveLow := rfl
@[simp] theorem clearPresence_rom : (st.clearPresence).rom = st.rom := rfl
@[simp] theorem clearPresence_devicePosition : (st.clearPresence).devicePosition = st.devicePosition := rfl
@[simp] theorem clearPresence_lastDisc : (st.clearPresence).lastDisc = st.lastDisc := rfl
@[simp] theorem clearPresence_curDisc : (st.clearPresence).curDisc = st.curDisc := rfl
@[simp] theorem clearPresence_position : (st.clearPresence).position = st.position := rfl
@[simp] theorem clearPresence_i : (st.clearPresence).i = st.i := rfl
@[simp] theorem clearPresence_v : (st.clearPresence).v = st.v := rfl
@[simp] theorem clearPresence_c : (st.clearPresence).c = st.c := rfl
@[simp] theorem clearPresence_b : (st.clearPresence).b = st.b := rfl
@[simp] theorem clearPresence_s : (st.clearPresence).s = st.s := rfl
@[simp] theorem clearPresence_e : (st.clearPresence).e = st.e := rfl
@[simp] theorem clearPresence_nFloat : (st.clearPresence).nFloat = st.nFloat := rfl
@[simp] theorem clearPresence_tRel : (st.clearPresence).tRel = st.tRel := rfl
@[simp] theorem clearPresence_seq : (st.clearPresence).seq = st.seq := rfl
@[simp] theorem clearPresence_clock : (st.clearPresence).clock = st.clock := rfl
@[simp] theorem clearPresence_resetIn : (st.clearPresence).resetIn = st.resetIn := rfl
@[simp] theorem clearPresence_resetAt : (st.clearPresence).resetAt = st.resetAt := rfl
@[simp] theorem clearPresence_line : (st.clearPresence).line = st.line := rfl
@[simp] theorem clearPresence_host : (st.clearPresence).host = st.host := rfl
@[simp] theorem clearPresence_answers : (st.clearPresence).answers = st.answers := rfl
@[simp] theorem clearPresence_trace : (st.clearPresence).trace = st.trace := rfl
@[simp] theorem clearPresence_freeCtr : (st.clearPresence).freeCtr = st.freeCtr := rfl

/-! ### `countFloat` -/

@[simp] theorem countFloat_cfg : (st.countFloat).cfg = st.cfg := rfl
@[simp] theorem countFloat_data : (st.countFloat).data = st.data := rfl
@[simp] theorem countFloat_busy : (st.countFloat).busy = st.busy := rfl
@[simp] theorem countFloat_result : (st.countFloat).result = st.result := rfl
@[simp] theorem countFloat_ill : (st.countFloat).ill = st.ill := rfl
@[simp] theorem countFloat_presHighQ : (st.countFloat).presHighQ = st.presHighQ := rfl
@[simp] theorem countFloat_presLowQ : (st.countFloat).presLowQ = st.presLowQ := rfl
@[simp] theorem countFloat_numDevices : (st.countFloat).numDevices = st.numDevices := rfl
@[simp] theorem countFloat_devices : (st.countFloat).devices = st.devices := rfl
@[simp] theorem countFloat_cmd : (st.countFloat).cmd = st.cmd := rfl
@[simp] theorem countFloat_driveLow : (st.countFloat).driveLow = st.driveLow := rfl
@[simp] theorem countFloat_rom : (st.countFloat).rom = st.rom := rfl
@[simp] theorem countFloat_devicePosition : (st.countFloat).devicePosition = st.devicePosition := rfl
@[simp] theorem countFloat_lastDisc : (st.countFloat).lastDisc = st.lastDisc := rfl
@[simp] theorem countFloat_curDisc : (st.countFloat).curDisc = st.curDisc := rfl
@[simp] theorem countFloat_position : (st.countFloat).position = st.position := rfl
@[simp] theorem countFloat_i : (st.countFloat).i = st.i := rfl
@[simp] theorem countFloat_v : (st.countFloat).v = st.v := rfl
@[simp] theorem countFloat_c : (st.countFloat).c = st.c := rfl
@[simp] theorem countFloat_b : (st.countFloat).b = st.b := rfl
@[simp] theorem countFloat_s : (st.countFloat).s = st.s := rfl
@[simp] theorem countFloat_e : (st.countFloat).e = st.e := rfl
@[simp] theorem countFloat_nFloat : (st.countFloat).nFloat = st.nFloat + 1#8 := rfl
@[simp] theorem countFloat_tRel : (st.countFloat).tRel = st.tRel := rfl
@[simp] theorem countFloat_seq : (st.countFloat).seq = st.seq := rfl
@[simp] theorem countFloat_clock : (st.countFloat).clock = st.clock := rfl
@[simp] theorem countFloat_resetIn : (st.countFloat).resetIn = st.resetIn := rfl
@[simp] theorem countFloat_resetAt : (st.countFloat).resetAt = st.resetAt := rfl
@[simp] theorem countFloat_line : (st.countFloat).line = st.line := rfl
@[simp] theorem countFloat_host : (st.countFloat).host = st.host := rfl
@[simp] theorem countFloat_answers : (st.countFloat).answers = st.answers := rfl
@[simp] theorem countFloat_trace : (st.countFloat).trace = st.trace := rfl
@[simp] theorem countFloat_freeCtr : (st.countFloat).freeCtr = st.freeCtr := rfl

/-! ### `countHigh` -/

@[simp] theorem countHigh_cfg : (st.countHigh).cfg = st.cfg := rfl
@[simp] theorem countHigh_data : (st.countHigh).data = st.data := rfl
@[simp] theorem countHigh_busy : (st.countHigh).busy = st.busy := rfl
@[simp] theorem countHigh_result : (st.countHigh).result = st.result := rfl
@[simp] theorem countHigh_ill : (st.countHigh).ill = st.ill := rfl
@[simp] theorem countHigh_presHighQ : (st.countHigh).presHighQ = st.presHighQ + 1#8 := rfl
@[simp] theorem countHigh_presLowQ : (st.countHigh).presLowQ = st.presLowQ := rfl
@[simp] theorem countHigh_numDevices : (st.countHigh).numDevices = st.numDevices := rfl
@[simp] theorem countHigh_devices : (st.countHigh).devices = st.devices := rfl
@[simp] theorem countHigh_cmd : (st.countHigh).cmd = st.cmd := rfl
@[simp] theorem countHigh_driveLow : (st.countHigh).driveLow = st.driveLow := rfl
@[simp] theorem countHigh_rom : (st.countHigh).rom = st.rom := rfl
@[simp] theorem countHigh_devicePosition : (st.countHigh).devicePosition = st.devicePosition := rfl
@[simp] theorem countHigh_lastDisc : (st.countHigh).lastDisc = st.lastDisc := rfl
@[simp] theorem countHigh_curDisc : (st.countHigh).curDisc = st.curDisc := rfl
@[simp] theorem countHigh_position : (st.countHigh).position = st.position := rfl
@[simp] theorem countHigh_i : (st.countHigh).i = st.i := rfl
@[simp] theorem countHigh_v : (st.countHigh).v = st.v := rfl
@[simp] theorem countHigh_c : (st.countHigh).c = st.c := rfl
@[simp] theorem countHigh_b : (st.countHigh).b = st.b := rfl
@[simp] theorem countHigh_s : (st.countHigh).s = st.s := rfl
@[simp] theorem countHigh_e : (st.countHigh).e = st.e := rfl
@[simp] theorem countHigh_nFloat : (st.countHigh).nFloat = st.nFloat := rfl
@[simp] theorem countHigh_tRel : (st.countHigh).tRel = st.tRel := rfl
@[simp] theorem countHigh_seq : (st.countHigh).seq = st.seq := rfl
@[simp] theorem countHigh_clock : (st.countHigh).clock = st.clock := rfl
@[simp] theorem countHigh_resetIn : (st.countHigh).resetIn = st.resetIn := rfl
@[simp] theorem countHigh_resetAt : (st.countHigh).resetAt = st.resetAt := rfl
@[simp] theorem countHigh_line : (st.countHigh).line = st.line := rfl
@[simp] theorem countHigh_host : (st.countHigh).host = st.host := rfl
@[simp] theorem countHigh_answers : (st.countHigh).answers = st.answers := rfl
@[simp] theorem countHigh_trace : (st.countHigh).trace = st.trace := rfl
@[simp] theorem countHigh_freeCtr : (st.countHigh).freeCtr = st.freeCtr := rfl

/-! ### `countLow` -/

@[simp] theorem countLow_cfg : (st.countLow).cfg = st.cfg := rfl
@[simp] theorem countLow_data : (st.countLow).data = st.data := rfl
@[simp] theorem countLow_busy : (st.countLow).busy = st.busy := rfl
@[simp] theorem countLow_result : (st.countLow).result = st.result := rfl
@[simp] theorem countLow_ill : (st.countLow).ill = st.ill := rfl
@[simp] theorem countLow_presHighQ : (st.countLow).presHighQ = st.presHighQ := rfl
@[simp] theorem countLow_presLowQ : (st.countLow).presLowQ = st.presLowQ + 1#8 := rfl
@[simp] theorem countLow_numDevices : (st.countLow).numDevices = st.numDevices := rfl
@[simp] theorem countLow_devices : (st.countLow).devices = st.devices := rfl
@[simp] theorem countLow_cmd : (st.countLow).cmd = st.cmd := rfl
@[simp] theorem countLow_driveLow : (st.countLow).driveLow = st.driveLow := rfl
@[simp] theorem countLow_rom : (st.countLow).rom = st.rom := rfl
@[simp] theorem countLow_devicePosition : (st.countLow).devicePosition = st.devicePosition := rfl
@[simp] theorem countLow_lastDisc : (st.countLow).lastDisc = st.lastDisc := rfl
@[simp] theorem countLow_curDisc : (st.countLow).curDisc = st.curDisc := rfl
@[simp] theorem countLow_position : (st.countLow).position = st.position := rfl
@[simp] theorem countLow_i : (st.countLow).i = st.i := rfl
@[simp] theorem countLow_v : (st.countLow).v = st.v := rfl
@[simp] theorem countLow_c : (st.countLow).c = st.c := rfl
@[simp] theorem countLow_b : (st.countLow).b = st.b := rfl
@[simp] theorem countLow_s : (st.countLow).s = st.s := rfl
@[simp] theorem countLow_e : (st.countLow).e = st.e := rfl
@[simp] theorem countLow_nFloat : (st.countLow).nFloat = st.nFloat := rfl
@[simp] theorem countLow_tRel : (st.countLow).tRel = st.tRel := rfl
@[simp] theorem countLow_seq : (st.countLow).seq = st.seq := rfl
@[simp] theorem countLow_clock : (st.countLow).clock = st.clock := rfl
@[simp] theorem countLow_resetIn : (st.countLow).resetIn = st.resetIn := rfl
@[simp] theorem countLow_resetAt : (st.countLow).resetAt = st.resetAt := rfl
@[simp] theorem countLow_line : (st.countLow).line = st.line := rfl
@[simp] theorem countLow_host : (st.countLow).host = st.host := rfl
@[simp] theorem countLow_answers : (st.countLow).answers = st.answers := rfl
@[simp] theorem countLow_trace : (st.countLow).trace = st.trace := rfl
@[simp] theorem countLow_freeCtr : (st.countLow).freeCtr = st.freeCtr := rfl

/-! ### `noteRelease` -/

@[simp] theorem noteRelease_cfg : (st.noteRelease).cfg = st.cfg := rfl
@[simp] theorem noteRelease_data : (st.noteRelease).data = st.data := rfl
@[simp] theorem noteRelease_busy : (st.noteRelease).busy = st.busy := rfl
@[simp] theorem noteRelease_result : (st.noteRelease).result = st.result := rfl
@[simp] theorem noteRelease_ill : (st.noteRelease).ill = st.ill := rfl
@[simp] theorem noteRelease_presHighQ : (st.noteRelease).presHighQ = st.presHighQ := rfl
@[simp] theorem noteRelease_presLowQ : (st.noteRelease).presLowQ = st.presLowQ := rfl
@[simp] theorem noteRelease_numDevices : (st.noteRelease).numDevices = st.numDevices := rfl
@[simp] theorem noteRelease_devices : (st.noteRelease).devices = st.devices := rfl
@[simp] theorem noteRelease_cmd : (st.noteRelease).cmd = st.cmd := rfl
@[simp] theorem noteRelease_driveLow : (st.noteRelease).driveLow = st.driveLow := rfl
@[simp] theorem noteRelease_rom : (st.noteRelease).rom = st.rom := rfl
@[simp] theorem noteRelease_devicePosition : (st.noteRelease).devicePosition = st.devicePosition := rfl
@[simp] theorem noteRelease_lastDisc : (st.noteRelease).lastDisc = st.lastDisc := rfl
@[simp] theorem noteRelease_curDisc : (st.noteRelease).curDisc = st.curDisc := rfl
@[simp] theorem noteRelease_position : (st.noteRelease).position = st.position := rfl
@[simp] theorem noteRelease_i : (st.noteRelease).i = st.i := rfl
@[simp] theorem noteRelease_v : (st.noteRelease).v = st.v := rfl
@[simp] theorem noteRelease_c : (st.noteRelease).c = st.c := rfl
@[simp] theorem noteRelease_b : (st.noteRelease).b = st.b := rfl
@[simp] theorem noteRelease_s : (st.noteRelease).s = st.s := rfl
@[simp] theorem noteRelease_e : (st.noteRelease).e = st.e := rfl
@[simp] theorem noteRelease_nFloat : (st.noteRelease).nFloat = st.nFloat := rfl
@[simp] theorem noteRelease_tRel : (st.noteRelease).tRel = BitVec.ofNat 16 (st.nFloat.toNat + Config.tQ * (st.presHighQ.toNat + st.presLowQ.toNat)) := rfl
@[simp] theorem noteRelease_seq : (st.noteRelease).seq = st.seq := rfl
@[simp] theorem noteRelease_clock : (st.noteRelease).clock = st.clock := rfl
@[simp] theorem noteRelease_resetIn : (st.noteRelease).resetIn = st.resetIn := rfl
@[simp] theorem noteRelease_resetAt : (st.noteRelease).resetAt = st.resetAt := rfl
@[simp] theorem noteRelease_line : (st.noteRelease).line = st.line := rfl
@[simp] theorem noteRelease_host : (st.noteRelease).host = st.host := rfl
@[simp] theorem noteRelease_answers : (st.noteRelease).answers = st.answers := rfl
@[simp] theorem noteRelease_trace : (st.noteRelease).trace = st.trace := rfl
@[simp] theorem noteRelease_freeCtr : (st.noteRelease).freeCtr = st.freeCtr := rfl

/-! ### `setI` -/

@[simp] theorem setI_cfg (k : Nat) : (st.setI k).cfg = st.cfg := rfl
@[simp] theorem setI_data (k : Nat) : (st.setI k).data = st.data := rfl
@[simp] theorem setI_busy (k : Nat) : (st.setI k).busy = st.busy := rfl
@[simp] theorem setI_result (k : Nat) : (st.setI k).result = st.result := rfl
@[simp] theorem setI_ill (k : Nat) : (st.setI k).ill = st.ill := rfl
@[simp] theorem setI_presHighQ (k : Nat) : (st.setI k).presHighQ = st.presHighQ := rfl
@[simp] theorem setI_presLowQ (k : Nat) : (st.setI k).presLowQ = st.presLowQ := rfl
@[simp] theorem setI_numDevices (k : Nat) : (st.setI k).numDevices = st.numDevices := rfl
@[simp] theorem setI_devices (k : Nat) : (st.setI k).devices = st.devices := rfl
@[simp] theorem setI_cmd (k : Nat) : (st.setI k).cmd = st.cmd := rfl
@[simp] theorem setI_driveLow (k : Nat) : (st.setI k).driveLow = st.driveLow := rfl
@[simp] theorem setI_rom (k : Nat) : (st.setI k).rom = st.rom := rfl
@[simp] theorem setI_devicePosition (k : Nat) : (st.setI k).devicePosition = st.devicePosition := rfl
@[simp] theorem setI_lastDisc (k : Nat) : (st.setI k).lastDisc = st.lastDisc := rfl
@[simp] theorem setI_curDisc (k : Nat) : (st.setI k).curDisc = st.curDisc := rfl
@[simp] theorem setI_position (k : Nat) : (st.setI k).position = st.position := rfl
@[simp] theorem setI_i (k : Nat) : (st.setI k).i = BitVec.ofNat 4 k := rfl
@[simp] theorem setI_v (k : Nat) : (st.setI k).v = st.v := rfl
@[simp] theorem setI_c (k : Nat) : (st.setI k).c = st.c := rfl
@[simp] theorem setI_b (k : Nat) : (st.setI k).b = st.b := rfl
@[simp] theorem setI_s (k : Nat) : (st.setI k).s = st.s := rfl
@[simp] theorem setI_e (k : Nat) : (st.setI k).e = st.e := rfl
@[simp] theorem setI_nFloat (k : Nat) : (st.setI k).nFloat = st.nFloat := rfl
@[simp] theorem setI_tRel (k : Nat) : (st.setI k).tRel = st.tRel := rfl
@[simp] theorem setI_seq (k : Nat) : (st.setI k).seq = st.seq := rfl
@[simp] theorem setI_clock (k : Nat) : (st.setI k).clock = st.clock := rfl
@[simp] theorem setI_resetIn (k : Nat) : (st.setI k).resetIn = st.resetIn := rfl
@[simp] theorem setI_resetAt (k : Nat) : (st.setI k).resetAt = st.resetAt := rfl
@[simp] theorem setI_line (k : Nat) : (st.setI k).line = st.line := rfl
@[simp] theorem setI_host (k : Nat) : (st.setI k).host = st.host := rfl
@[simp] theorem setI_answers (k : Nat) : (st.setI k).answers = st.answers := rfl
@[simp] theorem setI_trace (k : Nat) : (st.setI k).trace = st.trace := rfl
@[simp] theorem setI_freeCtr (k : Nat) : (st.setI k).freeCtr = st.freeCtr := rfl

/-! ### `anyData` -/

@[simp] theorem anyData_cfg : (st.anyData).cfg = st.cfg := rfl
@[simp] theorem anyData_data : (st.anyData).data = Config.freeByte st.freeCtr := rfl
@[simp] theorem anyData_busy : (st.anyData).busy = st.busy := rfl
@[simp] theorem anyData_result : (st.anyData).result = st.result := rfl
@[simp] theorem anyData_ill : (st.anyData).ill = st.ill := rfl
@[simp] theorem anyData_presHighQ : (st.anyData).presHighQ = st.presHighQ := rfl
@[simp] theorem anyData_presLowQ : (st.anyData).presLowQ = st.presLowQ := rfl
@[simp] theorem anyData_numDevices : (st.anyData).numDevices = st.numDevices := rfl
@[simp] theorem anyData_devices : (st.anyData).devices = st.devices := rfl
@[simp] theorem anyData_cmd : (st.anyData).cmd = st.cmd := rfl
@[simp] theorem anyData_driveLow : (st.anyData).driveLow = st.driveLow := rfl
@[simp] theorem anyData_rom : (st.anyData).rom = st.rom := rfl
@[simp] theorem anyData_devicePosition : (st.anyData).devicePosition = st.devicePosition := rfl
@[simp] theorem anyData_lastDisc : (st.anyData).lastDisc = st.lastDisc := rfl
@[simp] theorem anyData_curDisc : (st.anyData).curDisc = st.curDisc := rfl
@[simp] theorem anyData_position : (st.anyData).position = st.position := rfl
@[simp] theorem anyData_i : (st.anyData).i = st.i := rfl
@[simp] theorem anyData_v : (st.anyData).v = st.v := rfl
@[simp] theorem anyData_c : (st.anyData).c = st.c := rfl
@[simp] theorem anyData_b : (st.anyData).b = st.b := rfl
@[simp] theorem anyData_s : (st.anyData).s = st.s := rfl
@[simp] theorem anyData_e : (st.anyData).e = st.e := rfl
@[simp] theorem anyData_nFloat : (st.anyData).nFloat = st.nFloat := rfl
@[simp] theorem anyData_tRel : (st.anyData).tRel = st.tRel := rfl
@[simp] theorem anyData_seq : (st.anyData).seq = st.seq := rfl
@[simp] theorem anyData_clock : (st.anyData).clock = st.clock := rfl
@[simp] theorem anyData_resetIn : (st.anyData).resetIn = st.resetIn := rfl
@[simp] theorem anyData_resetAt : (st.anyData).resetAt = st.resetAt := rfl
@[simp] theorem anyData_line : (st.anyData).line = st.line := rfl
@[simp] theorem anyData_host : (st.anyData).host = st.host := rfl
@[simp] theorem anyData_answers : (st.anyData).answers = st.answers := rfl
@[simp] theorem anyData_trace : (st.anyData).trace = st.trace := rfl
@[simp] theorem anyData_freeCtr : (st.anyData).freeCtr = st.freeCtr + 1 := rfl

/-! ### `setPosition` -/

@[simp] theorem setPosition_cfg (p : Nat) : (st.setPosition p).cfg = st.cfg := rfl
@[simp] theorem setPosition_data (p : Nat) : (st.setPosition p).data = st.data := rfl
@[simp] theorem setPosition_busy (p : Nat) : (st.setPosition p).busy = st.busy := rfl
@[simp] theorem setPosition_result (p : Nat) : (st.setPosition p).result = st.result := rfl
@[simp] theorem setPosition_ill (p : Nat) : (st.setPosition p).ill = st.ill := rfl
@[simp] theorem setPosition_presHighQ (p : Nat) : (st.setPosition p).presHighQ = st.presHighQ := rfl
@[simp] theorem setPosition_presLowQ (p : Nat) : (st.setPosition p).presLowQ = st.presLowQ := rfl
@[simp] theorem setPosition_numDevices (p : Nat) : (st.setPosition p).numDevices = st.numDevices := rfl
@[simp] theorem setPosition_devices (p : Nat) : (st.setPosition p).devices = st.devices := rfl
@[simp] theorem setPosition_cmd (p : Nat) : (st.setPosition p).cmd = st.cmd := rfl
@[simp] theorem setPosition_driveLow (p : Nat) : (st.setPosition p).driveLow = st.driveLow := rfl
@[simp] theorem setPosition_rom (p : Nat) : (st.setPosition p).rom = st.rom := rfl
@[simp] theorem setPosition_devicePosition (p : Nat) : (st.setPosition p).devicePosition = st.devicePosition := rfl
@[simp] theorem setPosition_lastDisc (p : Nat) : (st.setPosition p).lastDisc = st.lastDisc := rfl
@[simp] theorem setPosition_curDisc (p : Nat) : (st.setPosition p).curDisc = st.curDisc := rfl
@[simp] theorem setPosition_position (p : Nat) : (st.setPosition p).position = BitVec.ofNat 7 p := rfl
@[simp] theorem setPosition_i (p : Nat) : (st.setPosition p).i = st.i := rfl
@[simp] theorem setPosition_v (p : Nat) : (st.setPosition p).v = st.v := rfl
@[simp] theorem setPosition_c (p : Nat) : (st.setPosition p).c = st.c := rfl
@[simp] theorem setPosition_b (p : Nat) : (st.setPosition p).b = st.b := rfl
@[simp] theorem setPosition_s (p : Nat) : (st.setPosition p).s = st.s := rfl
@[simp] theorem setPosition_e (p : Nat) : (st.setPosition p).e = st.e := rfl
@[simp] theorem setPosition_nFloat (p : Nat) : (st.setPosition p).nFloat = st.nFloat := rfl
@[simp] theorem setPosition_tRel (p : Nat) : (st.setPosition p).tRel = st.tRel := rfl
@[simp] theorem setPosition_seq (p : Nat) : (st.setPosition p).seq = st.seq := rfl
@[simp] theorem setPosition_clock (p : Nat) : (st.setPosition p).clock = st.clock := rfl
@[simp] theorem setPosition_resetIn (p : Nat) : (st.setPosition p).resetIn = st.resetIn := rfl
@[simp] theorem setPosition_resetAt (p : Nat) : (st.setPosition p).resetAt = st.resetAt := rfl
@[simp] theorem setPosition_line (p : Nat) : (st.setPosition p).line = st.line := rfl
@[simp] theorem setPosition_host (p : Nat) : (st.setPosition p).host = st.host := rfl
@[simp] theorem setPosition_answers (p : Nat) : (st.setPosition p).answers = st.answers := rfl
@[simp] theorem setPosition_trace (p : Nat) : (st.setPosition p).trace = st.trace := rfl
@[simp] theorem setPosition_freeCtr (p : Nat) : (st.setPosition p).freeCtr = st.freeCtr := rfl

/-! ### `latchRom` -/

@[simp] theorem latchRom_cfg (p : Nat) : (st.latchRom p).cfg = st.cfg := rfl
@[simp] theorem latchRom_data (p : Nat) : (st.latchRom p).data = st.data := rfl
@[simp] theorem latchRom_busy (p : Nat) : (st.latchRom p).busy = st.busy := rfl
@[simp] theorem latchRom_result (p : Nat) : (st.latchRom p).result = st.result := rfl
@[simp] theorem latchRom_ill (p : Nat) : (st.latchRom p).ill = st.ill := rfl
@[simp] theorem latchRom_presHighQ (p : Nat) : (st.latchRom p).presHighQ = st.presHighQ := rfl
@[simp] theorem latchRom_presLowQ (p : Nat) : (st.latchRom p).presLowQ = st.presLowQ := rfl
@[simp] theorem latchRom_numDevices (p : Nat) : (st.latchRom p).numDevices = st.numDevices := rfl
@[simp] theorem latchRom_devices (p : Nat) : (st.latchRom p).devices = st.devices := rfl
@[simp] theorem latchRom_cmd (p : Nat) : (st.latchRom p).cmd = st.cmd := rfl
@[simp] theorem latchRom_driveLow (p : Nat) : (st.latchRom p).driveLow = st.driveLow := rfl
@[simp] theorem latchRom_rom (p : Nat) : (st.latchRom p).rom = setBit st.rom p st.b := rfl
@[simp] theorem latchRom_devicePosition (p : Nat) : (st.latchRom p).devicePosition = st.devicePosition := rfl
@[simp] theorem latchRom_lastDisc (p : Nat) : (st.latchRom p).lastDisc = st.lastDisc := rfl
@[simp] theorem latchRom_curDisc (p : Nat) : (st.latchRom p).curDisc = st.curDisc := rfl
@[simp] theorem latchRom_position (p : Nat) : (st.latchRom p).position = st.position := rfl
@[simp] theorem latchRom_i (p : Nat) : (st.latchRom p).i = st.i := rfl
@[simp] theorem latchRom_v (p : Nat) : (st.latchRom p).v = st.v := rfl
@[simp] theorem latchRom_c (p : Nat) : (st.latchRom p).c = st.c := rfl
@[simp] theorem latchRom_b (p : Nat) : (st.latchRom p).b = st.b := rfl
@[simp] theorem latchRom_s (p : Nat) : (st.latchRom p).s = st.s := rfl
@[simp] theorem latchRom_e (p : Nat) : (st.latchRom p).e = st.e := rfl
@[simp] theorem latchRom_nFloat (p : Nat) : (st.latchRom p).nFloat = st.nFloat := rfl
@[simp] theorem latchRom_tRel (p : Nat) : (st.latchRom p).tRel = st.tRel := rfl
@[simp] theorem latchRom_seq (p : Nat) : (st.latchRom p).seq = st.seq := rfl
@[simp] theorem latchRom_clock (p : Nat) : (st.latchRom p).clock = st.clock := rfl
@[simp] theorem latchRom_resetIn (p : Nat) : (st.latchRom p).resetIn = st.resetIn := rfl
@[simp] theorem latchRom_resetAt (p : Nat) : (st.latchRom p).resetAt = st.resetAt := rfl
@[simp] theorem latchRom_line (p : Nat) : (st.latchRom p).line = st.line := rfl
@[simp] theorem latchRom_host (p : Nat) : (st.latchRom p).host = st.host := rfl
@[simp] theorem latchRom_answers (p : Nat) : (st.latchRom p).answers = st.answers := rfl
@[simp] theorem latchRom_trace (p : Nat) : (st.latchRom p).trace = st.trace := rfl
@[simp] theorem latchRom_freeCtr (p : Nat) : (st.latchRom p).freeCtr = st.freeCtr := rfl

/-! ### `startSearch` -/

@[simp] theorem startSearch_cfg : (st.startSearch).cfg = st.cfg := rfl
@[simp] theorem startSearch_data : (st.startSearch).data = st.data := rfl
@[simp] theorem startSearch_busy : (st.startSearch).busy = st.busy := rfl
@[simp] theorem startSearch_result : (st.startSearch).result = st.result := rfl
@[simp] theorem startSearch_ill : (st.startSearch).ill = st.ill := rfl
@[simp] theorem startSearch_presHighQ : (st.startSearch).presHighQ = st.presHighQ := rfl
@[simp] theorem startSearch_presLowQ : (st.startSearch).presLowQ = st.presLowQ := rfl
@[simp] theorem startSearch_numDevices : (st.startSearch).numDevices = st.numDevices := rfl
@[simp] theorem startSearch_devices : (st.startSearch).devices = st.devices := rfl
@[simp] theorem startSearch_cmd : (st.startSearch).cmd = st.cmd := rfl
@[simp] theorem startSearch_driveLow : (st.startSearch).driveLow = st.driveLow := rfl
@[simp] theorem startSearch_rom : (st.startSearch).rom = st.rom := rfl
@[simp] theorem startSearch_devicePosition : (st.startSearch).devicePosition = 0#8 := rfl
@[simp] theorem startSearch_lastDisc : (st.startSearch).lastDisc = none := rfl
@[simp] theorem startSearch_curDisc : (st.startSearch).curDisc = st.curDisc := rfl
@[simp] theorem startSearch_position : (st.startSearch).position = st.position := rfl
@[simp] theorem startSearch_i : (st.startSearch).i = st.i := rfl
@[simp] theorem startSearch_v : (st.startSearch).v = st.v := rfl
@[simp] theorem startSearch_c : (st.startSearch).c = st.c := rfl
@[simp] theorem startSearch_b : (st.startSearch).b = st.b := rfl
@[simp] theorem startSearch_s : (st.startSearch).s = st.s := rfl
@[simp] theorem startSearch_e : (st.startSearch).e = st.e := rfl
@[simp] theorem startSearch_nFloat : (st.startSearch).nFloat = st.nFloat := rfl
@[simp] theorem startSearch_tRel : (st.startSearch).tRel = st.tRel := rfl
@[simp] theorem startSearch_seq : (st.startSearch).seq = st.seq := rfl
@[simp] theorem startSearch_clock : (st.startSearch).clock = st.clock := rfl
@[simp] theorem startSearch_resetIn : (st.startSearch).resetIn = st.resetIn := rfl
@[simp] theorem startSearch_resetAt : (st.startSearch).resetAt = st.resetAt := rfl
@[simp] theorem startSearch_line : (st.startSearch).line = st.line := rfl
@[simp] theorem startSearch_host : (st.startSearch).host = st.host := rfl
@[simp] theorem startSearch_answers : (st.startSearch).answers = st.answers := rfl
@[simp] theorem startSearch_trace : (st.startSearch).trace = st.trace := rfl
@[simp] theorem startSearch_freeCtr : (st.startSearch).freeCtr = st.freeCtr := rfl

/-! ### `startPass` -/

@[simp] theorem startPass_cfg : (st.startPass).cfg = st.cfg := rfl
@[simp] theorem startPass_data : (st.startPass).data = st.data := rfl
@[simp] theorem startPass_busy : (st.startPass).busy = st.busy := rfl
@[simp] theorem startPass_result : (st.startPass).result = st.result := rfl
@[simp] theorem startPass_ill : (st.startPass).ill = st.ill := rfl
@[simp] theorem startPass_presHighQ : (st.startPass).presHighQ = st.presHighQ := rfl
@[simp] theorem startPass_presLowQ : (st.startPass).presLowQ = st.presLowQ := rfl
@[simp] theorem startPass_numDevices : (st.startPass).numDevices = st.numDevices := rfl
@[simp] theorem startPass_devices : (st.startPass).devices = st.devices := rfl
@[simp] theorem startPass_cmd : (st.startPass).cmd = st.cmd := rfl
@[simp] theorem startPass_driveLow : (st.startPass).driveLow = st.driveLow := rfl
@[simp] theorem startPass_rom : (st.startPass).rom = st.rom := rfl
@[simp] theorem startPass_devicePosition : (st.startPass).devicePosition = st.devicePosition := rfl
@[simp] theorem startPass_lastDisc : (st.startPass).lastDisc = st.lastDisc := rfl
@[simp] theorem startPass_curDisc : (st.startPass).curDisc = none := rfl
@[simp] theorem startPass_position : (st.startPass).position = st.position := rfl
@[simp] theorem startPass_i : (st.startPass).i = st.i := rfl
@[simp] theorem startPass_v : (st.startPass).v = st.v := rfl
@[simp] theorem startPass_c : (st.startPass).c = st.c := rfl
@[simp] theorem startPass_b : (st.startPass).b = st.b := rfl
@[simp] theorem startPass_s : (st.startPass).s = st.s := rfl
@[simp] theorem startPass_e : (st.startPass).e = st.e := rfl
@[simp] theorem startPass_nFloat : (st.startPass).nFloat = st.nFloat := rfl
@[simp] theorem startPass_tRel : (st.startPass).tRel = st.tRel := rfl
@[simp] theorem startPass_seq : (st.startPass).seq = st.seq := rfl
@[simp] theorem startPass_clock : (st.startPass).clock = st.clock := rfl
@[simp] theorem startPass_resetIn : (st.startPass).resetIn = st.resetIn := rfl
@[simp] theorem startPass_resetAt : (st.startPass).resetAt = st.resetAt := rfl
@[simp] theorem startPass_line : (st.startPass).line = st.line := rfl
@[simp] theorem startPass_host : (st.startPass).host = st.host := rfl
@[simp] theorem startPass_answers : (st.startPass).answers = st.answers := rfl
@[simp] theorem startPass_trace : (st.startPass).trace = st.trace := rfl
@[simp] theorem startPass_freeCtr : (st.startPass).freeCtr = st.freeCtr := rfl

/-! ### `storePass` -/

@[simp] theorem storePass_cfg : (st.storePass).cfg = st.cfg := rfl
@[simp] theorem storePass_data : (st.storePass).data = st.data := rfl
@[simp] theorem storePass_busy : (st.storePass).busy = st.busy := rfl
@[simp] theorem storePass_result : (st.storePass).result = st.result := rfl
@[simp] theorem storePass_ill : (st.storePass).ill = st.ill := rfl
@[simp] theorem storePass_presHighQ : (st.storePass).presHighQ = st.presHighQ := rfl
@[simp] theorem storePass_presLowQ : (st.storePass).presLowQ = st.presLowQ := rfl
@[simp] theorem storePass_numDevices : (st.storePass).numDevices = st.numDevices := rfl
@[simp] theorem storePass_devices : (st.storePass).devices = st.devices.writeEntry st.devicePosition.toNat st.rom := rfl
@[simp] theorem storePass_cmd : (st.storePass).cmd = st.cmd := rfl
@[simp] theorem storePass_driveLow : (st.storePass).driveLow = st.driveLow := rfl
@[simp] theorem storePass_rom : (st.storePass).rom = st.rom := rfl
@[simp] theorem storePass_devicePosition : (st.storePass).devicePosition = st.devicePosition + 1#8 := rfl
@[simp] theorem storePass_lastDisc : (st.storePass).lastDisc = st.curDisc := rfl
@[simp] theorem storePass_curDisc : (st.storePass).curDisc = st.curDisc := rfl
@[simp] theorem storePass_position : (st.storePass).position = st.position := rfl
@[simp] theorem storePass_i : (st.storePass).i = st.i := rfl
@[simp] theorem storePass_v : (st.storePass).v = st.v := rfl
@[simp] theorem storePass_c : (st.storePass).c = st.c := rfl
@[simp] theorem storePass_b : (st.storePass).b = st.b := rfl
@[simp] theorem storePass_s : (st.storePass).s = st.s := rfl
@[simp] theorem storePass_e : (st.storePass).e = st.e := rfl
@[simp] theorem storePass_nFloat : (st.storePass).nFloat = st.nFloat := rfl
@[simp] theorem storePass_tRel : (st.storePass).tRel = st.tRel := rfl
@[simp] theorem storePass_seq : (st.storePass).seq = st.seq := rfl
@[simp] theorem storePass_clock : (st.storePass).clock = st.clock := rfl
@[simp] theorem storePass_resetIn : (st.storePass).resetIn = st.resetIn := rfl
@[simp] theorem storePass_resetAt : (st.storePass).resetAt = st.resetAt := rfl
@[simp] theorem storePass_line : (st.storePass).line = st.line := rfl
@[simp] theorem storePass_host : (st.storePass).host = st.host := rfl
@[simp] theorem storePass_answers : (st.storePass).answers = st.answers := rfl
@[simp] theorem storePass_trace : (st.storePass).trace = st.trace := rfl
@[simp] theorem storePass_freeCtr : (st.storePass).freeCtr = st.freeCtr := rfl

/-! ### `countDevices` -/

@[simp] theorem countDevices_cfg : (st.countDevices).cfg = st.cfg := rfl
@[simp] theorem countDevices_data : (st.countDevices).data = st.data := rfl
@[simp] theorem countDevices_busy : (st.countDevices).busy = st.busy := rfl
@[simp] theorem countDevices_result : (st.countDevices).result = st.result := rfl
@[simp] theorem countDevices_ill : (st.countDevices).ill = st.ill := rfl
@[simp] theorem countDevices_presHighQ : (st.countDevices).presHighQ = st.presHighQ := rfl
@[simp] theorem countDevices_presLowQ : (st.countDevices).presLowQ = st.presLowQ := rfl
@[simp] theorem countDevices_numDevices : (st.countDevices).numDevices = st.devicePosition := rfl
@[simp] theorem countDevices_devices : (st.countDevices).devices = st.devices := rfl
@[simp] theorem countDevices_cmd : (st.countDevices).cmd = st.cmd := rfl
@[simp] theorem countDevices_driveLow : (st.countDevices).driveLow = st.driveLow := rfl
@[simp] theorem countDevices_rom : (st.countDevices).rom = st.rom := rfl
@[simp] theorem countDevices_devicePosition : (st.countDevices).devicePosition = st.devicePosition := rfl
@[simp] theorem countDevices_lastDisc : (st.countDevices).lastDisc = st.lastDisc := rfl
@[simp] theorem countDevices_curDisc : (st.countDevices).curDisc = st.curDisc := rfl
@[simp] theorem countDevices_position : (st.countDevices).position = st.position := rfl
@[simp] theorem countDevices_i : (st.countDevices).i = st.i := rfl
@[simp] theorem countDevices_v : (st.countDevices).v = st.v := rfl
@[simp] theorem countDevices_c : (st.countDevices).c = st.c := rfl
@[simp] theorem countDevices_b : (st.countDevices).b = st.b := rfl
@[simp] theorem countDevices_s : (st.countDevices).s = st.s := rfl
@[simp] theorem countDevices_e : (st.countDevices).e = st.e := rfl
@[simp] theorem countDevices_nFloat : (st.countDevices).nFloat = st.nFloat := rfl
@[simp] theorem countDevices_tRel : (st.countDevices).tRel = st.tRel := rfl
@[simp] theorem countDevices_seq : (st.countDevices).seq = st.seq := rfl
@[simp] theorem countDevices_clock : (st.countDevices).clock = st.clock := rfl
@[simp] theorem countDevices_resetIn : (st.countDevices).resetIn = st.resetIn := rfl
@[simp] theorem countDevices_resetAt : (st.countDevices).resetAt = st.resetAt := rfl
@[simp] theorem countDevices_line : (st.countDevices).line = st.line := rfl
@[simp] theorem countDevices_host : (st.countDevices).host = st.host := rfl
@[simp] theorem countDevices_answers : (st.countDevices).answers = st.answers := rfl
@[simp] theorem countDevices_trace : (st.countDevices).trace = st.trace := rfl
@[simp] theorem countDevices_freeCtr : (st.countDevices).freeCtr = st.freeCtr := rfl

/-! ### `noteSample` -/

@[simp] theorem noteSample_cfg : (st.noteSample).cfg = st.cfg := rfl
@[simp] theorem noteSample_data : (st.noteSample).data = st.data := rfl
@[simp] theorem noteSample_busy : (st.noteSample).busy = st.busy := rfl
@[simp] theorem noteSample_result : (st.noteSample).result = st.result := rfl
@[simp] theorem noteSample_ill : (st.noteSample).ill = st.ill := rfl
@[simp] theorem noteSample_presHighQ : (st.noteSample).presHighQ = st.presHighQ := rfl
@[simp] theorem noteSample_presLowQ : (st.noteSample).presLowQ = st.presLowQ := rfl
@[simp] theorem noteSample_numDevices : (st.noteSample).numDevices = st.numDevices := rfl
@[simp] theorem noteSample_devices : (st.noteSample).devices = st.devices := rfl
@[simp] theorem noteSample_cmd : (st.noteSample).cmd = st.cmd := rfl
@[simp] theorem noteSample_driveLow : (st.noteSample).driveLow = st.driveLow := rfl
@[simp] theorem noteSample_rom : (st.noteSample).rom = st.rom := rfl
@[simp] theorem noteSample_devicePosition : (st.noteSample).devicePosition = st.devicePosition := rfl
@[simp] theorem noteSample_lastDisc : (st.noteSample).lastDisc = st.lastDisc := rfl
@[simp] theorem noteSample_curDisc : (st.noteSample).curDisc = st.curDisc := rfl
@[simp] theorem noteSample_position : (st.noteSample).position = st.position := rfl
@[simp] theorem noteSample_i : (st.noteSample).i = st.i := rfl
@[simp] theorem noteSample_v : (st.noteSample).v = st.v := rfl
@[simp] theorem noteSample_c : (st.noteSample).c = st.c := rfl
@[simp] theorem noteSample_b : (st.noteSample).b = st.b := rfl
@[simp] theorem noteSample_s : (st.noteSample).s = st.s := rfl
@[simp] theorem noteSample_e : (st.noteSample).e = st.e := rfl
@[simp] theorem noteSample_nFloat : (st.noteSample).nFloat = st.nFloat := rfl
@[simp] theorem noteSample_tRel : (st.noteSample).tRel = st.tRel := rfl
@[simp] theorem noteSample_seq : (st.noteSample).seq = st.seq := rfl
@[simp] theorem noteSample_clock : (st.noteSample).clock = st.clock := rfl
@[simp] theorem noteSample_resetIn : (st.noteSample).resetIn = st.resetIn := rfl
@[simp] theorem noteSample_resetAt : (st.noteSample).resetAt = st.resetAt := rfl
@[simp] theorem noteSample_line : (st.noteSample).line = st.line := rfl
@[simp] theorem noteSample_host : (st.noteSample).host = st.host := rfl
@[simp] theorem noteSample_answers : (st.noteSample).answers = st.answers := rfl
@[simp] theorem noteSample_trace : (st.noteSample).trace = (st.clock, .sample st.lineIn) :: st.trace := rfl
@[simp] theorem noteSample_freeCtr : (st.noteSample).freeCtr = st.freeCtr := rfl

/-! ### `tick` -/

@[simp] theorem tick_cfg (n : Nat) : (st.tick n).cfg = st.cfg := rfl
@[simp] theorem tick_data (n : Nat) : (st.tick n).data = st.data := rfl
@[simp] theorem tick_busy (n : Nat) : (st.tick n).busy = st.busy := rfl
@[simp] theorem tick_result (n : Nat) : (st.tick n).result = st.result := rfl
@[simp] theorem tick_ill (n : Nat) : (st.tick n).ill = st.ill := rfl
@[simp] theorem tick_presHighQ (n : Nat) : (st.tick n).presHighQ = st.presHighQ := rfl
@[simp] theorem tick_presLowQ (n : Nat) : (st.tick n).presLowQ = st.presLowQ := rfl
@[simp] theorem tick_numDevices (n : Nat) : (st.tick n).numDevices = st.numDevices := rfl
@[simp] theorem tick_devices (n : Nat) : (st.tick n).devices = st.devices := rfl
@[simp] theorem tick_cmd (n : Nat) : (st.tick n).cmd = st.cmd := rfl
@[simp] theorem tick_driveLow (n : Nat) : (st.tick n).driveLow = st.driveLow := rfl
@[simp] theorem tick_rom (n : Nat) : (st.tick n).rom = st.rom := rfl
@[simp] theorem tick_devicePosition (n : Nat) : (st.tick n).devicePosition = st.devicePosition := rfl
@[simp] theorem tick_lastDisc (n : Nat) : (st.tick n).lastDisc = st.lastDisc := rfl
@[simp] theorem tick_curDisc (n : Nat) : (st.tick n).curDisc = st.curDisc := rfl
@[simp] theorem tick_position (n : Nat) : (st.tick n).position = st.position := rfl
@[simp] theorem tick_i (n : Nat) : (st.tick n).i = st.i := rfl
@[simp] theorem tick_v (n : Nat) : (st.tick n).v = st.v := rfl
@[simp] theorem tick_c (n : Nat) : (st.tick n).c = st.c := rfl
@[simp] theorem tick_b (n : Nat) : (st.tick n).b = st.b := rfl
@[simp] theorem tick_s (n : Nat) : (st.tick n).s = st.s := rfl
@[simp] theorem tick_e (n : Nat) : (st.tick n).e = st.e := rfl
@[simp] theorem tick_nFloat (n : Nat) : (st.tick n).nFloat = st.nFloat := rfl
@[simp] theorem tick_tRel (n : Nat) : (st.tick n).tRel = st.tRel := rfl
@[simp] theorem tick_seq (n : Nat) : (st.tick n).seq = st.seq := rfl
@[simp] theorem tick_clock (n : Nat) : (st.tick n).clock = st.clock + n := rfl
@[simp] theorem tick_resetIn (n : Nat) : (st.tick n).resetIn = st.resetIn := rfl
@[simp] theorem tick_resetAt (n : Nat) : (st.tick n).resetAt = st.resetAt := rfl
@[simp] theorem tick_line (n : Nat) : (st.tick n).line = st.line := rfl
@[simp] theorem tick_host (n : Nat) : (st.tick n).host = st.host := rfl
@[simp] theorem tick_answers (n : Nat) : (st.tick n).answers = st.answers := rfl
@[simp] theorem tick_trace (n : Nat) : (st.tick n).trace = st.trace := rfl
@[simp] theorem tick_freeCtr (n : Nat) : (st.tick n).freeCtr = st.freeCtr := rfl

/-! ### `lineTo` -/

@[simp] theorem lineTo_cfg (l : LineEnv) (n : Nat) (tr : List (Nat × LineEvent)) : (st.lineTo l n tr).cfg = st.cfg := rfl
@[simp] theorem lineTo_data (l : LineEnv) (n : Nat) (tr : List (Nat × LineEvent)) : (st.lineTo l n tr).data = st.data := rfl
@[simp] theorem lineTo_busy (l : LineEnv) (n : Nat) (tr : List (Nat × LineEvent)) : (st.lineTo l n tr).busy = st.busy := rfl
@[simp] theorem lineTo_result (l : LineEnv) (n : Nat) (tr : List (Nat × LineEvent)) : (st.lineTo l n tr).result = st.result := rfl
@[simp] theorem lineTo_ill (l : LineEnv) (n : Nat) (tr : List (Nat × LineEvent)) : (st.lineTo l n tr).ill = st.ill := rfl
@[simp] theorem lineTo_presHighQ (l : LineEnv) (n : Nat) (tr : List (Nat × LineEvent)) : (st.lineTo l n tr).presHighQ = st.presHighQ := rfl
@[simp] theorem lineTo_presLowQ (l : LineEnv) (n : Nat) (tr : List (Nat × LineEvent)) : (st.lineTo l n tr).presLowQ = st.presLowQ := rfl
@[simp] theorem lineTo_numDevices (l : LineEnv) (n : Nat) (tr : List (Nat × LineEvent)) : (st.lineTo l n tr).numDevices = st.numDevices := rfl
@[simp] theorem lineTo_devices (l : LineEnv) (n : Nat) (tr : List (Nat × LineEvent)) : (st.lineTo l n tr).devices = st.devices := rfl
@[simp] theorem lineTo_cmd (l : LineEnv) (n : Nat) (tr : List (Nat × LineEvent)) : (st.lineTo l n tr).cmd = st.cmd := rfl
@[simp] theorem lineTo_driveLow (l : LineEnv) (n : Nat) (tr : List (Nat × LineEvent)) : (st.lineTo l n tr).driveLow = st.driveLow := rfl
@[simp] theorem lineTo_rom (l : LineEnv) (n : Nat) (tr : List (Nat × LineEvent)) : (st.lineTo l n tr).rom = st.rom := rfl
@[simp] theorem lineTo_devicePosition (l : LineEnv) (n : Nat) (tr : List (Nat × LineEvent)) : (st.lineTo l n tr).devicePosition = st.devicePosition := rfl
@[simp] theorem lineTo_lastDisc (l : LineEnv) (n : Nat) (tr : List (Nat × LineEvent)) : (st.lineTo l n tr).lastDisc = st.lastDisc := rfl
@[simp] theorem lineTo_curDisc (l : LineEnv) (n : Nat) (tr : List (Nat × LineEvent)) : (st.lineTo l n tr).curDisc = st.curDisc := rfl
@[simp] theorem lineTo_position (l : LineEnv) (n : Nat) (tr : List (Nat × LineEvent)) : (st.lineTo l n tr).position = st.position := rfl
@[simp] theorem lineTo_i (l : LineEnv) (n : Nat) (tr : List (Nat × LineEvent)) : (st.lineTo l n tr).i = st.i := rfl
@[simp] theorem lineTo_v (l : LineEnv) (n : Nat) (tr : List (Nat × LineEvent)) : (st.lineTo l n tr).v = st.v := rfl
@[simp] theorem lineTo_c (l : LineEnv) (n : Nat) (tr : List (Nat × LineEvent)) : (st.lineTo l n tr).c = st.c := rfl
@[simp] theorem lineTo_b (l : LineEnv) (n : Nat) (tr : List (Nat × LineEvent)) : (st.lineTo l n tr).b = st.b := rfl
@[simp] theorem lineTo_s (l : LineEnv) (n : Nat) (tr : List (Nat × LineEvent)) : (st.lineTo l n tr).s = st.s := rfl
@[simp] theorem lineTo_e (l : LineEnv) (n : Nat) (tr : List (Nat × LineEvent)) : (st.lineTo l n tr).e = st.e := rfl
@[simp] theorem lineTo_nFloat (l : LineEnv) (n : Nat) (tr : List (Nat × LineEvent)) : (st.lineTo l n tr).nFloat = st.nFloat := rfl
@[simp] theorem lineTo_tRel (l : LineEnv) (n : Nat) (tr : List (Nat × LineEvent)) : (st.lineTo l n tr).tRel = st.tRel := rfl
@[simp] theorem lineTo_seq (l : LineEnv) (n : Nat) (tr : List (Nat × LineEvent)) : (st.lineTo l n tr).seq = st.seq := rfl
@[simp] theorem lineTo_clock (l : LineEnv) (n : Nat) (tr : List (Nat × LineEvent)) : (st.lineTo l n tr).clock = n := rfl
@[simp] theorem lineTo_resetIn (l : LineEnv) (n : Nat) (tr : List (Nat × LineEvent)) : (st.lineTo l n tr).resetIn = st.resetIn := rfl
@[simp] theorem lineTo_resetAt (l : LineEnv) (n : Nat) (tr : List (Nat × LineEvent)) : (st.lineTo l n tr).resetAt = st.resetAt := rfl
@[simp] theorem lineTo_line (l : LineEnv) (n : Nat) (tr : List (Nat × LineEvent)) : (st.lineTo l n tr).line = l := rfl
@[simp] theorem lineTo_host (l : LineEnv) (n : Nat) (tr : List (Nat × LineEvent)) : (st.lineTo l n tr).host = st.host := rfl
@[simp] theorem lineTo_answers (l : LineEnv) (n : Nat) (tr : List (Nat × LineEvent)) : (st.lineTo l n tr).answers = st.answers := rfl
@[simp] theorem lineTo_trace (l : LineEnv) (n : Nat) (tr : List (Nat × LineEvent)) : (st.lineTo l n tr).trace = tr ++ st.trace := rfl
@[simp] theorem lineTo_freeCtr (l : LineEnv) (n : Nat) (tr : List (Nat × LineEvent)) : (st.lineTo l n tr).freeCtr = st.freeCtr := rfl

/-! ### `sampled` -/

@[simp] theorem sampled_cfg (x y : Bool) (d : Byte) : (st.sampled x y d).cfg = st.cfg := rfl
@[simp] theorem sampled_data (x y : Bool) (d : Byte) : (st.sampled x y d).data = d := rfl
@[simp] theorem sampled_busy (x y : Bool) (d : Byte) : (st.sampled x y d).busy = st.busy := rfl
@[simp] theorem sampled_result (x y : Bool) (d : Byte) : (st.sampled x y d).result = st.result := rfl
@[simp] theorem sampled_ill (x y : Bool) (d : Byte) : (st.sampled x y d).ill = st.ill := rfl
@[simp] theorem sampled_presHighQ (x y : Bool) (d : Byte) : (st.sampled x y d).presHighQ = st.presHighQ := rfl
@[simp] theorem sampled_presLowQ (x y : Bool) (d : Byte) : (st.sampled x y d).presLowQ = st.presLowQ := rfl
@[simp] theorem sampled_numDevices (x y : Bool) (d : Byte) : (st.sampled x y d).numDevices = st.numDevices := rfl
@[simp] theorem sampled_devices (x y : Bool) (d : Byte) : (st.sampled x y d).devices = st.devices := rfl
@[simp] theorem sampled_cmd (x y : Bool) (d : Byte) : (st.sampled x y d).cmd = st.cmd := rfl
@[simp] theorem sampled_driveLow (x y : Bool) (d : Byte) : (st.sampled x y d).driveLow = st.driveLow := rfl
@[simp] theorem sampled_rom (x y : Bool) (d : Byte) : (st.sampled x y d).rom = st.rom := rfl
@[simp] theorem sampled_devicePosition (x y : Bool) (d : Byte) : (st.sampled x y d).devicePosition = st.devicePosition := rfl
@[simp] theorem sampled_lastDisc (x y : Bool) (d : Byte) : (st.sampled x y d).lastDisc = st.lastDisc := rfl
@[simp] theorem sampled_curDisc (x y : Bool) (d : Byte) : (st.sampled x y d).curDisc = st.curDisc := rfl
@[simp] theorem sampled_position (x y : Bool) (d : Byte) : (st.sampled x y d).position = st.position := rfl
@[simp] theorem sampled_i (x y : Bool) (d : Byte) : (st.sampled x y d).i = st.i := rfl
@[simp] theorem sampled_v (x y : Bool) (d : Byte) : (st.sampled x y d).v = st.v := rfl
@[simp] theorem sampled_c (x y : Bool) (d : Byte) : (st.sampled x y d).c = st.c := rfl
@[simp] theorem sampled_b (x y : Bool) (d : Byte) : (st.sampled x y d).b = st.b := rfl
@[simp] theorem sampled_s (x y : Bool) (d : Byte) : (st.sampled x y d).s = x := rfl
@[simp] theorem sampled_e (x y : Bool) (d : Byte) : (st.sampled x y d).e = y := rfl
@[simp] theorem sampled_nFloat (x y : Bool) (d : Byte) : (st.sampled x y d).nFloat = st.nFloat := rfl
@[simp] theorem sampled_tRel (x y : Bool) (d : Byte) : (st.sampled x y d).tRel = st.tRel := rfl
@[simp] theorem sampled_seq (x y : Bool) (d : Byte) : (st.sampled x y d).seq = st.seq := rfl
@[simp] theorem sampled_clock (x y : Bool) (d : Byte) : (st.sampled x y d).clock = st.clock := rfl
@[simp] theorem sampled_resetIn (x y : Bool) (d : Byte) : (st.sampled x y d).resetIn = st.resetIn := rfl
@[simp] theorem sampled_resetAt (x y : Bool) (d : Byte) : (st.sampled x y d).resetAt = st.resetAt := rfl
@[simp] theorem sampled_line (x y : Bool) (d : Byte) : (st.sampled x y d).line = st.line := rfl
@[simp] theorem sampled_host (x y : Bool) (d : Byte) : (st.sampled x y d).host = st.host := rfl
@[simp] theorem sampled_answers (x y : Bool) (d : Byte) : (st.sampled x y d).answers = st.answers := rfl
@[simp] theorem sampled_trace (x y : Bool) (d : Byte) : (st.sampled x y d).trace = st.trace := rfl
@[simp] theorem sampled_freeCtr (x y : Bool) (d : Byte) : (st.sampled x y d).freeCtr = st.freeCtr := rfl

/-! ### `noHost` -/

@[simp] theorem noHost_cfg : (st.noHost).cfg = st.cfg := rfl
@[simp] theorem noHost_data : (st.noHost).data = st.data := rfl
@[simp] theorem noHost_busy : (st.noHost).busy = st.busy := rfl
@[simp] theorem noHost_result : (st.noHost).result = st.result := rfl
@[simp] theorem noHost_ill : (st.noHost).ill = false := rfl
@[simp] theorem noHost_presHighQ : (st.noHost).presHighQ = st.presHighQ := rfl
@[simp] theorem noHost_presLowQ : (st.noHost).presLowQ = st.presLowQ := rfl
@[simp] theorem noHost_numDevices : (st.noHost).numDevices = st.numDevices := rfl
@[simp] theorem noHost_devices : (st.noHost).devices = st.devices := rfl
@[simp] theorem noHost_cmd : (st.noHost).cmd = st.cmd := rfl
@[simp] theorem noHost_driveLow : (st.noHost).driveLow = st.driveLow := rfl
@[simp] theorem noHost_rom : (st.noHost).rom = st.rom := rfl
@[simp] theorem noHost_devicePosition : (st.noHost).devicePosition = st.devicePosition := rfl
@[simp] theorem noHost_lastDisc : (st.noHost).lastDisc = st.lastDisc := rfl
@[simp] theorem noHost_curDisc : (st.noHost).curDisc = st.curDisc := rfl
@[simp] theorem noHost_position : (st.noHost).position = st.position := rfl
@[simp] theorem noHost_i : (st.noHost).i = st.i := rfl
@[simp] theorem noHost_v : (st.noHost).v = st.v := rfl
@[simp] theorem noHost_c : (st.noHost).c = st.c := rfl
@[simp] theorem noHost_b : (st.noHost).b = st.b := rfl
@[simp] theorem noHost_s : (st.noHost).s = st.s := rfl
@[simp] theorem noHost_e : (st.noHost).e = st.e := rfl
@[simp] theorem noHost_nFloat : (st.noHost).nFloat = st.nFloat := rfl
@[simp] theorem noHost_tRel : (st.noHost).tRel = st.tRel := rfl
@[simp] theorem noHost_seq : (st.noHost).seq = st.seq := rfl
@[simp] theorem noHost_clock : (st.noHost).clock = st.clock := rfl
@[simp] theorem noHost_resetIn : (st.noHost).resetIn = st.resetIn := rfl
@[simp] theorem noHost_resetAt : (st.noHost).resetAt = st.resetAt := rfl
@[simp] theorem noHost_line : (st.noHost).line = st.line := rfl
@[simp] theorem noHost_host : (st.noHost).host = [] := rfl
@[simp] theorem noHost_answers : (st.noHost).answers = [] := rfl
@[simp] theorem noHost_trace : (st.noHost).trace = st.trace := rfl
@[simp] theorem noHost_freeCtr : (st.noHost).freeCtr = 0 := rfl

/-! ### `driveLine` -/

@[simp] theorem driveLine_cfg : st.driveLine.cfg = st.cfg := by unfold State.driveLine; split <;> rfl
@[simp] theorem driveLine_data : st.driveLine.data = st.data := by unfold State.driveLine; split <;> rfl
@[simp] theorem driveLine_busy : st.driveLine.busy = st.busy := by unfold State.driveLine; split <;> rfl
@[simp] theorem driveLine_result : st.driveLine.result = st.result := by unfold State.driveLine; split <;> rfl
@[simp] theorem driveLine_ill : st.driveLine.ill = st.ill := by unfold State.driveLine; split <;> rfl
@[simp] theorem driveLine_presHighQ : st.driveLine.presHighQ = st.presHighQ := by unfold State.driveLine; split <;> rfl
@[simp] theorem driveLine_presLowQ : st.driveLine.presLowQ = st.presLowQ := by unfold State.driveLine; split <;> rfl
@[simp] theorem driveLine_numDevices : st.driveLine.numDevices = st.numDevices := by unfold State.driveLine; split <;> rfl
@[simp] theorem driveLine_devices : st.driveLine.devices = st.devices := by unfold State.driveLine; split <;> rfl
@[simp] theorem driveLine_cmd : st.driveLine.cmd = st.cmd := by unfold State.driveLine; split <;> rfl
@[simp] theorem driveLine_driveLow : st.driveLine.driveLow = true := by
  unfold State.driveLine; split <;> simp_all
@[simp] theorem driveLine_rom : st.driveLine.rom = st.rom := by unfold State.driveLine; split <;> rfl
@[simp] theorem driveLine_devicePosition : st.driveLine.devicePosition = st.devicePosition := by unfold State.driveLine; split <;> rfl
@[simp] theorem driveLine_lastDisc : st.driveLine.lastDisc = st.lastDisc := by unfold State.driveLine; split <;> rfl
@[simp] theorem driveLine_curDisc : st.driveLine.curDisc = st.curDisc := by unfold State.driveLine; split <;> rfl
@[simp] theorem driveLine_position : st.driveLine.position = st.position := by unfold State.driveLine; split <;> rfl
@[simp] theorem driveLine_i : st.driveLine.i = st.i := by unfold State.driveLine; split <;> rfl
@[simp] theorem driveLine_v : st.driveLine.v = st.v := by unfold State.driveLine; split <;> rfl
@[simp] theorem driveLine_c : st.driveLine.c = st.c := by unfold State.driveLine; split <;> rfl
@[simp] theorem driveLine_b : st.driveLine.b = st.b := by unfold State.driveLine; split <;> rfl
@[simp] theorem driveLine_s : st.driveLine.s = st.s := by unfold State.driveLine; split <;> rfl
@[simp] theorem driveLine_e : st.driveLine.e = st.e := by unfold State.driveLine; split <;> rfl
@[simp] theorem driveLine_nFloat : st.driveLine.nFloat = st.nFloat := by unfold State.driveLine; split <;> rfl
@[simp] theorem driveLine_tRel : st.driveLine.tRel = st.tRel := by unfold State.driveLine; split <;> rfl
@[simp] theorem driveLine_seq : st.driveLine.seq = st.seq := by unfold State.driveLine; split <;> rfl
@[simp] theorem driveLine_clock : st.driveLine.clock = st.clock := by unfold State.driveLine; split <;> rfl
@[simp] theorem driveLine_resetIn : st.driveLine.resetIn = st.resetIn := by unfold State.driveLine; split <;> rfl
@[simp] theorem driveLine_resetAt : st.driveLine.resetAt = st.resetAt := by unfold State.driveLine; split <;> rfl
@[simp] theorem driveLine_line : st.driveLine.line = if st.driveLow then st.line else st.line.onDrive st.clock := by
  unfold State.driveLine; split <;> rfl
@[simp] theorem driveLine_host : st.driveLine.host = st.host := by unfold State.driveLine; split <;> rfl
@[simp] theorem driveLine_answers : st.driveLine.answers = st.answers := by unfold State.driveLine; split <;> rfl
@[simp] theorem driveLine_trace :
    st.driveLine.trace = if st.driveLow then st.trace else (st.clock, .drive) :: st.trace := by
  unfold State.driveLine; split <;> rfl
@[simp] theorem driveLine_freeCtr : st.driveLine.freeCtr = st.freeCtr := by unfold State.driveLine; split <;> rfl

/-! ### `releaseLine` -/

@[simp] theorem releaseLine_cfg : st.releaseLine.cfg = st.cfg := by unfold State.releaseLine; split <;> rfl
@[simp] theorem releaseLine_data : st.releaseLine.data = st.data := by unfold State.releaseLine; split <;> rfl
@[simp] theorem releaseLine_busy : st.releaseLine.busy = st.busy := by unfold State.releaseLine; split <;> rfl
@[simp] theorem releaseLine_result : st.releaseLine.result = st.result := by unfold State.releaseLine; split <;> rfl
@[simp] theorem releaseLine_ill : st.releaseLine.ill = st.ill := by unfold State.releaseLine; split <;> rfl
@[simp] theorem releaseLine_presHighQ : st.releaseLine.presHighQ = st.presHighQ := by unfold State.releaseLine; split <;> rfl
@[simp] theorem releaseLine_presLowQ : st.releaseLine.presLowQ = st.presLowQ := by unfold State.releaseLine; split <;> rfl
@[simp] theorem releaseLine_numDevices : st.releaseLine.numDevices = st.numDevices := by unfold State.releaseLine; split <;> rfl
@[simp] theorem releaseLine_devices : st.releaseLine.devices = st.devices := by unfold State.releaseLine; split <;> rfl
@[simp] theorem releaseLine_cmd : st.releaseLine.cmd = st.cmd := by unfold State.releaseLine; split <;> rfl
@[simp] theorem releaseLine_driveLow : st.releaseLine.driveLow = false := by
  unfold State.releaseLine; split <;> simp_all
@[simp] theorem releaseLine_rom : st.releaseLine.rom = st.rom := by unfold State.releaseLine; split <;> rfl
@[simp] theorem releaseLine_devicePosition : st.releaseLine.devicePosition = st.devicePosition := by unfold State.releaseLine; split <;> rfl
@[simp] theorem releaseLine_lastDisc : st.releaseLine.lastDisc = st.lastDisc := by unfold State.releaseLine; split <;> rfl
@[simp] theorem releaseLine_curDisc : st.releaseLine.curDisc = st.curDisc := by unfold State.releaseLine; split <;> rfl
@[simp] theorem releaseLine_position : st.releaseLine.position = st.position := by unfold State.releaseLine; split <;> rfl
@[simp] theorem releaseLine_i : st.releaseLine.i = st.i := by unfold State.releaseLine; split <;> rfl
@[simp] theorem releaseLine_v : st.releaseLine.v = st.v := by unfold State.releaseLine; split <;> rfl
@[simp] theorem releaseLine_c : st.releaseLine.c = st.c := by unfold State.releaseLine; split <;> rfl
@[simp] theorem releaseLine_b : st.releaseLine.b = st.b := by unfold State.releaseLine; split <;> rfl
@[simp] theorem releaseLine_s : st.releaseLine.s = st.s := by unfold State.releaseLine; split <;> rfl
@[simp] theorem releaseLine_e : st.releaseLine.e = st.e := by unfold State.releaseLine; split <;> rfl
@[simp] theorem releaseLine_nFloat : st.releaseLine.nFloat = st.nFloat := by unfold State.releaseLine; split <;> rfl
@[simp] theorem releaseLine_tRel : st.releaseLine.tRel = st.tRel := by unfold State.releaseLine; split <;> rfl
@[simp] theorem releaseLine_seq : st.releaseLine.seq = st.seq := by unfold State.releaseLine; split <;> rfl
@[simp] theorem releaseLine_clock : st.releaseLine.clock = st.clock := by unfold State.releaseLine; split <;> rfl
@[simp] theorem releaseLine_resetIn : st.releaseLine.resetIn = st.resetIn := by unfold State.releaseLine; split <;> rfl
@[simp] theorem releaseLine_resetAt : st.releaseLine.resetAt = st.resetAt := by unfold State.releaseLine; split <;> rfl
@[simp] theorem releaseLine_line : st.releaseLine.line = if st.driveLow then st.line.onRelease st.clock else st.line := by
  unfold State.releaseLine; split <;> rfl
@[simp] theorem releaseLine_host : st.releaseLine.host = st.host := by unfold State.releaseLine; split <;> rfl
@[simp] theorem releaseLine_answers : st.releaseLine.answers = st.answers := by unfold State.releaseLine; split <;> rfl
@[simp] theorem releaseLine_trace :
    st.releaseLine.trace = if st.driveLow then (st.clock, .release) :: st.trace else st.trace := by
  unfold State.releaseLine; split <;> rfl
@[simp] theorem releaseLine_freeCtr : st.releaseLine.freeCtr = st.freeCtr := by unfold State.releaseLine; split <;> rfl

/-! ### `hwReset` -/

@[simp] theorem hwReset_cfg : st.hwReset.cfg = st.cfg := releaseLine_cfg st
@[simp] theorem hwReset_data : st.hwReset.data = 0x00#8 := rfl
@[simp] theorem hwReset_busy : st.hwReset.busy = false := rfl
@[simp] theorem hwReset_result : st.hwReset.result = .ok := rfl
@[simp] theorem hwReset_ill : st.hwReset.ill = false := rfl
@[simp] theorem hwReset_presHighQ : st.hwReset.presHighQ = 0#8 := rfl
@[simp] theorem hwReset_presLowQ : st.hwReset.presLowQ = 0#8 := rfl
@[simp] theorem hwReset_numDevices : st.hwReset.numDevices = 0#8 := rfl
@[simp] theorem hwReset_devices : st.hwReset.devices = [] := rfl
@[simp] theorem hwReset_cmd : st.hwReset.cmd = 0x00#8 := rfl
@[simp] theorem hwReset_driveLow : st.hwReset.driveLow = false := rfl
@[simp] theorem hwReset_seq : st.hwReset.seq = [] := rfl
@[simp] theorem hwReset_clock : st.hwReset.clock = st.clock := releaseLine_clock st
@[simp] theorem hwReset_resetIn : st.hwReset.resetIn = true := rfl
@[simp] theorem hwReset_resetAt : st.hwReset.resetAt = st.clock := releaseLine_clock st
@[simp] theorem hwReset_line : st.hwReset.line = st.releaseLine.line := rfl
@[simp] theorem hwReset_host : st.hwReset.host = st.host := releaseLine_host st
@[simp] theorem hwReset_answers : st.hwReset.answers = st.answers := releaseLine_answers st
@[simp] theorem hwReset_trace : st.hwReset.trace = st.releaseLine.trace := rfl
@[simp] theorem hwReset_freeCtr : st.hwReset.freeCtr = st.freeCtr := releaseLine_freeCtr st

/-! ### `hwRelease` -/

@[simp] theorem hwRelease_cfg : st.hwRelease.cfg = st.cfg := by unfold State.hwRelease; split <;> rfl
@[simp] theorem hwRelease_data : st.hwRelease.data = st.data := by unfold State.hwRelease; split <;> rfl
@[simp] theorem hwRelease_busy : st.hwRelease.busy = st.busy := by unfold State.hwRelease; split <;> rfl
@[simp] theorem hwRelease_result : st.hwRelease.result = st.result := by unfold State.hwRelease; split <;> rfl
@[simp] theorem hwRelease_ill : st.hwRelease.ill = st.ill := by unfold State.hwRelease; split <;> rfl
@[simp] theorem hwRelease_presHighQ : st.hwRelease.presHighQ = st.presHighQ := by unfold State.hwRelease; split <;> rfl
@[simp] theorem hwRelease_presLowQ : st.hwRelease.presLowQ = st.presLowQ := by unfold State.hwRelease; split <;> rfl
@[simp] theorem hwRelease_numDevices : st.hwRelease.numDevices = st.numDevices := by unfold State.hwRelease; split <;> rfl
@[simp] theorem hwRelease_devices : st.hwRelease.devices = st.devices := by unfold State.hwRelease; split <;> rfl
@[simp] theorem hwRelease_cmd : st.hwRelease.cmd = st.cmd := by unfold State.hwRelease; split <;> rfl
@[simp] theorem hwRelease_driveLow : st.hwRelease.driveLow = st.driveLow := by unfold State.hwRelease; split <;> rfl
@[simp] theorem hwRelease_rom : st.hwRelease.rom = st.rom := by unfold State.hwRelease; split <;> rfl
@[simp] theorem hwRelease_devicePosition : st.hwRelease.devicePosition = st.devicePosition := by unfold State.hwRelease; split <;> rfl
@[simp] theorem hwRelease_lastDisc : st.hwRelease.lastDisc = st.lastDisc := by unfold State.hwRelease; split <;> rfl
@[simp] theorem hwRelease_curDisc : st.hwRelease.curDisc = st.curDisc := by unfold State.hwRelease; split <;> rfl
@[simp] theorem hwRelease_position : st.hwRelease.position = st.position := by unfold State.hwRelease; split <;> rfl
@[simp] theorem hwRelease_i : st.hwRelease.i = st.i := by unfold State.hwRelease; split <;> rfl
@[simp] theorem hwRelease_v : st.hwRelease.v = st.v := by unfold State.hwRelease; split <;> rfl
@[simp] theorem hwRelease_c : st.hwRelease.c = st.c := by unfold State.hwRelease; split <;> rfl
@[simp] theorem hwRelease_b : st.hwRelease.b = st.b := by unfold State.hwRelease; split <;> rfl
@[simp] theorem hwRelease_s : st.hwRelease.s = st.s := by unfold State.hwRelease; split <;> rfl
@[simp] theorem hwRelease_e : st.hwRelease.e = st.e := by unfold State.hwRelease; split <;> rfl
@[simp] theorem hwRelease_nFloat : st.hwRelease.nFloat = st.nFloat := by unfold State.hwRelease; split <;> rfl
@[simp] theorem hwRelease_tRel : st.hwRelease.tRel = st.tRel := by unfold State.hwRelease; split <;> rfl
@[simp] theorem hwRelease_seq : st.hwRelease.seq = st.seq := by unfold State.hwRelease; split <;> rfl
@[simp] theorem hwRelease_clock : st.hwRelease.clock = st.clock := by unfold State.hwRelease; split <;> rfl
@[simp] theorem hwRelease_line : st.hwRelease.line = st.line := by unfold State.hwRelease; split <;> rfl
@[simp] theorem hwRelease_host : st.hwRelease.host = st.host := by unfold State.hwRelease; split <;> rfl
@[simp] theorem hwRelease_answers : st.hwRelease.answers = st.answers := by unfold State.hwRelease; split <;> rfl
@[simp] theorem hwRelease_trace : st.hwRelease.trace = st.trace := by unfold State.hwRelease; split <;> rfl
@[simp] theorem hwRelease_freeCtr : st.hwRelease.freeCtr = st.freeCtr := by unfold State.hwRelease; split <;> rfl
@[simp] theorem hwRelease_resetIn : st.hwRelease.resetIn = false := by
  unfold State.hwRelease; split <;> simp_all

end Sys2Proof.Machine
end

