-- ==== Sys2Proof/Laws/Op.lean ====
section
/-! SUPPORT. The laws of operations as such: how the statements chain, that nothing the host does during an operation reaches
the block (`Blind`), and what every statement of an operation keeps (`Keeps`). -/

namespace Sys2Proof.Machine

variable {α β : Type}

/-! ### Chaining -/

theorem bind_run (x : Op α) (f : α → Op β) (st : State) :
    (x >>= f).run st = match x.run st with
      | .ok a t => (f a).run t
      | .error e t => .error e t := by
  rw [EStateM.run_bind]
  cases x.run st <;> rfl

theorem bind_ok {x : Op α} {f : α → Op β} {st t : State} {a : α} (h : x.run st = .ok a t) :
    (x >>= f).run st = (f a).run t := by
  rw [bind_run, h]

theorem bind_error {x : Op α} {f : α → Op β} {st t : State} {e : Stop} (h : x.run st = .error e t) :
    (x >>= f).run st = .error e t := by
  rw [bind_run, h]

@[simp] theorem pure_run (a : α) (st : State) : (pure a : Op α).run st = .ok a st := rfl

@[simp] theorem upd_run (f : State → State) (st : State) : (upd f).run st = .ok () (f st) := rfl

@[simp] theorem look_run (f : State → α) (st : State) : (look f).run st = .ok (f st) st := rfl

@[simp] theorem sample_run (st : State) : sample.run st = .ok st.lineIn st.noteSample := rfl

@[simp] theorem drive_run (st : State) : drive.run st = .ok () st.driveLine := rfl

@[simp] theorem release_run (st : State) : release.run st = .ok () st.releaseLine := rfl

@[simp] theorem finish_run (r : Result) (st : State) : (finish r).run st = .error .finished (st.finish r) := rfl

@[simp] theorem finishIf_true (r : Result) : finishIf true r = finish r := rfl

@[simp] theorem finishIf_false (r : Result) : finishIf false r = pure () := rfl

@[simp] theorem releaseIf_true : releaseIf true = release := rfl

@[simp] theorem releaseIf_false : releaseIf false = pure () := rfl

theorem forUp_zero (body : Nat → Op Unit) (a : Nat) : forUp body a 0 = pure () := rfl

theorem forUp_succ (body : Nat → Op Unit) (a n : Nat) :
    forUp body a (n + 1) = (body a >>= fun _ => forUp body (a + 1) n) := rfl

/-- A loop whose body takes `S k` to `S (k+1)` takes `S a` to `S (a+n)`. -/
theorem forUp_ok {body : Nat → Op Unit} {S : Nat → State} (n a : Nat)
    (h : ∀ k, a ≤ k → k < a + n → (body k).run (S k) = .ok () (S (k + 1))) :
    (forUp body a n).run (S a) = .ok () (S (a + n)) := by
  induction n generalizing a with
  | zero => rfl
  | succ n ih =>
    rw [forUp_succ, bind_ok (h a le_rfl (by omega)), ih (a + 1) fun k h1 h2 => h k (by omega) (by omega),
      show a + 1 + n = a + (n + 1) by omega]

/-- A loop ends where its body ends, if all its earlier iterations go through. -/
theorem forUp_error {body : Nat → Op Unit} {S : Nat → State} {e : Stop} {t : State} (n a m : Nat) (hm : m < n)
    (h : ∀ k, a ≤ k → k < a + m → (body k).run (S k) = .ok () (S (k + 1)))
    (hf : (body (a + m)).run (S (a + m)) = .error e t) : (forUp body a n).run (S a) = .error e t := by
  induction m generalizing a n with
  | zero =>
    obtain ⟨n, rfl⟩ : ∃ n', n = n' + 1 := ⟨n - 1, by omega⟩
    rw [forUp_succ]
    exact bind_error hf
  | succ m ih =>
    obtain ⟨n, rfl⟩ : ∃ n', n = n' + 1 := ⟨n - 1, by omega⟩
    rw [forUp_succ, bind_ok (h a le_rfl (by omega))]
    refine ih n (a + 1) (by omega) (fun k h1 h2 => h k (by omega) (by omega)) ?_
    rwa [show a + 1 + m = a + (m + 1) by omega]

/-! ### The host cannot reach a running operation -/

/-- A result with its state changed by `f`. -/
def mapState (f : State → State) : EStateM.Result Stop State α → EStateM.Result Stop State α
  | .ok a t => .ok a (f t)
  | .error e t => .error e (f t)

@[simp] theorem mapState_ok (f : State → State) (a : α) (t : State) :
    mapState f (.ok a t : EStateM.Result Stop State α) = .ok a (f t) := rfl

@[simp] theorem mapState_error (f : State → State) (e : Stop) (t : State) :
    mapState f (.error e t : EStateM.Result Stop State α) = .error e (f t) := rfl

@[simp] theorem lastState_ok (a : α) (t : State) : lastState (.ok a t : EStateM.Result Stop State α) = t := rfl

@[simp] theorem lastState_error (e : Stop) (t : State) :
    lastState (.error e t : EStateM.Result Stop State α) = t := rfl

theorem lastState_mapState (f : State → State) (r : EStateM.Result Stop State α) :
    lastState (mapState f r) = f (lastState r) := by cases r <;> rfl

/-- With no hardware reset pending, `x` does to the block exactly what it does when the host does nothing. -/
def Blind (x : Op α) : Prop :=
  ∀ st : State, st.noHwReset → mapState State.noHost (x.run st) = x.run st.noHost ∧ (lastState (x.run st)).noHwReset

theorem noHwReset_of_host {st t : State} (h : t.host = st.host) (hst : st.noHwReset) : t.noHwReset := by
  intro e he
  exact hst e (h ▸ he)

theorem blind_pure (a : α) : Blind (pure a : Op α) := fun _ h => ⟨rfl, h⟩

theorem blind_bind {x : Op α} {f : α → Op β} (hx : Blind x) (hf : ∀ a, Blind (f a)) : Blind (x >>= f) := by
  intro st h
  obtain ⟨h1, h2⟩ := hx st h
  cases hr : x.run st with
  | ok a t =>
    rw [hr, mapState_ok] at h1
    rw [hr] at h2
    rw [bind_ok hr, bind_ok h1.symm]
    exact hf a t h2
  | error e t =>
    rw [hr, mapState_error] at h1
    rw [hr] at h2
    rw [bind_error hr, bind_error h1.symm]
    exact ⟨rfl, h2⟩

theorem blind_upd {f : State → State} (h1 : ∀ st, (f st).noHost = f st.noHost) (h2 : ∀ st, (f st).host = st.host) :
    Blind (upd f) := fun st h => ⟨by rw [upd_run, upd_run, mapState_ok, h1], noHwReset_of_host (h2 st) h⟩

theorem blind_look {f : State → α} (h : ∀ st, f st.noHost = f st) : Blind (look f) := fun st hst =>
  ⟨by rw [look_run, look_run, mapState_ok, h], hst⟩

theorem blind_finish (r : Result) : Blind (finish r) := fun _ h => ⟨rfl, h⟩

theorem blind_finishIf (c : Bool) (r : Result) : Blind (finishIf c r) := by
  cases c
  · exact blind_pure ()
  · exact blind_finish r

theorem blind_sample : Blind sample := fun _ h => ⟨rfl, h⟩

theorem driveLine_noHost (st : State) : st.driveLine.noHost = st.noHost.driveLine := by
  unfold State.driveLine
  by_cases h : st.driveLow = true
  · rw [if_pos h, if_pos (by exact h)]
  · rw [if_neg h, if_neg (by exact h)]
    rfl

theorem releaseLine_noHost (st : State) : st.releaseLine.noHost = st.noHost.releaseLine := by
  unfold State.releaseLine
  by_cases h : st.driveLow = true
  · rw [if_pos h, if_pos (by exact h)]
    rfl
  · rw [if_neg h, if_neg (by exact h)]

theorem blind_drive : Blind drive := blind_upd driveLine_noHost driveLine_host

theorem blind_release : Blind release := blind_upd releaseLine_noHost releaseLine_host

theorem blind_releaseIf (b : Bool) : Blind (releaseIf b) := by
  cases b
  · exact blind_pure ()
  · exact blind_release

theorem blind_forUp {body : Nat → Op Unit} (h : ∀ k, Blind (body k)) (a n : Nat) : Blind (forUp body a n) := by
  induction n generalizing a with
  | zero => exact blind_pure ()
  | succ n ih => exact blind_bind (h a) fun _ => ih (a + 1)

/-- What a host read changes: its answer, and the count of free bytes (20_memory R65, R72). -/
theorem hostRead_shape (st : State) (a : HostAddr) :
    ∃ v n, st.hostRead a = { st with answers := ⟨st.clock, a, v⟩ :: st.answers, freeCtr := n } := by
  simp only [State.hostRead, State.readBusy, State.readIdle, State.readTable, State.freshByte]
  repeat' split
  all_goals exact ⟨_, _, rfl⟩

/-- What a host access during an operation can change. -/
theorem busyAct_noHost (st : State) {act : HostAct} (h : act ≠ .hwReset) :
    (st.busyAct act).noHost = st.noHost ∧ (st.busyAct act).host = st.host ∧ (st.ill = true → (st.busyAct act).ill = true) := by
  cases act with
  | read a =>
    obtain ⟨v, n, hr⟩ := hostRead_shape st a
    rw [State.busyAct, hr]
    exact ⟨rfl, rfl, id⟩
  | write a w =>
    simp only [State.busyAct, State.writeBusy]
    split
    · exact ⟨rfl, rfl, fun _ => rfl⟩
    · exact ⟨rfl, rfl, id⟩
  | hwReset => exact absurd rfl h
  | hwRelease => exact ⟨rfl, rfl, id⟩

/-- What `serveUntil` does when no hardware reset is among the pending actions: time passes, and only the host's side of the
state changes. -/
theorem serveUntil_spec (till : Nat) (es : List HostEvent) (st : State) (h : ∀ e ∈ es, e.act ≠ .hwReset) :
    ∃ t, serveUntil till es st = .ok () t ∧ t.noHost = ({ st with clock := till }).noHost ∧ t.noHwReset ∧
      (st.ill = true → t.ill = true) := by
  induction es generalizing st with
  | nil => exact ⟨_, rfl, rfl, by intro e he; simp at he, id⟩
  | cons e es ih =>
    unfold serveUntil
    split
    · have he : e.act ≠ .hwReset := h e List.mem_cons_self
      obtain ⟨h1, -, h3⟩ := busyAct_noHost (st.arrive e es) he
      obtain ⟨t, ht, hn, hr, hi⟩ := ih ((st.arrive e es).busyAct e.act) fun x hx => h x (List.mem_cons_of_mem _ hx)
      refine ⟨t, by simp only [if_neg he]; exact ht, ?_, hr, fun hil => hi (h3 hil)⟩
      rw [hn]
      have : ∀ x : State, ({ x with clock := till }).noHost = { x.noHost with clock := till } := fun _ => rfl
      rw [this, h1, this]
      rfl
    · exact ⟨_, rfl, rfl, h, id⟩

/-- `Wait(n)` with no hardware reset pending. -/
theorem wait_spec (n : Nat) (st : State) (h : st.noHwReset) :
    ∃ t, (wait n).run st = .ok () t ∧ t.noHost = ({ st with clock := st.clock + n }).noHost ∧ t.noHwReset ∧
      (st.ill = true → t.ill = true) := serveUntil_spec (st.clock + n) st.host st h

/-- `Wait(n)` with no host action pending. -/
theorem wait_quiet (n : Nat) {st : State} (h : st.host = []) : (wait n).run st = .ok () (st.tick n) := by
  show serveUntil (st.clock + n) st.host st = _
  rw [h, serveUntil, ← h]
  rfl

theorem blind_wait (n : Nat) : Blind (wait n) := by
  intro st h
  obtain ⟨t, ht, hn, hr, -⟩ := wait_spec n st h
  rw [ht, wait_quiet n (noHost_host st), mapState_ok, hn]
  exact ⟨rfl, hr⟩

/-! ### What every statement keeps -/

/-- From every state, `x` ends in a state that `R` relates to it. -/
def Keeps (R : State → State → Prop) (x : Op α) : Prop := ∀ st, R st (lastState (x.run st))

theorem keeps_bind {R : State → State → Prop} (trans : ∀ a b c, R a b → R b c → R a c) {x : Op α} {f : α → Op β}
    (hx : Keeps R x) (hf : ∀ a, Keeps R (f a)) : Keeps R (x >>= f) := by
  intro st
  have h1 := hx st
  cases hr : x.run st with
  | ok a t =>
    rw [bind_ok hr]
    rw [hr] at h1
    exact trans _ _ _ h1 (hf a t)
  | error e t =>
    rw [bind_error hr]
    rw [hr] at h1
    exact h1

theorem keeps_forUp {R : State → State → Prop} (refl : ∀ a, R a a) (trans : ∀ a b c, R a b → R b c → R a c)
    {body : Nat → Op Unit} (h : ∀ k, Keeps R (body k)) (a n : Nat) : Keeps R (forUp body a n) := by
  induction n generalizing a with
  | zero => exact fun st => refl st
  | succ n ih => exact keeps_bind trans (h a) fun _ => ih (a + 1)

end Sys2Proof.Machine
end

