-- ==== Sys2Proof/Laws/Blind.lean ====
section
/-! SUPPORT. Every sequence of the block is blind to the host (20_memory R71, R80): what an operation does to the block does
not depend on the host accesses that fall into it. READ_OCTET's failing slot alone draws a free value. -/

namespace Sys2Proof.Machine

theorem blind_writeSlot (b : Bool) : Blind (writeSlot b) :=
  blind_bind (blind_look fun _ => rfl) fun _ =>
    blind_bind blind_drive fun _ => blind_bind (blind_wait _) fun _ => blind_bind (blind_releaseIf b) fun _ =>
      blind_bind (blind_wait _) fun _ => blind_bind blind_release fun _ => blind_wait _

theorem blind_readSlot {f : State → State} (h1 : ∀ st, (f st).noHost = f st.noHost) (h2 : ∀ st, (f st).host = st.host) :
    Blind (readSlot f) :=
  blind_bind (blind_look fun _ => rfl) fun _ =>
    blind_bind blind_drive fun _ => blind_bind (blind_wait _) fun _ => blind_bind blind_release fun _ =>
      blind_bind (blind_wait _) fun _ => blind_bind blind_sample fun _ =>
        blind_bind (blind_upd (fun _ => h1 _) fun _ => h2 _) fun _ => blind_bind (blind_wait _) fun _ =>
          blind_bind blind_sample fun _ => blind_bind (blind_upd (fun _ => rfl) fun _ => rfl) fun _ => blind_pure _

theorem blind_ite {α : Type} (c : Bool) {x y : Op α} (hx : Blind x) (hy : Blind y) :
    Blind (if c = true then x else y) := by
  cases c
  · exact hy
  · exact hx

theorem blind_floatLoop (fuel : Nat) : Blind (floatLoop fuel) := by
  induction fuel with
  | zero => exact blind_pure _
  | succ n ih =>
    refine blind_bind blind_sample fun s => blind_ite s (blind_pure _) ?_
    refine blind_bind (blind_look fun _ => rfl) fun d => blind_ite d (blind_pure _) ?_
    exact blind_bind (blind_wait _) fun _ => blind_bind (blind_upd (fun _ => rfl) fun _ => rfl) fun _ => ih

theorem blind_highLoop (fuel : Nat) : Blind (highLoop fuel) := by
  induction fuel with
  | zero => exact blind_pure _
  | succ n ih =>
    refine blind_bind blind_sample fun s => blind_ite s ?_ (blind_pure _)
    refine blind_bind (blind_wait _) fun _ => blind_bind (blind_upd (fun _ => rfl) fun _ => rfl) fun _ => ?_
    exact blind_bind (blind_look fun _ => rfl) fun d => blind_ite d (blind_pure _) ih

theorem blind_lowLoop (fuel : Nat) : Blind (lowLoop fuel) := by
  induction fuel with
  | zero => exact blind_pure _
  | succ n ih =>
    refine blind_bind blind_sample fun s => blind_ite s (blind_pure _) ?_
    refine blind_bind (blind_wait _) fun _ => blind_bind (blind_upd (fun _ => rfl) fun _ => rfl) fun _ => ?_
    exact blind_bind (blind_look fun _ => rfl) fun d => blind_ite d (blind_pure _) ih

theorem blind_acceptPresence : Blind acceptPresence := by
  refine blind_bind (blind_look fun _ => rfl) fun d => blind_ite d (blind_pure _) ?_
  refine blind_bind (blind_upd (fun _ => rfl) fun _ => rfl) fun _ => blind_bind (blind_look fun _ => rfl) fun t => ?_
  show Blind (if t < recoveryTicks then _ else _)
  split
  · exact blind_bind (blind_wait _) fun _ => blind_pure _
  · exact blind_pure _

theorem blind_resetSeq : Blind resetSeq := by
  refine blind_bind (blind_look fun _ => rfl) fun c => blind_bind (blind_upd (fun _ => rfl) fun _ => rfl) fun _ => ?_
  refine blind_bind blind_drive fun _ => blind_bind (blind_wait _) fun _ => blind_bind blind_release fun _ => ?_
  refine blind_bind (blind_upd (fun _ => rfl) fun _ => rfl) fun _ => ?_
  refine blind_bind (blind_floatLoop _) fun s => blind_ite s ?_ (blind_pure _)
  refine blind_bind (blind_highLoop _) fun s => blind_ite s ?_ (blind_pure _)
  exact blind_bind (blind_lowLoop _) fun s => blind_ite s blind_acceptPresence (blind_pure _)

theorem blind_writeOctetSeq (byte : Byte) : Blind (writeOctetSeq byte) := by
  refine blind_bind (blind_forUp (fun k => ?_) 0 8) fun _ => blind_upd (fun _ => rfl) fun _ => rfl
  exact blind_bind (blind_upd (fun _ => rfl) fun _ => rfl) fun _ => blind_writeSlot _

theorem blind_sendCommandSeq (byte : Byte) : Blind (sendCommandSeq byte) := by
  refine blind_bind blind_resetSeq fun r => ?_
  show Blind (if r = Result.ok then _ else _)
  split
  · exact blind_bind (blind_writeOctetSeq byte) fun _ => blind_pure _
  · exact blind_pure _

theorem decideBit_noHost (p : Fin 64) (st : State) :
    (st.decideBit p).noHost = st.noHost.decideBit p ∧ (st.decideBit p).host = st.host := by
  unfold State.decideBit
  by_cases h : (!st.v && !st.c) = true
  · rw [if_pos h, if_pos (by exact h)]
    exact ⟨rfl, rfl⟩
  · rw [if_neg h, if_neg (by exact h)]
    exact ⟨rfl, rfl⟩

theorem blind_searchPosition (p : Nat) : Blind (searchPosition p) := by
  refine blind_bind (blind_upd (fun _ => rfl) fun _ => rfl) fun _ => ?_
  refine blind_bind (blind_readSlot (fun _ => rfl) fun _ => rfl) fun x => ?_
  refine blind_bind (blind_upd (fun _ => rfl) fun _ => rfl) fun _ => blind_bind (blind_finishIf _ _) fun _ => ?_
  refine blind_bind (blind_readSlot (fun _ => rfl) fun _ => rfl) fun y => ?_
  refine blind_bind (blind_upd (fun _ => rfl) fun _ => rfl) fun _ => blind_bind (blind_finishIf _ _) fun _ => ?_
  refine blind_bind (blind_finishIf _ _) fun _ => ?_
  refine blind_bind (blind_upd (fun st => (decideBit_noHost _ st).1) fun st => (decideBit_noHost _ st).2) fun _ => ?_
  refine blind_bind (blind_look fun _ => rfl) fun b => blind_bind (blind_writeSlot b) fun _ => ?_
  exact blind_upd (fun _ => rfl) fun _ => rfl

theorem blind_searchPass : Blind searchPass := by
  refine blind_bind (blind_look fun _ => rfl) fun c => blind_bind (blind_upd (fun _ => rfl) fun _ => rfl) fun _ => ?_
  refine blind_bind (blind_sendCommandSeq _) fun r => blind_bind (blind_finishIf _ _) fun _ => ?_
  refine blind_bind (blind_forUp blind_searchPosition _ _) fun _ => ?_
  exact blind_bind (blind_upd (fun _ => rfl) fun _ => rfl) fun _ => blind_upd (fun _ => rfl) fun _ => rfl

theorem blind_searchLoop (fuel : Nat) : Blind (searchLoop fuel) := by
  induction fuel with
  | zero => exact blind_finish _
  | succ n ih =>
    refine blind_bind (blind_look fun _ => rfl) fun d => blind_bind (blind_finishIf _ _) fun _ => ?_
    refine blind_bind blind_searchPass fun _ => blind_bind (blind_look fun _ => rfl) fun d => blind_ite d ?_ ih
    exact blind_bind (blind_upd (fun _ => rfl) fun _ => rfl) fun _ => blind_finish _

/-! ### READ_OCTET: blind but for the free value a failing slot leaves in `DATA` -/

/-- With no hardware reset pending, `x` does to the block exactly what it does when the host does nothing; where it ends the
operation, `DATA` is a free value. -/
def BlindOk {α : Type} (x : Op α) : Prop :=
  ∀ st : State, st.noHwReset →
    (∃ a t, x.run st = .ok a t ∧ x.run st.noHost = .ok a t.noHost ∧ t.noHwReset) ∨
    (∃ e t u n m, x.run st = .error e t ∧ x.run st.noHost = .error e u ∧ t.data = Config.freeByte n ∧
      u.data = Config.freeByte m ∧ t.noHost = ({ u with data := t.data }).noHost)

/-- `x` never ends the operation, short of a hardware reset. -/
def GoesOn {α : Type} (x : Op α) : Prop := ∀ st : State, st.noHwReset → ∃ a t, x.run st = .ok a t

theorem blindOk_of {α : Type} {x : Op α} (hb : Blind x) (hg : GoesOn x) : BlindOk x := by
  intro st h
  obtain ⟨a, t, ht⟩ := hg st h
  obtain ⟨h1, h2⟩ := hb st h
  rw [ht] at h1 h2
  exact .inl ⟨a, t, ht, h1.symm, h2⟩

theorem goesOn_bind {α β : Type} {x : Op α} {f : α → Op β} (hx : GoesOn x) (hb : Blind x) (hf : ∀ a, GoesOn (f a)) :
    GoesOn (x >>= f) := by
  intro st h
  obtain ⟨a, t, ht⟩ := hx st h
  have h2 := (hb st h).2
  rw [ht] at h2
  rw [bind_ok ht]
  exact hf a t h2

theorem goesOn_upd (f : State → State) : GoesOn (upd f) := fun _ _ => ⟨_, _, rfl⟩

theorem goesOn_look {α : Type} (f : State → α) : GoesOn (look f) := fun _ _ => ⟨_, _, rfl⟩

theorem goesOn_sample : GoesOn sample := fun _ _ => ⟨_, _, rfl⟩

theorem goesOn_wait (n : Nat) : GoesOn (wait n) := fun st h => by
  obtain ⟨t, ht, -⟩ := wait_spec n st h
  exact ⟨_, _, ht⟩

theorem goesOn_pure {α : Type} (a : α) : GoesOn (pure a : Op α) := fun _ _ => ⟨_, _, rfl⟩

theorem goesOn_readSlot_id : GoesOn (readSlot id) :=
  goesOn_bind (goesOn_look _) (blind_look fun _ => rfl) fun _ =>
    goesOn_bind (goesOn_upd _) blind_drive fun _ => goesOn_bind (goesOn_wait _) (blind_wait _) fun _ =>
      goesOn_bind (goesOn_upd _) blind_release fun _ => goesOn_bind (goesOn_wait _) (blind_wait _) fun _ =>
        goesOn_bind goesOn_sample blind_sample fun _ =>
          goesOn_bind (goesOn_upd _) (blind_upd (fun _ => rfl) fun _ => rfl) fun _ =>
            goesOn_bind (goesOn_wait _) (blind_wait _) fun _ => goesOn_bind goesOn_sample blind_sample fun _ =>
              goesOn_bind (goesOn_upd _) (blind_upd (fun _ => rfl) fun _ => rfl) fun _ => goesOn_pure _

theorem blindOk_bind {α β : Type} {x : Op α} {f : α → Op β} (hx : BlindOk x) (hf : ∀ a, BlindOk (f a)) :
    BlindOk (x >>= f) := by
  intro st h
  obtain ⟨a, t, ht, hu, hr⟩ | ⟨e, t, u, n, m, ht, hu, hrest⟩ := hx st h
  · rw [bind_ok ht, bind_ok hu]
    exact hf a t hr
  · rw [bind_error ht, bind_error hu]
    exact .inr ⟨e, t, u, n, m, rfl, rfl, hrest⟩

theorem blindOk_receiveBit (k : Nat) : BlindOk (receiveBit k) := by
  refine blindOk_bind (blindOk_of (blind_upd (fun _ => rfl) fun _ => rfl) (goesOn_upd _)) fun _ => ?_
  refine blindOk_bind (blindOk_of (blind_readSlot (fun _ => rfl) fun _ => rfl) goesOn_readSlot_id) fun x => ?_
  refine blindOk_bind (blindOk_of (blind_upd (fun _ => rfl) fun _ => rfl) (goesOn_upd _)) fun _ => ?_
  show BlindOk (if x.2 = Result.ok then _ else _)
  split
  · exact blindOk_of (blind_pure _) (goesOn_pure _)
  · exact fun st _ => .inr ⟨_, _, _, _, _, rfl, rfl, rfl, rfl, rfl⟩

theorem blindOk_forUp {body : Nat → Op Unit} (h : ∀ k, BlindOk (body k)) (a n : Nat) : BlindOk (forUp body a n) := by
  induction n generalizing a with
  | zero => exact blindOk_of (blind_pure ()) (goesOn_pure ())
  | succ n ih => exact blindOk_bind (h a) fun _ => ih (a + 1)

end Sys2Proof.Machine
end

