-- ==== Sys2Proof/Laws/Slots.lean ====
section
/-! SUPPORT. What one slot does when the host does nothing during it (40_timeslot R131, R132). -/

namespace Sys2Proof.Machine

/-- `WriteSlot(b)`. -/
theorem writeSlot_quiet (b : Bool) {st : State} (hh : st.host = []) (hd : st.driveLow = false) :
    (writeSlot b).run st = .ok () (st.lineTo (st.line.pulse st.clock (lowTime st.cfg b)) (st.clock + slotWrite st.cfg)
      (writeSlotTrace st.cfg st.clock b)) := by
  have hw : st.cfg.tWLow < Config.tSlot := st.cfg.tWLow_range.2
  have ht : st.clock + st.cfg.tWLow + (Config.tSlot - st.cfg.tWLow) = st.clock + Config.tSlot := by omega
  unfold writeSlot
  rw [bind_ok (look_run _ _), bind_ok (drive_run _), bind_ok (wait_quiet _ (by simp [hh]))]
  cases b
  · rw [releaseIf_false, bind_ok (pure_run _ _), bind_ok (wait_quiet _ (by simp [hh])), bind_ok (release_run _),
      wait_quiet _ (by simp [hh])]
    congr 1
    ext1 <;> simp [hd, ht, LineEnv.pulse, lowTime, writeSlotTrace, slotWrite, Nat.add_assoc]
  · rw [releaseIf_true, bind_ok (release_run _), bind_ok (wait_quiet _ (by simp [hh])), bind_ok (release_run _),
      wait_quiet _ (by simp [hh])]
    congr 1
    ext1 <;> simp [hd, ht, LineEnv.pulse, lowTime, writeSlotTrace, slotWrite, Nat.add_assoc]

/-- `ReadSlot()`; `g` is what the caller makes of `DATA` and the sample at the data-sample tick. -/
theorem readSlot_quiet (g : Byte → Bool → Byte) {st : State} (hh : st.host = []) (hd : st.driveLow = false) :
    (readSlot fun x => { x with data := g x.data x.s }).run st =
      .ok (st.line.readBit st.cfg st.clock 0, slotResult (st.line.readEnd st.cfg st.clock 0))
        ((st.lineTo (st.line.pulse st.clock st.cfg.tRLow) (st.clock + Config.tSlot)
          (readSlotTrace st.cfg st.clock (st.line.readBit st.cfg st.clock 0) (st.line.readEnd st.cfg st.clock 0))).sampled
            (st.line.readBit st.cfg st.clock 0) (st.line.readEnd st.cfg st.clock 0)
            (g st.data (st.line.readBit st.cfg st.clock 0))) := by
  have hr : st.cfg.tRLow + st.cfg.tRSample < Config.tSlot := st.cfg.tRead_lt
  have ht : st.clock + st.cfg.tRLow + st.cfg.tRSample + (Config.tSlot - st.cfg.tRLow - st.cfg.tRSample) =
      st.clock + Config.tSlot := by omega
  unfold readSlot
  rw [bind_ok (look_run _ _), bind_ok (drive_run _), bind_ok (wait_quiet _ (by simp [hh])),
    bind_ok (release_run _), bind_ok (wait_quiet _ (by simp [hh])), bind_ok (sample_run _),
    bind_ok (upd_run _ _), bind_ok (wait_quiet _ (by simp [hh])), bind_ok (sample_run _), bind_ok (upd_run _ _), pure_run]
  have h1 : st.line.readBit st.cfg st.clock 0 =
      ((st.line.onDrive st.clock).onRelease (st.clock + st.cfg.tRLow)).level (st.clock + st.cfg.tRLow + st.cfg.tRSample) := by
    simp [LineEnv.readBit, LineEnv.afterReads, LineEnv.pulse, dataTick]
  have h2 : st.line.readEnd st.cfg st.clock 0 =
      ((st.line.onDrive st.clock).onRelease (st.clock + st.cfg.tRLow)).level (st.clock + Config.tSlot) := by
    simp [LineEnv.readEnd, LineEnv.afterReads, LineEnv.pulse]
  rw [h1, h2]
  congr 1
  · simp [State.lineIn, hd, ht]
  · ext1 <;> simp [State.lineIn, hd, ht, LineEnv.pulse, readSlotTrace, dataTick]

end Sys2Proof.Machine
end

