-- ==== Sys2Proof/Laws/Reset.lean ====
section
/-! SUPPORT. What the reset sequence does when the host does nothing during it (41_transaction R160, R164, R165). -/

namespace Sys2Proof.Machine

/-- `n_float` after `n` counts. -/
def State.floated (n : Nat) (st : State) : State := { st with nFloat := BitVec.ofNat 8 n }

/-- The presence counters after `h` and `l` counts. -/
def State.counted (h l : Nat) (st : State) : State :=
  { st with presHighQ := BitVec.ofNat 8 h, presLowQ := BitVec.ofNat 8 l }

theorem sampleRun_first (t step : Nat) (v : Bool) (n : Nat) :
    sampleRun t step v (n + 1) = sampleRun (t + step) step v n ++ [(t, .sample v)] := by
  induction n with
  | zero => rfl
  | succ n ih =>
    rw [sampleRun, ih, sampleRun]
    simp only [List.cons_append]
    congr 2
    rw [Nat.mul_succ]
    omega

theorem toNat_ofNat8 {n : Nat} (h : n ≤ 255) : (BitVec.ofNat 8 n).toNat = n := by
  rw [BitVec.toNat_ofNat]
  omega

theorem ofNat8_succ (n : Nat) : BitVec.ofNat 8 n + 1#8 = BitVec.ofNat 8 (n + 1) := by
  rw [BitVec.ofNat_add]

@[simp] theorem ofNat8_mod (n : Nat) : BitVec.ofNat 8 (n % 256) = BitVec.ofNat 8 n := by
  apply BitVec.eq_of_toNat_eq
  simp

theorem lineIn_released {st : State} (h : st.driveLow = false) : st.lineIn = st.line.level st.clock := by
  unfold State.lineIn
  rw [if_neg (by simp [h])]

/-- Seen from one tick later, the line rises one tick sooner. -/
theorem floatsAt_succ {L : Nat → Bool} {r f : Nat} (h : floatsAt L r (f + 1)) : floatsAt L (r + 1) f := by
  refine ⟨?_, fun j hj => ?_⟩
  · rw [Nat.add_right_comm]
    exact h.1
  · rw [Nat.add_right_comm]
    exact h.2 (j + 1) (by omega)

/-- One test of the float loop that reads high. -/
theorem floatLoop_high (fuel : Nat) {st : State} (h : st.lineIn = true) :
    (floatLoop (fuel + 1)).run st = .ok true st.noteSample := by
  unfold floatLoop
  rw [bind_ok (sample_run _), h]
  rfl

/-- One test of the float loop that reads low at the timeout. -/
theorem floatLoop_last (fuel : Nat) {st : State} (h : st.lineIn = false) (hn : st.nFloat.toNat = st.cfg.floatTimeoutUs) :
    (floatLoop (fuel + 1)).run st = .ok false st.noteSample := by
  unfold floatLoop
  rw [bind_ok (sample_run _), h]
  simp only [Bool.false_eq_true, if_false]
  rw [bind_ok (look_run _ _)]
  simp [hn]

/-- One test of the float loop that reads low before the timeout. -/
theorem floatLoop_low (fuel : Nat) {st : State} (hh : st.host = []) (h : st.lineIn = false)
    (hn : st.nFloat.toNat ≠ st.cfg.floatTimeoutUs) :
    (floatLoop (fuel + 1)).run st = (floatLoop fuel).run (st.noteSample.tick 1).countFloat := by
  conv => lhs; unfold floatLoop
  rw [bind_ok (sample_run _), h]
  simp only [Bool.false_eq_true, if_false]
  rw [bind_ok (look_run _ _)]
  simp only [noteSample_nFloat, noteSample_cfg, hn, decide_false, Bool.false_eq_true, if_false]
  rw [bind_ok (wait_quiet _ (by simp [hh])), bind_ok (upd_run _ _)]

/-- The float phase with the line rising after `f` ticks. -/
theorem floatLoop_rises (f fuel k : Nat) {st : State} (hh : st.host = []) (hd : st.driveLow = false)
    (hk : st.nFloat = BitVec.ofNat 8 k) (hb : k + f ≤ st.cfg.floatTimeoutUs) (hf : f < fuel)
    (hL : floatsAt st.line.level st.clock f) :
    (floatLoop fuel).run st = .ok true ((st.lineTo st.line (st.clock + f)
      ((st.clock + f, .sample true) :: sampleRun st.clock 1 false f)).floated (k + f)) := by
  induction f generalizing fuel k st with
  | zero =>
    obtain ⟨fuel, rfl⟩ : ∃ n, fuel = n + 1 := ⟨fuel - 1, by omega⟩
    have hl : st.lineIn = true := by rw [lineIn_released hd]; exact hL.1
    rw [floatLoop_high fuel hl]
    congr 1
    ext1 <;> simp [State.floated, sampleRun, hl, hk]
  | succ f ih =>
    obtain ⟨fuel, rfl⟩ : ∃ n, fuel = n + 1 := ⟨fuel - 1, by omega⟩
    have hl : st.lineIn = false := by rw [lineIn_released hd]; exact hL.2 0 (by omega)
    have ht := st.cfg.floatTimeoutUs_range.2
    have hn : st.nFloat.toNat ≠ st.cfg.floatTimeoutUs := by
      rw [hk, toNat_ofNat8 (by omega)]
      omega
    rw [floatLoop_low fuel hh hl hn, ih fuel (k + 1) (by simpa using hh) (by simpa using hd) (by simp [hk, ofNat8_succ])
      (by simp; omega) (by omega) (floatsAt_succ hL)]
    congr 1
    ext1 <;> simp [State.floated, sampleRun_first, hl, Nat.add_assoc, Nat.add_comm 1]

/-- The float phase with the line low to the end of the timeout. -/
theorem floatLoop_times_out (m fuel k : Nat) {st : State} (hh : st.host = []) (hd : st.driveLow = false)
    (hk : st.nFloat = BitVec.ofNat 8 k) (hb : k + m = st.cfg.floatTimeoutUs) (hf : m < fuel)
    (hL : ∀ j ≤ m, st.line.level (st.clock + j) = false) :
    (floatLoop fuel).run st = .ok false ((st.lineTo st.line (st.clock + m) (sampleRun st.clock 1 false (m + 1))).floated
      (k + m)) := by
  induction m generalizing fuel k st with
  | zero =>
    have ht := st.cfg.floatTimeoutUs_range.2
    obtain ⟨fuel, rfl⟩ : ∃ n, fuel = n + 1 := ⟨fuel - 1, by omega⟩
    have hl : st.lineIn = false := by rw [lineIn_released hd]; exact hL 0 le_rfl
    rw [floatLoop_last fuel hl (by rw [hk, toNat_ofNat8 (by omega)]; omega)]
    congr 1
    ext1 <;> simp [State.floated, sampleRun, hl, hk]
  | succ m ih =>
    obtain ⟨fuel, rfl⟩ : ∃ n, fuel = n + 1 := ⟨fuel - 1, by omega⟩
    have hl : st.lineIn = false := by rw [lineIn_released hd]; exact hL 0 (by omega)
    have ht := st.cfg.floatTimeoutUs_range.2
    have hn : st.nFloat.toNat ≠ st.cfg.floatTimeoutUs := by
      rw [hk, toNat_ofNat8 (by omega)]
      omega
    rw [floatLoop_low fuel hh hl hn, ih fuel (k + 1) (by simpa using hh) (by simpa using hd) (by simp [hk, ofNat8_succ])
      (by simp; omega) (by omega) (fun j hj => by
        show st.line.level (st.clock + 1 + j) = false
        rw [Nat.add_right_comm]
        exact hL (j + 1) (by omega))]
    congr 1
    ext1 <;> simp [State.floated, sampleRun_first, hl, Nat.add_assoc, Nat.add_comm 1]

/-! ### The quarter loops -/

/-- One test of the high loop that reads low. -/
theorem highLoop_low (fuel : Nat) {st : State} (h : st.lineIn = false) :
    (highLoop (fuel + 1)).run st = .ok true st.noteSample := by
  unfold highLoop
  rw [bind_ok (sample_run _), h]
  rfl

/-- One turn of the high loop: the line reads high, a quarter passes and is counted. -/
theorem highLoop_high (fuel : Nat) {st : State} (hh : st.host = []) (h : st.lineIn = true) :
    (highLoop (fuel + 1)).run st =
      if (st.presHighQ + 1#8).toNat > st.cfg.presHighMaxQ then .ok false (st.noteSample.tick Config.tQ).countHigh
      else (highLoop fuel).run (st.noteSample.tick Config.tQ).countHigh := by
  conv => lhs; unfold highLoop
  rw [bind_ok (sample_run _), h]
  simp only [if_true]
  rw [bind_ok (wait_quiet _ (by simp [hh])), bind_ok (upd_run _ _), bind_ok (look_run _ _)]
  simp only [countHigh_presHighQ, tick_presHighQ, noteSample_presHighQ, countHigh_cfg, tick_cfg, noteSample_cfg]
  by_cases hb : (st.presHighQ + 1#8).toNat > st.cfg.presHighMaxQ
  · simp only [hb, decide_true, if_true, pure_run]
  · simp only [hb, decide_false, Bool.false_eq_true, if_false]

/-- One test of the low loop that reads high. -/
theorem lowLoop_high (fuel : Nat) {st : State} (h : st.lineIn = true) :
    (lowLoop (fuel + 1)).run st = .ok true st.noteSample := by
  unfold lowLoop
  rw [bind_ok (sample_run _), h]
  rfl

/-- One turn of the low loop. -/
theorem lowLoop_low (fuel : Nat) {st : State} (hh : st.host = []) (h : st.lineIn = false) :
    (lowLoop (fuel + 1)).run st =
      if (st.presLowQ + 1#8).toNat > st.cfg.presLowMaxQ then .ok false (st.noteSample.tick Config.tQ).countLow
      else (lowLoop fuel).run (st.noteSample.tick Config.tQ).countLow := by
  conv => lhs; unfold lowLoop
  rw [bind_ok (sample_run _), h]
  simp only [Bool.false_eq_true, if_false]
  rw [bind_ok (wait_quiet _ (by simp [hh])), bind_ok (upd_run _ _), bind_ok (look_run _ _)]
  simp only [countLow_presLowQ, tick_presLowQ, noteSample_presLowQ, countLow_cfg, tick_cfg, noteSample_cfg]
  by_cases hb : (st.presLowQ + 1#8).toNat > st.cfg.presLowMaxQ
  · simp only [hb, decide_true, if_true, pure_run]
  · simp only [hb, decide_false, Bool.false_eq_true, if_false]

/-- Samples a quarter apart, seen from the next one. -/
theorem quarter_shift {L : Nat → Bool} {t n : Nat} {v : Bool} (h : ∀ j < n + 1, L (t + Config.tQ * j) = v) :
    ∀ j < n, L (t + Config.tQ + Config.tQ * j) = v := by
  intro j hj
  have := h (j + 1) (by omega)
  rwa [Nat.mul_succ, Nat.add_comm (Config.tQ * j), ← Nat.add_assoc] at this

theorem quarter_add (n : Nat) : Config.tQ + Config.tQ * n = Config.tQ * (n + 1) := by
  rw [Nat.mul_succ]
  omega

theorem add_quarter (t n : Nat) : t + Config.tQ + Config.tQ * n = t + Config.tQ * (n + 1) := by
  rw [Nat.add_assoc, quarter_add]

/-- The high phase with the line falling after `h` quarters. -/
theorem highLoop_falls (h fuel k : Nat) {st : State} (hh : st.host = []) (hd : st.driveLow = false)
    (hk : st.presHighQ = BitVec.ofNat 8 k) (hb : k + h ≤ st.cfg.presHighMaxQ) (hf : h < fuel)
    (hlow : st.line.level (st.clock + Config.tQ * h) = false)
    (hhigh : ∀ j < h, st.line.level (st.clock + Config.tQ * j) = true) :
    (highLoop fuel).run st = .ok true ((st.lineTo st.line (st.clock + Config.tQ * h)
      ((st.clock + Config.tQ * h, .sample false) :: sampleRun st.clock Config.tQ true h)).counted (k + h) st.presLowQ.toNat) := by
  induction h generalizing fuel k st with
  | zero =>
    obtain ⟨fuel, rfl⟩ : ∃ n, fuel = n + 1 := ⟨fuel - 1, by omega⟩
    have hl : st.lineIn = false := by rw [lineIn_released hd]; exact hlow
    rw [highLoop_low fuel hl]
    congr 1
    ext1 <;> simp [State.counted, sampleRun, hl, hk]
  | succ h ih =>
    obtain ⟨fuel, rfl⟩ : ∃ n, fuel = n + 1 := ⟨fuel - 1, by omega⟩
    have hl : st.lineIn = true := by rw [lineIn_released hd]; exact hhigh 0 (by omega)
    have ht := st.cfg.presHighMaxQ_range.2
    rw [highLoop_high fuel hh hl, if_neg (by rw [hk, ofNat8_succ, toNat_ofNat8 (by omega)]; omega),
      ih fuel (k + 1) (by simpa using hh) (by simpa using hd) (by simp [hk, ofNat8_succ]) (by simp; omega) (by omega)
        (by simpa [add_quarter] using hlow) (by simpa using quarter_shift hhigh)]
    congr 1
    ext1 <;> simp [State.counted, sampleRun_first, hl, quarter_add, Nat.add_assoc, Nat.add_comm 1]

/-- The high phase with the line high beyond its bound. -/
theorem highLoop_exceeds (m fuel k : Nat) {st : State} (hh : st.host = []) (hd : st.driveLow = false)
    (hk : st.presHighQ = BitVec.ofNat 8 k) (hb : k + m = st.cfg.presHighMaxQ) (hf : m < fuel)
    (hhigh : ∀ j < m + 1, st.line.level (st.clock + Config.tQ * j) = true) :
    (highLoop fuel).run st = .ok false ((st.lineTo st.line (st.clock + Config.tQ * (m + 1))
      (sampleRun st.clock Config.tQ true (m + 1))).counted (k + m + 1) st.presLowQ.toNat) := by
  induction m generalizing fuel k st with
  | zero =>
    obtain ⟨fuel, rfl⟩ : ∃ n, fuel = n + 1 := ⟨fuel - 1, by omega⟩
    have hl : st.lineIn = true := by rw [lineIn_released hd]; exact hhigh 0 (by omega)
    have ht := st.cfg.presHighMaxQ_range.2
    rw [highLoop_high fuel hh hl, if_pos (by rw [hk, ofNat8_succ, toNat_ofNat8 (by omega)]; omega)]
    congr 1
    ext1 <;> simp [State.counted, sampleRun, hl, hk, ofNat8_succ]
  | succ m ih =>
    obtain ⟨fuel, rfl⟩ : ∃ n, fuel = n + 1 := ⟨fuel - 1, by omega⟩
    have hl : st.lineIn = true := by rw [lineIn_released hd]; exact hhigh 0 (by omega)
    have ht := st.cfg.presHighMaxQ_range.2
    rw [highLoop_high fuel hh hl, if_neg (by rw [hk, ofNat8_succ, toNat_ofNat8 (by omega)]; omega),
      ih fuel (k + 1) (by simpa using hh) (by simpa using hd) (by simp [hk, ofNat8_succ]) (by simp; omega) (by omega)
        (by simpa using quarter_shift hhigh)]
    congr 1
    ext1 <;> simp [State.counted, sampleRun_first _ _ _ (m + 1), hl, quarter_add, Nat.add_assoc, Nat.add_comm 1]

/-- The low phase with the line rising after `l` quarters. -/
theorem lowLoop_rises (l fuel k : Nat) {st : State} (hh : st.host = []) (hd : st.driveLow = false)
    (hk : st.presLowQ = BitVec.ofNat 8 k) (hb : k + l ≤ st.cfg.presLowMaxQ) (hf : l < fuel)
    (hhigh : st.line.level (st.clock + Config.tQ * l) = true)
    (hlow : ∀ j < l, st.line.level (st.clock + Config.tQ * j) = false) :
    (lowLoop fuel).run st = .ok true ((st.lineTo st.line (st.clock + Config.tQ * l)
      ((st.clock + Config.tQ * l, .sample true) :: sampleRun st.clock Config.tQ false l)).counted st.presHighQ.toNat (k + l)) := by
  induction l generalizing fuel k st with
  | zero =>
    obtain ⟨fuel, rfl⟩ : ∃ n, fuel = n + 1 := ⟨fuel - 1, by omega⟩
    have hl : st.lineIn = true := by rw [lineIn_released hd]; exact hhigh
    rw [lowLoop_high fuel hl]
    congr 1
    ext1 <;> simp [State.counted, sampleRun, hl, hk]
  | succ l ih =>
    obtain ⟨fuel, rfl⟩ : ∃ n, fuel = n + 1 := ⟨fuel - 1, by omega⟩
    have hl : st.lineIn = false := by rw [lineIn_released hd]; exact hlow 0 (by omega)
    have ht := st.cfg.presLowMaxQ_range.2
    rw [lowLoop_low fuel hh hl, if_neg (by rw [hk, ofNat8_succ, toNat_ofNat8 (by omega)]; omega),
      ih fuel (k + 1) (by simpa using hh) (by simpa using hd) (by simp [hk, ofNat8_succ]) (by simp; omega) (by omega)
        (by simpa [add_quarter] using hhigh) (by simpa using quarter_shift hlow)]
    congr 1
    ext1 <;> simp [State.counted, sampleRun_first, hl, quarter_add, Nat.add_assoc, Nat.add_comm 1]

/-- The low phase with the line low beyond its bound. -/
theorem lowLoop_exceeds (m fuel k : Nat) {st : State} (hh : st.host = []) (hd : st.driveLow = false)
    (hk : st.presLowQ = BitVec.ofNat 8 k) (hb : k + m = st.cfg.presLowMaxQ) (hf : m < fuel)
    (hlow : ∀ j < m + 1, st.line.level (st.clock + Config.tQ * j) = false) :
    (lowLoop fuel).run st = .ok false ((st.lineTo st.line (st.clock + Config.tQ * (m + 1))
      (sampleRun st.clock Config.tQ false (m + 1))).counted st.presHighQ.toNat (k + m + 1)) := by
  induction m generalizing fuel k st with
  | zero =>
    obtain ⟨fuel, rfl⟩ : ∃ n, fuel = n + 1 := ⟨fuel - 1, by omega⟩
    have hl : st.lineIn = false := by rw [lineIn_released hd]; exact hlow 0 (by omega)
    have ht := st.cfg.presLowMaxQ_range.2
    rw [lowLoop_low fuel hh hl, if_pos (by rw [hk, ofNat8_succ, toNat_ofNat8 (by omega)]; omega)]
    congr 1
    ext1 <;> simp [State.counted, sampleRun, hl, hk, ofNat8_succ]
  | succ m ih =>
    obtain ⟨fuel, rfl⟩ : ∃ n, fuel = n + 1 := ⟨fuel - 1, by omega⟩
    have hl : st.lineIn = false := by rw [lineIn_released hd]; exact hlow 0 (by omega)
    have ht := st.cfg.presLowMaxQ_range.2
    rw [lowLoop_low fuel hh hl, if_neg (by rw [hk, ofNat8_succ, toNat_ofNat8 (by omega)]; omega),
      ih fuel (k + 1) (by simpa using hh) (by simpa using hd) (by simp [hk, ofNat8_succ]) (by simp; omega) (by omega)
        (by simpa using quarter_shift hlow)]
    congr 1
    ext1 <;> simp [State.counted, sampleRun_first _ _ _ (m + 1), hl, quarter_add, Nat.add_assoc, Nat.add_comm 1]

/-! ### The whole sequence -/

/-- `ResetSeq` from its steps 2 on. -/
def resetTail (c : Config) : Op Result := do
  if ← floatLoop (c.floatTimeoutUs + 1) then
    if ← highLoop (c.presHighMaxQ + 1) then
      if ← lowLoop (c.presLowMaxQ + 1) then acceptPresence
      else pure .commError
    else pure .noDevices
  else pure .commError

/-- The state in which the line has just been released. -/
def State.resetReleased (st : State) : State :=
  ((st.lineTo (st.line.pulse st.clock resetLow) (st.clock + resetLow)
    [(st.clock + resetLow, .release), (st.clock, .drive)]).counted 0 0).floated 0

theorem resetSeq_released {st : State} (hh : st.host = []) (hd : st.driveLow = false) :
    resetSeq.run st = (resetTail st.cfg).run st.resetReleased := by
  unfold resetSeq
  rw [bind_ok (look_run _ _), bind_ok (upd_run _ _), bind_ok (drive_run _), bind_ok (wait_quiet _ (by simp [hh])),
    bind_ok (release_run _), bind_ok (upd_run _ _)]
  unfold resetTail
  congr 1
  ext1 <;> simp [State.resetReleased, State.counted, State.floated, hd, LineEnv.pulse, resetLow]

/-- Steps 5 and 6 on a pulse of fewer than 3 quarters. -/
theorem acceptPresence_short {st : State} (h : st.presLowQ.toNat < Config.presLowMinQ) :
    acceptPresence.run st = .ok .commError st := by
  unfold acceptPresence
  rw [bind_ok (look_run _ _)]
  simp [h]

/-- `t_rel` after `n` ticks. -/
def State.timed (n : Nat) (st : State) : State := { st with tRel := BitVec.ofNat 16 n }

/-- Steps 5 and 6 on an accepted pulse: the rest of the recovery window passes. -/
theorem acceptPresence_ok {st : State} {f h l : Nat} (hh : st.host = []) (hf : st.nFloat = BitVec.ofNat 8 f)
    (hq : st.presHighQ = BitVec.ofNat 8 h) (hl : st.presLowQ = BitVec.ofNat 8 l) (bf : f ≤ 255) (bh : h ≤ 254)
    (bl : l ≤ 254) (wide : Config.presLowMinQ ≤ l) :
    acceptPresence.run st = .ok .ok ((st.timed (f + Config.tQ * (h + l))).tick
      (recoveryTicks - (f + Config.tQ * (h + l)))) := by
  have e1 : st.presLowQ.toNat = l := by rw [hl, toNat_ofNat8 (by omega)]
  have e2 : st.presHighQ.toNat = h := by rw [hq, toNat_ofNat8 (by omega)]
  have e3 : st.nFloat.toNat = f := by rw [hf, toNat_ofNat8 bf]
  have hn : st.noteRelease = st.timed (f + Config.tQ * (h + l)) := by
    unfold State.noteRelease State.timed
    rw [e1, e2, e3]
  have ht : (st.timed (f + Config.tQ * (h + l))).tRel.toNat = f + Config.tQ * (h + l) := by
    show (BitVec.ofNat 16 _).toNat = _
    rw [BitVec.toNat_ofNat]
    simp only [Config.tQ]
    omega
  unfold acceptPresence
  rw [bind_ok (look_run _ _), e1, if_neg (by simpa using wide), bind_ok (upd_run _ _), bind_ok (look_run _ _), hn, ht]
  split
  · rw [bind_ok (wait_quiet _ (show (st.timed (f + Config.tQ * (h + l))).host = [] from hh)), pure_run]
  · next hlt =>
    rw [pure_run, Nat.sub_eq_zero_of_le (Nat.le_of_not_lt hlt)]
    rfl

/-- The line never floats high: `CommError` at the end of the float timeout (CE2). -/
theorem resetSeq_never_floats {st : State} (hh : st.host = []) (hd : st.driveLow = false)
    (hL : ∀ j ≤ st.cfg.floatTimeoutUs, st.afterReset (st.clock + resetLow + j) = false) :
    resetSeq.run st = .ok .commError (((st.lineTo (st.line.pulse st.clock resetLow)
      (st.clock + resetLow + st.cfg.floatTimeoutUs)
      (sampleRun (st.clock + resetLow) 1 false (st.cfg.floatTimeoutUs + 1) ++
        [(st.clock + resetLow, .release), (st.clock, .drive)])).counted 0 0).floated st.cfg.floatTimeoutUs) := by
  rw [resetSeq_released hh hd, resetTail,
    bind_ok (floatLoop_times_out st.cfg.floatTimeoutUs (st.cfg.floatTimeoutUs + 1) 0 (st := st.resetReleased) hh hd rfl
      (by rw [Nat.zero_add]; rfl) (by omega) hL)]
  simp only [Bool.false_eq_true, if_false, pure_run]
  congr 1
  ext1 <;> simp [State.resetReleased, State.counted, State.floated]

/-- The state after the float phase. -/
def State.resetFloated (st : State) (f : Nat) : State :=
  ((st.lineTo (st.line.pulse st.clock resetLow) (st.clock + resetLow + f)
    (floatTrace (st.clock + resetLow) f ++ [(st.clock, .drive)])).counted 0 0).floated f

theorem resetTail_floats {st : State} {f : Nat} (hh : st.host = []) (hd : st.driveLow = false)
    (hf : f ≤ st.cfg.floatTimeoutUs) (hL : floatsAt st.afterReset (st.clock + resetLow) f) :
    (floatLoop (st.cfg.floatTimeoutUs + 1)).run st.resetReleased = .ok true (st.resetFloated f) := by
  rw [floatLoop_rises f (st.cfg.floatTimeoutUs + 1) 0 (st := st.resetReleased) hh hd rfl (by rwa [Nat.zero_add]) (by omega) hL]
  congr 1
  ext1 <;> simp [State.resetReleased, State.resetFloated, State.counted, State.floated, floatTrace]

/-- No presence response: `NoDevices` (ND1). -/
theorem resetSeq_no_presence {st : State} {f : Nat} (hh : st.host = []) (hd : st.driveLow = false)
    (hf : f ≤ st.cfg.floatTimeoutUs) (hL : floatsAt st.afterReset (st.clock + resetLow) f)
    (hhigh : ∀ j ≤ st.cfg.presHighMaxQ, st.afterReset (quarter (st.clock + resetLow) f j) = true) :
    resetSeq.run st = .ok .noDevices (((st.lineTo (st.line.pulse st.clock resetLow)
      (quarter (st.clock + resetLow) f (st.cfg.presHighMaxQ + 1))
      (sampleRun (quarter (st.clock + resetLow) f 0) Config.tQ true (st.cfg.presHighMaxQ + 1) ++
        floatTrace (st.clock + resetLow) f ++ [(st.clock, .drive)])).counted (st.cfg.presHighMaxQ + 1) 0).floated f) := by
  rw [resetSeq_released hh hd, resetTail, bind_ok (resetTail_floats hh hd hf hL)]
  simp only [if_true]
  rw [bind_ok (highLoop_exceeds st.cfg.presHighMaxQ (st.cfg.presHighMaxQ + 1) 0 (st := st.resetFloated f) hh hd rfl
    (by rw [Nat.zero_add]; rfl) (by omega) fun j hj => hhigh j (by omega))]
  simp only [Bool.false_eq_true, if_false, pure_run]
  congr 1
  ext1 <;> simp [State.resetFloated, State.counted, State.floated, quarter]

/-- The state after the high phase. -/
def State.resetFallen (st : State) (f h : Nat) : State :=
  ((st.lineTo (st.line.pulse st.clock resetLow) (quarter (st.clock + resetLow) f h)
    (highTrace (st.clock + resetLow) f h ++ floatTrace (st.clock + resetLow) f ++ [(st.clock, .drive)])).counted h 0).floated f

theorem resetTail_falls {st : State} {f h : Nat} (hh : st.host = []) (hd : st.driveLow = false)
    (hb : h ≤ st.cfg.presHighMaxQ) (hH : highFor st.afterReset (st.clock + resetLow) f h) :
    (highLoop (st.cfg.presHighMaxQ + 1)).run (st.resetFloated f) = .ok true (st.resetFallen f h) := by
  rw [highLoop_falls h (st.cfg.presHighMaxQ + 1) 0 (st := st.resetFloated f) hh hd rfl (by rwa [Nat.zero_add]) (by omega)
    hH.2.1 hH.2.2]
  congr 1
  ext1 <;> simp [State.resetFloated, State.resetFallen, State.counted, State.floated, quarter, highTrace]

/-- A device that keeps the line low: `CommError` (CE3). -/
theorem resetSeq_stuck_low {st : State} {f h : Nat} (hh : st.host = []) (hd : st.driveLow = false)
    (hf : f ≤ st.cfg.floatTimeoutUs) (hL : floatsAt st.afterReset (st.clock + resetLow) f)
    (hb : h ≤ st.cfg.presHighMaxQ) (hH : highFor st.afterReset (st.clock + resetLow) f h)
    (hlow : ∀ j ≤ st.cfg.presLowMaxQ, st.afterReset (quarter (st.clock + resetLow) f (h + j)) = false) :
    resetSeq.run st = .ok .commError (((st.lineTo (st.line.pulse st.clock resetLow)
      (quarter (st.clock + resetLow) f (h + st.cfg.presLowMaxQ + 1))
      (sampleRun (quarter (st.clock + resetLow) f h) Config.tQ false (st.cfg.presLowMaxQ + 1) ++
        highTrace (st.clock + resetLow) f h ++ floatTrace (st.clock + resetLow) f ++
        [(st.clock, .drive)])).counted h (st.cfg.presLowMaxQ + 1)).floated f) := by
  have bh := st.cfg.presHighMaxQ_range.2
  rw [resetSeq_released hh hd, resetTail, bind_ok (resetTail_floats hh hd hf hL)]
  simp only [if_true]
  rw [bind_ok (resetTail_falls hh hd hb hH)]
  simp only [if_true]
  rw [bind_ok (lowLoop_exceeds st.cfg.presLowMaxQ (st.cfg.presLowMaxQ + 1) 0 (st := st.resetFallen f h) hh hd rfl
    (by rw [Nat.zero_add]; rfl) (by omega) fun j hj => by
      have := hlow j (by omega)
      rwa [quarter, Nat.mul_add, ← Nat.add_assoc] at this)]
  simp only [Bool.false_eq_true, if_false, pure_run]
  congr 1
  ext1 <;> simp [State.resetFallen, State.counted, State.floated, quarter, Nat.mul_add, Nat.add_assoc]

/-- The state after the low phase. -/
def State.resetRisen (st : State) (f h l : Nat) : State :=
  ((st.lineTo (st.line.pulse st.clock resetLow) (quarter (st.clock + resetLow) f (h + l))
    (resetTrace st.clock f h l)).counted h l).floated f

theorem resetTail_rises {st : State} {f h l : Nat} (hh : st.host = []) (hd : st.driveLow = false)
    (hb : l ≤ st.cfg.presLowMaxQ) (hW : lowFor st.afterReset (st.clock + resetLow) f h l) :
    (lowLoop (st.cfg.presLowMaxQ + 1)).run (st.resetFallen f h) = .ok true (st.resetRisen f h l) := by
  have hs : ∀ j, quarter (st.clock + resetLow) f (h + j) = (st.resetFallen f h).clock + Config.tQ * j := by
    intro j
    simp only [quarter, Nat.mul_add, ← Nat.add_assoc]
    rfl
  rw [lowLoop_rises l (st.cfg.presLowMaxQ + 1) 0 (st := st.resetFallen f h) hh hd rfl (by rwa [Nat.zero_add]) (by omega)
    (by rw [← hs]; exact hW.2.1) (fun j hj => by rw [← hs]; exact hW.2.2 j hj)]
  congr 1
  ext1 <;> simp [State.resetFallen, State.resetRisen, State.counted, State.floated, quarter, resetTrace, lowTrace,
    Nat.mul_add, Nat.add_assoc]

/-- A presence pulse of fewer than 3 quarters: `CommError` (CE4). -/
theorem resetSeq_short {st : State} {f h l : Nat} (hh : st.host = []) (hd : st.driveLow = false)
    (hf : f ≤ st.cfg.floatTimeoutUs) (hL : floatsAt st.afterReset (st.clock + resetLow) f)
    (hq : h ≤ st.cfg.presHighMaxQ) (hH : highFor st.afterReset (st.clock + resetLow) f h)
    (hW : lowFor st.afterReset (st.clock + resetLow) f h l) (short : l < Config.presLowMinQ) :
    resetSeq.run st = .ok .commError (st.resetRisen f h l) := by
  have b3 := st.cfg.presLowMaxQ_range
  have e3 : Config.presLowMinQ = 3 := rfl
  rw [resetSeq_released hh hd, resetTail, bind_ok (resetTail_floats hh hd hf hL)]
  simp only [if_true]
  rw [bind_ok (resetTail_falls hh hd hq hH)]
  simp only [if_true]
  rw [bind_ok (resetTail_rises hh hd (by omega) hW)]
  simp only [if_true]
  refine acceptPresence_short ?_
  show (BitVec.ofNat 8 l).toNat < _
  rw [toNat_ofNat8 (by omega)]
  exact short

/-- A presence pulse within all bounds: `Ok` at the end of the recovery window or of the pulse, whichever is later. -/
theorem resetSeq_ok {st : State} {f h l : Nat} (hh : st.host = []) (hd : st.driveLow = false)
    (hp : st.Presence f h l) :
    resetSeq.run st = .ok .ok ((((st.lineTo (st.line.pulse st.clock resetLow) (st.clock + resetDuration f h l)
      (resetTrace st.clock f h l)).counted h l).floated f).timed (f + Config.tQ * (h + l))) := by
  have b1 := st.cfg.presLowMaxQ_range
  have b2 := st.cfg.presHighMaxQ_range
  have b3 := st.cfg.floatTimeoutUs_range
  have b4 := hp.floatBound
  have b5 := hp.highBound
  have b6 := hp.lowBound
  rw [resetSeq_released hh hd, resetTail, bind_ok (resetTail_floats hh hd hp.floatBound hp.floats)]
  simp only [if_true]
  rw [bind_ok (resetTail_falls hh hd hp.highBound hp.high)]
  simp only [if_true]
  rw [bind_ok (resetTail_rises hh hd hp.lowBound hp.low)]
  simp only [if_true]
  rw [acceptPresence_ok (st := st.resetRisen f h l) hh rfl rfl rfl (by omega) (by omega) (by omega) hp.wide]
  congr 1
  ext1 <;> simp [State.resetRisen, State.counted, State.floated, State.timed, quarter, resetDuration]
  omega

end Sys2Proof.Machine
end

