-- ==== Sys2Proof/Laws/Octet.lean ====
section
/-! SUPPORT. What the octet transfers and the command dispatch do when the host does nothing during them (41_transaction R162,
R166, R168). -/

namespace Sys2Proof.Machine

/-- The bit index before slot `n` of an octet transfer that `st` begins. -/
def octetIndex (st : State) : Nat → BitVec 4
  | 0 => st.i
  | n + 1 => BitVec.ofNat 4 n

/-- `i` as it stands after `n` slots. -/
def State.indexed (x : BitVec 4) (st : State) : State := { st with i := x }

/-- The state after `n` slots of `WriteOctetSeq(byte)`. -/
def State.octetSent (st : State) (byte : Byte) (n : Nat) : State :=
  (st.lineTo (st.line.afterWrites st.cfg st.clock byte n) (st.clock + n * slotWrite st.cfg)
    (writeOctetTrace st.cfg st.clock byte n)).indexed (octetIndex st n)

/-- `WriteOctetSeq(byte)`. -/
theorem writeOctetSeq_quiet (byte : Byte) {st : State} (hh : st.host = []) (hd : st.driveLow = false) :
    (writeOctetSeq byte).run st = .ok () ((st.octetSent byte 8).setI 8) := by
  have h0 : st = st.octetSent byte 0 := by
    ext1 <;> simp [State.octetSent, State.indexed, octetIndex, LineEnv.afterWrites, writeOctetTrace]
  unfold writeOctetSeq
  rw [bind_ok (t := st.octetSent byte 8) (a := ()), upd_run]
  conv => lhs; rw [h0]
  have := forUp_ok (body := fun k => do upd (State.setI k); writeSlot (byte.getLsbD k)) (S := st.octetSent byte) 8 0
    (fun k _ _ => by
      show ((upd (State.setI k)) >>= fun _ => writeSlot (byte.getLsbD k)).run (st.octetSent byte k) = _
      rw [bind_ok (upd_run _ _), writeSlot_quiet _ (show ((st.octetSent byte k).setI k).host = [] from hh)
        (show ((st.octetSent byte k).setI k).driveLow = false from hd)]
      congr 1
      ext1 <;> simp [State.octetSent, State.indexed, octetIndex, LineEnv.afterWrites, writeOctetTrace, Nat.succ_mul,
        Nat.add_assoc])
  exact this

/-- `SendCommandSeq(byte)` when the reset sequence ends `Ok`. -/
theorem sendCommandSeq_ok {byte : Byte} {st t : State} (hr : resetSeq.run st = .ok .ok t) (hh : t.host = [])
    (hd : t.driveLow = false) : (sendCommandSeq byte).run st = .ok .ok ((t.octetSent byte 8).setI 8) := by
  unfold sendCommandSeq
  rw [bind_ok hr]
  simp only [if_true]
  rw [bind_ok (writeOctetSeq_quiet byte hh hd), pure_run]

/-- `SendCommandSeq(byte)` when the reset sequence fails: no slot is written. -/
theorem sendCommandSeq_fails {byte : Byte} {st t : State} {r : Result} (hr : resetSeq.run st = .ok r t) (h : r ≠ .ok) :
    (sendCommandSeq byte).run st = .ok r t := by
  unfold sendCommandSeq
  rw [bind_ok hr, if_neg h, pure_run]

theorem setBit_zero (n k : Nat) (b : Bool) (w : BitVec n) (h : w.getLsbD k = false) : setBit w k b = orBit w k b := by
  cases b
  · simp only [setBit, orBit, Bool.false_eq_true, if_false]
    apply BitVec.eq_of_getLsbD_eq
    intro i hi
    simp only [BitVec.getLsbD_and, BitVec.getLsbD_not, BitVec.getLsbD_twoPow]
    by_cases hk : k = i
    · subst hk
      simp [h]
    · simp [hk, hi]
  · rfl

/-- The bits of `setBit`. -/
theorem getLsbD_setBit {n : Nat} (w : BitVec n) (k j : Nat) (b : Bool) (hk : k < n) :
    (setBit w k b).getLsbD j = if j = k then b else w.getLsbD j := by
  unfold setBit
  by_cases hj : j = k
  · subst hj
    cases b <;> simp [hk]
  · cases b
    · simp only [Bool.false_eq_true, if_false, BitVec.getLsbD_and, BitVec.getLsbD_not, BitVec.getLsbD_twoPow, hj]
      by_cases hn : j < n
      · simp [hn, Ne.symm hj]
      · simp [hn, BitVec.getLsbD_of_ge _ _ (Nat.le_of_not_lt hn)]
    · simp [hj, Ne.symm hj]

/-- The bits of `orBit`. -/
theorem getLsbD_orBit {n : Nat} (w : BitVec n) (k j : Nat) (b : Bool) (hk : k < n) :
    (orBit w k b).getLsbD j = (w.getLsbD j || (decide (j = k) && b)) := by
  unfold orBit
  by_cases hj : j = k
  · subst hj
    cases b <;> simp [hk]
  · cases b <;> simp [hj, Ne.symm hj]

theorem readByte_high (l : LineEnv) (c : Config) (t n k : Nat) (hn : n ≤ 8) (hk : n ≤ k) :
    (l.readByte c t n).getLsbD k = false := by
  induction n with
  | zero => simp [LineEnv.readByte]
  | succ n ih =>
    rw [LineEnv.readByte, getLsbD_setBit _ _ _ _ (by omega), if_neg (by omega)]
    exact ih (by omega) (by omega)

/-- Bit `k` of the byte READ_OCTET assembles is the data sample of slot `k` (41_transaction R166). -/
theorem readByte_bit (l : LineEnv) (c : Config) (t n k : Nat) (hn : n ≤ 8) (hk : k < n) :
    (l.readByte c t n).getLsbD k = l.readBit c t k := by
  induction n with
  | zero => omega
  | succ n ih =>
    rw [LineEnv.readByte, getLsbD_setBit _ _ _ _ (by omega)]
    split
    · next h => rw [h]
    · exact ih (by omega) (by omega)

/-- The state after `n` read slots of READ_OCTET that all ended with the line high. -/
def State.octetRead (st : State) (n : Nat) : State :=
  ((st.lineTo (st.line.afterReads st.cfg st.clock n) (st.clock + n * Config.tSlot)
    (readOctetTrace st.line st.cfg st.clock n)).indexed (octetIndex st n)).sampled
      (if n = 0 then st.s else st.line.readBit st.cfg st.clock (n - 1))
      (if n = 0 then st.e else st.line.readEnd st.cfg st.clock (n - 1))
      (st.line.readByte st.cfg st.clock n)

theorem readBit_shift (l : LineEnv) (c : Config) (t k : Nat) :
    (l.afterReads c t k).readBit c (t + k * Config.tSlot) 0 = l.readBit c t k := by
  simp [LineEnv.readBit, LineEnv.afterReads]

theorem readEnd_shift (l : LineEnv) (c : Config) (t k : Nat) :
    (l.afterReads c t k).readEnd c (t + k * Config.tSlot) 0 = l.readEnd c t k := by
  simp [LineEnv.readEnd, LineEnv.afterReads]

theorem readSlot_id_quiet {st : State} (hh : st.host = []) (hd : st.driveLow = false) :
    (readSlot id).run st =
      .ok (st.line.readBit st.cfg st.clock 0, slotResult (st.line.readEnd st.cfg st.clock 0))
        ((st.lineTo (st.line.pulse st.clock st.cfg.tRLow) (st.clock + Config.tSlot)
          (readSlotTrace st.cfg st.clock (st.line.readBit st.cfg st.clock 0) (st.line.readEnd st.cfg st.clock 0))).sampled
            (st.line.readBit st.cfg st.clock 0) (st.line.readEnd st.cfg st.clock 0) st.data) :=
  readSlot_quiet (fun d _ => d) hh hd

/-- Slot `k` of READ_OCTET before its Result is looked at. -/
theorem octetRead_slot {st : State} (hh : st.host = []) (hd : st.driveLow = false) (k : Nat) :
    (readSlot id).run ((st.octetRead k).setI k) = .ok (st.line.readBit st.cfg st.clock k,
      slotResult (st.line.readEnd st.cfg st.clock k))
      ((st.octetRead (k + 1)).sampled (st.line.readBit st.cfg st.clock k) (st.line.readEnd st.cfg st.clock k)
        (st.line.readByte st.cfg st.clock k)) := by
  rw [readSlot_id_quiet (show ((st.octetRead k).setI k).host = [] from hh)
    (show ((st.octetRead k).setI k).driveLow = false from hd)]
  have h1 : ((st.octetRead k).setI k).line.readBit ((st.octetRead k).setI k).cfg ((st.octetRead k).setI k).clock 0 =
      st.line.readBit st.cfg st.clock k := readBit_shift _ _ _ _
  have h2 : ((st.octetRead k).setI k).line.readEnd ((st.octetRead k).setI k).cfg ((st.octetRead k).setI k).clock 0 =
      st.line.readEnd st.cfg st.clock k := readEnd_shift _ _ _ _
  rw [h1, h2]
  congr 1
  ext1 <;> simp [State.octetRead, State.indexed, octetIndex, LineEnv.afterReads, readOctetTrace, Nat.succ_mul,
    Nat.add_assoc]

theorem octetRead_or {st : State} (k : Nat) (hk : k < 8) :
    ((st.octetRead (k + 1)).sampled (st.line.readBit st.cfg st.clock k) (st.line.readEnd st.cfg st.clock k)
      (st.line.readByte st.cfg st.clock k)).orData k = st.octetRead (k + 1) := by
  have hz : (st.line.readByte st.cfg st.clock k).getLsbD k = false := readByte_high _ _ _ _ _ (by omega) le_rfl
  ext1 <;> simp [State.octetRead, LineEnv.readByte, setBit_zero _ _ _ _ hz]

/-- Slot `k` of READ_OCTET with the line high at its end. -/
theorem receiveBit_ok {st : State} (hh : st.host = []) (hd : st.driveLow = false) (k : Nat) (hk : k < 8)
    (he : st.line.readEnd st.cfg st.clock k = true) :
    (receiveBit k).run (st.octetRead k) = .ok () (st.octetRead (k + 1)) := by
  unfold receiveBit
  rw [bind_ok (upd_run _ _), bind_ok (octetRead_slot hh hd k)]
  simp only
  rw [bind_ok (upd_run _ _), octetRead_or k hk, he]
  rfl

/-- Slot `k` of READ_OCTET with the line low at its end: `DATA` becomes a free value and the operation ends. -/
theorem receiveBit_fails {st : State} (hh : st.host = []) (hd : st.driveLow = false) (k : Nat) (hk : k < 8)
    (he : st.line.readEnd st.cfg st.clock k = false) :
    (receiveBit k).run (st.octetRead k) = .error .finished ((st.octetRead (k + 1)).anyData.finish .commError) := by
  unfold receiveBit
  rw [bind_ok (upd_run _ _), bind_ok (octetRead_slot hh hd k)]
  simp only
  rw [bind_ok (upd_run _ _), octetRead_or k hk, he]
  rfl

/-- The eight slots of READ_OCTET with the line high at every slot's end. -/
theorem octetRead_all {st : State} (hh : st.host = []) (hd : st.driveLow = false)
    (he : ∀ k < 8, st.line.readEnd st.cfg st.clock k = true) :
    (forUp receiveBit 0 8).run (st.octetRead 0) = .ok () (st.octetRead 8) :=
  forUp_ok 8 0 fun k _ hk => receiveBit_ok hh hd k (by omega) (he k (by omega))

/-- READ_OCTET ends at the first slot that ends with the line low. -/
theorem octetRead_abort {st : State} (hh : st.host = []) (hd : st.driveLow = false) (m : Nat) (hm : m < 8)
    (hok : ∀ k < m, st.line.readEnd st.cfg st.clock k = true) (he : st.line.readEnd st.cfg st.clock m = false) :
    (forUp receiveBit 0 8).run (st.octetRead 0) =
      .error .finished ((st.octetRead (m + 1)).anyData.finish .commError) :=
  forUp_error 8 0 m hm (fun k _ hk => receiveBit_ok hh hd k (by omega) (hok k (by omega)))
    (by rw [Nat.zero_add]; exact receiveBit_fails hh hd m hm he)

end Sys2Proof.Machine
end

