-- ==== Sys2Proof/Laws/Exec.lean ====
section
/-! SUPPORT. From the sequences to whole operations: an accepted operation runs its statements, and is blind to the host. -/

namespace Sys2Proof.Machine

theorem noHost_cfg' (st : State) : st.noHost.cfg = st.cfg := rfl

/-- Acceptance on the idle block, out of hardware reset. -/
theorem runOp_idle (i : Instr) (body : Op Unit) {st : State} (h : st.busy = false) (h' : st.resetIn = false) :
    runOp i body st = .next (lastState (body.run (st.accept i))) := by
  unfold runOp
  rw [h, h']
  rfl

/-- A command while hardware reset is asserted changes nothing (70 R270). -/
theorem runOp_held (i : Instr) (body : Op Unit) {st : State} (h : st.busy = false) (h' : st.resetIn = true) :
    runOp i body st = .next st := by
  unfold runOp
  rw [h, h']
  rfl

theorem accept_noHost (i : Instr) (st : State) : (st.accept i).noHost = st.noHost.accept i := rfl

theorem accept_noHwReset (i : Instr) {st : State} (h : st.noHwReset) : (st.accept i).noHwReset := h

/-- What an operation that is blind to the host leaves: what it leaves when the host does nothing, but for the host's own
side of the state. -/
theorem runOp_blind (i : Instr) {body : Op Unit} {st : State} (h : st.Ready) (hb : Blind body) :
    ∃ t, runOp i body st = .next t ∧ t.noHost = lastState (body.run (st.noHost.accept i)) := by
  refine ⟨_, runOp_idle i body h.idle h.running, ?_⟩
  have := (hb (st.accept i) (accept_noHwReset i h.noReset)).1
  rw [accept_noHost] at this
  rw [← this, lastState_mapState]

/-- The same from a known end of the quiet run. -/
theorem runOp_blind_of {i : Instr} {body : Op Unit} {st u : State} {e : Stop} (h : st.Ready) (hb : Blind body)
    (hu : body.run (st.noHost.accept i) = .error e u) : ∃ t, runOp i body st = .next t ∧ t.noHost = u := by
  obtain ⟨t, ht, hn⟩ := runOp_blind i h hb
  exact ⟨t, ht, by rw [hn, hu]; rfl⟩

/-- The state right after acceptance, the host doing nothing. -/
theorem noHost_accept_quiet (i : Instr) {st : State} (h : st.Ready) :
    (st.noHost.accept i).host = [] ∧ (st.noHost.accept i).driveLow = false := ⟨rfl, h.released⟩

/-- READ_OCTET's statements, as `execReadOctet` writes them. -/
def readOctetBody : Op Unit := do
  upd fun st => { st with data := 0#8 }
  forUp receiveBit 0 8
  upd (State.setI 8)

theorem execReadOctet_eq (st : State) : execReadOctet st = runOp .readOctet (readOctetBody >>= fun _ => finish .ok) st := by
  unfold execReadOctet readOctetBody
  simp only [bind_assoc]

theorem blindOk_readOctet : BlindOk readOctetBody :=
  blindOk_bind (blindOk_of (blind_upd (fun _ => rfl) fun _ => rfl) (goesOn_upd _)) fun _ =>
    blindOk_bind (blindOk_forUp blindOk_receiveBit _ _) fun _ =>
      blindOk_of (blind_upd (fun _ => rfl) fun _ => rfl) (goesOn_upd _)

/-- READ_OCTET whose quiet run goes through: the host changes nothing but its own side. -/
theorem readOctet_ok {st u : State} (h : st.Ready) (hu : readOctetBody.run (st.noHost.accept .readOctet) = .ok () u) :
    ∃ t, execReadOctet st = .next t ∧ t.noHost = u.finish .ok := by
  rw [execReadOctet_eq, runOp_idle _ _ h.idle h.running]
  obtain ⟨a, t, ht, hq, -⟩ | ⟨e, t, v, n, m, -, hq, -⟩ := blindOk_readOctet (st.accept .readOctet) h.noReset
  · rw [accept_noHost, hu] at hq
    refine ⟨_, rfl, ?_⟩
    rw [bind_ok ht, finish_run, lastState_error]
    injection hq with _ hq
    rw [hq]
    rfl
  · rw [accept_noHost, hu] at hq
    cases hq

/-- READ_OCTET whose quiet run ends at a failing slot: `DATA` is a free value, and the host changes nothing else but its own
side. -/
theorem readOctet_error {st u : State} {e : Stop} (h : st.Ready)
    (hu : readOctetBody.run (st.noHost.accept .readOctet) = .error e u) :
    ∃ t n, execReadOctet st = .next t ∧ t.data = Config.freeByte n ∧ t.noHost = ({ u with data := t.data }).noHost := by
  rw [execReadOctet_eq, runOp_idle _ _ h.idle h.running]
  obtain ⟨a, t, -, hq, -⟩ | ⟨e, t, v, n, m, ht, hq, hd, -, hn⟩ := blindOk_readOctet (st.accept .readOctet) h.noReset
  · rw [accept_noHost, hu] at hq
    cases hq
  · rw [accept_noHost, hu] at hq
    injection hq with _ hq
    rw [bind_error ht]
    exact ⟨t, n, rfl, hd, by rw [hn, hq]⟩

end Sys2Proof.Machine
end

