-- ==== Sys2Proof/Laws/Frames.lean ====
section
/-! SUPPORT. What every sequence of the block is built from, once, so that a frame (what an operation leaves unchanged) is a
case analysis over the updates the operation uses. -/

namespace Sys2Proof.Machine

/-- The state less the host's side of it and `DATA`: all that the course of an operation depends on. -/
def State.blank (st : State) : State := { st.noHost with data := 0#8 }

/-- `x` is built from the primitives, from updates in `P`, and from looks at what the course of an operation depends on. -/
inductive Built (P : (State → State) → Prop) : {α : Type} → Op α → Prop
  | pure {α : Type} (a : α) : Built P (Pure.pure a : Op α)
  | bind {α β : Type} {x : Op α} {f : α → Op β} : Built P x → (∀ a, Built P (f a)) → Built P (x >>= f)
  | upd {f : State → State} : P f → Built P (Machine.upd f)
  | look {α : Type} (f : State → α) (h : ∀ st, f st.blank = f st := by intro; rfl) : Built P (Machine.look f)
  | sample : Built P Machine.sample
  | drive : Built P Machine.drive
  | release : Built P Machine.release
  | wait (n : Nat) : Built P (Machine.wait n)
  | finish (r : Result) : Built P (Machine.finish r)

/-- `R` relates every state to what a primitive or an update in `P` makes of it. -/
structure Kept (P : (State → State) → Prop) (R : State → State → Prop) : Prop where
  refl : ∀ a, R a a
  trans : ∀ a b c, R a b → R b c → R a c
  upd : ∀ f, P f → ∀ st, R st (f st)
  sample : ∀ st, R st st.noteSample
  drive : ∀ st, R st st.driveLine
  release : ∀ st, R st st.releaseLine
  wait : ∀ n st, R st (lastState ((Machine.wait n).run st))
  finish : ∀ r st, R st (st.finish r)

theorem Built.keeps {P : (State → State) → Prop} {R : State → State → Prop} (k : Kept P R) {α : Type} {x : Op α}
    (h : Built P x) : Keeps R x := by
  induction h with
  | pure a => exact k.refl
  | bind _ _ hx hf => exact keeps_bind k.trans hx hf
  | upd hf => exact k.upd _ hf
  | look f _ => exact k.refl
  | sample => exact k.sample
  | drive => exact k.drive
  | release => exact k.release
  | wait n => exact k.wait n
  | finish r => exact k.finish r

theorem Built.mono {P Q : (State → State) → Prop} (hPQ : ∀ f, P f → Q f) {α : Type} {x : Op α} (h : Built P x) :
    Built Q x := by
  induction h with
  | pure a => exact .pure a
  | bind _ _ hx hf => exact .bind hx hf
  | upd hf => exact .upd (hPQ _ hf)
  | look f h => exact .look f h
  | sample => exact .sample
  | drive => exact .drive
  | release => exact .release
  | wait n => exact .wait n
  | finish r => exact .finish r

/-- What a projection `g` of the state must not see, to be a frame: the host's accesses, line activity, time, `finish`, and
the updates in `P`. -/
structure Unseen (P : (State → State) → Prop) {γ : Type} (g : State → γ) : Prop where
  upd : ∀ f, P f → ∀ st, g (f st) = g st
  host : ∀ f, P f → ∀ st, (f st).host = st.host
  lineTo : ∀ (st : State) l d n tr, g { st with line := l, driveLow := d, clock := n, trace := tr } = g st
  finish : ∀ (r : Result) st, g (st.finish r) = g st
  noHost : ∀ st : State, g st.noHost = g st

/-- A frame of every run with no hardware reset pending. -/
theorem Built.frame {P : (State → State) → Prop} {γ : Type} {g : State → γ} (u : Unseen P g) {α : Type} {x : Op α}
    (h : Built P x) {st : State} (hh : st.noHwReset) : g (lastState (x.run st)) = g st := by
  have k : Kept P fun a b => a.noHwReset → b.noHwReset ∧ g b = g a := {
    refl := fun _ h => ⟨h, rfl⟩
    trans := fun _ _ _ h1 h2 h => ⟨(h2 (h1 h).1).1, (h2 (h1 h).1).2.trans (h1 h).2⟩
    upd := fun f hf st h => ⟨noHwReset_of_host (u.host f hf st) h, u.upd f hf st⟩
    sample := fun st h => ⟨h, u.lineTo st _ _ _ _⟩
    drive := fun st h => by
      refine ⟨noHwReset_of_host (driveLine_host st) h, ?_⟩
      unfold State.driveLine
      split
      · rfl
      · exact u.lineTo st _ _ _ _
    release := fun st h => by
      refine ⟨noHwReset_of_host (releaseLine_host st) h, ?_⟩
      unfold State.releaseLine
      split
      · exact u.lineTo st _ _ _ _
      · rfl
    wait := fun n st h => by
      obtain ⟨t, ht, hn, hr, -⟩ := wait_spec n st h
      rw [ht, lastState_ok, ← u.noHost, hn, u.noHost]
      exact ⟨hr, u.lineTo st _ _ _ _⟩
    finish := fun r st h => ⟨h, u.finish r st⟩ }
  exact (h.keeps k st hh).2

/-! ### The updates of each sequence -/

/-- `ReadSlot`'s updates. -/
inductive SlotUpd (atSample : State → State) : (State → State) → Prop
  | data (x : Bool) : SlotUpd atSample fun st => atSample { st with s := x }
  | slotEnd (x : Bool) : SlotUpd atSample fun st => { st with e := x }

/-- `ResetSeq`'s updates. -/
inductive ResetUpd : (State → State) → Prop
  | clear : ResetUpd State.clearPresence
  | start : ResetUpd fun st => { st with nFloat := 0#8 }
  | float : ResetUpd State.countFloat
  | high : ResetUpd State.countHigh
  | low : ResetUpd State.countLow
  | release : ResetUpd State.noteRelease

/-- `WriteOctetSeq`'s update. -/
inductive SendUpd : (State → State) → Prop
  | index (k : Nat) : SendUpd (State.setI k)

/-- READ_OCTET's updates. -/
inductive ReceiveUpd : (State → State) → Prop
  | clear : ReceiveUpd fun st => { st with data := 0#8 }
  | index (k : Nat) : ReceiveUpd (State.setI k)
  | slot (f : State → State) : SlotUpd id f → ReceiveUpd f
  | or (k : Nat) : ReceiveUpd (State.orData k)
  | any : ReceiveUpd State.anyData

/-- SEND_COMMAND's updates. -/
inductive CommandUpd : (State → State) → Prop
  | reset (f : State → State) : ResetUpd f → CommandUpd f
  | send (f : State → State) : SendUpd f → CommandUpd f

/-- The updates of a search pass before it stores. -/
inductive PositionUpd : (State → State) → Prop
  | command (f : State → State) : CommandUpd f → PositionUpd f
  | slot (f : State → State) : SlotUpd id f → PositionUpd f
  | pass : PositionUpd State.startPass
  | position (p : Nat) : PositionUpd (State.setPosition p)
  | v (x : Bool) : PositionUpd fun st => { st with v := x }
  | c (x : Bool) : PositionUpd fun st => { st with c := x }
  | decide (p : Fin 64) : PositionUpd (State.decideBit p)
  | latch (p : Nat) : PositionUpd (State.latchRom p)

/-- SEARCH's updates. -/
inductive SearchUpd : (State → State) → Prop
  | within (f : State → State) : PositionUpd f → SearchUpd f
  | start : SearchUpd State.startSearch
  | store : SearchUpd State.storePass
  | count : SearchUpd State.countDevices

variable {P : (State → State) → Prop}

theorem built_releaseIf (b : Bool) : Built P (releaseIf b) := by
  cases b
  · exact .pure _
  · exact .release

theorem built_finishIf (b : Bool) (r : Result) : Built P (finishIf b r) := by
  cases b
  · exact .pure _
  · exact .finish _

theorem built_ite {α : Type} (p : Prop) [Decidable p] {x y : Op α} (hx : Built P x) (hy : Built P y) :
    Built P (if p then x else y) := by
  split
  · exact hx
  · exact hy

theorem built_forUp {body : Nat → Op Unit} (h : ∀ k, Built P (body k)) (a n : Nat) : Built P (forUp body a n) := by
  induction n generalizing a with
  | zero => exact .pure _
  | succ n ih => exact .bind (h a) fun _ => ih (a + 1)

theorem built_writeSlot (b : Bool) : Built P (writeSlot b) :=
  .bind (.look _) fun _ => .bind .drive fun _ => .bind (.wait _) fun _ => .bind (built_releaseIf b) fun _ =>
    .bind (.wait _) fun _ => .bind .release fun _ => .wait _

theorem built_readSlot (f : State → State) : Built (SlotUpd f) (readSlot f) :=
  .bind (.look _) fun _ => .bind .drive fun _ => .bind (.wait _) fun _ => .bind .release fun _ => .bind (.wait _) fun _ =>
    .bind .sample fun x => .bind (.upd (.data x)) fun _ => .bind (.wait _) fun _ => .bind .sample fun y =>
      .bind (.upd (.slotEnd y)) fun _ => .pure _

theorem built_floatLoop (fuel : Nat) : Built ResetUpd (floatLoop fuel) := by
  induction fuel with
  | zero => exact .pure _
  | succ n ih =>
    exact .bind .sample fun _ => built_ite _ (.pure _) <| .bind (.look _) fun _ => built_ite _ (.pure _) <|
      .bind (.wait _) fun _ => .bind (.upd .float) fun _ => ih

theorem built_highLoop (fuel : Nat) : Built ResetUpd (highLoop fuel) := by
  induction fuel with
  | zero => exact .pure _
  | succ n ih =>
    exact .bind .sample fun _ => built_ite _ (.bind (.wait _) fun _ => .bind (.upd .high) fun _ =>
      .bind (.look _) fun _ => built_ite _ (.pure _) ih) (.pure _)

theorem built_lowLoop (fuel : Nat) : Built ResetUpd (lowLoop fuel) := by
  induction fuel with
  | zero => exact .pure _
  | succ n ih =>
    exact .bind .sample fun _ => built_ite _ (.pure _) (.bind (.wait _) fun _ => .bind (.upd .low) fun _ =>
      .bind (.look _) fun _ => built_ite _ (.pure _) ih)

theorem built_acceptPresence : Built ResetUpd acceptPresence :=
  .bind (.look _) fun _ => built_ite _ (.pure _) <| .bind (.upd .release) fun _ => .bind (.look _) fun _ =>
    built_ite _ (.bind (.wait _) fun _ => .pure _) (.pure _)

theorem built_resetSeq : Built ResetUpd resetSeq :=
  .bind (.look _) fun _ => .bind (.upd .clear) fun _ => .bind .drive fun _ => .bind (.wait _) fun _ =>
    .bind .release fun _ => .bind (.upd .start) fun _ => .bind (built_floatLoop _) fun _ => built_ite _
      (.bind (built_highLoop _) fun _ => built_ite _
        (.bind (built_lowLoop _) fun _ => built_ite _ built_acceptPresence (.pure _)) (.pure _)) (.pure _)

theorem built_writeOctetSeq (byte : Byte) : Built SendUpd (writeOctetSeq byte) :=
  .bind (built_forUp (fun _ => .bind (.upd (.index _)) fun _ => built_writeSlot _) 0 8) fun _ => .upd (.index _)

theorem built_receiveBit (k : Nat) : Built ReceiveUpd (receiveBit k) :=
  .bind (.upd (.index k)) fun _ => .bind ((built_readSlot id).mono .slot) fun _ => .bind (.upd (.or k)) fun _ =>
    built_ite _ (.pure _) (.bind (.upd .any) fun _ => .finish _)

theorem built_readOctet : Built ReceiveUpd readOctetBody :=
  .bind (.upd .clear) fun _ => .bind (built_forUp built_receiveBit _ _) fun _ => .upd (.index 8)

theorem built_sendCommandSeq (byte : Byte) : Built CommandUpd (sendCommandSeq byte) :=
  .bind (built_resetSeq.mono .reset) fun _ =>
    built_ite _ (.bind ((built_writeOctetSeq byte).mono .send) fun _ => .pure _) (.pure _)

theorem built_searchPosition (p : Nat) : Built PositionUpd (searchPosition p) :=
  .bind (.upd (.position p)) fun _ => .bind ((built_readSlot id).mono .slot) fun _ => .bind (.upd (.v _)) fun _ =>
    .bind (built_finishIf _ _) fun _ => .bind ((built_readSlot id).mono .slot) fun _ => .bind (.upd (.c _)) fun _ =>
      .bind (built_finishIf _ _) fun _ => .bind (built_finishIf _ _) fun _ => .bind (.upd (.decide _)) fun _ =>
        .bind (.look _) fun _ => .bind (built_writeSlot _) fun _ => .upd (.latch p)

/-- A search pass up to its store. -/
def passBody : Op Unit := do
  let c ← look State.cfg
  upd State.startPass
  let r ← sendCommandSeq c.searchCmd
  finishIf (r ≠ .ok) r
  forUp searchPosition 0 Config.addrBits
  upd (State.setPosition Config.addrBits)

theorem searchPass_eq : searchPass = passBody >>= fun _ => upd State.storePass := by
  unfold searchPass passBody
  simp only [bind_assoc]

theorem built_passBody : Built PositionUpd passBody :=
  .bind (.look _) fun _ => .bind (.upd .pass) fun _ => .bind ((built_sendCommandSeq _).mono .command) fun _ =>
    .bind (built_finishIf _ _) fun _ => .bind (built_forUp built_searchPosition _ _) fun _ => .upd (.position _)

theorem built_searchPass : Built SearchUpd searchPass := by
  rw [searchPass_eq]
  exact .bind (built_passBody.mono .within) fun _ => .upd .store

theorem built_searchLoop (fuel : Nat) : Built SearchUpd (searchLoop fuel) := by
  induction fuel with
  | zero => exact .finish _
  | succ n ih =>
    exact .bind (.look _) fun _ => .bind (built_finishIf _ _) fun _ => .bind built_searchPass fun _ =>
      .bind (.look _) fun _ => built_ite _ (.bind (.upd .count) fun _ => .finish _) ih

/-- The updates of an operation. -/
def OpUpd : Instr → (State → State) → Prop
  | .resetPulse => ResetUpd
  | .writeBit _ => fun _ => False
  | .readBitOr p => SlotUpd (State.orData (readPosition p))
  | .writeOctet => SendUpd
  | .readOctet => ReceiveUpd
  | .sendCommand => CommandUpd
  | .search => SearchUpd

/-- Every operation is one run, from acceptance, of statements built from its own updates; the statements depend on the
parameters and on `DATA` at acceptance alone. -/
theorem exec_built_all (i : Instr) (st : State) :
    ∃ body : Op Unit, Built (OpUpd i) body ∧ ∀ q : State, q.cfg = st.cfg → q.data = st.data → exec i q = runOp i body q := by
  cases i with
  | resetPulse => exact ⟨_, .bind built_resetSeq fun _ => .finish _, fun _ _ _ => rfl⟩
  | writeBit v => exact ⟨_, .bind (built_writeSlot _) fun _ => .finish _, fun _ _ _ => rfl⟩
  | readBitOr p => exact ⟨_, .bind (built_readSlot _) fun r => .finish r.2, fun _ _ _ => rfl⟩
  | writeOctet => exact ⟨_, .bind (built_writeOctetSeq st.data) fun _ => .finish _, fun _ _ hd => by rw [← hd]; rfl⟩
  | readOctet => exact ⟨_, .bind built_readOctet fun _ => .finish _, fun q _ _ => execReadOctet_eq q⟩
  | sendCommand => exact ⟨_, .bind (built_sendCommandSeq st.data) fun _ => .finish _, fun _ _ hd => by rw [← hd]; rfl⟩
  | search => exact ⟨_, .bind (.upd .start) fun _ => built_searchLoop (st.cfg.maxDevices + 1), fun _ hc _ => by rw [← hc]; rfl⟩

theorem exec_built (i : Instr) (st : State) : ∃ body : Op Unit, Built (OpUpd i) body ∧ exec i st = runOp i body st := by
  obtain ⟨body, hb, h⟩ := exec_built_all i st
  exact ⟨body, hb, h st rfl rfl⟩

/-! ### What each family of updates can change -/

theorem resetUpd_shape {f : State → State} (h : ResetUpd f) (st : State) :
    ∃ a b c d, f st = { st with presHighQ := a, presLowQ := b, nFloat := c, tRel := d } := by
  cases h <;> exact ⟨_, _, _, _, rfl⟩

theorem sendUpd_shape {f : State → State} (h : SendUpd f) (st : State) : ∃ a, f st = { st with i := a } := by
  cases h
  exact ⟨_, rfl⟩

theorem slotUpd_shape {f : State → State} (h : SlotUpd id f) (st : State) : ∃ a b, f st = { st with s := a, e := b } := by
  cases h <;> exact ⟨_, _, rfl⟩

theorem readUpd_shape {k : Nat} {f : State → State} (h : SlotUpd (State.orData k) f) (st : State) :
    ∃ a b d, f st = { st with s := a, e := b, data := d } := by
  cases h <;> exact ⟨_, _, _, rfl⟩

theorem receiveUpd_shape {f : State → State} (h : ReceiveUpd f) (st : State) :
    ∃ a b c d n, f st = { st with i := a, s := b, e := c, data := d, freeCtr := n } := by
  cases h with
  | slot f h => cases h <;> exact ⟨_, _, _, _, _, rfl⟩
  | _ => exact ⟨_, _, _, _, _, rfl⟩

theorem commandUpd_shape {f : State → State} (h : CommandUpd f) (st : State) :
    ∃ a b c d i, f st = { st with presHighQ := a, presLowQ := b, nFloat := c, tRel := d, i := i } := by
  cases h with
  | reset h => cases h <;> exact ⟨_, _, _, _, _, rfl⟩
  | send h => cases h; exact ⟨_, _, _, _, _, rfl⟩

theorem decideBit_shape (p : Fin 64) (st : State) : ∃ b d, st.decideBit p = { st with b := b, curDisc := d } := by
  unfold State.decideBit
  split <;> exact ⟨_, _, rfl⟩

/-- A pass before its store changes the counters, the slot latches and the search's own registers alone. -/
theorem positionUpd_shape {f : State → State} (h : PositionUpd f) (st : State) :
    ∃ ph pl nf tr i s e cd p v c b r, f st = { st with
      presHighQ := ph, presLowQ := pl, nFloat := nf, tRel := tr, i := i, s := s, e := e, curDisc := cd, position := p, v := v,
      c := c, b := b, rom := r } := by
  cases h with
  | command f h =>
    obtain ⟨_, _, _, _, _, h⟩ := commandUpd_shape h st
    exact ⟨_, _, _, _, _, _, _, _, _, _, _, _, _, h⟩
  | slot f h =>
    obtain ⟨_, _, h⟩ := slotUpd_shape h st
    exact ⟨_, _, _, _, _, _, _, _, _, _, _, _, _, h⟩
  | decide p =>
    obtain ⟨b, d, h⟩ := decideBit_shape p st
    exact ⟨_, _, _, _, _, _, _, _, _, _, _, _, _, h⟩
  | _ => exact ⟨_, _, _, _, _, _, _, _, _, _, _, _, _, rfl⟩

/-- A search update is one of a pass before its store, or changes only the pass index, the marker, the table and its count. -/
theorem searchUpd_shape {f : State → State} (h : SearchUpd f) (st : State) :
    PositionUpd f ∨ ∃ ld dp m n, f st = { st with lastDisc := ld, devicePosition := dp, devices := m, numDevices := n } := by
  cases h with
  | within f h => exact .inl h
  | _ => exact .inr ⟨_, _, _, _, rfl⟩

theorem opUpd_host (i : Instr) {f : State → State} (h : OpUpd i f) (st : State) : (f st).host = st.host := by
  cases i with
  | resetPulse => obtain ⟨_, _, _, _, h⟩ := resetUpd_shape h st; rw [h]
  | writeBit v => exact h.elim
  | readBitOr p => obtain ⟨_, _, _, h⟩ := readUpd_shape h st; rw [h]
  | writeOctet => obtain ⟨_, h⟩ := sendUpd_shape h st; rw [h]
  | readOctet => obtain ⟨_, _, _, _, _, h⟩ := receiveUpd_shape h st; rw [h]
  | sendCommand => obtain ⟨_, _, _, _, _, h⟩ := commandUpd_shape h st; rw [h]
  | search =>
    obtain h | ⟨_, _, _, _, h⟩ := searchUpd_shape h st
    · obtain ⟨_, _, _, _, _, _, _, _, _, _, _, _, _, h⟩ := positionUpd_shape h st; rw [h]
    · rw [h]

/-- A frame of a whole operation. -/
theorem exec_frame {i : Instr} {γ : Type} {g : State → γ} (u : Unseen (OpUpd i) g) {st t : State} (h : st.Ready)
    (ht : exec i st = .next t) : g t = g (st.accept i) := by
  obtain ⟨body, hb, he⟩ := exec_built i st
  rw [he, runOp_idle _ _ h.idle h.running] at ht
  injection ht with ht
  rw [← ht]
  exact hb.frame u (accept_noHwReset i h.noReset)

end Sys2Proof.Machine
end

