-- ==== Sys2Proof/Laws/Triple.lean ====
section
/-! SUPPORT. Pre- and postconditions of a piece of an operation: `Q` where it goes on, `E` where the operation ends in it. -/

namespace Sys2Proof.Machine

variable {α β : Type}

/-- From every state in `P`, `x` goes on with a value and a state in `Q`, or ends the operation in a state in `E`. -/
def Triple (P : State → Prop) (x : Op α) (Q : α → State → Prop) (E : State → Prop) : Prop :=
  ∀ st, P st → match x.run st with
    | .ok a t => Q a t
    | .error _ t => E t

theorem triple_bind {P E : State → Prop} {Q : β → State → Prop} (R : α → State → Prop) {x : Op α} {f : α → Op β}
    (hx : Triple P x R E) (hf : ∀ a, Triple (R a) (f a) Q E) : Triple P (x >>= f) Q E := by
  intro st h
  have h1 := hx st h
  cases hr : x.run st with
  | ok a t =>
    rw [hr] at h1
    rw [bind_ok hr]
    exact hf a t h1
  | error e t =>
    rw [hr] at h1
    rw [bind_error hr]
    exact h1

theorem triple_conseq {P P' E E' : State → Prop} {Q Q' : α → State → Prop} {x : Op α} (h : Triple P' x Q' E')
    (hP : ∀ st, P st → P' st) (hQ : ∀ a st, Q' a st → Q a st) (hE : ∀ st, E' st → E st) : Triple P x Q E := by
  intro st hst
  have := h st (hP st hst)
  cases hr : x.run st with
  | ok a t =>
    rw [hr] at this
    exact hQ a t this
  | error e t =>
    rw [hr] at this
    exact hE t this

theorem triple_pure {P E : State → Prop} {Q : α → State → Prop} {a : α} (h : ∀ st, P st → Q a st) :
    Triple P (pure a) Q E := fun st hst => h st hst

theorem triple_upd {P E : State → Prop} {Q : Unit → State → Prop} {f : State → State} (h : ∀ st, P st → Q () (f st)) :
    Triple P (upd f) Q E := fun st hst => h st hst

theorem triple_look {P E : State → Prop} {Q : α → State → Prop} {f : State → α} (h : ∀ st, P st → Q (f st) st) :
    Triple P (look f) Q E := fun st hst => h st hst

theorem triple_sample {P E : State → Prop} {Q : Bool → State → Prop} (h : ∀ st, P st → Q st.lineIn st.noteSample) :
    Triple P sample Q E := fun st hst => h st hst

theorem triple_finish {P E : State → Prop} {Q : Unit → State → Prop} {r : Result} (h : ∀ st, P st → E (st.finish r)) :
    Triple P (finish r) Q E := fun st hst => h st hst

theorem triple_finishIf {P E : State → Prop} {Q : Unit → State → Prop} {b : Bool} {r : Result}
    (hf : b = true → ∀ st, P st → E (st.finish r)) (hp : b = false → ∀ st, P st → Q () st) :
    Triple P (finishIf b r) Q E := by
  cases b
  · exact triple_pure (hp rfl)
  · exact triple_finish (hf rfl)

theorem triple_ite {P E : State → Prop} {Q : α → State → Prop} {p : Prop} [Decidable p] {x y : Op α}
    (hx : p → Triple P x Q E) (hy : ¬p → Triple P y Q E) : Triple P (if p then x else y) Q E := by
  split
  · next h => exact hx h
  · next h => exact hy h

/-- A loop with an invariant indexed by the iteration. -/
theorem triple_forUp {I : Nat → State → Prop} {E : State → Prop} {body : Nat → Op Unit} (n a : Nat)
    (h : ∀ k, a ≤ k → k < a + n → Triple (I k) (body k) (fun _ => I (k + 1)) E) :
    Triple (I a) (forUp body a n) (fun _ => I (a + n)) E := by
  induction n generalizing a with
  | zero => exact triple_pure fun _ h => h
  | succ n ih =>
    refine triple_bind (fun _ => I (a + 1)) (h a le_rfl (by omega)) fun _ => ?_
    rw [show a + (n + 1) = a + 1 + n by omega]
    exact ih (a + 1) fun k h1 h2 => h k (by omega) (by omega)

/-- `Wait(n)` whatever the host does. -/
theorem triple_wait {P E : State → Prop} (n : Nat) (htime : ∀ st k es, P st → P { st with clock := k, host := es })
    (hact : ∀ st act, act ≠ .hwReset → P st → P (st.busyAct act)) (hreset : ∀ st, P st → E st.hwReset) :
    Triple P (wait n) (fun _ => P) E := by
  have : ∀ till es st, P st → match serveUntil till es st with
      | .ok _ t => P t
      | .error _ t => E t := by
    intro till es
    induction es with
    | nil => exact fun st h => htime st _ _ h
    | cons e es ih =>
      intro st h
      have h1 : P (st.arrive e es) := htime st _ _ h
      unfold serveUntil
      by_cases hlt : e.tick < till
      · by_cases he : e.act = .hwReset
        · simp only [hlt, he, if_true]
          exact hreset _ h1
        · simp only [hlt, he, if_true, if_false]
          exact ih _ (hact _ _ he h1)
      · simp only [hlt, if_false]
        exact htime st _ _ h
  intro st h
  have h1 := this (st.clock + n) st.host st h
  have h2 : (wait n).run st = serveUntil (st.clock + n) st.host st := rfl
  rw [h2]
  cases hr : serveUntil (st.clock + n) st.host st with
  | ok a t =>
    rw [hr] at h1
    exact h1
  | error e t =>
    rw [hr] at h1
    exact h1

/-- `Wait(n)` in a quiet run. -/
theorem triple_wait_quiet {P E : State → Prop} {Q : Unit → State → Prop} (n : Nat) (hh : ∀ st, P st → st.host = [])
    (h : ∀ st, P st → Q () (st.tick n)) : Triple P (wait n) Q E := by
  intro st hst
  rw [wait_quiet n (hh st hst)]
  exact h st hst

theorem triple_lastState {P E : State → Prop} {Q : α → State → Prop} {x : Op α} {G : State → Prop} (h : Triple P x Q E)
    (hQ : ∀ a st, Q a st → G st) (hE : ∀ st, E st → G st) {st : State} (hst : P st) : G (lastState (x.run st)) := by
  have := h st hst
  cases hr : x.run st with
  | ok a t =>
    rw [hr] at this
    exact hQ a t this
  | error e t =>
    rw [hr] at this
    exact hE t this

/-! ### Every operation ends -/

/-- How an operation ends: `BUSY` clear, the sequencer idle, the line released. -/
def State.ended (st : State) : Prop := st.busy = false ∧ st.seq = [] ∧ st.driveLow = false

theorem hwReset_ended (st : State) : st.hwReset.ended := ⟨rfl, rfl, rfl⟩

theorem busyAct_driveLow (st : State) {act : HostAct} (h : act ≠ .hwReset) : (st.busyAct act).driveLow = st.driveLow :=
  (congrArg State.driveLow (busyAct_noHost st h).1 : (st.busyAct act).noHost.driveLow = st.noHost.driveLow)

/-- Whatever the host does, `Wait(n)` keeps the line output, or the operation ends with the line released. -/
theorem wait_ends (n : Nat) (d : Bool) :
    Triple (fun st => st.driveLow = d) (wait n) (fun _ st => st.driveLow = d) State.ended :=
  triple_wait n (fun _ _ _ h => h) (fun st _ ha h => (busyAct_driveLow st ha).trans h) fun st _ => hwReset_ended st

/-- The line is released whenever `x` starts and whenever it goes on, and the operation can only end in it released. -/
def Ends (x : Op α) : Prop := Triple (fun st => st.driveLow = false) x (fun _ st => st.driveLow = false) State.ended

theorem ends_bind {x : Op α} {f : α → Op β} (hx : Ends x) (hf : ∀ a, Ends (f a)) : Ends (x >>= f) :=
  triple_bind _ hx hf

theorem ends_pure (a : α) : Ends (pure a : Op α) := triple_pure fun _ h => h

theorem ends_look (f : State → α) : Ends (look f) := triple_look fun _ h => h

theorem ends_upd {f : State → State} (h : ∀ st, (f st).driveLow = st.driveLow) : Ends (upd f) :=
  triple_upd fun st hst => (h st).trans hst

theorem ends_sample : Ends sample := triple_sample fun _ h => h

theorem ends_finish (r : Result) : Ends (finish r) := triple_finish fun _ h => ⟨rfl, rfl, h⟩

theorem ends_finishIf (b : Bool) (r : Result) : Ends (finishIf b r) :=
  triple_finishIf (fun _ _ h => ⟨rfl, rfl, h⟩) fun _ _ h => h

theorem ends_wait (n : Nat) : Ends (wait n) := wait_ends n false

theorem ends_ite {p : Prop} [Decidable p] {x y : Op α} (hx : Ends x) (hy : Ends y) : Ends (if p then x else y) :=
  triple_ite (fun _ => hx) fun _ => hy

theorem ends_forUp {body : Nat → Op Unit} (h : ∀ k, Ends (body k)) (a n : Nat) : Ends (forUp body a n) :=
  triple_forUp (I := fun _ st => st.driveLow = false) n a fun k _ _ => h k

/-- Drive, wait, and whatever releases the line after it. -/
theorem ends_drive {f : Unit → Op α} (n : Nat)
    (hf : ∀ a, Triple (fun st => st.driveLow = true) (f a) (fun _ st => st.driveLow = false) State.ended) :
    Ends (drive >>= fun _ => wait n >>= f) :=
  triple_bind (fun _ st => st.driveLow = true) (triple_upd fun _ _ => driveLine_driveLow _) fun _ =>
    triple_bind (fun _ st => st.driveLow = true) (wait_ends n true) hf

/-- `Release()` and whatever follows it. -/
theorem ends_release {P : State → Prop} {f : Unit → Op α} (hf : ∀ a, Ends (f a)) :
    Triple P (release >>= f) (fun _ st => st.driveLow = false) State.ended :=
  triple_bind _ (triple_upd fun _ _ => releaseLine_driveLow _) hf

theorem ends_writeSlot (b : Bool) : Ends (writeSlot b) := by
  refine ends_bind (ends_look _) fun c => ends_drive _ fun _ => ?_
  cases b
  · rw [releaseIf_false]
    exact triple_bind (fun _ st => st.driveLow = true) (triple_pure fun _ h => h) fun _ =>
      triple_bind (fun _ st => st.driveLow = true) (wait_ends _ true) fun _ => ends_release fun _ => ends_wait _
  · rw [releaseIf_true]
    exact ends_release fun _ => ends_bind (ends_wait _) fun _ => ends_release fun _ => ends_wait _

theorem ends_readSlot {f : State → State} (h : ∀ st, (f st).driveLow = st.driveLow) : Ends (readSlot f) :=
  ends_bind (ends_look _) fun _ => ends_drive _ fun _ => ends_release fun _ => ends_bind (ends_wait _) fun _ =>
    ends_bind ends_sample fun _ => ends_bind (ends_upd fun _ => h _) fun _ => ends_bind (ends_wait _) fun _ =>
      ends_bind ends_sample fun _ => ends_bind (ends_upd fun _ => rfl) fun _ => ends_pure _

theorem ends_floatLoop (fuel : Nat) : Ends (floatLoop fuel) := by
  induction fuel with
  | zero => exact ends_pure _
  | succ n ih =>
    exact ends_bind ends_sample fun _ => ends_ite (ends_pure _) <| ends_bind (ends_look _) fun _ =>
      ends_ite (ends_pure _) <| ends_bind (ends_wait _) fun _ => ends_bind (ends_upd fun _ => rfl) fun _ => ih

theorem ends_highLoop (fuel : Nat) : Ends (highLoop fuel) := by
  induction fuel with
  | zero => exact ends_pure _
  | succ n ih =>
    exact ends_bind ends_sample fun _ => ends_ite (ends_bind (ends_wait _) fun _ => ends_bind (ends_upd fun _ => rfl)
      fun _ => ends_bind (ends_look _) fun _ => ends_ite (ends_pure _) ih) (ends_pure _)

theorem ends_lowLoop (fuel : Nat) : Ends (lowLoop fuel) := by
  induction fuel with
  | zero => exact ends_pure _
  | succ n ih =>
    exact ends_bind ends_sample fun _ => ends_ite (ends_pure _) (ends_bind (ends_wait _) fun _ =>
      ends_bind (ends_upd fun _ => rfl) fun _ => ends_bind (ends_look _) fun _ => ends_ite (ends_pure _) ih)

theorem ends_acceptPresence : Ends acceptPresence :=
  ends_bind (ends_look _) fun _ => ends_ite (ends_pure _) <| ends_bind (ends_upd fun _ => rfl) fun _ =>
    ends_bind (ends_look _) fun _ => ends_ite (ends_bind (ends_wait _) fun _ => ends_pure _) (ends_pure _)

theorem ends_resetSeq : Ends resetSeq :=
  ends_bind (ends_look _) fun _ => ends_bind (ends_upd fun _ => rfl) fun _ => ends_drive _ fun _ => ends_release fun _ =>
    ends_bind (ends_upd fun _ => rfl) fun _ => ends_bind (ends_floatLoop _) fun _ => ends_ite
      (ends_bind (ends_highLoop _) fun _ => ends_ite
        (ends_bind (ends_lowLoop _) fun _ => ends_ite ends_acceptPresence (ends_pure _)) (ends_pure _)) (ends_pure _)

theorem ends_writeOctetSeq (byte : Byte) : Ends (writeOctetSeq byte) :=
  ends_bind (ends_forUp (fun k => ends_bind (ends_upd (f := State.setI k) fun _ => rfl) fun _ => ends_writeSlot _) 0 8) fun _ =>
    ends_upd fun _ => rfl

theorem ends_receiveBit (k : Nat) : Ends (receiveBit k) :=
  ends_bind (ends_upd fun _ => rfl) fun _ => ends_bind (ends_readSlot fun _ => rfl) fun _ =>
    ends_bind (ends_upd fun _ => rfl) fun _ => ends_ite (ends_pure _) <| ends_bind (ends_upd fun _ => rfl) fun _ =>
      ends_finish _

theorem ends_readOctet : Ends readOctetBody :=
  ends_bind (ends_upd fun _ => rfl) fun _ => ends_bind (ends_forUp ends_receiveBit _ _) fun _ => ends_upd fun _ => rfl

theorem ends_sendCommandSeq (byte : Byte) : Ends (sendCommandSeq byte) :=
  ends_bind ends_resetSeq fun _ => ends_ite (ends_bind (ends_writeOctetSeq byte) fun _ => ends_pure _) (ends_pure _)

theorem decideBit_driveLow (p : Fin 64) (st : State) : (st.decideBit p).driveLow = st.driveLow := by
  obtain ⟨_, _, h⟩ := decideBit_shape p st
  rw [h]

theorem ends_searchPosition (p : Nat) : Ends (searchPosition p) :=
  ends_bind (ends_upd fun _ => rfl) fun _ => ends_bind (ends_readSlot fun _ => rfl) fun _ =>
    ends_bind (ends_upd fun _ => rfl) fun _ => ends_bind (ends_finishIf _ _) fun _ =>
      ends_bind (ends_readSlot fun _ => rfl) fun _ => ends_bind (ends_upd fun _ => rfl) fun _ =>
        ends_bind (ends_finishIf _ _) fun _ => ends_bind (ends_finishIf _ _) fun _ =>
          ends_bind (ends_upd fun st => decideBit_driveLow _ st) fun _ => ends_bind (ends_look _) fun _ =>
            ends_bind (ends_writeSlot _) fun _ => ends_upd fun _ => rfl

theorem ends_searchPass : Ends searchPass :=
  ends_bind (ends_look _) fun _ => ends_bind (ends_upd fun _ => rfl) fun _ => ends_bind (ends_sendCommandSeq _) fun _ =>
    ends_bind (ends_finishIf _ _) fun _ => ends_bind (ends_forUp ends_searchPosition _ _) fun _ =>
      ends_bind (ends_upd fun _ => rfl) fun _ => ends_upd fun _ => rfl

/-- The operation never goes on past it, and can only end in it with the line released. -/
def EndsHere (x : Op α) : Prop := Triple (fun st => st.driveLow = false) x (fun _ _ => False) State.ended

theorem endsHere_bind {x : Op α} {f : α → Op β} (hx : Ends x) (hf : ∀ a, EndsHere (f a)) : EndsHere (x >>= f) :=
  triple_bind _ hx hf

theorem endsHere_finish (r : Result) : EndsHere (finish r) := triple_finish fun _ h => ⟨rfl, rfl, h⟩

theorem endsHere_searchLoop (fuel : Nat) : EndsHere (searchLoop fuel) := by
  induction fuel with
  | zero => exact endsHere_finish _
  | succ n ih =>
    exact endsHere_bind (ends_look _) fun _ => endsHere_bind (ends_finishIf _ _) fun _ => endsHere_bind ends_searchPass
      fun _ => endsHere_bind (ends_look _) fun _ => triple_ite (fun _ => endsHere_bind (ends_upd fun _ => rfl) fun _ =>
        endsHere_finish _) fun _ => ih

/-- Every operation's statements end it. -/
theorem exec_endsHere (i : Instr) (st : State) : ∃ body : Op Unit, EndsHere body ∧ exec i st = runOp i body st := by
  cases i with
  | resetPulse => exact ⟨_, endsHere_bind ends_resetSeq fun _ => endsHere_finish _, rfl⟩
  | writeBit v => exact ⟨_, endsHere_bind (ends_writeSlot _) fun _ => endsHere_finish _, rfl⟩
  | readBitOr p => exact ⟨_, endsHere_bind (ends_readSlot (f := State.orData _) fun _ => rfl) fun r => endsHere_finish r.2, rfl⟩
  | writeOctet => exact ⟨_, endsHere_bind (ends_writeOctetSeq _) fun _ => endsHere_finish _, rfl⟩
  | readOctet => exact ⟨_, endsHere_bind ends_readOctet fun _ => endsHere_finish _, execReadOctet_eq st⟩
  | sendCommand => exact ⟨_, endsHere_bind (ends_sendCommandSeq _) fun _ => endsHere_finish _, rfl⟩
  | search => exact ⟨_, endsHere_bind (ends_upd (f := State.startSearch) fun _ => rfl) fun _ => endsHere_searchLoop _, rfl⟩

end Sys2Proof.Machine
end

