-- ==== Sys2Proof/Laws/Search.lean ====
section
/-! SUPPORT. What one position of a search pass does when the host does nothing during it (42_search R193 to R197). -/

namespace Sys2Proof.Machine

/-- The value and complement bits. -/
def State.paired (v c : Bool) (st : State) : State := { st with v := v, c := c }

/-- The value bit alone. -/
def State.valued (v : Bool) (st : State) : State := { st with v := v }

/-- The state after the first `n` slots of position `p`, its latches not yet set. -/
def State.pairSlots (st : State) (p n : Nat) : State :=
  ((st.setPosition p).lineTo (st.line.afterReads st.cfg st.clock n) (st.clock + n * Config.tSlot)
    (readOctetTrace st.line st.cfg st.clock n)).sampled (st.line.readBit st.cfg st.clock (n - 1))
      (st.line.readEnd st.cfg st.clock (n - 1)) st.data

/-- Position `p` once its two slots have been read and their samples latched. -/
def State.pairRead (st : State) (p : Nat) : State :=
  (st.pairSlots p 2).paired (st.line.readBit st.cfg st.clock 0) (st.line.readBit st.cfg st.clock 1)

@[simp] theorem pairRead_cfg (st : State) (p : Nat) : (st.pairRead p).cfg = st.cfg := rfl
@[simp] theorem pairRead_rom (st : State) (p : Nat) : (st.pairRead p).rom = st.rom := rfl
@[simp] theorem pairRead_lastDisc (st : State) (p : Nat) : (st.pairRead p).lastDisc = st.lastDisc := rfl
@[simp] theorem pairRead_curDisc (st : State) (p : Nat) : (st.pairRead p).curDisc = st.curDisc := rfl
@[simp] theorem pairRead_host (st : State) (p : Nat) : (st.pairRead p).host = st.host := rfl
@[simp] theorem pairRead_driveLow (st : State) (p : Nat) : (st.pairRead p).driveLow = st.driveLow := rfl
@[simp] theorem pairRead_data (st : State) (p : Nat) : (st.pairRead p).data = st.data := rfl
@[simp] theorem pairRead_devices (st : State) (p : Nat) : (st.pairRead p).devices = st.devices := rfl
@[simp] theorem pairRead_numDevices (st : State) (p : Nat) : (st.pairRead p).numDevices = st.numDevices := rfl
@[simp] theorem pairRead_devicePosition (st : State) (p : Nat) : (st.pairRead p).devicePosition = st.devicePosition := rfl
@[simp] theorem pairRead_presHighQ (st : State) (p : Nat) : (st.pairRead p).presHighQ = st.presHighQ := rfl
@[simp] theorem pairRead_presLowQ (st : State) (p : Nat) : (st.pairRead p).presLowQ = st.presLowQ := rfl
@[simp] theorem pairRead_cmd (st : State) (p : Nat) : (st.pairRead p).cmd = st.cmd := rfl
@[simp] theorem pairRead_busy (st : State) (p : Nat) : (st.pairRead p).busy = st.busy := rfl
@[simp] theorem pairRead_result (st : State) (p : Nat) : (st.pairRead p).result = st.result := rfl
@[simp] theorem pairRead_v (st : State) (p : Nat) : (st.pairRead p).v = st.line.readBit st.cfg st.clock 0 := rfl
@[simp] theorem pairRead_c (st : State) (p : Nat) : (st.pairRead p).c = st.line.readBit st.cfg st.clock 1 := rfl
@[simp] theorem pairRead_line (st : State) (p : Nat) : (st.pairRead p).line = st.line.afterReads st.cfg st.clock 2 := by
  simp [State.pairRead, State.paired, State.pairSlots]
@[simp] theorem pairRead_clock (st : State) (p : Nat) : (st.pairRead p).clock = st.clock + 2 * Config.tSlot := by
  simp [State.pairRead, State.paired, State.pairSlots]

theorem firstSlot_quiet (p : Nat) {st : State} (hh : st.host = []) (hd : st.driveLow = false) :
    (readSlot id).run (st.setPosition p) = .ok (st.line.readBit st.cfg st.clock 0,
      slotResult (st.line.readEnd st.cfg st.clock 0)) (st.pairSlots p 1) := by
  rw [readSlot_id_quiet (show (st.setPosition p).host = [] from hh) (show (st.setPosition p).driveLow = false from hd)]
  congr 1

theorem secondSlot_quiet (p : Nat) (v : Bool) {st : State} (hh : st.host = []) (hd : st.driveLow = false) :
    (readSlot id).run ((st.pairSlots p 1).valued v) = .ok (st.line.readBit st.cfg st.clock 1,
      slotResult (st.line.readEnd st.cfg st.clock 1)) ((st.pairSlots p 2).valued v) := by
  rw [readSlot_id_quiet (show ((st.pairSlots p 1).valued v).host = [] from hh)
    (show ((st.pairSlots p 1).valued v).driveLow = false from hd)]
  have h1 : ((st.pairSlots p 1).valued v).line.readBit ((st.pairSlots p 1).valued v).cfg ((st.pairSlots p 1).valued v).clock 0 =
      st.line.readBit st.cfg st.clock 1 := readBit_shift _ _ _ 1
  have h2 : ((st.pairSlots p 1).valued v).line.readEnd ((st.pairSlots p 1).valued v).cfg ((st.pairSlots p 1).valued v).clock 0 =
      st.line.readEnd st.cfg st.clock 1 := readEnd_shift _ _ _ 1
  rw [h1, h2]
  congr 1

/-- The first slot ends low: the search ends `CommError`, the second slot is not issued. -/
theorem searchPosition_firstFails (p : Nat) {st : State} (hh : st.host = []) (hd : st.driveLow = false)
    (he : st.line.readEnd st.cfg st.clock 0 = false) :
    (searchPosition p).run st =
      .error .finished (((st.pairSlots p 1).valued (st.line.readBit st.cfg st.clock 0)).finish .commError) := by
  unfold searchPosition
  rw [bind_ok (upd_run _ _), bind_ok (firstSlot_quiet p hh hd), he]
  rfl

/-- The second slot ends low: the search ends `CommError`. -/
theorem searchPosition_secondFails (p : Nat) {st : State} (hh : st.host = []) (hd : st.driveLow = false)
    (h1 : st.line.readEnd st.cfg st.clock 0 = true) (he : st.line.readEnd st.cfg st.clock 1 = false) :
    (searchPosition p).run st = .error .finished ((st.pairRead p).finish .commError) := by
  unfold searchPosition
  rw [bind_ok (upd_run _ _), bind_ok (firstSlot_quiet p hh hd), h1]
  refine (bind_ok (upd_run _ _)).trans <| (bind_ok (pure_run _ _)).trans <| (bind_ok (secondSlot_quiet p _ hh hd)).trans ?_
  rw [he]
  rfl

/-- What follows once both slots have ended high. -/
theorem searchPosition_pair (p : Nat) {st : State} (hh : st.host = []) (hd : st.driveLow = false)
    (h1 : st.line.readEnd st.cfg st.clock 0 = true) (h2 : st.line.readEnd st.cfg st.clock 1 = true) :
    (searchPosition p).run st = (do
      finishIf (st.line.readBit st.cfg st.clock 0 && st.line.readBit st.cfg st.clock 1) (if p = 0 then .noDevices else .commError)
      upd (State.decideBit (Fin.ofNat 64 p))
      let b ← look State.b
      writeSlot b
      upd (State.latchRom p)).run (st.pairRead p) := by
  unfold searchPosition
  rw [bind_ok (upd_run _ _), bind_ok (firstSlot_quiet p hh hd), h1]
  refine (bind_ok (upd_run _ _)).trans <| (bind_ok (pure_run _ _)).trans <| (bind_ok (secondSlot_quiet p _ hh hd)).trans ?_
  rw [h2]
  refine (bind_ok (upd_run _ _)).trans <| (bind_ok (pure_run _ _)).trans rfl

/-- No device answers: the search ends. -/
theorem searchPosition_silent (p : Nat) {st : State} (hh : st.host = []) (hd : st.driveLow = false)
    (h1 : st.line.readEnd st.cfg st.clock 0 = true) (h2 : st.line.readEnd st.cfg st.clock 1 = true)
    (hv : st.line.readBit st.cfg st.clock 0 = true) (hc : st.line.readBit st.cfg st.clock 1 = true) :
    (searchPosition p).run st =
      .error .finished ((st.pairRead p).finish (if p = 0 then .noDevices else .commError)) := by
  rw [searchPosition_pair p hh hd h1 h2, hv, hc]
  rfl

/-- The bit decided at position `p` by the pair `v`, `c` (42_search R193, R194, R197). -/
def decidedBit (last : Option (Fin 64)) (rom : Address) (p : Fin 64) (v c : Bool) : Bool :=
  if !v && !c then collisionBit last rom p else v

/-- The marker after position `p` (42_search R195). -/
def markerAfter (cur : Option (Fin 64)) (p : Fin 64) (v c b : Bool) : Option (Fin 64) :=
  if !v && !c && !b then some p else cur

/-- The decided bit and the marker. -/
def State.marked (b : Bool) (d : Option (Fin 64)) (st : State) : State := { st with b := b, curDisc := d }

@[simp] theorem marked_cfg (st : State) (b : Bool) (d : Option (Fin 64)) : (st.marked b d).cfg = st.cfg := rfl
@[simp] theorem marked_rom (st : State) (b : Bool) (d : Option (Fin 64)) : (st.marked b d).rom = st.rom := rfl
@[simp] theorem marked_lastDisc (st : State) (b : Bool) (d : Option (Fin 64)) : (st.marked b d).lastDisc = st.lastDisc := rfl
@[simp] theorem marked_host (st : State) (b : Bool) (d : Option (Fin 64)) : (st.marked b d).host = st.host := rfl
@[simp] theorem marked_driveLow (st : State) (b : Bool) (d : Option (Fin 64)) : (st.marked b d).driveLow = st.driveLow := rfl
@[simp] theorem marked_data (st : State) (b : Bool) (d : Option (Fin 64)) : (st.marked b d).data = st.data := rfl
@[simp] theorem marked_devices (st : State) (b : Bool) (d : Option (Fin 64)) : (st.marked b d).devices = st.devices := rfl
@[simp] theorem marked_numDevices (st : State) (b : Bool) (d : Option (Fin 64)) : (st.marked b d).numDevices = st.numDevices := rfl
@[simp] theorem marked_devicePosition (st : State) (b : Bool) (d : Option (Fin 64)) : (st.marked b d).devicePosition = st.devicePosition := rfl
@[simp] theorem marked_line (st : State) (b : Bool) (d : Option (Fin 64)) : (st.marked b d).line = st.line := rfl
@[simp] theorem marked_clock (st : State) (b : Bool) (d : Option (Fin 64)) : (st.marked b d).clock = st.clock := rfl
@[simp] theorem marked_presHighQ (st : State) (b : Bool) (d : Option (Fin 64)) : (st.marked b d).presHighQ = st.presHighQ := rfl
@[simp] theorem marked_presLowQ (st : State) (b : Bool) (d : Option (Fin 64)) : (st.marked b d).presLowQ = st.presLowQ := rfl
@[simp] theorem marked_cmd (st : State) (b : Bool) (d : Option (Fin 64)) : (st.marked b d).cmd = st.cmd := rfl
@[simp] theorem marked_busy (st : State) (b : Bool) (d : Option (Fin 64)) : (st.marked b d).busy = st.busy := rfl
@[simp] theorem marked_result (st : State) (b : Bool) (d : Option (Fin 64)) : (st.marked b d).result = st.result := rfl
@[simp] theorem marked_b (st : State) (b : Bool) (d : Option (Fin 64)) : (st.marked b d).b = b := rfl
@[simp] theorem marked_curDisc (st : State) (b : Bool) (d : Option (Fin 64)) : (st.marked b d).curDisc = d := rfl

theorem decideBit_eq (p : Fin 64) (st : State) :
    st.decideBit p = st.marked (decidedBit st.lastDisc st.rom p st.v st.c)
      (markerAfter st.curDisc p st.v st.c (decidedBit st.lastDisc st.rom p st.v st.c)) := by
  unfold State.decideBit decidedBit markerAfter State.marked
  cases hv : st.v <;> cases hc : st.c <;> simp
  cases collisionBit st.lastDisc st.rom p <;> simp

/-- A position once its bit `b` is decided: written back, the marker moved, `rom[p]` set. -/
def State.pairDone (st : State) (p : Fin 64) (b : Bool) : State :=
  (((st.pairRead p).marked b
      (markerAfter st.curDisc p (st.line.readBit st.cfg st.clock 0) (st.line.readBit st.cfg st.clock 1) b)).lineTo
    ((st.line.afterReads st.cfg st.clock 2).pulse (st.clock + 2 * Config.tSlot) (lowTime st.cfg b))
    (st.clock + 2 * Config.tSlot + slotWrite st.cfg)
    (writeSlotTrace st.cfg (st.clock + 2 * Config.tSlot) b)).latchRom p

/-! `pairDone`, field by field. -/

@[simp] theorem pairDone_cfg (st : State) (p : Fin 64) (b : Bool) : (st.pairDone p b).cfg = st.cfg := by
  simp [State.pairDone]

@[simp] theorem pairDone_lastDisc (st : State) (p : Fin 64) (b : Bool) : (st.pairDone p b).lastDisc = st.lastDisc := by
  simp [State.pairDone]

@[simp] theorem pairDone_host (st : State) (p : Fin 64) (b : Bool) : (st.pairDone p b).host = st.host := by
  simp [State.pairDone]

@[simp] theorem pairDone_driveLow (st : State) (p : Fin 64) (b : Bool) : (st.pairDone p b).driveLow = st.driveLow := by
  simp [State.pairDone]

@[simp] theorem pairDone_data (st : State) (p : Fin 64) (b : Bool) : (st.pairDone p b).data = st.data := by
  simp [State.pairDone]

@[simp] theorem pairDone_devices (st : State) (p : Fin 64) (b : Bool) : (st.pairDone p b).devices = st.devices := by
  simp [State.pairDone]

@[simp] theorem pairDone_numDevices (st : State) (p : Fin 64) (b : Bool) : (st.pairDone p b).numDevices = st.numDevices := by
  simp [State.pairDone]

@[simp] theorem pairDone_devicePosition (st : State) (p : Fin 64) (b : Bool) : (st.pairDone p b).devicePosition = st.devicePosition := by
  simp [State.pairDone]

@[simp] theorem pairDone_presHighQ (st : State) (p : Fin 64) (b : Bool) : (st.pairDone p b).presHighQ = st.presHighQ := by
  simp [State.pairDone]

@[simp] theorem pairDone_presLowQ (st : State) (p : Fin 64) (b : Bool) : (st.pairDone p b).presLowQ = st.presLowQ := by
  simp [State.pairDone]

@[simp] theorem pairDone_cmd (st : State) (p : Fin 64) (b : Bool) : (st.pairDone p b).cmd = st.cmd := by
  simp [State.pairDone]

@[simp] theorem pairDone_busy (st : State) (p : Fin 64) (b : Bool) : (st.pairDone p b).busy = st.busy := by
  simp [State.pairDone]

@[simp] theorem pairDone_result (st : State) (p : Fin 64) (b : Bool) : (st.pairDone p b).result = st.result := by
  simp [State.pairDone]

@[simp] theorem pairDone_rom (st : State) (p : Fin 64) (b : Bool) : (st.pairDone p b).rom = setBit st.rom p b := by
  simp [State.pairDone]

@[simp] theorem pairDone_curDisc (st : State) (p : Fin 64) (b : Bool) : (st.pairDone p b).curDisc =
    markerAfter st.curDisc p (st.line.readBit st.cfg st.clock 0) (st.line.readBit st.cfg st.clock 1) b := by
  simp [State.pairDone]

@[simp] theorem pairDone_line (st : State) (p : Fin 64) (b : Bool) : (st.pairDone p b).line =
    (st.line.afterReads st.cfg st.clock 2).pulse (st.clock + 2 * Config.tSlot) (lowTime st.cfg b) := by
  simp [State.pairDone]

@[simp] theorem pairDone_clock (st : State) (p : Fin 64) (b : Bool) : (st.pairDone p b).clock =
    st.clock + 2 * Config.tSlot + slotWrite st.cfg := by
  simp [State.pairDone]

/-- A device answers: the bit is decided and written back. -/
theorem searchPosition_decides (p : Fin 64) {st : State} (hh : st.host = []) (hd : st.driveLow = false)
    (h1 : st.line.readEnd st.cfg st.clock 0 = true) (h2 : st.line.readEnd st.cfg st.clock 1 = true)
    (hvc : ¬(st.line.readBit st.cfg st.clock 0 = true ∧ st.line.readBit st.cfg st.clock 1 = true)) :
    (searchPosition p).run st = .ok () (st.pairDone p (decidedBit st.lastDisc st.rom p
      (st.line.readBit st.cfg st.clock 0) (st.line.readBit st.cfg st.clock 1))) := by
  have hf : (st.line.readBit st.cfg st.clock 0 && st.line.readBit st.cfg st.clock 1) = false := by
    simpa [Bool.and_eq_true] using hvc
  have hp : Fin.ofNat 64 p.val = p := Fin.ext (Nat.mod_eq_of_lt p.isLt)
  rw [searchPosition_pair p hh hd h1 h2, hf, finishIf_false, hp]
  refine (bind_ok (pure_run _ _)).trans <| (bind_ok (upd_run _ _)).trans ?_
  rw [decideBit_eq]
  simp only [pairRead_lastDisc, pairRead_rom, pairRead_v, pairRead_c, pairRead_curDisc]
  generalize decidedBit st.lastDisc st.rom p (st.line.readBit st.cfg st.clock 0) (st.line.readBit st.cfg st.clock 1) = b
  have hw := writeSlot_quiet b (st := (st.pairRead p).marked b (markerAfter st.curDisc p (st.line.readBit st.cfg st.clock 0)
    (st.line.readBit st.cfg st.clock 1) b)) (by simp [hh]) (by simp [hd])
  simp only [marked_line, marked_cfg, marked_clock, pairRead_line, pairRead_cfg, pairRead_clock] at hw
  unfold State.pairDone
  generalize hq : (st.pairRead p).marked b _ = q at hw
  have hb : q.b = b := by rw [← hq]; rfl
  rw [← hb] at hw ⊢
  rw [bind_ok (look_run _ _), bind_ok hw, upd_run]

end Sys2Proof.Machine
end

