-- ==== Sys2Proof/Laws/Bus.lean ====
section
/-! SUPPORT. The reference bus at slot level (20_memory R82 to R84): what a reset pulse, a read slot and a write slot of the
master do to a bus of standard devices, and what the master samples. -/

namespace Sys2Proof.Machine

theorem Slave.Quiet.mono {d : Slave} {t t' : Nat} (h : d.Quiet t) (ht : t ≤ t') : d.Quiet t' :=
  fun x hx => (h x hx).trans ht

theorem Slave.Quiet.pulling {d : Slave} {t t' : Nat} (h : d.Quiet t) (ht : t ≤ t') : d.pulling t' = false := by
  unfold Slave.pulling
  rw [List.any_eq_false]
  intro x hx
  have := h x hx
  simp
  omega

/-- One low pulse of the master, as a device sees it. -/
def Slave.pulsed (f low : Nat) (d : Slave) : Slave := (d.onDrive f).onRelease (f + low) low

theorem bus_pulse (b : Bus) (t low : Nat) :
    (LineEnv.bus b).pulse t low =
      .bus { b with slaves := b.slaves.map (Slave.pulsed t low), fall := t, up := t + low + b.rise } := by
  simp only [LineEnv.pulse, LineEnv.onDrive, LineEnv.onRelease, Bus.onDrive, Bus.onRelease, List.map_map,
    Nat.add_sub_cancel_left]
  rfl

/-- What a device does in the slot: the pulls a falling edge at `f` adds. -/
theorem onDrive_standard {d : Slave} {cmd : Byte} (h : d.IsStandard cmd) (f : Nat) :
    ∃ ps, d.onDrive f = { d with pulls := ps } ∧ (d.Quiet f → ({ d with pulls := ps } : Slave).Quiet (f + 30)) := by
  have key : ∀ bit slot, ∃ ps, d.send f bit slot = { d with pulls := ps } ∧
      (d.Quiet f → ({ d with pulls := ps } : Slave).Quiet (f + 30)) := by
    intro bit slot
    have hs : d.stretch ≠ some slot := by rw [h.punctual]; exact fun h => by cases h
    unfold Slave.send
    rw [if_neg hs]
    cases bit
    · refine ⟨_, rfl, fun hq x hx => ?_⟩
      rcases List.mem_cons.mp hx with rfl | hx
      · exact le_rfl
      · exact (hq x hx).trans (by omega)
    · exact ⟨d.pulls, rfl, fun hq => hq.mono (by omega)⟩
  unfold Slave.onDrive
  split
  · exact key _ _
  · exact key _ _
  · exact ⟨d.pulls, rfl, fun hq => hq.mono (by omega)⟩

/-- A low time below a reset pulse: the device keeps its pulls, only its phase moves. -/
theorem onRelease_slot (d : Slave) (r : Nat) {low : Nat} (h : low < slaveReset) :
    ∃ ph, d.onRelease r low = { d with phase := ph } := by
  unfold Slave.onRelease
  rw [if_neg (by omega)]
  simp only
  split
  · exact ⟨d.phase, rfl⟩
  · split <;> exact ⟨_, rfl⟩
  · exact ⟨_, rfl⟩
  · exact ⟨_, rfl⟩
  · exact ⟨_, rfl⟩

/-- A slot keeps a standard device standard, with its code, and quiet 30 ticks after the falling edge. -/
theorem pulsed_slot {d : Slave} {cmd : Byte} (h : d.IsStandard cmd) (f : Nat) {low : Nat} (hl : low < slaveReset) :
    (d.pulsed f low).IsStandard cmd ∧ (d.pulsed f low).rom = d.rom ∧ (d.Quiet f → (d.pulsed f low).Quiet (f + 30)) := by
  obtain ⟨ps, h1, h2⟩ := onDrive_standard h f
  obtain ⟨ph, h3⟩ := onRelease_slot (d.onDrive f) (f + low) hl
  unfold Slave.pulsed
  rw [h3, h1]
  exact ⟨⟨h.1, h.2, h.3, h.4, h.5⟩, rfl, h2⟩

/-- A reset pulse: the device waits for a command byte and emits a presence pulse. -/
theorem pulsed_reset {d : Slave} {cmd : Byte} (h : d.IsStandard cmd) (f : Nat) :
    (d.pulsed f resetLow).IsStandard cmd ∧ (d.pulsed f resetLow).rom = d.rom ∧ (d.pulsed f resetLow).phase = .cmd 0 0#8 ∧
      (d.Quiet f → (d.pulsed f resetLow).Quiet (f + resetLow + 150) ∧
        ∀ t, f + resetLow ≤ t → (d.pulsed f resetLow).pulling t =
          (decide (f + resetLow + 30 ≤ t) && decide (t < f + resetLow + 150))) := by
  obtain ⟨ps, h1, h2⟩ := onDrive_standard h f
  have hl : resetLow = 600 := rfl
  have hp : d.pulsed f resetLow = { d with
      phase := .cmd 0 0#8, pulls := (f + resetLow + 30, f + resetLow + 30 + 120) :: ps } := by
    unfold Slave.pulsed Slave.onRelease
    rw [if_pos (by decide), h1]
    simp only [h.tPdh, h.tPdl]
  rw [hp]
  refine ⟨⟨h.1, h.2, h.3, h.4, h.5⟩, rfl, rfl, fun hq => ⟨fun x hx => ?_, fun t ht => ?_⟩⟩
  · rcases List.mem_cons.mp hx with rfl | hx
    · exact le_rfl
    · exact (h2 hq x hx).trans (by omega)
  · have hrest : ps.any (fun x => decide (x.1 ≤ t) && decide (t < x.2)) = false :=
      Slave.Quiet.pulling (h2 hq) (t' := t) (by omega)
    show (List.any (_ :: ps) _) = _
    rw [List.any_cons, hrest, Bool.or_false]

/-- The bit a device sends in a read slot: 1, which is to do nothing, unless it is asked for a bit that is 0. -/
def Slave.sends (d : Slave) : Bool :=
  match d.phase with
  | .value p => d.rom.getLsbD p
  | .compl p => !d.rom.getLsbD p
  | _ => true

/-- In a slot that begins at `f` a standard device pulls the line from tick `f` to `f + 29` exactly if it sends 0. -/
theorem pulsed_pulling {d : Slave} {cmd : Byte} (h : d.IsStandard cmd) {f low : Nat} (hl : low < slaveReset) (hq : d.Quiet f)
    {t : Nat} (ht : f ≤ t) : (d.pulsed f low).pulling t = (!d.sends && decide (t < f + slaveHold)) := by
  obtain ⟨ph, h3⟩ := onRelease_slot (d.onDrive f) (f + low) hl
  have e : (d.pulsed f low).pulling t = (d.onDrive f).pulling t := by
    unfold Slave.pulsed
    rw [h3]
    rfl
  rw [e]
  have h0 := hq.pulling ht
  have key : ∀ bit slot, (d.send f bit slot).pulling t = (!bit && decide (t < f + slaveHold)) := by
    intro bit slot
    have hs : d.stretch ≠ some slot := by rw [h.punctual]; exact fun h => by cases h
    unfold Slave.send
    rw [if_neg hs]
    cases bit
    · simp only [Bool.false_eq_true, if_false, Bool.not_false, Bool.true_and]
      show (List.any (_ :: d.pulls) _) = _
      unfold Slave.pulling at h0
      rw [List.any_cons, h0, Bool.or_false, decide_eq_true ht, Bool.true_and]
    · simpa using h0
  unfold Slave.onDrive Slave.sends
  cases hp : d.phase with
  | value p => exact key _ _
  | compl p => exact key _ _
  | _ => simpa using h0

/-! ### The phases -/

theorem pulsed_value {d : Slave} {cmd : Byte} (h : d.IsStandard cmd) {f low p : Nat} (hl : low < slaveReset)
    (hp : d.phase = .value p) : (d.pulsed f low).phase = .compl p := by
  obtain ⟨ps, h1, -⟩ := onDrive_standard h f
  unfold Slave.pulsed Slave.onRelease
  rw [if_neg (by omega), h1]
  simp only [hp]

theorem pulsed_compl {d : Slave} {cmd : Byte} (h : d.IsStandard cmd) {f low p : Nat} (hl : low < slaveReset)
    (hp : d.phase = .compl p) : (d.pulsed f low).phase = .dir p := by
  obtain ⟨ps, h1, -⟩ := onDrive_standard h f
  unfold Slave.pulsed Slave.onRelease
  rw [if_neg (by omega), h1]
  simp only [hp]

theorem pulsed_idle {d : Slave} {cmd : Byte} (h : d.IsStandard cmd) {f low : Nat} (hl : low < slaveReset)
    (hp : d.phase = .idle) : (d.pulsed f low).phase = .idle := by
  obtain ⟨ps, h1, -⟩ := onDrive_standard h f
  unfold Slave.pulsed Slave.onRelease
  rw [if_neg (by omega), h1]
  simp only [hp]

theorem enter_answers {d : Slave} (h : d.silentFrom = none) (p : Nat) : d.enter p = .value p := by
  unfold Slave.enter
  rw [h]

/-- A write slot after the pair: the device goes on to the next position if the master sent its bit. -/
theorem pulsed_dir {d : Slave} {cmd : Byte} (h : d.IsStandard cmd) {f low p : Nat} (hl : low < slaveReset)
    (hp : d.phase = .dir p) : (d.pulsed f low).phase =
      if decide (low < slaveWriteZero) = d.rom.getLsbD p ∧ p < 63 then .value (p + 1) else .idle := by
  obtain ⟨ps, h1, -⟩ := onDrive_standard h f
  unfold Slave.pulsed Slave.onRelease
  rw [if_neg (by omega), h1]
  simp only [hp, enter_answers, h.answers]

/-- A bit of the command byte. -/
theorem pulsed_cmd {d : Slave} {cmd byte : Byte} (h : d.IsStandard cmd) {f low k : Nat} (hl : low < slaveReset)
    (hp : d.phase = .cmd k byte) : (d.pulsed f low).phase =
      if k + 1 < 8 then .cmd (k + 1) (setBit byte k (decide (low < slaveWriteZero)))
      else if setBit byte k (decide (low < slaveWriteZero)) = cmd then .value 0 else .idle := by
  obtain ⟨ps, h1, -⟩ := onDrive_standard h f
  unfold Slave.pulsed Slave.onRelease
  rw [if_neg (by omega), h1]
  simp only [hp, h.searchCmd]
  split
  · rfl
  · simp only [enter_answers, h.answers]

/-! ### The bus -/

/-- A standard bus on which each device is in the phase `φ` gives for its code. -/
structure Bus.At (b : Bus) (cmd : Byte) (roms : List Address) (t : Nat) (φ : Address → SlavePhase) : Prop
    extends Bus.Standard b cmd t roms where
  phase : ∀ d ∈ b.slaves, d.phase = φ d.rom

theorem Bus.At.mono {b : Bus} {cmd : Byte} {roms : List Address} {t t' : Nat} {φ : Address → SlavePhase}
    (h : b.At cmd roms t φ) (ht : t ≤ t') : b.At cmd roms t' φ :=
  { h with up := h.up.trans ht, quiet := fun d hd => (h.quiet d hd).mono ht }

/-- The bus after a low pulse of the master. -/
def Bus.pulsed (b : Bus) (t low : Nat) : Bus :=
  { b with slaves := b.slaves.map (Slave.pulsed t low), fall := t, up := t + low + b.rise }

theorem bus_pulse_eq (b : Bus) (t low : Nat) : (LineEnv.bus b).pulse t low = .bus (b.pulsed t low) := bus_pulse b t low

/-- A slot leaves a standard bus such a bus. -/
theorem Bus.Standard.slot {b : Bus} {cmd : Byte} {roms : List Address} {t : Nat} (h : b.Standard cmd t roms) {low t' : Nat}
    (hl : low < slaveReset) (h30 : t + 30 ≤ t') (hlow : t + low ≤ t') : (b.pulsed t low).Standard cmd t' roms where
  rise := h.rise
  sound := h.sound
  up := by
    show t + low + b.rise ≤ t'
    rw [h.rise]
    exact hlow
  codes := by
    show (b.slaves.map (Slave.pulsed t low)).map Slave.rom = roms
    rw [List.map_map, ← h.codes]
    exact List.map_congr_left fun d hd => (pulsed_slot (h.standard d hd) t hl).2.1
  standard := by
    intro d hd
    obtain ⟨x, hx, rfl⟩ := List.mem_map.mp hd
    exact (pulsed_slot (h.standard x hx) t hl).1
  quiet := by
    intro d hd
    obtain ⟨x, hx, rfl⟩ := List.mem_map.mp hd
    exact ((pulsed_slot (h.standard x hx) t hl).2.2 (h.quiet x hx)).mono h30

/-- A slot moves every device's phase and leaves the bus quiet. -/
theorem Bus.At.slot {b : Bus} {cmd : Byte} {roms : List Address} {t : Nat} {φ ψ : Address → SlavePhase}
    (h : b.At cmd roms t φ) {low t' : Nat} (hl : low < slaveReset) (h30 : t + 30 ≤ t') (hlow : t + low ≤ t')
    (hphase : ∀ d ∈ b.slaves, (d.pulsed t low).phase = ψ d.rom) : (b.pulsed t low).At cmd roms t' ψ where
  toStandard := h.toStandard.slot hl h30 hlow
  phase := by
    intro d hd
    obtain ⟨x, hx, rfl⟩ := List.mem_map.mp hd
    rw [(pulsed_slot (h.standard x hx) t hl).2.1]
    exact hphase x hx

/-- The level of the line in a slot: low exactly while a device that sends 0 holds it. -/
theorem Bus.At.level {b : Bus} {cmd : Byte} {roms : List Address} {t : Nat} {φ : Address → SlavePhase}
    (h : b.At cmd roms t φ) {low τ : Nat} (hl : low < slaveReset) (hτ : t + low ≤ τ) :
    (b.pulsed t low).level τ = !(b.slaves.any (fun d => !d.sends) && decide (τ < t + slaveHold)) := by
  have hup : (decide ((b.pulsed t low).up ≤ τ)) = true := by
    rw [decide_eq_true_eq]
    show t + low + b.rise ≤ τ
    rw [h.rise]
    exact hτ
  unfold Bus.level
  rw [hup, show (b.pulsed t low).stuckLow = false from h.sound]
  simp only [Bool.not_false, Bool.true_and]
  congr 1
  show (b.slaves.map (Slave.pulsed t low)).any (fun d => d.pulling τ) = _
  rw [List.any_map]
  have hd : ∀ d ∈ b.slaves, ((fun d => d.pulling τ) ∘ Slave.pulsed t low) d = (!d.sends && decide (τ < t + slaveHold)) :=
    fun d hd => pulsed_pulling (h.standard d hd) hl (h.quiet d hd) (by omega)
  clear hup
  have hall := hd
  generalize b.slaves = l at hall
  induction l with
  | nil => rfl
  | cons x l ih =>
    rw [List.any_cons, List.any_cons, hall x List.mem_cons_self, ih fun d hd => hall d (List.mem_cons_of_mem _ hd)]
    cases x.sends <;> cases decide (τ < t + slaveHold) <;> simp

/-- The devices in `A` are in phase `ph`, the others idle. -/
def activePhase (A : Address → Bool) (ph : SlavePhase) (a : Address) : SlavePhase := if A a then ph else .idle

theorem any_sends {b : Bus} {cmd : Byte} {roms : List Address} {t : Nat} {φ : Address → SlavePhase}
    (h : b.At cmd roms t φ) (σ : Address → Bool) (hσ : ∀ d ∈ b.slaves, d.sends = σ d.rom) :
    b.slaves.any (fun d => !d.sends) = roms.any fun a => !σ a := by
  rw [← h.codes, List.any_map]
  generalize b.slaves = l at hσ
  induction l with
  | nil => rfl
  | cons x l ih =>
    rw [List.any_cons, List.any_cons, hσ x List.mem_cons_self, ih fun d hd => hσ d (List.mem_cons_of_mem _ hd)]
    rfl

/-- The sample a read slot gives: the AND over the devices that answer (20_memory R84 (b)). -/
def wiredAnd (roms : List Address) (A : Address → Bool) (bit : Address → Bool) : Bool :=
  !(roms.any fun a => A a && !bit a)

theorem wiredAnd_true {roms : List Address} {A bit : Address → Bool} :
    wiredAnd roms A bit = true ↔ ∀ a ∈ roms, A a = true → bit a = true := by
  unfold wiredAnd
  rw [Bool.not_eq_true', List.any_eq_false]
  constructor
  · intro h a ha hA
    have := h a ha
    rw [hA] at this
    simpa using this
  · intro h a ha
    cases hA : A a
    · simp
    · simp [h a ha hA]

theorem wiredAnd_false {roms : List Address} {A bit : Address → Bool} :
    wiredAnd roms A bit = false ↔ ∃ a ∈ roms, A a = true ∧ bit a = false := by
  unfold wiredAnd
  rw [Bool.not_eq_false', List.any_eq_true]
  simp [Bool.and_eq_true]

/-- The parameters' windows suit the reference bus. -/
theorem suits_sample {c : Config} (h : c.SuitsReferenceBus) : c.tRLow < slaveReset ∧ c.tRLow < slaveHold := by
  have h1 := h.read
  have h2 : slaveReset = 480 := rfl
  have h3 : slaveHold = 30 := rfl
  omega

/-- A read slot in which the devices of `A` send `bit`: the sample is their AND, and the slot ends high. -/
theorem Bus.At.read {b : Bus} {c : Config} {roms : List Address} {t : Nat} {φ : Address → SlavePhase}
    (h : b.At c.searchCmd roms t φ) (hc : c.SuitsReferenceBus) (A bit : Address → Bool)
    (hs : ∀ d ∈ b.slaves, d.sends = (!A d.rom || bit d.rom)) :
    (LineEnv.bus b).readBit c t 0 = wiredAnd roms A bit ∧ (LineEnv.bus b).readEnd c t 0 = true := by
  have h1 := hc.read
  have h2 := suits_sample hc
  have h3 : slaveHold = 30 := rfl
  have hr := c.tRead_lt
  have e : (LineEnv.bus b).afterReads c t 1 = .bus (b.pulsed t c.tRLow) := by
    simp only [LineEnv.afterReads, Nat.zero_mul, Nat.add_zero, bus_pulse_eq]
  have ha : b.slaves.any (fun d => !d.sends) = roms.any fun a => A a && !bit a := by
    rw [any_sends h (fun a => !A a || bit a) hs]
    simp
  constructor
  · unfold LineEnv.readBit dataTick
    rw [e]
    show (b.pulsed t c.tRLow).level _ = _
    rw [h.level h2.1 (by omega), ha]
    unfold wiredAnd
    rw [decide_eq_true (show t + 0 * Config.tSlot + c.tRLow + c.tRSample < t + slaveHold by omega), Bool.and_true]
  · unfold LineEnv.readEnd
    rw [e]
    show (b.pulsed t c.tRLow).level _ = _
    have : Config.tSlot = 60 := rfl
    rw [h.level h2.1 (by omega), decide_eq_false (by omega), Bool.and_false, Bool.not_false]

/-- The value slot of position `p` (20_memory R82: state `V`). -/
theorem Bus.At.value {b : Bus} {c : Config} {roms : List Address} {t p : Nat} {A : Address → Bool}
    (h : b.At c.searchCmd roms t (activePhase A (.value p))) (hc : c.SuitsReferenceBus) :
    (LineEnv.bus b).readBit c t 0 = wiredAnd roms A (fun a => a.getLsbD p) ∧ (LineEnv.bus b).readEnd c t 0 = true ∧
      (b.pulsed t c.tRLow).At c.searchCmd roms (t + Config.tSlot) (activePhase A (.compl p)) := by
  have h2 := suits_sample hc
  have h3 : slaveHold = 30 := rfl
  have h4 : Config.tSlot = 60 := rfl
  obtain ⟨r1, r2⟩ := h.read hc A (fun a => a.getLsbD p) fun d hd => by
    unfold Slave.sends
    rw [h.phase d hd, activePhase]
    cases A d.rom <;> simp
  refine ⟨r1, r2, h.slot h2.1 (by omega) (by omega) fun d hd => ?_⟩
  have hp := h.phase d hd
  unfold activePhase at hp ⊢
  cases hA : A d.rom
  · rw [hA] at hp
    exact pulsed_idle (h.standard d hd) h2.1 hp
  · rw [hA] at hp
    exact pulsed_value (h.standard d hd) h2.1 hp

/-- The complement slot of position `p` (20_memory R82: state `C`). -/
theorem Bus.At.compl {b : Bus} {c : Config} {roms : List Address} {t p : Nat} {A : Address → Bool}
    (h : b.At c.searchCmd roms t (activePhase A (.compl p))) (hc : c.SuitsReferenceBus) :
    (LineEnv.bus b).readBit c t 0 = wiredAnd roms A (fun a => !a.getLsbD p) ∧ (LineEnv.bus b).readEnd c t 0 = true ∧
      (b.pulsed t c.tRLow).At c.searchCmd roms (t + Config.tSlot) (activePhase A (.dir p)) := by
  have h2 := suits_sample hc
  have h3 : slaveHold = 30 := rfl
  have h4 : Config.tSlot = 60 := rfl
  obtain ⟨r1, r2⟩ := h.read hc A (fun a => !a.getLsbD p) fun d hd => by
    unfold Slave.sends
    rw [h.phase d hd, activePhase]
    cases A d.rom <;> simp
  refine ⟨r1, r2, h.slot h2.1 (by omega) (by omega) fun d hd => ?_⟩
  have hp := h.phase d hd
  unfold activePhase at hp ⊢
  cases hA : A d.rom
  · rw [hA] at hp
    exact pulsed_idle (h.standard d hd) h2.1 hp
  · rw [hA] at hp
    exact pulsed_compl (h.standard d hd) h2.1 hp

/-- What a device makes of the low time of a write slot. -/
theorem lowTime_received {c : Config} (hc : c.SuitsReferenceBus) (v : Bool) :
    lowTime c v < slaveReset ∧ decide (lowTime c v < slaveWriteZero) = v := by
  have h1 := c.tWLow_range
  have h2 := hc.write
  have h3 : slaveReset = 480 := rfl
  have h4 : slaveWriteZero = 30 := rfl
  have h5 : Config.tSlot = 60 := rfl
  cases v
  · exact ⟨by simp [lowTime]; omega, by simp [lowTime]; omega⟩
  · exact ⟨by simp [lowTime]; omega, by simp [lowTime]; omega⟩

theorem lowTime_le (c : Config) (v : Bool) : lowTime c v ≤ Config.tSlot := by
  have := c.tWLow_range
  cases v
  · simp [lowTime]
  · simp [lowTime]
    omega

/-- The write-back slot of position `p` (20_memory R82: state `W`): the devices whose bit differs fall silent. -/
theorem Bus.At.dir {b : Bus} {c : Config} {roms : List Address} {t p : Nat} {A : Address → Bool} (v : Bool)
    (h : b.At c.searchCmd roms t (activePhase A (.dir p))) (hc : c.SuitsReferenceBus) :
    (b.pulsed t (lowTime c v)).At c.searchCmd roms (t + slotWrite c)
      (if p < 63 then activePhase (fun a => A a && a.getLsbD p == v) (.value (p + 1)) else fun _ => .idle) := by
  obtain ⟨h2, h3⟩ := lowTime_received hc v
  have h4 := lowTime_le c v
  have h5 : Config.tSlot = 60 := rfl
  have h6 : slotWrite c = Config.tSlot + c.tRec := rfl
  refine h.slot h2 (by omega) (by omega) fun d hd => ?_
  have hp := h.phase d hd
  unfold activePhase at hp
  cases hA : A d.rom
  · rw [hA] at hp
    rw [pulsed_idle (h.standard d hd) h2 hp]
    split
    · simp [activePhase, hA]
    · rfl
  · rw [hA] at hp
    rw [pulsed_dir (h.standard d hd) h2 hp, h3]
    by_cases hlt : p < 63
    · simp only [hlt, and_true, if_true, activePhase, hA, Bool.true_and]
      by_cases hv : v = d.rom.getLsbD p
      · simp [hv]
      · simp [hv, Ne.symm hv]
    · simp [hlt]

end Sys2Proof.Machine
end

