-- ==== Sys2Proof/Laws/Enumerate.lean ====
section
/-! SUPPORT. The search as a walk through a set of codes, apart from the machine: which code a pass reconstructs and where it
leaves its marker (42_search R194, R195, R202, R203). -/

namespace Sys2Proof.Machine

/-- The code `x` agrees with `r` at every position below `p`. -/
def agrees (r : Address) : Nat → Address → Bool
  | 0, _ => true
  | p + 1, x => agrees r p x && x.getLsbD p == r.getLsbD p

theorem agrees_iff {r x : Address} {p : Nat} : agrees r p x = true ↔ ∀ j < p, x.getLsbD j = r.getLsbD j := by
  induction p with
  | zero => simp [agrees]
  | succ p ih =>
    rw [agrees, Bool.and_eq_true, ih, beq_iff_eq]
    constructor
    · rintro ⟨h1, h2⟩ j hj
      by_cases h : j = p
      · subst h
        exact h2
      · exact h1 j (by omega)
    · exact fun h => ⟨fun j hj => h j (by omega), h p (by omega)⟩

theorem agrees_self (r : Address) (p : Nat) : agrees r p r = true := agrees_iff.mpr fun _ _ => rfl

theorem agrees_all {r x : Address} (h : agrees r 64 x = true) : x = r :=
  BitVec.eq_of_getLsbD_eq fun j hj => agrees_iff.mp h j hj

theorem agrees_congr {r r' : Address} {p : Nat} (h : ∀ j < p, r.getLsbD j = r'.getLsbD j) (x : Address) :
    agrees r p x = agrees r' p x := by
  rw [Bool.eq_iff_iff, agrees_iff, agrees_iff]
  exact ⟨fun hx j hj => (hx j hj).trans (h j hj), fun hx j hj => (hx j hj).trans (h j hj).symm⟩

/-- The value bit at position `p` of a pass that has decided `r` below `p`: the AND over the codes still answering. -/
def valueBit (roms : List Address) (r : Address) (p : Nat) : Bool := wiredAnd roms (agrees r p) fun a => a.getLsbD p

/-- The complement bit. -/
def complBit (roms : List Address) (r : Address) (p : Nat) : Bool := wiredAnd roms (agrees r p) fun a => !a.getLsbD p

/-- `rom` and `cur_disc` after `p` positions of a pass that began with `rom = a` and `last_disc = last`. -/
def walk (roms : List Address) (last : Option (Fin 64)) (a : Address) : Nat → Address × Option (Fin 64)
  | 0 => (a, none)
  | p + 1 =>
    let (r, cur) := walk roms last a p
    let b := decidedBit last r (Fin.ofNat 64 p) (valueBit roms r p) (complBit roms r p)
    (setBit r p b, markerAfter cur (Fin.ofNat 64 p) (valueBit roms r p) (complBit roms r p) b)

variable {roms : List Address} {last : Option (Fin 64)} {a : Address}

/-- The bit the walk decides at position `p`. -/
def walkBit (roms : List Address) (last : Option (Fin 64)) (a : Address) (p : Nat) : Bool :=
  decidedBit last (walk roms last a p).1 (Fin.ofNat 64 p) (valueBit roms (walk roms last a p).1 p)
    (complBit roms (walk roms last a p).1 p)

theorem walk_rom (p : Nat) : (walk roms last a (p + 1)).1 = setBit (walk roms last a p).1 p (walkBit roms last a p) := rfl

/-- A position at or beyond `p` still holds the previous pass's bit. -/
theorem walk_above {p j : Nat} (hj : p ≤ j) (h64 : p ≤ 64) : (walk roms last a p).1.getLsbD j = a.getLsbD j := by
  induction p with
  | zero => rfl
  | succ p ih =>
    rw [walk_rom, getLsbD_setBit _ _ _ _ (by omega), if_neg (by omega)]
    exact ih (by omega) (by omega)

/-- A decided bit stays. -/
theorem walk_below {p j : Nat} (hj : j < p) (h64 : p ≤ 64) : (walk roms last a p).1.getLsbD j = walkBit roms last a j := by
  induction p with
  | zero => omega
  | succ p ih =>
    rw [walk_rom, getLsbD_setBit _ _ _ _ (by omega)]
    split
    · next h => rw [h]
    · exact ih (by omega) (by omega)

theorem walk_agrees {p q : Nat} (hpq : p ≤ q) (h64 : q ≤ 64) (x : Address) :
    agrees (walk roms last a q).1 p x = agrees (walk roms last a p).1 p x :=
  agrees_congr (fun j hj => by rw [walk_below (by omega) h64, walk_below hj (by omega)]) x

theorem agrees_walk_succ {p : Nat} (h64 : p < 64) (x : Address) :
    agrees (walk roms last a (p + 1)).1 (p + 1) x =
      (agrees (walk roms last a p).1 p x && x.getLsbD p == walkBit roms last a p) := by
  rw [agrees, walk_agrees (by omega) (by omega), walk_below (by omega) (by omega)]

/-- Some code always answers, so the pair (1, 1) never comes and the decided bit is some answering code's. -/
theorem walk_answered (hne : roms ≠ []) {p : Nat} (h64 : p ≤ 64) :
    ∃ x ∈ roms, agrees (walk roms last a p).1 p x = true := by
  induction p with
  | zero =>
    obtain ⟨x, hx⟩ := List.exists_mem_of_ne_nil roms hne
    exact ⟨x, hx, rfl⟩
  | succ p ih =>
    obtain ⟨x, hx, hA⟩ := ih (by omega)
    suffices h : ∃ y ∈ roms, agrees (walk roms last a p).1 p y = true ∧ y.getLsbD p = walkBit roms last a p by
      obtain ⟨y, hy, h1, h2⟩ := h
      exact ⟨y, hy, by rw [agrees_walk_succ (by omega), h1, h2]; simp⟩
    unfold walkBit decidedBit
    cases hv : valueBit roms (walk roms last a p).1 p
    · cases hc : complBit roms (walk roms last a p).1 p
      · simp only [Bool.not_false, Bool.and_true, if_true]
        cases hb : collisionBit last (walk roms last a p).1 (Fin.ofNat 64 p)
        · exact wiredAnd_false.mp hv
        · obtain ⟨y, hy, h1, h2⟩ := wiredAnd_false.mp hc
          exact ⟨y, hy, h1, by simpa using h2⟩
      · simp only [Bool.not_false, Bool.not_true, Bool.and_false, Bool.false_eq_true, if_false]
        exact wiredAnd_false.mp hv
    · simp only [Bool.not_true, Bool.false_and, Bool.false_eq_true, if_false]
      exact ⟨x, hx, hA, wiredAnd_true.mp hv x hx hA⟩

theorem walk_pair (hne : roms ≠ []) {p : Nat} (h64 : p ≤ 64) :
    ¬(valueBit roms (walk roms last a p).1 p = true ∧ complBit roms (walk roms last a p).1 p = true) := by
  rintro ⟨hv, hc⟩
  obtain ⟨x, hx, hA⟩ := walk_answered (last := last) (a := a) hne h64
  have h1 := wiredAnd_true.mp hv x hx hA
  have h2 := wiredAnd_true.mp hc x hx hA
  simp [h1] at h2

/-- The code the walk ends with is one of the codes. -/
theorem walk_mem (hne : roms ≠ []) : (walk roms last a 64).1 ∈ roms := by
  obtain ⟨x, hx, hA⟩ := walk_answered (last := last) (a := a) hne le_rfl
  rwa [← agrees_all hA]

/-- Below `r`'s bit at `q` another branch with a 1 exists: a collision that the pass resolved to 0. -/
def Branch (roms : List Address) (r : Address) (q : Nat) : Prop :=
  r.getLsbD q = false ∧ ∃ y ∈ roms, agrees r q y = true ∧ y.getLsbD q = true

/-- The marker names the deepest branch below `p`. -/
def Deepest (roms : List Address) (r : Address) (p : Nat) : Option (Fin 64) → Prop
  | none => ∀ q < p, ¬Branch roms r q
  | some l => l.val < p ∧ Branch roms r l ∧ ∀ q, l.val < q → q < p → ¬Branch roms r q

theorem branch_congr {r r' : Address} {q : Nat} (h : ∀ j ≤ q, r.getLsbD j = r'.getLsbD j) :
    Branch roms r q ↔ Branch roms r' q := by
  unfold Branch
  have hA : ∀ y, agrees r q y = agrees r' q y := agrees_congr fun j hj => h j hj.le
  rw [h q le_rfl]
  simp only [hA]

theorem walk_branch_congr {p q : Nat} (hq : q < p) (h64 : p < 64) :
    Branch roms (walk roms last a (p + 1)).1 q ↔ Branch roms (walk roms last a p).1 q :=
  branch_congr fun j hj => by rw [walk_below (by omega) (by omega), walk_below (by omega) (by omega)]

/-- The walk's own marker names the deepest branch it left behind. -/
theorem walk_deepest (hne : roms ≠ []) {p : Nat} (h64 : p ≤ 64) :
    Deepest roms (walk roms last a p).1 p (walk roms last a p).2 := by
  induction p with
  | zero => exact fun q hq => absurd hq (by omega)
  | succ p ih =>
    have h := ih (by omega)
    have hp : (Fin.ofNat 64 p).val = p := Nat.mod_eq_of_lt (by omega)
    have hmark : (walk roms last a (p + 1)).2 = markerAfter (walk roms last a p).2 (Fin.ofNat 64 p)
        (valueBit roms (walk roms last a p).1 p) (complBit roms (walk roms last a p).1 p) (walkBit roms last a p) := rfl
    have hiff : Branch roms (walk roms last a (p + 1)).1 p ↔
        (valueBit roms (walk roms last a p).1 p = false ∧ complBit roms (walk roms last a p).1 p = false ∧
          walkBit roms last a p = false) := by
      unfold Branch
      rw [walk_below (by omega) h64]
      simp only [walk_agrees (show p ≤ p + 1 by omega) h64]
      constructor
      · rintro ⟨hb, y, hy, hA, hy1⟩
        refine ⟨?_, wiredAnd_false.mpr ⟨y, hy, hA, by simp [hy1]⟩, hb⟩
        obtain ⟨x, hx, hx1⟩ := walk_answered (last := last) (a := a) hne h64
        rw [agrees_walk_succ (by omega), hb, Bool.and_eq_true, beq_iff_eq] at hx1
        exact wiredAnd_false.mpr ⟨x, hx, hx1⟩
      · rintro ⟨-, hc, hb⟩
        obtain ⟨y, hy, hA, hy1⟩ := wiredAnd_false.mp hc
        exact ⟨hb, y, hy, hA, by simpa using hy1⟩
    rw [hmark]
    unfold markerAfter
    split
    · next hm =>
      simp only [Bool.and_eq_true, Bool.not_eq_true'] at hm
      refine ⟨by omega, ?_, fun q h1 h2 => by omega⟩
      rw [hp]
      exact hiff.mpr ⟨hm.1.1, hm.1.2, hm.2⟩
    · next hm =>
      have hno : ¬Branch roms (walk roms last a (p + 1)).1 p := fun hb => by
        obtain ⟨h1, h2, h3⟩ := hiff.mp hb
        simp [h1, h2, h3] at hm
      revert h
      cases (walk roms last a p).2 with
      | none =>
        intro h q hq hb
        by_cases hqp : q = p
        · subst hqp
          exact hno hb
        · exact h q (by omega) ((walk_branch_congr (by omega) (by omega)).mp hb)
      | some l =>
        rintro ⟨h1, h2, h3⟩
        refine ⟨by omega, (walk_branch_congr (by omega) (by omega)).mpr h2, fun q hq1 hq2 hb => ?_⟩
        by_cases hqp : q = p
        · subst hqp
          exact hno hb
        · exact h3 q hq1 (by omega) ((walk_branch_congr (by omega) (by omega)).mp hb)

/-! ### The order of the codes (00_scope R8, 42_search R203) -/

theorem keyK_testBit (x : Address) (i : Nat) : (keyK x).testBit i = (decide (i < 64) && x.getLsbD (63 - i)) := by
  unfold keyK
  rw [BitVec.testBit_toNat, BitVec.getLsbD_reverse, BitVec.getMsbD_eq_getLsbD]

/-- `x` comes before `y` if it has 0 and `y` has 1 where they first differ. -/
theorem keyK_lt {x y : Address} {p : Nat} (h64 : p < 64) (hA : agrees x p y = true) (hx : x.getLsbD p = false)
    (hy : y.getLsbD p = true) : keyK x < keyK y := by
  refine Nat.lt_of_testBit (63 - p) ?_ ?_ fun j hj => ?_
  · rw [keyK_testBit, show 63 - (63 - p) = p by omega, hx, Bool.and_false]
  · rw [keyK_testBit, show 63 - (63 - p) = p by omega, hy, decide_eq_true (by omega), Bool.and_true]
  · rw [keyK_testBit, keyK_testBit]
    by_cases h : j < 64
    · rw [agrees_iff.mp hA (63 - j) (by omega)]
    · simp [h]

/-- Two codes first differ somewhere. -/
theorem first_difference {x y : Address} (h : x ≠ y) :
    ∃ p < 64, agrees x p y = true ∧ y.getLsbD p = !x.getLsbD p := by
  have : ∀ n ≤ 64, agrees x n y = true ∨ ∃ p < n, agrees x p y = true ∧ y.getLsbD p = !x.getLsbD p := by
    intro n hn
    induction n with
    | zero => exact .inl rfl
    | succ n ih =>
      obtain h | ⟨p, h1, h2⟩ := ih (by omega)
      · by_cases hb : y.getLsbD n = x.getLsbD n
        · exact .inl (by rw [agrees, h, hb]; simp)
        · refine .inr ⟨n, by omega, h, ?_⟩
          revert hb
          cases y.getLsbD n <;> cases x.getLsbD n <;> simp
      · exact .inr ⟨p, by omega, h2⟩
  obtain h1 | ⟨p, h1, h2⟩ := this 64 le_rfl
  · exact absurd (agrees_all h1).symm h
  · exact ⟨p, h1, h2⟩

theorem agrees_comm {x y : Address} {p : Nat} (h : agrees x p y = true) : agrees y p x = true :=
  agrees_iff.mpr fun j hj => (agrees_iff.mp h j hj).symm

/-- The first position at which `x` and `y` differ decides their order. -/
theorem keyK_lt_iff {x y : Address} :
    keyK x < keyK y ↔ ∃ p < 64, agrees x p y = true ∧ x.getLsbD p = false ∧ y.getLsbD p = true := by
  constructor
  · intro h
    have hne : x ≠ y := fun e => by rw [e] at h; exact absurd h (lt_irrefl _)
    obtain ⟨p, hp, hA, hd⟩ := first_difference hne
    cases hx : x.getLsbD p
    · exact ⟨p, hp, hA, hx, by rw [hd, hx]; rfl⟩
    · have hy : y.getLsbD p = false := by rw [hd, hx]; rfl
      exact absurd (keyK_lt hp (agrees_comm hA) hy hx) (not_lt.mpr h.le)
  · rintro ⟨p, hp, hA, hx, hy⟩
    exact keyK_lt hp hA hx hy

theorem keyK_inj {x y : Address} (h : keyK x = keyK y) : x = y := by
  by_contra hne
  obtain ⟨p, hp, hA, hd⟩ := first_difference hne
  cases hx : x.getLsbD p
  · exact absurd (keyK_lt hp hA hx (by rw [hd, hx]; rfl)) (by omega)
  · exact absurd (keyK_lt hp (agrees_comm hA) (by rw [hd, hx]; rfl) hx) (by omega)

/-! ### What a pass finds -/

/-- Where the walk takes 1 although a 0 branch answers, the marker said so. -/
theorem walk_turn {p : Nat} (h64 : p < 64) (hb : walkBit roms last a p = true)
    (hy : ∃ y ∈ roms, agrees (walk roms last a p).1 p y = true ∧ y.getLsbD p = false) :
    ∃ l, last = some l ∧ (p = l.val ∨ (p < l.val ∧ a.getLsbD p = true)) := by
  have hp : (Fin.ofNat 64 p).val = p := Nat.mod_eq_of_lt h64
  have hv : valueBit roms (walk roms last a p).1 p = false := wiredAnd_false.mpr hy
  unfold walkBit decidedBit at hb
  rw [hv] at hb
  cases hc : complBit roms (walk roms last a p).1 p
  · rw [hc] at hb
    simp only [Bool.not_false, Bool.and_true, if_true] at hb
    unfold collisionBit at hb
    cases last with
    | none => simp at hb
    | some l =>
      refine ⟨l, rfl, ?_⟩
      simp only at hb
      split at hb
      · next hlt =>
        rw [hp, walk_above le_rfl (by omega)] at hb
        exact .inr ⟨by rw [Fin.lt_def, hp] at hlt; exact hlt, hb⟩
      · have := of_decide_eq_true hb
        exact .inl (by rw [← this, hp])
  · rw [hc] at hb
    simp at hb

/-- The first pass finds the least code. -/
theorem walk_first {y : Address} (hy : y ∈ roms) : keyK (walk roms none a 64).1 ≤ keyK y := by
  by_cases he : (walk roms none a 64).1 = y
  · rw [he]
  obtain ⟨p, hp, hA, hd⟩ := first_difference he
  rw [walk_below hp le_rfl] at hd
  cases hb : walkBit roms none a p
  · refine (keyK_lt hp hA ?_ (by rw [hd, hb]; rfl)).le
    rw [walk_below hp le_rfl, hb]
  · rw [walk_agrees hp.le le_rfl] at hA
    obtain ⟨l, hl, -⟩ := walk_turn (last := none) hp hb ⟨y, hy, hA, by rw [hd, hb]; rfl⟩
    cases hl

/-- A later pass, begun with `rom = a` one of the codes and its marker the deepest branch of `a`, repeats `a` up to the marker
and takes 1 there. -/
theorem walk_repeats {l : Fin 64} (ha : a ∈ roms) (hD : Deepest roms a 64 (some l)) :
    (∀ q < l.val, walkBit roms (some l) a q = a.getLsbD q) ∧ walkBit roms (some l) a l = true := by
  have below : ∀ n ≤ l.val, ∀ q < n, walkBit roms (some l) a q = a.getLsbD q := by
    intro n hn
    induction n with
    | zero => exact fun q hq => absurd hq (by omega)
    | succ n ih =>
      have h := ih (by omega)
      intro q hq
      by_cases hqn : q < n
      · exact h q hqn
      obtain rfl : q = n := by omega
      have hl := l.isLt
      have hA : agrees (walk roms (some l) a q).1 q a = true :=
        agrees_iff.mpr fun j hj => by rw [walk_below hj (by omega), h j hj]
      have hq64 : (Fin.ofNat 64 q).val = q := Nat.mod_eq_of_lt (by omega)
      unfold walkBit decidedBit
      cases hv : valueBit roms (walk roms (some l) a q).1 q
      · cases hc : complBit roms (walk roms (some l) a q).1 q
        · simp only [Bool.not_false, Bool.and_true, if_true, collisionBit]
          rw [if_pos (by rw [Fin.lt_def, hq64]; omega), hq64, walk_above le_rfl (by omega)]
        · have := wiredAnd_true.mp hc a ha hA
          simp only [Bool.not_false, Bool.not_true, Bool.and_false, Bool.false_eq_true, if_false]
          simpa using this
      · have := wiredAnd_true.mp hv a ha hA
        simp only [Bool.not_true, Bool.false_and, Bool.false_eq_true, if_false]
        exact this.symm
  refine ⟨below l.val le_rfl, ?_⟩
  obtain ⟨-, ⟨ha0, y, hy, hyA, hy1⟩, -⟩ := hD
  have hl := l.isLt
  have hsame : ∀ x, agrees (walk roms (some l) a l).1 l x = agrees a l x :=
    agrees_congr fun j hj => by rw [walk_below hj (by omega), below l.val le_rfl j hj]
  have hl64 : Fin.ofNat 64 l.val = l := Fin.ext (Nat.mod_eq_of_lt hl)
  have hv : valueBit roms (walk roms (some l) a l).1 l = false :=
    wiredAnd_false.mpr ⟨a, ha, by rw [hsame]; exact agrees_self a l, ha0⟩
  have hc : complBit roms (walk roms (some l) a l).1 l = false :=
    wiredAnd_false.mpr ⟨y, hy, by rw [hsame]; exact hyA, by simp [hy1]⟩
  unfold walkBit decidedBit
  rw [hv, hc, hl64]
  simp [collisionBit]

/-- A later pass finds the next code. -/
theorem walk_next {l : Fin 64} (ha : a ∈ roms) (hD : Deepest roms a 64 (some l)) :
    keyK a < keyK (walk roms (some l) a 64).1 ∧
      ∀ y ∈ roms, keyK a < keyK y → keyK (walk roms (some l) a 64).1 ≤ keyK y := by
  obtain ⟨hrep, hturn⟩ := walk_repeats ha hD
  obtain ⟨-, ⟨ha0, -⟩, hdeep⟩ := hD
  have hl := l.isLt
  have hAl : agrees a l (walk roms (some l) a 64).1 = true :=
    agrees_iff.mpr fun j hj => by rw [walk_below (by omega) le_rfl, hrep j hj]
  refine ⟨keyK_lt hl hAl ha0 (by rw [walk_below hl le_rfl, hturn]), fun y hy hlt => ?_⟩
  obtain ⟨d, hd, hAd, had, hyd⟩ := keyK_lt_iff.mp hlt
  have hdl : d ≤ l.val := by
    by_contra h
    exact hdeep d (by omega) hd ⟨had, y, hy, hAd, hyd⟩
  by_cases he : (walk roms (some l) a 64).1 = y
  · rw [he]
  obtain ⟨p, hp, hA, hdiff⟩ := first_difference he
  rw [walk_below hp le_rfl] at hdiff
  cases hb : walkBit roms (some l) a p
  · exact (keyK_lt hp hA (by rw [walk_below hp le_rfl, hb]) (by rw [hdiff, hb]; rfl)).le
  · exfalso
    have hy0 : y.getLsbD p = false := by rw [hdiff, hb]; rfl
    rw [walk_agrees hp.le le_rfl] at hA
    obtain ⟨l', hl', hcase⟩ := walk_turn hp hb ⟨y, hy, hA, hy0⟩
    cases hl'
    have hAy : ∀ j < p, y.getLsbD j = walkBit roms (some l) a j := fun j hj => by
      rw [agrees_iff.mp hA j hj, walk_below hj (by omega)]
    by_cases hdp : d < p
    · have h1 := hAy d hdp
      rw [hyd] at h1
      by_cases hdl' : d < l.val
      · rw [hrep d hdl', had] at h1
        cases h1
      · omega
    · by_cases hpd : p < d
      · have h1 := agrees_iff.mp hAd p hpd
        rw [hy0] at h1
        have h2 := hrep p (by omega)
        rw [hb, ← h1] at h2
        cases h2
      · obtain rfl : p = d := by omega
        rw [hy0] at hyd
        cases hyd

/-- A pass that leaves no marker has found the last code. -/
theorem deepest_none_last {r y : Address} (h : Deepest roms r 64 none) (hy : y ∈ roms) : keyK y ≤ keyK r := by
  by_contra hlt
  obtain ⟨d, hd, hA, h1, h2⟩ := keyK_lt_iff.mp (not_le.mp hlt)
  exact h d hd ⟨h1, y, hy, hA, h2⟩

/-- A pass that leaves a marker has not found the last code. -/
theorem deepest_some_not_last {r : Address} {l : Fin 64} (h : Deepest roms r 64 (some l)) :
    ∃ y ∈ roms, keyK r < keyK y := by
  obtain ⟨-, ⟨h0, y, hy, hA, h1⟩, -⟩ := h
  exact ⟨y, hy, keyK_lt l.isLt hA h0 h1⟩

end Sys2Proof.Machine
end

