-- ==== Sys2Proof/Laws/Interrupt.lean ====
section
/-! SUPPORT. A hardware reset among the host's pending actions (70 R271): an operation runs as it would undisturbed up to the
tick of the reset, and ends there. -/

namespace Sys2Proof.Machine

/-- The actions up to and including the first hardware reset. -/
inductive EndsInReset : List HostEvent → Prop
  | last {e : HostEvent} : e.act = .hwReset → EndsInReset [e]
  | cons {e : HostEvent} {L : List HostEvent} : e.act ≠ .hwReset → EndsInReset L → EndsInReset (e :: L)

theorem endsInReset_append {pre : List HostEvent} {e : HostEvent} (hpre : ∀ x ∈ pre, x.act ≠ .hwReset) (he : e.act = .hwReset) :
    EndsInReset (pre ++ [e]) := by
  induction pre with
  | nil => exact .last he
  | cons x pre ih => exact .cons (hpre x List.mem_cons_self) (ih fun y hy => hpre y (List.mem_cons_of_mem _ hy))

theorem hwReset_atReset (st : State) : st.hwReset.AtReset :=
  ⟨rfl, rfl, rfl, rfl, rfl, rfl, rfl, rfl, rfl, rfl, rfl, fun _ => rfl⟩

/-- Stopped by the reset that ends `L`, the actions `es` behind it still pending. -/
structure State.StoppedBy (L es : List HostEvent) (st t : State) : Prop where
  cfg : t.cfg = st.cfg
  atReset : t.AtReset
  asserted : t.resetIn = true
  clock : t.clock = lastArrival st.clock L
  host : t.host = es

/-- The reset is still to come: of the actions `L` the block in `st` had before it, `t` has the rest, and either nothing was
taken, or what is left is due at `t`'s tick or later. -/
structure State.StillBefore (L es : List HostEvent) (st t : State) (L' : List HostEvent) : Prop where
  ends : EndsInReset L'
  host : t.host = L' ++ es
  rest : L' <:+ L
  arrival : lastArrival t.clock L' = lastArrival st.clock L
  rises : st.clock ≤ t.clock
  due : (t.clock = st.clock ∧ L' = L) ∨ ∃ y ys, L' = y :: ys ∧ t.clock ≤ y.tick

theorem State.StoppedBy.of_before {L es L' : List HostEvent} {st t u : State} (h : st.StillBefore L es t L')
    (hc : t.cfg = st.cfg) (hs : t.StoppedBy L' es u) : st.StoppedBy L es u :=
  ⟨hs.cfg.trans hc, hs.atReset, hs.asserted, hs.clock.trans h.arrival, hs.host⟩

theorem State.StillBefore.trans {L es L' L'' : List HostEvent} {st t u : State} (h : st.StillBefore L es t L')
    (h' : t.StillBefore L' es u L'') : st.StillBefore L es u L'' := by
  refine ⟨h'.ends, h'.host, h'.rest.trans h.rest, h'.arrival.trans h.arrival, h.rises.trans h'.rises, ?_⟩
  rcases h'.due with ⟨hc, rfl⟩ | h2
  · rcases h.due with ⟨hc', rfl⟩ | ⟨y, ys, hy, hle⟩
    · exact .inl ⟨hc.trans hc', rfl⟩
    · exact .inr ⟨y, ys, hy, hc ▸ hle⟩
  · exact .inr h2

theorem stillBefore_of_eq {L es : List HostEvent} {st t : State} (hL : EndsInReset L) (hh : st.host = L ++ es)
    (h1 : t.host = st.host) (h2 : t.clock = st.clock) : st.StillBefore L es t L :=
  ⟨hL, h1.trans hh, List.suffix_refl L, by rw [h2], h2.ge, .inl ⟨h2, rfl⟩⟩

theorem blank_cfg {st q : State} (h : q.blank = st.blank) : q.cfg = st.cfg := by
  have h1 := congrArg State.cfg h
  exact h1

theorem blank_clock {st q : State} (h : q.blank = st.blank) : q.clock = st.clock := by
  have h1 := congrArg State.clock h
  exact h1

theorem blank_of_noHost {st t : State} (h : t.noHost = st.noHost) : t.blank = st.blank :=
  congrArg (fun x : State => { x with data := 0#8 }) h

/-- What `serveUntil` does with a reset pending. -/
theorem serveUntil_reset {L : List HostEvent} (hL : EndsInReset L) (till : Nat) (es : List HostEvent) (st : State)
    (hst : st.clock ≤ till) :
    (∃ t, serveUntil till (L ++ es) st = .error .hardReset t ∧ st.StoppedBy L es t) ∨
    ∃ t y ys, serveUntil till (L ++ es) st = .ok () t ∧ t.blank = ({ st with clock := till } : State).blank ∧
      EndsInReset (y :: ys) ∧ t.host = y :: ys ++ es ∧ y :: ys <:+ L ∧ till ≤ y.tick ∧
      lastArrival till (y :: ys) = lastArrival st.clock L := by
  induction hL generalizing st with
  | @last e he =>
    rw [List.singleton_append, serveUntil]
    by_cases ht : e.tick < till
    · refine .inl ⟨(st.arrive e es).hwReset, ?_, hwReset_cfg _, hwReset_atReset _, rfl, ?_, hwReset_host _⟩
      · simp only [ht, he, if_true]
        rfl
      · rw [hwReset_clock]
        rfl
    · refine .inr ⟨_, e, [], if_neg ht, rfl, .last he, rfl, List.suffix_refl _, by omega, ?_⟩
      show max till e.tick = max st.clock e.tick
      omega
  | @cons e L he hL ih =>
    rw [List.cons_append, serveUntil]
    by_cases ht : e.tick < till
    · simp only [ht, he, if_true, if_false]
      obtain ⟨h1, -, -⟩ := busyAct_noHost (st.arrive e (L ++ es)) he
      have hb := blank_of_noHost h1
      have hck : ((st.arrive e (L ++ es)).busyAct e.act).clock = max st.clock e.tick :=
      blank_clock (st := st.arrive e (L ++ es)) hb
      rcases ih ((st.arrive e (L ++ es)).busyAct e.act) (by rw [hck]; omega) with ⟨t, h, hs⟩ | ⟨t, y, ys, h, hbl, hy, hh, hsuf, hle, ha⟩
      · refine .inl ⟨t, h, hs.cfg.trans (blank_cfg (st := st.arrive e (L ++ es)) hb), hs.atReset, hs.asserted, ?_, hs.host⟩
        rw [hs.clock, hck]
        rfl
      · refine .inr ⟨t, y, ys, h, ?_, hy, hh, hsuf.trans (List.suffix_cons _ _), hle, ?_⟩
        · have : ∀ x : State, ({ x with clock := till } : State).blank = { x.blank with clock := till } := fun _ => rfl
          rw [hbl, this, hb, this]
          rfl
        · rw [ha, hck]
          rfl
    · simp only [ht, if_false]
      refine .inr ⟨_, e, L, rfl, rfl, .cons he hL, rfl, List.suffix_refl _, by omega, ?_⟩
      show L.foldl _ (max till e.tick) = L.foldl _ (max st.clock e.tick)
      rw [Nat.max_eq_right (by omega), Nat.max_eq_right (by omega)]

/-- An update that neither touches the host nor the time, and lets nothing of `DATA` or the host through. -/
structure Passive (f : State → State) : Prop where
  blank : ∀ st, (f st).blank = (f st.blank).blank
  host : ∀ st, (f st).host = st.host
  clock : ∀ st, (f st).clock = st.clock

theorem Passive.congr {f : State → State} (h : Passive f) {st q : State} (hq : q.blank = st.blank) :
    (f q).blank = (f st).blank := by rw [h.blank q, h.blank st, hq]

/-- With a reset pending, `x` is stopped by it, or does what it does undisturbed and the reset is still to come. -/
def Interruptible {α : Type} (x : Op α) : Prop :=
  ∀ (L es : List HostEvent) (st q : State), EndsInReset L → st.host = L ++ es → q.host = [] → q.blank = st.blank →
    (∃ t, x.run st = .error .hardReset t ∧ st.StoppedBy L es t) ∨
    (∃ a t u L', x.run st = .ok a t ∧ x.run q = .ok a u ∧ u.host = [] ∧ u.blank = t.blank ∧ t.cfg = st.cfg ∧
      st.StillBefore L es t L') ∨
    (∃ t u L', x.run st = .error .finished t ∧ x.run q = .error .finished u ∧ u.blank = t.blank ∧
      st.StillBefore L es t L')

theorem interruptible_upd {f : State → State} (h : Passive f) (hc : ∀ st, (f st).cfg = st.cfg) : Interruptible (upd f) :=
  fun L _ st q hL hh hq hb => .inr <| .inl ⟨(), f st, f q, L, rfl, rfl, (h.host q).trans hq, h.congr hb, hc st,
    stillBefore_of_eq hL hh (h.host st) (h.clock st)⟩

theorem interruptible_bind {α β : Type} {x : Op α} {f : α → Op β} (hx : Interruptible x) (hf : ∀ a, Interruptible (f a)) :
    Interruptible (x >>= f) := by
  intro L es st q hL hh hq hb
  rcases hx L es st q hL hh hq hb with ⟨t, h, hs⟩ | ⟨a, t, u, L', h1, h2, hu, hub, hc, hr⟩ | ⟨t, u, L', h1, h2, hub, hr⟩
  · exact .inl ⟨t, bind_error h, hs⟩
  · rcases hf a L' es t u hr.ends hr.host hu hub with ⟨t', h, hs⟩ | ⟨b, t', u', L'', k1, k2, ku, kub, kc, kr⟩ |
      ⟨t', u', L'', k1, k2, kub, kr⟩
    · exact .inl ⟨t', (bind_ok h1).trans h, hs.of_before hr hc⟩
    · exact .inr <| .inl ⟨b, t', u', L'', (bind_ok h1).trans k1, (bind_ok h2).trans k2, ku, kub, kc.trans hc, hr.trans kr⟩
    · exact .inr <| .inr ⟨t', u', L'', (bind_ok h1).trans k1, (bind_ok h2).trans k2, kub, hr.trans kr⟩
  · exact .inr <| .inr ⟨t, u, L', bind_error h1, bind_error h2, hub, hr⟩

theorem interruptible_wait (n : Nat) : Interruptible (wait n) := by
  intro L es st q hL hh hq hb
  have hw : (wait n).run st = serveUntil (st.clock + n) (L ++ es) st := by rw [← hh]; rfl
  rw [hw, wait_quiet n hq]
  rcases serveUntil_reset hL (st.clock + n) es st (by omega) with h | ⟨t, y, ys, h, hbl, hy, hhost, hsuf, hle, ha⟩
  · exact .inl h
  · have hck : t.clock = st.clock + n := blank_clock (st := { st with clock := st.clock + n }) hbl
    refine .inr <| .inl ⟨(), t, q.tick n, y :: ys, h, rfl, hq, ?_, blank_cfg (st := { st with clock := st.clock + n }) hbl, hy, hhost, hsuf, hck ▸ ha, by omega,
      .inr ⟨y, ys, rfl, by omega⟩⟩
    rw [hbl]
    exact congrArg (State.tick n) hb

/-- `Drive()` and `Release()` do not look at `DATA` or the host. -/
theorem passive_drive : Passive State.driveLine := by
  refine ⟨fun st => ?_, driveLine_host, driveLine_clock⟩
  unfold State.driveLine
  by_cases h : st.driveLow = true
  · rw [if_pos h, if_pos (by exact h)]
    rfl
  · rw [if_neg h, if_neg (by exact h)]
    rfl

theorem passive_release : Passive State.releaseLine := by
  refine ⟨fun st => ?_, releaseLine_host, releaseLine_clock⟩
  unfold State.releaseLine
  by_cases h : st.driveLow = true
  · rw [if_pos h, if_pos (by exact h)]
    rfl
  · rw [if_neg h, if_neg (by exact h)]
    rfl

/-- Everything built from passive updates is interruptible. -/
theorem Built.interruptible {P : (State → State) → Prop} (hP : ∀ f, P f → Passive f ∧ ∀ st, (f st).cfg = st.cfg) {α : Type}
    {x : Op α} (h : Built P x) : Interruptible x := by
  induction h with
  | pure a => exact fun L _ st q hL hh hq hb => .inr <| .inl ⟨a, st, q, L, rfl, rfl, hq, hb, rfl, stillBefore_of_eq hL hh rfl rfl⟩
  | bind _ _ hx hf => exact interruptible_bind hx hf
  | upd hf => exact interruptible_upd (hP _ hf).1 (hP _ hf).2
  | look f hf =>
    intro L es st q hL hh hq hb
    have : f q = f st := by rw [← hf q, hb, hf st]
    exact .inr <| .inl ⟨f st, st, q, L, rfl, by rw [look_run, this], hq, hb, rfl, stillBefore_of_eq hL hh rfl rfl⟩
  | sample =>
    intro L es st q hL hh hq hb
    have h1 : q.lineIn = st.lineIn := by
      have h2 := congrArg State.lineIn hb
      exact h2
    exact .inr <| .inl ⟨st.lineIn, st.noteSample, q.noteSample, L, rfl, by rw [sample_run, h1], hq,
      congrArg State.noteSample hb, rfl, stillBefore_of_eq hL hh rfl rfl⟩
  | drive => exact interruptible_upd passive_drive driveLine_cfg
  | release => exact interruptible_upd passive_release releaseLine_cfg
  | wait n => exact interruptible_wait n
  | finish r =>
    exact fun L _ st q hL hh hq hb => .inr <| .inr ⟨st.finish r, q.finish r, L, rfl, rfl, congrArg (State.finish r) hb,
      stillBefore_of_eq hL hh rfl rfl⟩

/-! ### The updates of every operation are passive -/

theorem passive_slot {f : State → State} (h : SlotUpd id f) : Passive f := by
  cases h <;> exact ⟨fun _ => rfl, fun _ => rfl, fun _ => rfl⟩

theorem passive_reset {f : State → State} (h : ResetUpd f) : Passive f := by
  cases h <;> exact ⟨fun _ => rfl, fun _ => rfl, fun _ => rfl⟩

theorem passive_send {f : State → State} (h : SendUpd f) : Passive f := by
  cases h
  exact ⟨fun _ => rfl, fun _ => rfl, fun _ => rfl⟩

theorem passive_command {f : State → State} (h : CommandUpd f) : Passive f := by
  cases h with
  | reset h => exact passive_reset ‹_›
  | send h => exact passive_send ‹_›

theorem passive_decide (p : Fin 64) : Passive (State.decideBit p) := by
  refine ⟨fun st => ?_, fun st => ?_, fun st => ?_⟩
  · unfold State.decideBit
    by_cases h : (!st.v && !st.c) = true
    · rw [if_pos h, if_pos (by exact h)]
      rfl
    · rw [if_neg h, if_neg (by exact h)]
      rfl
  all_goals
    obtain ⟨_, _, h⟩ := decideBit_shape p st
    rw [h]

theorem passive_position {f : State → State} (h : PositionUpd f) : Passive f := by
  cases h with
  | command f h => exact passive_command h
  | slot f h => exact passive_slot h
  | decide p => exact passive_decide p
  | _ => exact ⟨fun _ => rfl, fun _ => rfl, fun _ => rfl⟩

theorem opUpd_passive (i : Instr) {f : State → State} (h : OpUpd i f) : Passive f := by
  cases i with
  | resetPulse => exact passive_reset h
  | writeBit v => exact h.elim
  | readBitOr p => cases h <;> exact ⟨fun _ => rfl, fun _ => rfl, fun _ => rfl⟩
  | writeOctet => exact passive_send h
  | readOctet =>
    cases h with
    | slot f h => exact passive_slot h
    | _ => exact ⟨fun _ => rfl, fun _ => rfl, fun _ => rfl⟩
  | sendCommand => exact passive_command h
  | search =>
    cases h with
    | within f h => exact passive_position h
    | _ => exact ⟨fun _ => rfl, fun _ => rfl, fun _ => rfl⟩

theorem opUpd_cfg (i : Instr) {f : State → State} (h : OpUpd i f) (st : State) : (f st).cfg = st.cfg := by
  cases i with
  | resetPulse => obtain ⟨_, _, _, _, h⟩ := resetUpd_shape h st; rw [h]
  | writeBit v => exact h.elim
  | readBitOr p => obtain ⟨_, _, _, h⟩ := readUpd_shape h st; rw [h]
  | writeOctet => obtain ⟨_, h⟩ := sendUpd_shape h st; rw [h]
  | readOctet => obtain ⟨_, _, _, _, _, h⟩ := receiveUpd_shape h st; rw [h]
  | sendCommand => obtain ⟨_, _, _, _, _, h⟩ := commandUpd_shape h st; rw [h]
  | search =>
    obtain h | ⟨_, _, _, _, h⟩ := searchUpd_shape h st
    · obtain ⟨_, _, _, _, _, _, _, _, _, _, _, _, _, h⟩ := positionUpd_shape h st; rw [h]
    · rw [h]

end Sys2Proof.Machine
end

