-- ==== Sys2Proof/Laws/Memory.lean ====
section
/-! SUPPORT. The laws of the table memory: a read after a write, and the canonical form. -/

namespace Sys2Proof.Machine

/-- A write leaves the byte it wrote to be read. -/
@[simp] theorem Memory.read_write_same (m : Memory) (a : Nat) (v : Byte) : (m.write a v).read a = some v := by
  induction m with
  | nil => simp [Memory.write, Memory.read]
  | cons x m ih =>
    obtain ⟨k, w⟩ := x
    rcases lt_trichotomy a k with h | h | h
    · simp [Memory.write, Memory.read, h]
    · simp [Memory.write, Memory.read, h]
    · simp [Memory.write, Memory.read, ih, Nat.not_lt.2 h.le, h.ne, h.ne']

/-- A write leaves every other byte alone. -/
theorem Memory.read_write_other {a a' : Nat} (m : Memory) (v : Byte) (h : a' ≠ a) :
    (m.write a v).read a' = m.read a' := by
  induction m with
  | nil => simp [Memory.write, Memory.read, h.symm]
  | cons x m ih =>
    obtain ⟨k, w⟩ := x
    rcases lt_trichotomy a k with hk | hk | hk
    · simp [Memory.write, Memory.read, hk, h.symm]
    · subst hk
      simp [Memory.write, Memory.read, h.symm]
    · simp [Memory.write, Memory.read, ih, Nat.not_lt.2 hk.le, hk.ne']

/-- A written memory lists what it listed before and the byte written. -/
theorem Memory.mem_write {m : Memory} {a : Nat} {v : Byte} {cell : Host.Cell} (h : cell ∈ m.write a v) :
    cell = (a, v) ∨ cell ∈ m := by
  induction m with
  | nil => simpa [Memory.write] using h
  | cons x m ih =>
    obtain ⟨k, w⟩ := x
    unfold Memory.write at h
    split at h
    · simpa using h
    · split at h
      · rcases List.mem_cons.1 h with h | h
        · exact .inl h
        · exact .inr (List.mem_cons_of_mem _ h)
      · rcases List.mem_cons.1 h with h | h
        · exact .inr (h ▸ List.mem_cons_self)
        · exact (ih h).imp_right (List.mem_cons_of_mem _)

/-- The canonical form says that the head's address is below the tail's, and that the tail is canonical. -/
theorem Memory.wf_cons {a : Nat} {v : Byte} {m : Memory} :
    Memory.wf ((a, v) :: m) = true ↔ (∀ cell ∈ m, a < cell.1) ∧ Memory.wf m = true := by
  induction m generalizing a v with
  | nil => simp [Memory.wf]
  | cons x m ih =>
    obtain ⟨k, w⟩ := x
    constructor
    · intro h
      have h' : a < k ∧ Memory.wf ((k, w) :: m) = true := by simpa [Memory.wf] using h
      refine ⟨?_, h'.2⟩
      intro cell hc
      rcases List.mem_cons.1 hc with rfl | hc
      · exact h'.1
      · exact h'.1.trans ((ih.1 h'.2).1 cell hc)
    · rintro ⟨h1, h2⟩
      have : a < k := h1 (k, w) List.mem_cons_self
      simp [Memory.wf, this, h2]

/-- Every write keeps the canonical form. -/
theorem Memory.wf_write {m : Memory} (a : Nat) (v : Byte) (h : m.wf = true) : (m.write a v).wf = true := by
  induction m with
  | nil => rfl
  | cons x m ih =>
    obtain ⟨k, w⟩ := x
    obtain ⟨h1, h2⟩ := Memory.wf_cons.1 h
    unfold Memory.write
    split
    · next hak =>
      refine Memory.wf_cons.2 ⟨?_, h⟩
      intro cell hc
      rcases List.mem_cons.1 hc with rfl | hc
      · exact hak
      · exact hak.trans (h1 cell hc)
    · split
      · next hak => exact Memory.wf_cons.2 ⟨hak ▸ h1, h2⟩
      · next hlt hne =>
        refine Memory.wf_cons.2 ⟨?_, ih h2⟩
        intro cell hc
        rcases Memory.mem_write hc with rfl | hc
        · show k < a
          omega
        · exact h1 cell hc

theorem tableAddr_eq (k j : Nat) : tableAddr k j = 2048 + 8 * k + j := rfl

theorem tableAddr_inj {k k' j j' : Nat} (hj : j < 8) (hj' : j' < 8) (h : tableAddr k j = tableAddr k' j') :
    k = k' ∧ j = j' := by
  simp only [tableAddr_eq] at h
  omega

/-- The bytes a run of an entry's writes leaves: those it wrote, and the others as they were. -/
theorem Memory.read_writeBytes (m : Memory) (k : Nat) (w : Address) (j n a : Nat) :
    (m.writeBytes k w j n).read a =
      if tableAddr k j ≤ a ∧ a < tableAddr k (j + n) then some (addrByte w (a - tableAddr k 0)) else m.read a := by
  induction n generalizing m j with
  | zero => exact (if_neg (by rw [Nat.add_zero]; omega)).symm
  | succ n ih =>
    rw [Memory.writeBytes, ih]
    by_cases h : a = tableAddr k j
    · subst h
      rw [if_neg (by simp only [tableAddr_eq]; omega), if_pos (by simp only [tableAddr_eq]; omega),
        Memory.read_write_same]
      congr 2
      simp only [tableAddr_eq]
      omega
    · rw [Memory.read_write_other _ _ h]
      refine ite_congr (propext ?_) (fun _ => rfl) (fun _ => rfl)
      simp only [tableAddr_eq] at *
      omega

/-- What storing an entry does to a byte: an entry's own eight bytes are the Address's, every other byte is as before. -/
theorem Memory.read_writeEntry (m : Memory) (k : Nat) (w : Address) (a : Nat) :
    (m.writeEntry k w).read a =
      if tableAddr k 0 ≤ a ∧ a < tableAddr (k + 1) 0 then some (addrByte w (a - tableAddr k 0)) else m.read a := by
  rw [Memory.writeEntry, Memory.read_writeBytes]
  rfl

/-- An entry just stored holds its Address. -/
theorem Memory.holdsEntry_writeEntry (m : Memory) (k : Nat) (w : Address) : (m.writeEntry k w).holdsEntry k w := by
  intro j hj
  have : j < 8 := hj
  rw [Memory.read_writeEntry, if_pos (by simp only [tableAddr_eq]; omega)]
  congr 2
  simp only [tableAddr_eq]
  omega

/-- Storing another entry leaves an entry alone. -/
theorem Memory.read_writeEntry_other {k k' j : Nat} (m : Memory) (w : Address) (hj : j < Config.addrBytes)
    (h : k' ≠ k) : (m.writeEntry k w).read (tableAddr k' j) = m.read (tableAddr k' j) := by
  have : j < 8 := hj
  rw [Memory.read_writeEntry, if_neg (by simp only [tableAddr_eq]; omega)]

theorem Memory.wf_writeBytes {m : Memory} (k : Nat) (w : Address) (j n : Nat) (h : m.wf = true) :
    (m.writeBytes k w j n).wf = true := by
  induction n generalizing m j with
  | zero => exact h
  | succ n ih => exact ih _ (Memory.wf_write _ _ h)

/-- Storing an entry keeps the canonical form. -/
theorem Memory.wf_writeEntry {m : Memory} (k : Nat) (w : Address) (h : m.wf = true) :
    (m.writeEntry k w).wf = true := Memory.wf_writeBytes k w 0 _ h

theorem Memory.mem_writeBytes {m : Memory} {k : Nat} {w : Address} {j n : Nat} {cell : Host.Cell}
    (h : cell ∈ m.writeBytes k w j n) :
    (tableAddr k j ≤ cell.1 ∧ cell.1 < tableAddr k (j + n)) ∨ cell ∈ m := by
  induction n generalizing m j with
  | zero => exact .inr h
  | succ n ih =>
    rcases ih h with h | h
    · left
      simp only [tableAddr_eq] at *
      omega
    · rcases Memory.mem_write h with rfl | h
      · left
        simp only [tableAddr_eq]
        omega
      · exact .inr h

/-- Storing an entry lists no address outside that entry that was not listed before. -/
theorem Memory.mem_writeEntry {m : Memory} {k : Nat} {w : Address} {cell : Host.Cell}
    (h : cell ∈ m.writeEntry k w) : (tableAddr k 0 ≤ cell.1 ∧ cell.1 < tableAddr (k + 1) 0) ∨ cell ∈ m := by
  rcases Memory.mem_writeBytes h with h | h
  · left
    simp only [tableAddr_eq, Config.addrBytes] at *
    omega
  · exact .inr h

end Sys2Proof.Machine
end

