-- ==== Sys2Proof/Laws/Pass.lean ====
section
/-! SUPPORT. The block on the reference bus: the reset sequence, the command byte, one position and one whole pass of a search
(20_memory R84, 42_search R190 to R206). -/

namespace Sys2Proof.Machine

/-! ### The reset pulse -/

/-- A reset pulse: every device waits for a command byte; the line is low in the window of the presence pulses, if there are
devices. -/
theorem Bus.Standard.reset {b : Bus} {cmd : Byte} {roms : List Address} {t : Nat} (h : b.Standard cmd t roms) :
    (b.pulsed t resetLow).At cmd roms (t + resetLow + 150) (fun _ => .cmd 0 0#8) ∧
      ∀ τ, t + resetLow ≤ τ → (b.pulsed t resetLow).level τ =
        !(!roms.isEmpty && (decide (t + resetLow + 30 ≤ τ) && decide (τ < t + resetLow + 150))) := by
  refine ⟨⟨⟨h.rise, h.sound, ?_, ?_, ?_, ?_⟩, ?_⟩, fun τ hτ => ?_⟩
  · show t + resetLow + b.rise ≤ _
    rw [h.rise]
    omega
  · show (b.slaves.map (Slave.pulsed t resetLow)).map Slave.rom = roms
    rw [List.map_map, ← h.codes]
    exact List.map_congr_left fun d hd => (pulsed_reset (h.standard d hd) t).2.1
  · intro d hd
    obtain ⟨x, hx, rfl⟩ := List.mem_map.mp hd
    exact (pulsed_reset (h.standard x hx) t).1
  · intro d hd
    obtain ⟨x, hx, rfl⟩ := List.mem_map.mp hd
    exact ((pulsed_reset (h.standard x hx) t).2.2.2 (h.quiet x hx)).1
  · intro d hd
    obtain ⟨x, hx, rfl⟩ := List.mem_map.mp hd
    exact (pulsed_reset (h.standard x hx) t).2.2.1
  · have hup : (decide ((b.pulsed t resetLow).up ≤ τ)) = true := by
      rw [decide_eq_true_eq]
      show t + resetLow + b.rise ≤ τ
      rw [h.rise]
      exact hτ
    unfold Bus.level
    rw [hup, show (b.pulsed t resetLow).stuckLow = false from h.sound]
    simp only [Bool.not_false, Bool.true_and]
    congr 1
    show (b.slaves.map (Slave.pulsed t resetLow)).any (fun d => d.pulling τ) = _
    rw [List.any_map, ← h.codes]
    have hall : ∀ d ∈ b.slaves, ((fun d => d.pulling τ) ∘ Slave.pulsed t resetLow) d =
        (decide (t + resetLow + 30 ≤ τ) && decide (τ < t + resetLow + 150)) :=
      fun d hd => ((pulsed_reset (h.standard d hd) t).2.2.2 (h.quiet d hd)).2 τ hτ
    generalize (decide (t + resetLow + 30 ≤ τ) && decide (τ < t + resetLow + 150)) = w at hall
    generalize b.slaves = l at hall
    induction l with
    | nil => rfl
    | cons x l ih =>
      rw [List.any_cons, hall x List.mem_cons_self, ih fun d hd => hall d (List.mem_cons_of_mem _ hd)]
      cases w <;> simp

/-- Devices on the bus give a presence pulse of the counters 2 and 8 (20_memory R84 (a)). -/
theorem presence_on_bus {st : State} {b : Bus} {roms : List Address} (hl : st.line = .bus b)
    (h : b.Standard st.cfg.searchCmd st.clock roms) (hne : roms ≠ []) (hh : 2 ≤ st.cfg.presHighMaxQ)
    (hw : 8 ≤ st.cfg.presLowMaxQ) : st.Presence 0 2 8 := by
  have hL : ∀ τ, st.clock + resetLow ≤ τ → st.afterReset τ =
      !(decide (st.clock + resetLow + 30 ≤ τ) && decide (τ < st.clock + resetLow + 150)) := by
    intro τ hτ
    unfold State.afterReset
    rw [hl, bus_pulse_eq]
    show (b.pulsed st.clock resetLow).level τ = _
    rw [h.reset.2 τ hτ]
    cases roms with
    | nil => exact absurd rfl hne
    | cons x l => simp
  have hq : Config.tQ = 15 := rfl
  refine ⟨⟨?_, fun j hj => absurd hj (by omega)⟩, ⟨by omega, ?_, fun j hj => ?_⟩, ⟨by omega, ?_, fun j hj => ?_⟩, by omega, hh,
    hw, by decide⟩
  · rw [hL _ (by omega)]
    simp
  all_goals
    unfold quarter
    rw [hL _ (by omega), hq]
    simp <;> omega

/-! ### The command byte -/

/-- The byte the devices have received after `k` bits of `byte`. -/
def partByte (byte : Byte) : Nat → Byte
  | 0 => 0#8
  | k + 1 => setBit (partByte byte k) k (byte.getLsbD k)

theorem partByte_bit (byte : Byte) {k j : Nat} (hk : k ≤ 8) : (partByte byte k).getLsbD j = (decide (j < k) && byte.getLsbD j) := by
  induction k with
  | zero => simp [partByte]
  | succ k ih =>
    rw [partByte, getLsbD_setBit _ _ _ _ (by omega), ih (by omega)]
    split
    · next h => simp [h]
    · next h =>
      congr 1
      rw [decide_eq_decide]
      omega

theorem partByte_all (byte : Byte) : partByte byte 8 = byte :=
  BitVec.eq_of_getLsbD_eq fun j hj => by rw [partByte_bit byte le_rfl, decide_eq_true hj, Bool.true_and]

/-- One bit of a command byte. -/
theorem Bus.At.cmd {b : Bus} {c : Config} {roms : List Address} {t k : Nat} {byte : Byte} (v : Bool)
    (h : b.At c.searchCmd roms t (fun _ => .cmd k byte)) (hc : c.SuitsReferenceBus) :
    (b.pulsed t (lowTime c v)).At c.searchCmd roms (t + slotWrite c) (fun _ =>
      if k + 1 < 8 then .cmd (k + 1) (setBit byte k v) else if setBit byte k v = c.searchCmd then .value 0 else .idle) := by
  obtain ⟨h2, h3⟩ := lowTime_received hc v
  have h4 := lowTime_le c v
  have h5 : Config.tSlot = 60 := rfl
  have h6 : slotWrite c = Config.tSlot + c.tRec := rfl
  refine h.slot h2 (by omega) (by omega) fun d hd => ?_
  rw [pulsed_cmd (h.standard d hd) h2 (h.phase d hd), h3]

/-- The first `k` bits of the search command. -/
theorem Bus.At.command {b : Bus} {c : Config} {roms : List Address} {t : Nat}
    (h : b.At c.searchCmd roms t (fun _ => .cmd 0 0#8)) (hc : c.SuitsReferenceBus) {k : Nat} (hk : k ≤ 8) :
    ∃ b', (LineEnv.bus b).afterWrites c t c.searchCmd k = .bus b' ∧
      b'.At c.searchCmd roms (t + k * slotWrite c)
        (if k < 8 then fun _ => .cmd k (partByte c.searchCmd k) else activePhase (fun _ => true) (.value 0)) := by
  induction k with
  | zero => exact ⟨b, rfl, by simpa [partByte] using h⟩
  | succ k ih =>
    obtain ⟨b', h1, h2⟩ := ih (by omega)
    rw [if_pos (by omega)] at h2
    refine ⟨_, by rw [LineEnv.afterWrites, h1, bus_pulse_eq], ?_⟩
    have h3 := h2.cmd (c.searchCmd.getLsbD k) hc
    rw [show t + (k + 1) * slotWrite c = t + k * slotWrite c + slotWrite c by rw [Nat.succ_mul, Nat.add_assoc]]
    by_cases h8 : k + 1 < 8
    · rw [if_pos h8]
      simp only [h8, if_true] at h3
      exact h3
    · obtain rfl : k = 7 := by omega
      have h4 : setBit (partByte c.searchCmd 7) 7 (c.searchCmd.getLsbD 7) = c.searchCmd := partByte_all c.searchCmd
      simp only [h4, show ¬(7 + 1 < 8) by omega, if_true, if_false] at h3
      exact h3

/-! ### One position -/

/-- What does not change within a pass. -/
structure State.SameTable (st u : State) : Prop where
  devices : u.devices = st.devices
  numDevices : u.numDevices = st.numDevices
  devicePosition : u.devicePosition = st.devicePosition
  data : u.data = st.data
  presHighQ : u.presHighQ = st.presHighQ
  presLowQ : u.presLowQ = st.presLowQ
  cmd : u.cmd = st.cmd
  busy : u.busy = st.busy

theorem State.SameTable.trans {a b c : State} (h1 : a.SameTable b) (h2 : b.SameTable c) : a.SameTable c :=
  ⟨h2.1.trans h1.1, h2.2.trans h1.2, h2.3.trans h1.3, h2.4.trans h1.4, h2.5.trans h1.5, h2.6.trans h1.6, h2.7.trans h1.7,
    h2.8.trans h1.8⟩

/-- The state at position `p` of a pass on the reference bus that began at tick `t₀` with `rom = a`, `last_disc = last`. -/
structure State.PassAt (roms : List Address) (last : Option (Fin 64)) (a : Address) (c : Config) (t₀ : Nat) (p : Nat)
    (st : State) : Prop where
  host : st.host = []
  released : st.driveLow = false
  cfg : st.cfg = c
  lastDisc : st.lastDisc = last
  walked : (st.rom, st.curDisc) = walk roms last a p
  clock : st.clock = t₀ + p * (2 * Config.tSlot + slotWrite c)
  bus : ∃ b, st.line = .bus b ∧ b.At c.searchCmd roms st.clock
    (if p < 64 then activePhase (agrees st.rom p) (.value p) else fun _ => .idle)

/-- One position of a pass on the reference bus: the next bit of the walk. -/
theorem searchPosition_on_bus {roms : List Address} {last : Option (Fin 64)} {a : Address} {c : Config} {t₀ p : Nat}
    {st : State} (hc : c.SuitsReferenceBus) (hne : roms ≠ []) (hp : p < 64) (h : st.PassAt roms last a c t₀ p) :
    ∃ u, (searchPosition p).run st = .ok () u ∧ u.PassAt roms last a c t₀ (p + 1) ∧ st.SameTable u := by
  obtain ⟨hh, hd, hcfg, hlast, hwalk, hnow, b, hline, hb⟩ := h
  rw [if_pos hp] at hb
  have hr : st.rom = (walk roms last a p).1 := congrArg Prod.fst hwalk
  have hcur : st.curDisc = (walk roms last a p).2 := congrArg Prod.snd hwalk
  obtain ⟨v1, v2, hb1⟩ := hb.value hc
  obtain ⟨c1, c2, hb2⟩ := hb1.compl hc
  have hl1 : st.line.afterReads st.cfg st.clock 1 = .bus (b.pulsed st.clock c.tRLow) := by
    rw [hline, hcfg]
    simp only [LineEnv.afterReads, Nat.zero_mul, Nat.add_zero, bus_pulse_eq]
  have hsh : ∀ k, k * Config.tSlot = Config.tSlot * k := fun k => Nat.mul_comm _ _
  have hv : st.line.readBit st.cfg st.clock 0 = valueBit roms st.rom p := by rw [hline, hcfg, v1]; rfl
  have he1 : st.line.readEnd st.cfg st.clock 0 = true := by rw [hline, hcfg]; exact v2
  have hcb : st.line.readBit st.cfg st.clock 1 = complBit roms st.rom p := by
    rw [← readBit_shift, hl1, Nat.one_mul, hcfg, c1]
    rfl
  have he2 : st.line.readEnd st.cfg st.clock 1 = true := by
    rw [← readEnd_shift, hl1, Nat.one_mul, hcfg]
    exact c2
  have hl2 : st.line.afterReads st.cfg st.clock 2 = .bus ((b.pulsed st.clock c.tRLow).pulsed (st.clock + Config.tSlot) c.tRLow) := by
    rw [LineEnv.afterReads, hl1, Nat.one_mul, hcfg, bus_pulse_eq]
  have hvc := walk_pair (last := last) (a := a) hne (p := p) (by omega)
  rw [← hr] at hvc
  have hp64 : Fin.ofNat 64 p = ⟨p, hp⟩ := Fin.ext (Nat.mod_eq_of_lt hp)
  have hrun := searchPosition_decides ⟨p, hp⟩ hh hd he1 he2 (by rw [hv, hcb]; exact hvc)
  rw [hv, hcb, hlast] at hrun
  have hbit : decidedBit last st.rom ⟨p, hp⟩ (valueBit roms st.rom p) (complBit roms st.rom p) = walkBit roms last a p := by
    unfold walkBit
    rw [hp64, hr]
  rw [hbit] at hrun
  have hb3 := hb2.dir (walkBit roms last a p) hc
  have e2 : st.clock + Config.tSlot + Config.tSlot = st.clock + 2 * Config.tSlot := by omega
  rw [e2] at hb3
  have f1 := pairDone_rom st ⟨p, hp⟩ (walkBit roms last a p)
  have f2 := pairDone_curDisc st ⟨p, hp⟩ (walkBit roms last a p)
  have f3 := pairDone_line st ⟨p, hp⟩ (walkBit roms last a p)
  have f4 := pairDone_clock st ⟨p, hp⟩ (walkBit roms last a p)
  have f5 := (pairDone_host st ⟨p, hp⟩ (walkBit roms last a p)).trans hh
  have f6 := (pairDone_driveLow st ⟨p, hp⟩ (walkBit roms last a p)).trans hd
  have f7 := (pairDone_cfg st ⟨p, hp⟩ (walkBit roms last a p)).trans hcfg
  have f8 := (pairDone_lastDisc st ⟨p, hp⟩ (walkBit roms last a p)).trans hlast
  have f9 : st.SameTable (st.pairDone ⟨p, hp⟩ (walkBit roms last a p)) :=
    ⟨pairDone_devices .., pairDone_numDevices .., pairDone_devicePosition .., pairDone_data .., pairDone_presHighQ ..,
      pairDone_presLowQ .., pairDone_cmd .., pairDone_busy ..⟩
  rw [hv, hcb] at f2
  rw [hl2, bus_pulse_eq, hcfg] at f3
  rw [hcfg] at f4
  generalize st.pairDone ⟨p, hp⟩ (walkBit roms last a p) = u at hrun f1 f2 f3 f4 f5 f6 f7 f8 f9
  have hw : walk roms last a (p + 1) = (setBit (walk roms last a p).1 p (walkBit roms last a p),
      markerAfter (walk roms last a p).2 (Fin.ofNat 64 p) (valueBit roms (walk roms last a p).1 p)
        (complBit roms (walk roms last a p).1 p) (walkBit roms last a p)) := rfl
  have hphase : (if p < 63 then activePhase (fun x => agrees st.rom p x && x.getLsbD p == walkBit roms last a p)
      (.value (p + 1)) else fun _ => SlavePhase.idle) =
      if p + 1 < 64 then activePhase (agrees u.rom (p + 1)) (.value (p + 1)) else fun _ => .idle := by
    by_cases hlt : p < 63
    · rw [if_pos hlt, if_pos (by omega)]
      congr 1
      funext x
      rw [f1, hr, ← walk_rom, agrees_walk_succ hp]
    · rw [if_neg hlt, if_neg (by omega)]
  refine ⟨u, hrun, ⟨f5, f6, f7, f8, ?_, ?_, ⟨_, f3, ?_⟩⟩, f9⟩
  · rw [f1, f2, hr, hcur, hw, hp64]
  · rw [f4, hnow, show ∀ D, (p + 1) * D = p * D + D from fun D => Nat.succ_mul p D]
    omega
  · rw [f4, ← hphase]
    exact hb3

/-- All positions of a pass on the reference bus: the walk's code. -/
theorem searchPositions_on_bus {roms : List Address} {last : Option (Fin 64)} {a : Address} {c : Config} {t₀ : Nat}
    (hc : c.SuitsReferenceBus) (hne : roms ≠ []) (n : Nat) {p : Nat} (hp : p + n = 64) {st : State}
    (h : st.PassAt roms last a c t₀ p) :
    ∃ u, (forUp searchPosition p n).run st = .ok () u ∧ u.PassAt roms last a c t₀ 64 ∧ st.SameTable u := by
  induction n generalizing p st with
  | zero =>
    obtain rfl : p = 64 := by omega
    exact ⟨st, rfl, h, ⟨rfl, rfl, rfl, rfl, rfl, rfl, rfl, rfl⟩⟩
  | succ n ih =>
    obtain ⟨u, hu, hP, hS⟩ := searchPosition_on_bus hc hne (by omega) h
    obtain ⟨w, hw, hP', hS'⟩ := ih (by omega) hP
    refine ⟨w, ?_, hP', hS.trans hS'⟩
    rw [forUp_succ, bind_ok hu]
    exact hw

/-! ### One pass -/

/-- One pass on the reference bus: the walk's code stored in the next entry, the marker handed on (42_search R198, R199, R206). -/
theorem searchPass_on_bus {roms : List Address} {st : State} {b : Bus}
    (hc : st.cfg.SuitsReferenceBus) (hne : roms ≠ []) (hh : st.host = []) (hd : st.driveLow = false) (hl : st.line = .bus b)
    (hb : b.Standard st.cfg.searchCmd st.clock roms) :
    ∃ u b', searchPass.run st = .ok () u ∧ u.host = [] ∧ u.driveLow = false ∧ u.cfg = st.cfg ∧
      u.rom = (walk roms st.lastDisc st.rom 64).1 ∧ u.curDisc = (walk roms st.lastDisc st.rom 64).2 ∧
      u.lastDisc = u.curDisc ∧ u.clock = st.clock + passDuration st.cfg ∧ u.line = .bus b' ∧
      b'.At st.cfg.searchCmd roms u.clock (fun _ => .idle) ∧
      u.devices = st.devices.writeEntry st.devicePosition.toNat u.rom ∧ u.devicePosition = st.devicePosition + 1#8 ∧
      u.numDevices = st.numDevices ∧ u.data = st.data ∧ u.presHighQ = 2#8 ∧ u.presLowQ = 8#8 ∧ u.cmd = st.cmd := by
  have hp := presence_on_bus hl hb hne hc.high hc.low
  have hq : resetDuration 0 2 8 = 1080 := rfl
  have hr : resetLow = 600 := rfl
  -- the reset sequence and the command byte
  have hr1 := resetSeq_ok (st := st.startPass) hh hd ⟨hp.1, hp.2, hp.3, hp.4, hp.5, hp.6, hp.7⟩
  have hsc := sendCommandSeq_ok (byte := st.cfg.searchCmd) hr1 hh hd
  generalize hx : (State.setI 8 (State.octetSent (State.timed (0 + Config.tQ * (2 + 8)) (State.floated 0 (State.counted 2 8
    (State.lineTo (st.startPass.line.pulse st.startPass.clock resetLow) (st.startPass.clock + resetDuration 0 2 8)
      (resetTrace st.startPass.clock 0 2 8) st.startPass)))) st.cfg.searchCmd 8)) = x at hsc
  have hbr := (hb.reset.1.mono (show st.clock + resetLow + 150 ≤ st.clock + resetDuration 0 2 8 by omega)).command hc le_rfl
  obtain ⟨b1, hb1, hAt⟩ := hbr
  have hxl : x.line = .bus b1 := by
    rw [← hx, ← hb1]
    simp [State.octetSent, State.indexed, State.timed, State.floated, State.counted, hl, bus_pulse_eq]
  have hxn : x.clock = st.clock + resetDuration 0 2 8 + 8 * slotWrite st.cfg := by
    rw [← hx]
    simp [State.octetSent, State.indexed, State.timed, State.floated, State.counted]
  have hPA : x.PassAt roms st.lastDisc st.rom st.cfg (st.clock + resetDuration 0 2 8 + 8 * slotWrite st.cfg) 0 := by
    refine ⟨?_, ?_, ?_, ?_, ?_, ?_, b1, hxl, ?_⟩
    · rw [← hx]; simp [State.octetSent, State.indexed, State.timed, State.floated, State.counted, hh]
    · rw [← hx]; simp [State.octetSent, State.indexed, State.timed, State.floated, State.counted, hd]
    · rw [← hx]; simp [State.octetSent, State.indexed, State.timed, State.floated, State.counted]
    · rw [← hx]; simp [State.octetSent, State.indexed, State.timed, State.floated, State.counted]
    · rw [← hx]; simp [State.octetSent, State.indexed, State.timed, State.floated, State.counted, walk]
    · rw [hxn]; simp
    · rw [hxn]
      simpa [activePhase, agrees] using hAt
  obtain ⟨y, hy, hYA, hYS⟩ := searchPositions_on_bus hc hne 64 (by omega) hPA
  obtain ⟨yh, yd, yc, yl, yw, yn, b2, yline, yAt⟩ := hYA
  have hxf : x.devices = st.devices ∧ x.devicePosition = st.devicePosition ∧ x.numDevices = st.numDevices ∧
      x.data = st.data ∧ x.presHighQ = 2#8 ∧ x.presLowQ = 8#8 ∧ x.cmd = st.cmd := by
    rw [← hx]
    simp [State.octetSent, State.indexed, State.timed, State.floated, State.counted]
  obtain ⟨x1, x2, x3, x4, x5, x6, x7⟩ := hxf
  refine ⟨(y.setPosition 64).storePass, b2, ?_, by simp [yh], by simp [yd], by simp [yc], ?_, ?_, rfl, ?_, ?_, ?_, ?_, ?_, ?_, ?_,
    ?_, ?_, ?_⟩
  · unfold searchPass
    rw [bind_ok (look_run _ _), bind_ok (upd_run _ _), bind_ok hsc]
    refine (bind_ok (pure_run _ _)).trans ?_
    exact (bind_ok hy).trans rfl
  · simpa using congrArg Prod.fst yw
  · simpa using congrArg Prod.snd yw
  · simp only [storePass_clock, setPosition_clock, yn, passDuration]
    omega
  · simpa using yline
  · simpa using yAt
  · simp [hYS.devices, hYS.devicePosition, x1, x2]
  · simp [hYS.devicePosition, x2]
  · simp [hYS.numDevices, x3]
  · simp [hYS.data, x4]
  · simp [hYS.presHighQ, x5]
  · simp [hYS.presLowQ, x6]
  · simp [hYS.cmd, x7]

end Sys2Proof.Machine
end

