-- ==== Sys2Proof/Laws/Loop.lean ====
section
/-! SUPPORT. The pass loop of a search on the reference bus: pass `k` finds the `k`-th code in the order of the key
(42_search R202, R203). -/

namespace Sys2Proof.Machine

variable {roms sorted : List Address}

/-- The codes listed in strictly ascending order of their keys. -/
structure SortedCodes (roms sorted : List Address) : Prop where
  same : ∀ x, x ∈ roms ↔ x ∈ sorted
  ascending : sorted.Pairwise fun x y => keyK x < keyK y

theorem SortedCodes.lt (h : SortedCodes roms sorted) {i j : Nat} (hi : i < j) (hj : j < sorted.length) :
    keyK (sorted[i]'(by omega)) < keyK sorted[j] :=
  List.pairwise_iff_getElem.mp h.ascending i j (by omega) hj hi

/-- The least code is the first. -/
theorem SortedCodes.least (h : SortedCodes roms sorted) {x : Address} (hx : x ∈ roms) (hmin : ∀ y ∈ roms, keyK x ≤ keyK y)
    (h0 : 0 < sorted.length) : x = sorted[0] := by
  obtain ⟨i, hi, rfl⟩ := List.mem_iff_getElem.mp ((h.same x).mp hx)
  by_cases h1 : i = 0
  · subst h1
    rfl
  · have := h.lt (show 0 < i by omega) hi
    have := hmin sorted[0] ((h.same _).mpr (List.getElem_mem h0))
    omega

/-- The next code after the `k`-th is the one after it in the list. -/
theorem SortedCodes.next (h : SortedCodes roms sorted) {x : Address} {k : Nat} (hx : x ∈ roms) (hk : k + 1 < sorted.length)
    (hgt : keyK sorted[k] < keyK x) (hmin : ∀ y ∈ roms, keyK sorted[k] < keyK y → keyK x ≤ keyK y) :
    x = sorted[k + 1] := by
  obtain ⟨i, hi, rfl⟩ := List.mem_iff_getElem.mp ((h.same x).mp hx)
  have hle := hmin sorted[k + 1] ((h.same _).mpr (List.getElem_mem hk)) (h.lt (by omega) hk)
  have h1 : ¬i ≤ k := fun hik => by
    by_cases hik' : i = k
    · subst hik'
      omega
    · have := h.lt (show i < k by omega) (by omega)
      omega
  have h2 : ¬k + 1 < i := fun hik => by
    have := h.lt hik hi
    omega
  obtain rfl : i = k + 1 := by omega
  rfl

/-- The top of the pass loop after `k` passes that began at tick `t₀` with the table `m`, `num_devices = n`, `DATA = d`: the
first `k` codes are stored, and another is known to exist. -/
structure State.LoopAt (roms sorted : List Address) (c : Config) (t₀ : Nat) (m : Memory) (n d : Byte) (k : Nat) (st : State) :
    Prop where
  host : st.host = []
  released : st.driveLow = false
  cfg : st.cfg = c
  bus : ∃ b, st.line = .bus b ∧ b.Standard c.searchCmd st.clock roms
  count : st.devicePosition = BitVec.ofNat 8 k
  capacity : k ≤ c.maxDevices
  more : k < sorted.length
  clock : st.clock = t₀ + k * passDuration c
  first : k = 0 → st.lastDisc = none
  later : ∀ j (hj : j + 1 = k), st.rom = sorted[j]'(by omega) ∧ ∃ l, st.lastDisc = some l ∧ Deepest roms st.rom 64 (some l)
  entries : ∀ j (hj : j < k), st.devices.holdsEntry j (sorted[j]'(by omega))
  others : ∀ a, ¬(0x800 ≤ a ∧ a < 0x800 + 8 * k) → st.devices.read a = m.read a
  numDevices : st.numDevices = n
  data : st.data = d
  presence : 0 < k → st.presHighQ = 2#8 ∧ st.presLowQ = 8#8

/-- How the loop ends on the reference bus. -/
structure State.LoopEnd (roms sorted : List Address) (c : Config) (t₀ : Nat) (m : Memory) (n d : Byte) (st : State) : Prop where
  found : sorted.length ≤ c.maxDevices →
    st.result = .ok ∧ st.numDevices.toNat = sorted.length ∧ st.clock = t₀ + sorted.length * passDuration c
  full : c.maxDevices < sorted.length →
    st.result = .tooManyDevices ∧ st.numDevices = n ∧ st.clock = t₀ + c.maxDevices * passDuration c
  entries : ∀ j (hj : j < sorted.length), j < c.maxDevices → st.devices.holdsEntry j sorted[j]
  others : ∀ a, ¬(0x800 ≤ a ∧ a < 0x800 + 8 * min sorted.length c.maxDevices) → st.devices.read a = m.read a
  data : st.data = d
  presence : 0 < c.maxDevices → st.presHighQ = 2#8 ∧ st.presLowQ = 8#8
  bus : ∃ b, st.line = .bus b ∧ b.Standard c.searchCmd st.clock roms

theorem holdsEntry_write_other {m : Memory} {k j : Nat} {w x : Address} (h : m.holdsEntry j x) (hjk : j ≠ k) :
    (m.writeEntry k w).holdsEntry j x := by
  intro i hi
  rw [Memory.read_writeEntry_other m w hi hjk]
  exact h i hi

theorem read_write_outside {m : Memory} {k a : Nat} {w : Address} (ha : ¬(0x800 ≤ a ∧ a < 0x800 + 8 * (k + 1))) :
    (m.writeEntry k w).read a = m.read a := by
  rw [Memory.read_writeEntry, if_neg]
  simp only [tableAddr, tableBase, Config.addrBytes]
  omega

/-- One pass from the loop's top: the next code is stored, and either it was the last or the loop's top is reached again. -/
theorem loop_pass {c : Config} {t₀ : Nat} {m : Memory} {n d : Byte} {k : Nat} {st : State} (hc : c.SuitsReferenceBus)
    (hs : SortedCodes roms sorted) (h : st.LoopAt roms sorted c t₀ m n d k) (hk : k < c.maxDevices) :
    ∃ u, searchPass.run st = .ok () u ∧
      (u.curDisc = none → k + 1 = sorted.length ∧ u.host = [] ∧ u.numDevices = n ∧ u.data = d ∧
        u.devicePosition = BitVec.ofNat 8 (k + 1) ∧ u.clock = t₀ + (k + 1) * passDuration c ∧ u.presHighQ = 2#8 ∧
        u.presLowQ = 8#8 ∧ (∃ b, u.line = .bus b ∧ b.Standard c.searchCmd u.clock roms) ∧
        (∀ j (hj : j < sorted.length), u.devices.holdsEntry j sorted[j]) ∧
        ∀ a, ¬(0x800 ≤ a ∧ a < 0x800 + 8 * (k + 1)) → u.devices.read a = m.read a) ∧
      (u.curDisc ≠ none → u.LoopAt roms sorted c t₀ m n d (k + 1)) := by
  have hmore := h.more
  have hmax := c.maxDevices_le
  have hne : roms ≠ [] := by
    rintro rfl
    exact absurd ((hs.same sorted[0]).mpr (List.getElem_mem (by omega))) (by simp)
  obtain ⟨b, hl, hb⟩ := h.bus
  have hcfg := h.cfg
  obtain ⟨u, b', hu, uh, ud, uc, ur, ucur, ulast, un, uline, ubus, udev, upos, unum, udata, uph, upl, -⟩ :=
    searchPass_on_bus (roms := roms) (by rw [hcfg]; exact hc) hne h.host h.released hl (by rw [hcfg]; exact hb)
  have hmem : u.rom ∈ roms := by rw [ur]; exact walk_mem hne
  have hdeep : Deepest roms u.rom 64 u.curDisc := by rw [ur, ucur]; exact walk_deepest hne le_rfl
  -- the code found
  have hfound : u.rom = sorted[k] := by
    cases k with
    | zero =>
      refine hs.least hmem (fun y hy => ?_) hmore
      rw [ur, h.first rfl]
      exact walk_first hy
    | succ j =>
      obtain ⟨hr, l, hlast, hD⟩ := h.later j rfl
      have ha : st.rom ∈ roms := by rw [hr]; exact (hs.same _).mpr (List.getElem_mem _)
      obtain ⟨h1, h2⟩ := walk_next ha hD
      rw [hlast] at ur
      refine hs.next hmem hmore ?_ fun y hy hlt => ?_
      · rw [ur, ← hr]
        exact h1
      · rw [ur]
        exact h2 y hy (by rw [hr]; exact hlt)
  have hcount : st.devicePosition.toNat = k := by rw [h.count, toNat_ofNat8 (by omega)]
  have hpos : u.devicePosition = BitVec.ofNat 8 (k + 1) := by rw [upos, h.count, ofNat8_succ]
  have hnow : u.clock = t₀ + (k + 1) * passDuration c := by
    rw [un, h.clock, hcfg, show (k + 1) * passDuration c = k * passDuration c + passDuration c from Nat.succ_mul _ _]
    omega
  have hent : ∀ j (hj : j < k + 1), u.devices.holdsEntry j (sorted[j]'(by omega)) := by
    intro j hj
    rw [udev, hcount, hfound]
    by_cases hjk : j = k
    · subst hjk
      exact Memory.holdsEntry_writeEntry _ _ _
    · exact holdsEntry_write_other (h.entries j (by omega)) hjk
  have hoth : ∀ a, ¬(0x800 ≤ a ∧ a < 0x800 + 8 * (k + 1)) → u.devices.read a = m.read a := by
    intro a ha
    rw [udev, hcount, read_write_outside ha]
    exact h.others a (by omega)
  have hbus' : ∃ b, u.line = .bus b ∧ b.Standard c.searchCmd u.clock roms := ⟨b', uline, by rw [← hcfg]; exact ubus.toStandard⟩
  refine ⟨u, hu, fun hnone => ?_, fun hsome => ?_⟩
  · rw [hnone] at hdeep
    have hlen : k + 1 = sorted.length := by
      by_contra hlt
      have hlt' : k + 1 < sorted.length := by omega
      have h1 := hs.lt (show k < k + 1 by omega) hlt'
      have h2 := deepest_none_last hdeep ((hs.same _).mpr (List.getElem_mem hlt'))
      rw [hfound] at h2
      omega
    exact ⟨hlen, uh, unum.trans h.numDevices, udata.trans h.data, hpos, hnow, uph, upl, hbus', fun j hj => hent j (by omega),
      hoth⟩
  · obtain ⟨l, hl'⟩ := Option.ne_none_iff_exists'.mp hsome
    rw [hl'] at hdeep
    obtain ⟨y, hy, hlt⟩ := deepest_some_not_last hdeep
    have hlen : k + 1 < sorted.length := by
      obtain ⟨i, hi, rfl⟩ := List.mem_iff_getElem.mp ((hs.same y).mp hy)
      rw [hfound] at hlt
      by_contra hnot
      by_cases hik : i = k
      · subst hik
        omega
      · have := hs.lt (show i < k by omega) hmore
        omega
    refine ⟨uh, ud, uc.trans hcfg, hbus', hpos, by omega, hlen, hnow,
      fun h0 => absurd h0 (by omega), fun j hj => ?_, hent, hoth, unum.trans h.numDevices, udata.trans h.data,
      fun _ => ⟨uph, upl⟩⟩
    obtain rfl : j = k := by omega
    exact ⟨hfound, l, ulast.trans hl', hdeep⟩

/-- The loop from its top. -/
theorem searchLoop_on_bus {c : Config} {t₀ : Nat} {m : Memory} {n d : Byte} (hc : c.SuitsReferenceBus)
    (hs : SortedCodes roms sorted) (fuel : Nat) {k : Nat} (hf : k + fuel = c.maxDevices + 1) {st : State}
    (h : st.LoopAt roms sorted c t₀ m n d k) :
    ∃ u, (searchLoop fuel).run st = .error .finished u ∧ u.LoopEnd roms sorted c t₀ m n d := by
  have hmax := c.maxDevices_le
  induction fuel generalizing k st with
  | zero => exact absurd h.capacity (by omega)
  | succ fuel ih =>
    have hmore := h.more
    have hcount : st.devicePosition.toNat = k := by rw [h.count, toNat_ofNat8 (by have := h.capacity; omega)]
    unfold searchLoop
    rw [bind_ok (look_run _ _), hcount, h.cfg]
    by_cases hk : k = c.maxDevices
    · rw [decide_eq_true hk, finishIf_true, bind_error (finish_run _ _)]
      refine ⟨_, rfl, fun hle => absurd hle (by omega), fun _ => ⟨rfl, h.numDevices, by rw [finish_clock, h.clock, hk]⟩,
        fun j hj hj' => h.entries j (by omega), fun a ha => h.others a ?_, h.data, fun h0 => h.presence (by omega),
        h.bus⟩
      rwa [Nat.min_eq_right (by omega), ← hk] at ha
    · rw [decide_eq_false hk, finishIf_false, bind_ok (pure_run _ _)]
      have hcap := h.capacity
      obtain ⟨u, hu, hlast, hagain⟩ := loop_pass hc hs h (by omega)
      rw [bind_ok hu, bind_ok (look_run _ _)]
      by_cases hcur : u.curDisc = none
      · obtain ⟨hlen, uh, unum, udata, upos, unow, uph, upl, ubus, uent, uoth⟩ := hlast hcur
        rw [decide_eq_true hcur]
        refine ⟨u.countDevices.finish .ok, rfl, fun _ => ⟨rfl, ?_, ?_⟩, fun hlt => absurd hlt (by omega), fun j hj _ => uent j hj,
          fun a ha => uoth a ?_, udata, fun _ => ⟨uph, upl⟩, ubus⟩
        · rw [finish_numDevices, countDevices_numDevices, upos, toNat_ofNat8 (by omega), hlen]
        · rw [finish_clock, countDevices_clock, unow, hlen]
        · rwa [Nat.min_eq_left (by omega), ← hlen] at ha
      · rw [decide_eq_false hcur]
        exact ih (by omega) (hagain hcur)

/-- The loop's top when SEARCH is accepted on a reference bus. -/
theorem loopAt_start {st : State} {b : Bus} (hh : st.host = []) (hd : st.driveLow = false) (hl : st.line = .bus b)
    (hb : b.Standard st.cfg.searchCmd st.clock roms) (hne : sorted ≠ []) :
    (st.startSearch).LoopAt roms sorted st.cfg st.clock st.devices st.numDevices st.data 0 where
  host := hh
  released := hd
  cfg := rfl
  bus := ⟨b, hl, hb⟩
  count := rfl
  capacity := Nat.zero_le _
  more := List.length_pos_of_ne_nil hne
  clock := by simp
  first := fun _ => rfl
  later := fun j hj => absurd hj (by omega)
  entries := fun j hj => absurd hj (by omega)
  others := fun _ _ => rfl
  numDevices := rfl
  data := rfl
  presence := fun h => absurd h (lt_irrefl 0)

end Sys2Proof.Machine
end

