-- ==== Sys2Proof/Laws/PerInstr.lean ====
section
/-! SUPPORT. Per-operation families (30_encoding R100): what holds of the command byte of every operation as the syntax gives
it. -/

namespace Sys2Proof.Laws.ZClear

/-- Bit 7 of the command byte, `Z`, is 0 (30_encoding R100), for every value the operand field can hold. -/
def Statement (i : Instr) : Prop := zField (encode i) = false

theorem resetPulse : Statement .resetPulse := rfl

theorem writeBit (value : BitVec 3) : Statement (.writeBit value) := by
  revert value
  unfold Statement
  decide

theorem readBitOr (bitPosition : BitVec 3) : Statement (.readBitOr bitPosition) := by
  revert bitPosition
  unfold Statement
  decide

theorem writeOctet : Statement .writeOctet := rfl

theorem readOctet : Statement .readOctet := rfl

theorem sendCommand : Statement .sendCommand := rfl

theorem search : Statement .search := rfl

end Sys2Proof.Laws.ZClear
end

