-- ==== Sys2Proof/Laws/Standing.lean ====
section
/-! SUPPORT. Every sequence of the block leaves a bus of standard devices such a bus (20_memory R82, R83). -/

namespace Sys2Proof.Machine

/-- The host does nothing, the line is released, and the environment is a bus of standard devices with these codes. -/
structure State.OnBus (c : Config) (roms : List Address) (st : State) : Prop where
  host : st.host = []
  released : st.driveLow = false
  cfg : st.cfg = c
  bus : ∃ b, st.line = .bus b ∧ b.Standard c.searchCmd st.clock roms

/-- `x` leaves such a state such a state, whether it goes on or ends the operation. -/
def KeepsBus {α : Type} (c : Config) (roms : List Address) (x : Op α) : Prop :=
  Triple (State.OnBus c roms) x (fun _ => State.OnBus c roms) (State.OnBus c roms)

variable {α β : Type} {c : Config} {roms : List Address}

theorem keepsBus_pure (a : α) : KeepsBus c roms (pure a : Op α) := triple_pure fun _ h => h

theorem keepsBus_bind {x : Op α} {f : α → Op β} (hx : KeepsBus c roms x) (hf : ∀ a, KeepsBus c roms (f a)) :
    KeepsBus c roms (x >>= f) := triple_bind _ hx hf

theorem keepsBus_look (f : State → α) : KeepsBus c roms (look f) := triple_look fun _ h => h

/-- The update reaches nothing of the host, the line, the time or the parameters. -/
structure OffLine (f : State → State) : Prop where
  host : ∀ st, (f st).host = st.host
  driveLow : ∀ st, (f st).driveLow = st.driveLow
  cfg : ∀ st, (f st).cfg = st.cfg
  line : ∀ st, (f st).line = st.line
  clock : ∀ st, (f st).clock = st.clock

theorem keepsBus_upd {f : State → State} (h : OffLine f) : KeepsBus c roms (upd f) := triple_upd fun st hs =>
  ⟨(h.host st).trans hs.host, (h.driveLow st).trans hs.released, (h.cfg st).trans hs.cfg, by
    rw [h.line, h.clock]
    exact hs.bus⟩

theorem keepsBus_finish (r : Result) : KeepsBus c roms (finish r) :=
  triple_finish fun _ h => ⟨h.host, h.released, h.cfg, h.bus⟩

theorem keepsBus_finishIf (b : Bool) (r : Result) : KeepsBus c roms (finishIf b r) := by
  cases b
  · exact keepsBus_pure ()
  · exact keepsBus_finish r

theorem keepsBus_ite {p : Prop} [Decidable p] {x y : Op α} (hx : KeepsBus c roms x) (hy : KeepsBus c roms y) :
    KeepsBus c roms (if p then x else y) := triple_ite (fun _ => hx) fun _ => hy

theorem keepsBus_forUp {body : Nat → Op Unit} (h : ∀ k, KeepsBus c roms (body k)) (a n : Nat) :
    KeepsBus c roms (forUp body a n) :=
  triple_forUp (I := fun _ => State.OnBus c roms) n a fun k _ _ => h k

/-- A slot of the master with a low time below a reset pulse's. -/
theorem onBus_slot {st : State} (h : st.OnBus c roms) {low n : Nat} (hl : low < slaveReset) (h30 : 30 ≤ n) (hlow : low ≤ n) :
    ∃ b, st.line.pulse st.clock low = .bus b ∧ b.Standard c.searchCmd (st.clock + n) roms := by
  obtain ⟨b, hline, hb⟩ := h.bus
  exact ⟨_, by rw [hline, bus_pulse_eq], hb.slot hl (by omega) (by omega)⟩

theorem keepsBus_writeSlot (hc : c.SuitsReferenceBus) (b : Bool) : KeepsBus c roms (writeSlot b) := by
  intro st h
  rw [writeSlot_quiet b h.host h.released]
  have h1 := (lowTime_received hc b).1
  have h2 := lowTime_le c b
  have h3 : Config.tSlot = 60 := rfl
  have h4 : slotWrite c = Config.tSlot + c.tRec := rfl
  refine ⟨h.host, h.released, h.cfg, ?_⟩
  rw [h.cfg]
  exact onBus_slot h h1 (by omega) (by omega)

/-- A read slot; `g` is what the caller makes of `DATA` at the data-sample tick. -/
theorem keepsBus_readSlot (hc : c.SuitsReferenceBus) (g : Byte → Bool → Byte) :
    KeepsBus c roms (readSlot fun x => { x with data := g x.data x.s }) := by
  intro st h
  rw [readSlot_quiet g h.host h.released]
  have h1 := suits_sample hc
  have h2 : slaveHold = 30 := rfl
  have h3 : Config.tSlot = 60 := rfl
  refine ⟨h.host, h.released, h.cfg, ?_⟩
  have := onBus_slot h (low := c.tRLow) (n := Config.tSlot) h1.1 (by omega) (by omega)
  rw [← h.cfg] at this ⊢
  exact this

/-- `ResetSeq` on such a bus: a presence pulse if there is a device, `NoDevices` if there is none. -/
theorem keepsBus_resetSeq (hc : c.SuitsReferenceBus) : KeepsBus c roms resetSeq := by
  intro st h
  obtain ⟨b, hline, hb⟩ := h.bus
  have hcfg := h.cfg
  have hq : Config.tQ = 15 := rfl
  have hr : resetLow = 600 := rfl
  have hbus : ∀ n, 750 ≤ n → ∃ b, st.line.pulse st.clock resetLow = .bus b ∧ b.Standard c.searchCmd (st.clock + n) roms := by
    intro n hn
    exact ⟨_, by rw [hline, bus_pulse_eq], (hb.reset.1.mono (show _ ≤ st.clock + n by omega)).toStandard⟩
  by_cases hne : roms = []
  · subst hne
    have hL : ∀ t, st.clock + resetLow ≤ t → st.afterReset t = true := by
      intro t ht
      unfold State.afterReset
      rw [hline, bus_pulse_eq]
      show (b.pulsed st.clock resetLow).level t = true
      rw [hb.reset.2 t ht]
      rfl
    rw [resetSeq_no_presence (f := 0) h.host h.released (Nat.zero_le _) ⟨hL _ (by omega), fun j hj => absurd hj (by omega)⟩
      fun j _ => hL _ (by unfold quarter; omega)]
    refine ⟨h.host, h.released, hcfg, ?_⟩
    have hnil : (b.pulsed st.clock resetLow).slaves = [] := by
      show b.slaves.map _ = []
      rw [List.map_eq_nil_iff.mp hb.codes]
      rfl
    refine ⟨_, by show st.line.pulse st.clock resetLow = _; rw [hline, bus_pulse_eq], { hb.reset.1.toStandard with
      up := ?_
      quiet := fun d hd => by rw [hnil] at hd; cases hd }⟩
    show st.clock + resetLow + b.rise ≤ quarter (st.clock + resetLow) 0 (st.cfg.presHighMaxQ + 1)
    rw [hb.rise]
    unfold quarter
    omega
  · have hp := presence_on_bus hline (by rw [hcfg]; exact hb) hne (by rw [hcfg]; exact hc.high) (by rw [hcfg]; exact hc.low)
    rw [resetSeq_ok h.host h.released hp]
    refine ⟨h.host, h.released, hcfg, ?_⟩
    exact hbus (resetDuration 0 2 8) (by decide)

theorem keepsBus_writeOctetSeq (hc : c.SuitsReferenceBus) (byte : Byte) : KeepsBus c roms (writeOctetSeq byte) :=
  keepsBus_bind (keepsBus_forUp (fun k => keepsBus_bind (keepsBus_upd (f := State.setI k) ⟨fun _ => rfl, fun _ => rfl,
    fun _ => rfl, fun _ => rfl, fun _ => rfl⟩) fun _ => keepsBus_writeSlot hc _) 0 8) fun _ =>
      keepsBus_upd ⟨fun _ => rfl, fun _ => rfl, fun _ => rfl, fun _ => rfl, fun _ => rfl⟩

theorem keepsBus_sendCommandSeq (hc : c.SuitsReferenceBus) (byte : Byte) : KeepsBus c roms (sendCommandSeq byte) :=
  keepsBus_bind (keepsBus_resetSeq hc) fun _ => keepsBus_ite
    (keepsBus_bind (keepsBus_writeOctetSeq hc byte) fun _ => keepsBus_pure _) (keepsBus_pure _)

theorem keepsBus_receiveBit (hc : c.SuitsReferenceBus) (k : Nat) : KeepsBus c roms (receiveBit k) :=
  keepsBus_bind (keepsBus_upd (f := State.setI k) ⟨fun _ => rfl, fun _ => rfl, fun _ => rfl, fun _ => rfl, fun _ => rfl⟩) fun _ =>
    keepsBus_bind (keepsBus_readSlot hc fun d _ => d) fun _ =>
      keepsBus_bind (keepsBus_upd ⟨fun _ => rfl, fun _ => rfl, fun _ => rfl, fun _ => rfl, fun _ => rfl⟩) fun _ =>
        keepsBus_ite (keepsBus_pure _) (keepsBus_bind
          (keepsBus_upd ⟨fun _ => rfl, fun _ => rfl, fun _ => rfl, fun _ => rfl, fun _ => rfl⟩) fun _ => keepsBus_finish _)

theorem offLine_decideBit (p : Fin 64) : OffLine (State.decideBit p) := by
  have h : ∀ st : State, ∃ b d, st.decideBit p = { st with b := b, curDisc := d } := decideBit_shape p
  constructor <;> intro st <;> obtain ⟨_, _, h⟩ := h st <;> rw [h]

theorem keepsBus_searchPosition (hc : c.SuitsReferenceBus) (p : Nat) : KeepsBus c roms (searchPosition p) :=
  keepsBus_bind (keepsBus_upd (f := State.setPosition p) ⟨fun _ => rfl, fun _ => rfl, fun _ => rfl, fun _ => rfl, fun _ => rfl⟩)
    fun _ => keepsBus_bind (keepsBus_readSlot hc fun d _ => d) fun _ =>
      keepsBus_bind (keepsBus_upd ⟨fun _ => rfl, fun _ => rfl, fun _ => rfl, fun _ => rfl, fun _ => rfl⟩) fun _ =>
        keepsBus_bind (keepsBus_finishIf _ _) fun _ => keepsBus_bind (keepsBus_readSlot hc fun d _ => d) fun _ =>
          keepsBus_bind (keepsBus_upd ⟨fun _ => rfl, fun _ => rfl, fun _ => rfl, fun _ => rfl, fun _ => rfl⟩) fun _ =>
            keepsBus_bind (keepsBus_finishIf _ _) fun _ => keepsBus_bind (keepsBus_finishIf _ _) fun _ =>
              keepsBus_bind (keepsBus_upd (offLine_decideBit _)) fun _ => keepsBus_bind (keepsBus_look _) fun _ =>
                keepsBus_bind (keepsBus_writeSlot hc _) fun _ =>
                  keepsBus_upd ⟨fun _ => rfl, fun _ => rfl, fun _ => rfl, fun _ => rfl, fun _ => rfl⟩

theorem keepsBus_searchPass (hc : c.SuitsReferenceBus) : KeepsBus c roms searchPass :=
  keepsBus_bind (keepsBus_look _) fun _ =>
    keepsBus_bind (keepsBus_upd ⟨fun _ => rfl, fun _ => rfl, fun _ => rfl, fun _ => rfl, fun _ => rfl⟩) fun _ =>
      keepsBus_bind (keepsBus_sendCommandSeq hc _) fun _ => keepsBus_bind (keepsBus_finishIf _ _) fun _ =>
        keepsBus_bind (keepsBus_forUp (keepsBus_searchPosition hc) _ _) fun _ =>
          keepsBus_bind (keepsBus_upd ⟨fun _ => rfl, fun _ => rfl, fun _ => rfl, fun _ => rfl, fun _ => rfl⟩) fun _ =>
            keepsBus_upd ⟨fun _ => rfl, fun _ => rfl, fun _ => rfl, fun _ => rfl, fun _ => rfl⟩

theorem keepsBus_searchLoop (hc : c.SuitsReferenceBus) (fuel : Nat) : KeepsBus c roms (searchLoop fuel) := by
  induction fuel with
  | zero => exact keepsBus_finish _
  | succ n ih =>
    exact keepsBus_bind (keepsBus_look _) fun _ => keepsBus_bind (keepsBus_finishIf _ _) fun _ =>
      keepsBus_bind (keepsBus_searchPass hc) fun _ => keepsBus_bind (keepsBus_look _) fun _ => keepsBus_ite
        (keepsBus_bind (keepsBus_upd ⟨fun _ => rfl, fun _ => rfl, fun _ => rfl, fun _ => rfl, fun _ => rfl⟩) fun _ =>
          keepsBus_finish _) ih

end Sys2Proof.Machine
end

