-- ==== Sys2Proof/Tests/Slice0.lean ====
section
/-! SUPPORT. Tests. Expected values are written out from spec/30_encoding, from the worked examples of the rules and from the
vectors of spec/95. The second part shows, for every statement with hypotheses, a state that meets them. -/

namespace Sys2Proof.Tests

open Sys2Proof Sys2Proof.Machine

-- One test after another: each that runs at once with others takes a thread's stack of its own.
set_option Elab.async false

/-! ### Fixtures -/

/-- An instance right after reset, in a given environment, with `DATA` set. -/
def fresh (l : LineEnv) (data : Byte) : State := { State.reset with line := l, data := data }

/-- A line with nothing on it. -/
def idleLine : LineEnv := .wave []

/-- A line shorted to ground. -/
def shorted : LineEnv := .wave [(0, false)]

/-- The reference bus with these devices. -/
def busOf (roms : List Address) : LineEnv := .bus (Bus.ofSlaves (roms.map (Slave.standard 0xF0#8)))

/-- The code of S1: bytes 11 22 33 44 55 66 77 88, byte 0 first. -/
def code1 : Address := 0x8877665544332211#64

/-- The reference instance with another capacity. -/
def capacity (n : Nat) (h : n ≤ 255) : Config := { Config.reference with maxDevices := n, maxDevices_le := h }

/-- A host action at a tick, pending. -/
def hostDoes (s : State) (k : Nat) (act : HostAct) : State := { s with host := [⟨k, act⟩] }

/-- What an operation leaves. -/
def after (i : Instr) (s : State) : State :=
  match exec i s with
  | .next t => t
  | .fault _ => s
  | .refused _ => s

/-- What one step leaves. -/
def stepped (s : State) : State :=
  match step s with
  | .next t => t
  | .fault _ => s
  | .refused _ => s

/-! ### Well-formedness and decoding -/

theorem test_wf_refuses_writeBit_of_two : (Instr.writeBit 2#3).wf = false := by decide

theorem test_wf_refuses_writeBit_of_seven : (Instr.writeBit 7#3).wf = false := by decide

theorem test_wf_accepts_all_positions : ∀ p, (Instr.readBitOr p).wf = true := by decide

theorem test_decode_resetPulse : decode 0b0_000_0001#8 = .ok .resetPulse := by decide

theorem test_decode_writeBit : decode 0b0_001_0010#8 = .ok (.writeBit 1#3) := by decide

theorem test_decode_readBitOr : decode 0b0_110_0011#8 = .ok (.readBitOr 6#3) := by decide

theorem test_decode_writeOctet : decode 0b0_000_0100#8 = .ok .writeOctet := by decide

theorem test_decode_readOctet : decode 0b0_000_0101#8 = .ok .readOctet := by decide

theorem test_decode_sendCommand : decode 0b0_000_0110#8 = .ok .sendCommand := by decide

theorem test_decode_search : decode 0b0_000_0111#8 = .ok .search := by decide

theorem test_decode_refuses : decode 0x00#8 = .error .reservedOp ∧ decode 0x22#8 = .error .argNotBit ∧
    decode 0x14#8 = .error .argNotZero ∧ decode 0x83#8 = .error .zSet := by decide

theorem test_decodeTableWord : decodeTableWord 8 0x53 = some (.readBitOr 5#3) ∧ decodeTableWord 8 0x42 = none := by decide

theorem test_fetch : step (State.reset.withFetchWord 8 0x02) =
    exec (.writeBit 0#3) { State.reset with host := [] } := rfl

/-! ### One operation each (95 V6 to V24, and the worked examples of the rules) -/

/-- 40_timeslot R134's example: low during ticks 1000 to 1004, finishes at 1075. -/
theorem test_writeBit_one :
    let t := after (.writeBit 1#3) { fresh idleLine 0#8 with clock := 1000 }
    t.trace = [(1005, .release), (1000, .drive)] ∧ t.clock = 1075 ∧ t.result = .ok := by decide +kernel

/-- R131: a 0 is low for the whole slot. -/
theorem test_writeBit_zero :
    (after (.writeBit 0#3) (fresh idleLine 0#8)).trace = [(60, .release), (0, .drive)] := by decide +kernel

/-- R135's example: READ_BIT_OR 3 on an idle bus sets bit 3. -/
theorem test_readBitOr_idle :
    let t := after (.readBitOr 3#3) (fresh (busOf []) 0x00#8)
    t.data = 0x08#8 ∧ t.result = .ok ∧ t.clock = 60 := by decide +kernel

/-- V9: on a shorted line the slot ends low, and a bit that is 1 stays 1. -/
theorem test_readBitOr_shorted :
    let t := after (.readBitOr 7#3) (fresh shorted 0x80#8)
    t.data = 0x80#8 ∧ t.result = .commError ∧ t.clock = 60 := by decide +kernel

/-- R161's example: one standard device. -/
theorem test_resetPulse_presence :
    let t := after .resetPulse (fresh (busOf [code1]) 0#8)
    t.result = .ok ∧ t.presHighQ = 2#8 ∧ t.presLowQ = 8#8 ∧ t.clock = 1080 := by decide +kernel

/-- V11: nobody answers. -/
theorem test_resetPulse_absent :
    let t := after .resetPulse (fresh (busOf []) 0#8)
    t.result = .noDevices ∧ t.presHighQ = 91#8 ∧ t.presLowQ = 0#8 ∧ t.clock = 1965 := by decide +kernel

/-- R163's example: 0xF0 is sent as four 0 and four 1. -/
theorem test_writeOctet_lsb_first :
    let t := after .writeOctet (fresh idleLine 0xF0#8)
    t.trace.filter (fun e => e.2 = .release) =
      [(530, .release), (455, .release), (380, .release), (305, .release),
        (285, .release), (210, .release), (135, .release), (60, .release)] ∧ t.clock = 600 := by decide +kernel

/-- R166's example: an idle bus reads 0xFF, whatever `DATA` was. -/
theorem test_readOctet_idle :
    let t := after .readOctet (fresh (busOf []) 0x5A#8)
    t.data = 0xFF#8 ∧ t.result = .ok ∧ t.clock = 480 := by decide +kernel

/-- R166: the first slot that ends low ends the operation. -/
theorem test_readOctet_aborts :
    let t := after .readOctet (fresh (.wave [(100, false)]) 0#8)
    t.result = .commError ∧ t.clock = 120 := by decide +kernel

/-- R167's example: 1080 ticks of reset sequence and 600 of octet. -/
theorem test_sendCommand :
    let t := after .sendCommand (fresh (busOf [code1]) 0xF0#8)
    t.result = .ok ∧ t.clock = 1680 ∧ t.data = 0xF0#8 := by decide +kernel

/-- R168: the reset sequence's failure is propagated, no slot is written. -/
theorem test_sendCommand_absent :
    let t := after .sendCommand (fresh (busOf []) 0xCC#8)
    t.result = .noDevices ∧ t.clock = 1965 := by decide +kernel

/-- R191: no capacity. -/
theorem test_search_no_capacity :
    let t := after .search { fresh (busOf [code1]) 0#8 with cfg := capacity 0 (by decide) }
    t.result = .tooManyDevices ∧ t.clock = 0 ∧ t.trace = [] := by decide +kernel

/-- 95 S1, V36: one device, one pass of 14160 ticks. -/
theorem test_search_one_device :
    let t := after .search (fresh (busOf [code1]) 0#8)
    t.result = .ok ∧ t.clock = 14160 ∧ t.numDevices = 1#8 ∧ t.devices.read 0x800 = some 0x11#8 ∧
      t.devices.read 0x807 = some 0x88#8 := by decide +kernel

/-! ### Host accesses -/

theorem test_illegal_command : (stepped (hostDoes State.reset 9 (.write 0x000#12 0x08#8))).ill = true := by decide +kernel

theorem test_read_status_of_ill :
    (stepped { hostDoes State.reset 9 (.read 0x002#12) with ill := true }).answers = [⟨9, 0x002#12, 0x02#8⟩] := by
  decide +kernel

/-- 70 R270: a write while reset is asserted has no effect, `ILL` included; after the release one has. -/
theorem test_reset_is_held :
    let h := { State.reset with host := [⟨5, .hwReset⟩, ⟨6, .write 1#12 0x5A#8⟩, ⟨7, .write 0#12 0xFF#8⟩, ⟨8, .hwRelease⟩,
      ⟨9, .write 1#12 0xA5#8⟩] }
    let t3 := stepped (stepped (stepped h))
    let t5 := stepped (stepped t3)
    t3.data = 0#8 ∧ t3.ill = false ∧ t3.now = 0 ∧ t5.data = 0xA5#8 ∧ t5.now = 1 := by decide +kernel

/-- 70 R271: at tick 700 of a RESET_PULSE the line is already released; at tick 300 the reset releases it. -/
theorem test_reset_stops_the_pulse :
    let t := after .resetPulse { fresh idleLine 0#8 with host := [⟨300, .hwReset⟩] }
    t.trace = [(300, .release), (0, .drive)] ∧ t.busy = false ∧ t.result = .ok ∧ t.clock = 300 := by decide +kernel

/-! ### Witnesses: every statement's hypotheses can be met -/

theorem ready_of {s : State} (h1 : s.busy = false) (h2 : s.driveLow = false) (h3 : s.resetIn = false) (h4 : s.host = []) :
    s.Ready := ⟨h1, h2, h3, fun e he => by rw [h4] at he; cases he⟩

theorem fresh_ready (l : LineEnv) (d : Byte) : (fresh l d).Ready := ready_of rfl rfl rfl rfl

theorem witness_DecodeAndEncodeAgree :
    (Instr.writeBit 1#3).wf = true ∧ (Instr.readBitOr 7#3).wf = true ∧ decode 0x73#8 = .ok (.readBitOr 7#3) := by decide

theorem witness_HardwareResetWhileIdle :
    let s := hostDoes State.reset 0 .hwReset
    s.busy = false ∧ s.host = ⟨0, .hwReset⟩ :: [] := by decide

/-- On an idle line: at the last tick before RESET_PULSE's finish, behind a read and a refused write; and at the tick of
WRITE_BIT's acceptance. -/
theorem witness_HardwareResetStopsTheOperation :
    (let pre : List HostEvent := [⟨5, .read 2#12⟩, ⟨650, .write 1#12 0x5A#8⟩]
     let s := { fresh idleLine 0#8 with host := pre ++ HostEvent.mk 1964 .hwReset :: [] }
     let u := after .resetPulse { s with host := [] }
     s.busy = false ∧ s.resetIn = false ∧ (∀ x ∈ pre, x.act ≠ .hwReset) ∧ s.clock < u.clock ∧
       ∀ x ∈ pre ++ [HostEvent.mk 1964 .hwReset], x.tick < u.clock) ∧
    (let u := after (.writeBit 1#3) (fresh idleLine 0#8)
     (fresh idleLine 0#8).clock < u.clock ∧ 0 < u.clock) := by decide +kernel

theorem witness_StepRunsTheCommandWritten :
    let s := hostDoes State.reset 3 (.write 0#12 0x12#8)
    s.busy = false ∧ s.resetIn = false ∧ s.host = ⟨3, .write 0#12 0x12#8⟩ :: [] ∧ decode 0x12#8 = .ok (.writeBit 1#3) := by decide

/-- An operation in a `Wait`, a host action pending. -/
def waiting (n k : Nat) (act : HostAct) : State :=
  { hostDoes State.reset k act with busy := true, seq := [.wait n, .release] }

theorem witness_IllegalByteOnlySetsIll :
    (∀ w ∈ [0x00#8, 0x08#8, 0x22#8, 0x11#8, 0x80#8, 0xFF#8], legal w = false) ∧
    (let s := hostDoes State.reset 3 (.write 0#12 0x08#8)
     s.busy = false ∧ s.resetIn = false) ∧
    (let s := waiting 5 4 (.write 0#12 0x08#8)
     s.busy = true ∧ s.seq = .wait 5 :: [.release] ∧ 4 < s.clock + 5) := by decide

theorem witness_WritesWhileBusyAreRefused :
    ∀ a ∈ [0#12, 1#12, 2#12, 0xFFF#12],
      let s := waiting 5 4 (.write a 0x01#8)
      s.busy = true ∧ s.seq = .wait 5 :: [.release] ∧ s.host = ⟨4, .write a 0x01#8⟩ :: [] ∧ 4 < s.clock + 5 := by decide

theorem witness_ReadsWhileBusy :
    ∀ a ∈ [0#12, 2#12, 7#12, 8#12, 0xFFF#12],
      let s := waiting 5 0 (.read a)
      s.busy = true ∧ s.seq = .wait 5 :: [.release] ∧ s.host = ⟨0, .read a⟩ :: [] ∧ 0 < s.clock + 5 := by decide

theorem witness_RegistersReadWhileIdle :
    ∀ n ∈ List.range 8,
      let a : HostAddr := BitVec.ofNat 12 n
      let s := hostDoes State.reset 2 (.read a)
      s.busy = false ∧ s.host = ⟨2, .read a⟩ :: [] ∧ a.toNat < 8 ∧ a.toNat = n := by decide

/-- The last byte of the last entry of the largest table, and the first entry at `num_devices`. -/
theorem witness_TableWindowReads :
    let s := { hostDoes State.reset 2 (.read 0xFF7#12) with
      cfg := capacity 255 (by decide), numDevices := 255#8, devices := Memory.writeEntry [] 254 code1 }
    s.busy = false ∧ 254 < s.numDevices.toNat ∧ 254 < s.cfg.maxDevices ∧ (0xFF7#12).toNat = 0x800 + 8 * 254 + 7 ∧
      s.devices.holdsEntry 254 code1 ∧
      (let s := hostDoes State.reset 2 (.read 0x800#12)
       s.busy = false ∧ s.numDevices.toNat ≤ 0 ∧ 0 < s.cfg.maxDevices ∧ (0x800#12).toNat = 0x800 + 8 * 0 + 0) := by
  unfold Memory.holdsEntry
  decide +kernel

theorem witness_ReservedAddressesReadZero :
    (∀ a ∈ [0x008#12, 0x7FF#12], 8 ≤ a.toNat ∧ a.toNat < 0x800) ∧
    (∀ a ∈ [0x820#12, 0xFFF#12], 8 ≤ a.toNat ∧ 0x800 + 8 * State.reset.cfg.maxDevices ≤ a.toNat) ∧
    (hostDoes State.reset 2 (.read 0x820#12)).busy = false := by decide

theorem witness_WritesWhileIdle :
    ∀ a ∈ [1#12, 2#12, 0xFFF#12],
      let s := hostDoes State.reset 2 (.write a 0x5A#8)
      s.busy = false ∧ s.resetIn = false ∧ s.host = ⟨2, .write a 0x5A#8⟩ :: [] ∧ a.toNat ≠ 0 := by decide

theorem witness_NothingHappensUnasked : State.reset.busy = false ∧ State.reset.host = [] := by decide

theorem witness_DrivenLineReadsLow :
    ∃ s t : State, s.driveLow = true ∧ sample.run s = .ok false t := ⟨State.reset.driveLine, _, rfl, rfl⟩

theorem witness_WriteBitWaveform : State.reset.Ready ∧ (0#3).toNat < 2 ∧ (1#3).toNat < 2 :=
  ⟨fresh_ready .any 0#8, by decide, by decide⟩

theorem witness_ReadBitOrResult : (fresh idleLine 0#8).Ready ∧ (fresh shorted 0xFF#8).Ready :=
  ⟨fresh_ready _ _, fresh_ready _ _⟩

theorem witness_WriteOctetWaveform : (fresh idleLine 0xA5#8).Ready := fresh_ready _ _

theorem witness_ReadOctetAssemblesTheSamples :
    let s := fresh idleLine 0xA5#8
    s.Ready ∧ ∀ k < 8, s.line.readEnd s.cfg s.clock k = true := ⟨fresh_ready _ _, by decide +kernel⟩

/-- The first slot fails, and the last. -/
theorem witness_ReadOctetAbortsAtTheFirstLowEnd :
    (let s := fresh shorted 0#8
     s.Ready ∧ s.line.readEnd s.cfg s.clock 0 = false) ∧
    (let s := fresh (.wave [(470, false)]) 0#8
     s.Ready ∧ (∀ k < 7, s.line.readEnd s.cfg s.clock k = true) ∧ s.line.readEnd s.cfg s.clock 7 = false) :=
  ⟨⟨fresh_ready _ _, by decide +kernel⟩, fresh_ready _ _, by decide +kernel⟩

/-- The state of the `Ok` reset sequences. -/
theorem presence_of {l : LineEnv} {f h w : Nat}
    (hf : ((fresh l 0#8).afterReset (600 + f) = true ∧ ∀ j < f, (fresh l 0#8).afterReset (600 + j) = false) ∧ f ≤ 120)
    (hh : (1 ≤ h ∧ (fresh l 0#8).afterReset (quarter 600 f h) = false ∧
      ∀ j < h, (fresh l 0#8).afterReset (quarter 600 f j) = true) ∧ h ≤ 90)
    (hw : (1 ≤ w ∧ (fresh l 0#8).afterReset (quarter 600 f (h + w)) = true ∧
      ∀ j < w, (fresh l 0#8).afterReset (quarter 600 f (h + j)) = false) ∧ 3 ≤ w ∧ w ≤ 32) :
    (fresh l 0#8).Presence f h w := ⟨hf.1, hh.1, hw.1, hf.2, hh.2, hw.2.2, hw.2.1⟩

/-- The narrowest and a late presence pulse, and a standard device. -/
theorem witness_ResetPulseFindsPresence :
    (fresh (busOf [code1]) 0#8).Presence 0 2 8 ∧
    (fresh (.wave [(0, false), (720, true), (735, false), (780, true)]) 0#8).Presence 120 1 3 :=
  ⟨presence_of (by decide +kernel) (by decide +kernel) (by decide +kernel),
    presence_of (by decide +kernel) (by decide +kernel) (by decide +kernel)⟩

theorem witness_ResetPulseOnAShortedLine :
    let s := fresh shorted 0#8
    s.Ready ∧ ∀ j ≤ s.cfg.floatTimeoutUs, s.afterReset (s.clock + 600 + j) = false :=
  ⟨fresh_ready _ _, by decide +kernel⟩

theorem witness_ResetPulseWithoutPresence :
    let s := fresh idleLine 0#8
    s.Ready ∧ 0 ≤ s.cfg.floatTimeoutUs ∧ floatsAt s.afterReset (s.clock + 600) 0 ∧
      ∀ j ≤ s.cfg.presHighMaxQ, s.afterReset (s.clock + 600 + 0 + 15 * j) = true :=
  ⟨fresh_ready _ _, by decide, by unfold floatsAt; decide +kernel, by decide +kernel⟩

theorem witness_ResetPulseWithAStuckSlave :
    let s := fresh (.wave [(615, false)]) 0#8
    s.Ready ∧ 0 ≤ s.cfg.floatTimeoutUs ∧ floatsAt s.afterReset (s.clock + 600) 0 ∧ 1 ≤ s.cfg.presHighMaxQ ∧
      highFor s.afterReset (s.clock + 600) 0 1 ∧
      ∀ j ≤ s.cfg.presLowMaxQ, s.afterReset (s.clock + 600 + 0 + 15 * (1 + j)) = false :=
  ⟨fresh_ready _ _, by decide, by unfold floatsAt; decide +kernel, by decide, by unfold highFor; decide +kernel,
    by decide +kernel⟩

theorem witness_ResetPulseRejectsAShortPulse :
    let s := fresh (.wave [(615, false), (645, true)]) 0#8
    s.Ready ∧ 0 ≤ s.cfg.floatTimeoutUs ∧ floatsAt s.afterReset (s.clock + 600) 0 ∧ 1 ≤ s.cfg.presHighMaxQ ∧
      highFor s.afterReset (s.clock + 600) 0 1 ∧ lowFor s.afterReset (s.clock + 600) 0 1 2 :=
  ⟨fresh_ready _ _, by decide, by unfold floatsAt; decide +kernel, by decide, by unfold highFor; decide +kernel,
    by unfold lowFor; decide +kernel⟩

theorem witness_SendCommandSendsData :
    ∃ s : State, s.Ready ∧ s.Presence 0 2 8 := ⟨_, fresh_ready _ _, witness_ResetPulseFindsPresence.1⟩

theorem witness_SendCommandPropagatesResetFailure :
    ∃ t, (fresh shorted 0#8).Ready ∧ exec .resetPulse (fresh shorted 0#8) = .next t ∧ t.result ≠ .ok :=
  ⟨_, fresh_ready _ _, rfl, by decide +kernel⟩

/-- Each clause: the sequence, an operation, and a SEARCH of a table too small. -/
theorem witness_OkPresenceIsAtLeastThreeQuarters :
    (∃ t, (fresh (busOf [code1]) 0#8).noHwReset ∧ resetSeq.run (fresh (busOf [code1]) 0#8) = .ok .ok t) ∧
    (∃ t, (fresh (busOf [code1]) 0#8).Ready ∧ exec .sendCommand (fresh (busOf [code1]) 0#8) = .next t ∧ t.result = .ok) ∧
    (let s := { fresh (busOf [1#64, 2#64]) 0#8 with cfg := capacity 1 (by decide) }
     s.Ready ∧ 0 < s.cfg.maxDevices ∧ (after .search s).result = .tooManyDevices) := by
  refine ⟨⟨_, (fresh_ready _ _).noReset, resetSeq_ok rfl rfl witness_ResetPulseFindsPresence.1⟩,
    ⟨_, fresh_ready _ _, rfl, by decide +kernel⟩, ready_of rfl rfl rfl rfl, by decide, by decide +kernel⟩

/-- A fresh bus of standard devices. -/
theorem standard_bus (roms : List Address) : (Bus.ofSlaves (roms.map (Slave.standard 0xF0#8))).Standard 0xF0#8 0 roms := by
  refine ⟨rfl, rfl, le_rfl, ?_, ?_, ?_⟩
  · show (roms.map (Slave.standard 0xF0#8)).map Slave.rom = roms
    rw [List.map_map]
    exact List.map_id roms
  all_goals
    intro d hd
    obtain ⟨x, -, rfl⟩ := List.mem_map.mp hd
  · exact ⟨rfl, rfl, rfl, rfl, rfl⟩
  · exact fun x hx => by cases hx

/-- A bus an earlier operation left: one device inside a search, one silenced, each with a pull in the past. -/
def usedBus : Bus where
  slaves := [{ Slave.standard 0xF0#8 1#64 with phase := .compl 3, pulls := [(10, 40)] },
    { Slave.standard 0xF0#8 2#64 with pulls := [(5, 35)] }]
  fall := 10
  up := 12
  rise := 0
  stuckLow := false

theorem usedBus_standard : usedBus.Standard 0xF0#8 100 [1#64, 2#64] := by
  refine ⟨rfl, rfl, by decide, rfl, ?_, ?_⟩ <;> intro d hd <;> rcases hd with _ | ⟨_, _ | ⟨_, hd⟩⟩
  · exact ⟨rfl, rfl, rfl, rfl, rfl⟩
  · exact ⟨rfl, rfl, rfl, rfl, rfl⟩
  · cases hd
  · unfold Slave.Quiet
    decide
  · unfold Slave.Quiet
    decide
  · cases hd

/-- The block at tick 100 on the used bus. -/
def onUsedBus : State := { fresh (.bus usedBus) 0#8 with clock := 100 }

theorem onUsedBus_ready : onUsedBus.Ready := ready_of rfl rfl rfl rfl

theorem witness_ReferenceBusAnswersReset :
    ((fresh (busOf [code1, 2#64]) 0#8).Ready ∧ (fresh (busOf [code1, 2#64]) 0#8).cfg = Config.reference ∧
      (Bus.ofSlaves ([code1, 2#64].map (Slave.standard 0xF0#8))).Standard 0xF0#8 0 [code1, 2#64]) ∧
    onUsedBus.Ready ∧ usedBus.Standard onUsedBus.cfg.searchCmd onUsedBus.clock [1#64, 2#64] :=
  ⟨⟨fresh_ready _ _, rfl, standard_bus _⟩, onUsedBus_ready, usedBus_standard⟩

theorem witness_EmptyReferenceBusIsAbsent :
    (fresh (busOf []) 0#8).Ready ∧ (Bus.ofSlaves []).Standard 0xF0#8 0 [] := ⟨fresh_ready _ _, standard_bus []⟩

theorem witness_SearchWithoutCapacity :
    ∃ s : State, s.Ready ∧ s.cfg.maxDevices = 0 :=
  ⟨{ fresh .any 0#8 with cfg := capacity 0 (by decide) }, ready_of rfl rfl rfl rfl, rfl⟩

theorem witness_CollisionResolution :
    (∃ l : Fin 64, (4 : Fin 64) < l) ∧ (∃ p : Fin 64, p = 63) ∧ ∃ l : Fin 64, l < (63 : Fin 64) := by decide

/-- One state for each case: the first slot low at its end, the second, no device, an unambiguous pair, a collision. -/
theorem witness_OnePositionOfAPass :
    let v (l : LineEnv) := l.readBit Config.reference 0 0
    let c (l : LineEnv) := l.readBit Config.reference 0 1
    let e1 (l : LineEnv) := l.readEnd Config.reference 0 0
    let e2 (l : LineEnv) := l.readEnd Config.reference 0 1
    e1 shorted = false ∧ (e1 (.wave [(100, false)]) = true ∧ e2 (.wave [(100, false)]) = false) ∧
      (e1 idleLine = true ∧ e2 idleLine = true ∧ v idleLine = true ∧ c idleLine = true) ∧
      (let l := LineEnv.wave [(5, false), (30, true)]
       e1 l = true ∧ e2 l = true ∧ v l = false ∧ c l = true) ∧
      (let l := LineEnv.wave [(5, false), (30, true), (65, false), (90, true)]
       e1 l = true ∧ e2 l = true ∧ v l = false ∧ c l = false) := by decide +kernel

theorem witness_SearchOutcomes :
    (fresh (busOf [code1]) 0#8).Ready ∧ (after .search (fresh (busOf [code1]) 0#8)).result = .ok ∧
      (after .search (fresh shorted 0#8)).result = .commError ∧
      (after .search { fresh (busOf [1#64, 2#64]) 0#8 with cfg := capacity 1 (by decide) }).result = .tooManyDevices :=
  ⟨fresh_ready _ _, by decide +kernel, by decide +kernel, by decide +kernel⟩

theorem reference_suits : Config.reference.SuitsReferenceBus := ⟨by decide, by decide, by decide, by decide⟩

/-- Two devices listed against their order, as in 95 V30, on a fresh bus and on a used one. -/
theorem witness_SearchEnumeratesTheBus :
    (fresh (busOf [1#64, 2#64]) 0#8).Ready ∧ Config.reference.SuitsReferenceBus ∧
      (Bus.ofSlaves ([1#64, 2#64].map (Slave.standard 0xF0#8))).Standard 0xF0#8 0 [1#64, 2#64] ∧
      [1#64, 2#64].Perm [2#64, 1#64] ∧ [2#64, 1#64].Pairwise (fun x y => keyK x < keyK y) ∧
      [2#64, 1#64].length ≤ Config.reference.maxDevices ∧ onUsedBus.Ready ∧
      usedBus.Standard onUsedBus.cfg.searchCmd onUsedBus.clock [1#64, 2#64] :=
  ⟨fresh_ready _ _, reference_suits, standard_bus _, List.Perm.swap _ _ _, by decide +kernel, by decide, onUsedBus_ready,
    usedBus_standard⟩

/-- A second search follows the first, at once and with `DATA` rewritten. -/
theorem witness_SearchIsIdempotent :
    ∃ t u : State, onUsedBus.Ready ∧ exec .search onUsedBus = .next t ∧ u.Ready ∧ u.cfg = t.cfg ∧ u.line = t.line ∧
      t.clock ≤ u.clock ∧ u.devices = t.devices ∧ u.numDevices = t.numDevices := by
  obtain ⟨t, ht⟩ : ∃ t, exec .search onUsedBus = .next t := ⟨_, rfl⟩
  exact ⟨t, { t with data := 0x5A#8, host := [], busy := false, driveLow := false, resetIn := false }, onUsedBus_ready, ht,
    ready_of rfl rfl rfl rfl, rfl, rfl, le_rfl, rfl, rfl⟩

theorem witness_SearchOverflowsInOrder :
    ∃ s : State, s.Ready ∧ s.cfg.SuitsReferenceBus ∧ s.line = busOf [1#64, 2#64] ∧
      (Bus.ofSlaves ([1#64, 2#64].map (Slave.standard 0xF0#8))).Standard s.cfg.searchCmd s.clock [1#64, 2#64] ∧
      [1#64, 2#64].Perm [2#64, 1#64] ∧ [2#64, 1#64].Pairwise (fun x y => keyK x < keyK y) ∧
      s.cfg.maxDevices < [2#64, 1#64].length :=
  ⟨{ fresh (busOf [1#64, 2#64]) 0#8 with cfg := capacity 1 (by decide) }, ready_of rfl rfl rfl rfl,
    ⟨by decide, by decide, by decide, by decide⟩, rfl, standard_bus _, List.Perm.swap _ _ _, by decide +kernel,
    by decide⟩

theorem witness_SearchFindsTheSingleDevice :
    (fresh (busOf [code1]) 0#8).Ready ∧ Config.reference.SuitsReferenceBus ∧
      (Bus.ofSlaves ([code1].map (Slave.standard 0xF0#8))).Standard 0xF0#8 0 [code1] ∧
      1 ≤ Config.reference.maxDevices := ⟨fresh_ready _ _, reference_suits, standard_bus _, by decide⟩

theorem witness_SearchForgetsThePast :
    let s := fresh (busOf [code1]) 0#8
    let s' := { fresh (busOf [code1]) 0x5A#8 with rom := code1, lastDisc := some 3, presHighQ := 7#8 }
    s.Ready ∧ s'.Ready ∧ s.cfg = s'.cfg ∧ s.clock = s'.clock ∧ s.line = s'.line ∧
      ∃ t t', exec .search s = .next t ∧ exec .search s' = .next t' :=
  ⟨fresh_ready _ _, ready_of rfl rfl rfl rfl, rfl, rfl, rfl, _, _, rfl, rfl⟩

theorem witness_EveryOperationEndsReleased :
    State.reset.busy = false ∧ State.reset.resetIn = false ∧ State.reset.driveLow = false := by decide

/-- For every operation: a state from which it runs. -/
theorem witness_of_run (i : Instr) : ∃ t, (fresh .any 0#8).Ready ∧ exec i (fresh .any 0#8) = .next t := by
  cases i <;> exact ⟨_, fresh_ready .any 0#8, rfl⟩

theorem witness_ResultsByOperation : ∃ i t, (fresh .any 0#8).Ready ∧ exec i (fresh .any 0#8) = .next t :=
  ⟨_, witness_of_run .search⟩

theorem witness_DurationsAreBounded : ∃ i t, (fresh .any 0#8).Ready ∧ exec i (fresh .any 0#8) = .next t :=
  ⟨_, witness_of_run .sendCommand⟩

theorem witness_CommandStaysLatched : ∃ i t, (fresh .any 0#8).Ready ∧ exec i (fresh .any 0#8) = .next t :=
  ⟨_, witness_of_run (.readBitOr 7#3)⟩

theorem witness_OnlySearchWritesTheTable :
    ∃ i t, i ≠ .search ∧ (fresh .any 0#8).Ready ∧ exec i (fresh .any 0#8) = .next t :=
  ⟨_, _, by decide, (witness_of_run .readOctet).choose_spec⟩

theorem witness_DataIsKept :
    ∀ i ∈ [Instr.resetPulse, .writeBit 1#3, .writeOctet, .sendCommand, .search],
      ∃ t, (fresh .any 0#8).Ready ∧ exec i (fresh .any 0#8) = .next t := fun i _ => witness_of_run i

theorem witness_PresenceCountersAreKept :
    ∀ i ∈ [Instr.writeBit 1#3, .readBitOr 7#3, .writeOctet, .readOctet],
      ∃ t, (fresh .any 0#8).Ready ∧ exec i (fresh .any 0#8) = .next t := fun i _ => witness_of_run i

theorem witness_IllIsSticky :
    ∃ s t : State, s.noHwReset ∧ s.ill = true ∧ step s = .next t :=
  ⟨{ hostDoes State.reset 2 (.write 0#12 0x01#8) with ill := true }, _, by unfold State.noHwReset; decide, rfl, rfl⟩

/-- A command, with a refusable write before its finish at tick 77 that never comes and a write of the next command's
operand after it. -/
theorem witness_IllIsSetByRefusalsOnly :
    ∃ (s t : State) (e : HostEvent) (es : List HostEvent), s.busy = false ∧ s.ill = false ∧ s.host = e :: es ∧
      (∀ a w, e.act = .write a w → a.toNat = 0 → legal w = true) ∧ step s = .next t ∧ e.act.writesCommand = true ∧
      (∀ x ∈ es, x.tick < t.clock → x.act.writesCommandOrData = false) ∧ ∃ x ∈ es, x.act.writesCommandOrData = true := by
  refine ⟨{ State.reset with host := [⟨2, .write 0#12 0x12#8⟩, ⟨9, .read 1#12⟩, ⟨77, .write 1#12 0x5A#8⟩] }, _,
    ⟨2, .write 0#12 0x12#8⟩, [⟨9, .read 1#12⟩, ⟨77, .write 1#12 0x5A#8⟩], rfl, rfl, rfl, ?_, rfl, by decide, ?_, by decide⟩
  · intro a w h _
    cases h
    decide
  · decide +kernel

theorem witness_ParametersNeverChange : ∃ t, step (hostDoes State.reset 2 (.write 0#12 0x07#8)) = .next t := ⟨_, rfl⟩

/-- An operation with a refused write and a read during it. -/
theorem witness_HostCannotDisturbAnOperation :
    ∃ (s t u : State), s.Ready ∧ exec .readOctet s = .next t ∧ exec .readOctet { s with host := [] } = .next u ∧
      s.host ≠ [] :=
  ⟨{ fresh idleLine 0#8 with host := [⟨5, .write 1#12 0x5A#8⟩, ⟨9, .read 1#12⟩] }, _, _,
    ⟨rfl, rfl, rfl, by unfold State.noHwReset; decide⟩, rfl, rfl, by decide⟩

theorem witness_SequencerRunsTheOperation :
    ∃ t, State.reset.busy = false ∧ State.reset.resetIn = false ∧ exec .search State.reset = .next t := ⟨_, rfl, rfl, rfl⟩

/-- A state of a run with one device in its table. -/
def oneFound : State :=
  { fresh (busOf [code1]) 0#8 with numDevices := 1#8, devices := Memory.writeEntry [] 0 code1 }

theorem witness_InvariantIsKept : ∃ s t : State, s.Inv ∧ s.host ≠ [] ∧ step s = .next t := by
  refine ⟨hostDoes oneFound 3 (.read 0x800#12), _, ⟨rfl, rfl, rfl, by decide, by decide +kernel, ?_, ?_, fun h => by cases h⟩, by decide,
    rfl⟩
  · show ∀ cell ∈ Memory.writeEntry [] 0 code1, _
    decide +kernel
  · intro k j hk hj
    have : k = 0 := by
      have h1 : (1#8).toNat = 1 := rfl
      have h2 : k < (1#8).toNat := hk
      omega
    subst this
    have : ∀ j < 8, ((Memory.writeEntry [] 0 code1).read (tableAddr 0 j)).isSome = true := by decide +kernel
    exact this j hj

theorem witness_HardwareResetIsHeld :
    ∀ act ∈ [HostAct.read 1#12, .write 0#12 0x01#8, .hwReset, .hwRelease],
      let s := { hostDoes State.reset 2 act with resetIn := true }
      s.busy = false ∧ s.resetIn = true ∧ s.host = ⟨2, act⟩ :: [] ∧ s.data = 0#8 ∧ s.now = 0 := by decide

/-- A pass that completes, and one that ends the search. -/
theorem witness_PassStoresItsRom :
    (∃ t, (fresh (busOf [code1]) 0#8).noHwReset ∧ searchPass.run (fresh (busOf [code1]) 0#8) = .ok () t) ∧
    ∃ e t, (fresh (busOf []) 0#8).noHwReset ∧ searchPass.run (fresh (busOf []) 0#8) = .error e t := by
  refine ⟨?_, ?_⟩
  rotate_left
  · have h : (match searchPass.run (fresh (busOf []) 0#8) with
        | .ok _ _ => false
        | .error _ _ => true) = true := by decide +kernel
    split at h
    · cases h
    · next e t he => exact ⟨e, t, (fresh_ready _ _).noReset, he⟩
  obtain ⟨u, -, hu, -⟩ := searchPass_on_bus (roms := [code1]) (st := fresh (busOf [code1]) 0#8) reference_suits (by decide) rfl rfl
    rfl (standard_bus _)
  exact ⟨u, (fresh_ready _ _).noReset, hu⟩

theorem witness_StandardBusStaysStandard :
    ∃ t, onUsedBus.Ready ∧ onUsedBus.cfg.SuitsReferenceBus ∧ usedBus.Standard onUsedBus.cfg.searchCmd onUsedBus.clock [1#64, 2#64] ∧
      exec .readOctet onUsedBus = .next t := ⟨_, onUsedBus_ready, reference_suits, usedBus_standard, rfl⟩

end Sys2Proof.Tests
end

section
/-! PROOFS. The scope of the block (00_scope). -/

namespace Sys2Proof.Machine

/-- Settles O15: an idle block takes the branch of `step` that looks for a host action, and none is pending. -/
theorem nothingHappensUnasked : Obligations.NothingHappensUnasked := by
  intro s hidle hquiet
  have hnot : ¬ s.busy = true := by simp [hidle]
  rw [step, if_neg hnot, hquiet]

end Sys2Proof.Machine
end

section
/-! PROOFS. Frames of whole operations, whatever the host does: what the updates of an operation leave unchanged. -/

namespace Sys2Proof.Machine

/-! ### Frames through a hardware reset -/

variable {P : (State → State) → Prop} {γ : Type} {g : State → γ}

/-- A frame is blind to the passing of time and to the host's pending actions. -/
theorem Unseen.time (u : Unseen P g) (st : State) (k : Nat) (es : List HostEvent) :
    g { st with clock := k, host := es } = g st := by
  have h := u.lineTo st st.line st.driveLow k st.trace
  rw [← u.noHost] at h ⊢
  exact h

/-- A frame is blind to every host access during an operation but the hardware reset. -/
theorem Unseen.busyAct (u : Unseen P g) (st : State) {act : HostAct} (h : act ≠ .hwReset) : g (st.busyAct act) = g st := by
  rw [← u.noHost, (busyAct_noHost st h).1, u.noHost]

theorem Unseen.driveLine (u : Unseen P g) (st : State) : g st.driveLine = g st := by
  unfold State.driveLine
  split
  · rfl
  · exact u.lineTo st _ _ _ _

theorem Unseen.releaseLine (u : Unseen P g) (st : State) : g st.releaseLine = g st := by
  unfold State.releaseLine
  split
  · exact u.lineTo st _ _ _ _
  · rfl

/-- `Built.frame` as a triple over all runs: what a frame decides holds as long as the operation goes on, and `E` where it
ends. -/
theorem Built.frame_triple (u : Unseen P g) {I E : State → Prop} (hI : ∀ st t, I st → g t = g st → I t)
    (hfinish : ∀ r st, I st → E (st.finish r)) (hreset : ∀ st, I st → E st.hwReset) {α : Type} {x : Op α} (h : Built P x) :
    Triple I x (fun _ => I) E := by
  induction h with
  | pure v => exact triple_pure fun _ h => h
  | bind _ _ hx hf => exact triple_bind _ hx hf
  | upd hf => exact triple_upd fun st h => hI _ _ h (u.upd _ hf st)
  | look f _ => exact triple_look fun _ h => h
  | sample => exact triple_sample fun st h => hI _ _ h (u.lineTo st _ _ _ _)
  | drive => exact triple_upd fun st h => hI _ _ h (u.driveLine st)
  | release => exact triple_upd fun st h => hI _ _ h (u.releaseLine st)
  | wait n =>
    exact triple_wait n (fun st k es h => hI _ _ h (u.time st k es)) (fun st _ ha h => hI _ _ h (u.busyAct st ha)) hreset
  | finish r => exact triple_finish (hfinish r)

/-- A frame of the updates of an operation. -/
theorem unseen_opUpd {i : Instr} (hupd : ∀ f, OpUpd i f → ∀ st, g (f st) = g st)
    (hline : ∀ (st : State) l d n tr, g { st with line := l, driveLow := d, clock := n, trace := tr } = g st := by intros; rfl)
    (hfinish : ∀ (r : Result) st, g (st.finish r) = g st := by intros; rfl)
    (hnoHost : ∀ st : State, g st.noHost = g st := by intros; rfl) : Unseen (OpUpd i) g :=
  ⟨hupd, fun _ hf st => opUpd_host i hf st, hline, hfinish, hnoHost⟩

/-! ### What one step can do -/

/-- What a host action makes of the idle block, case by case (`hostStep`). -/
inductive HostAction (st : State) : HostAct → State → Prop
  /-- A read answers. -/
  | read (a : HostAddr) : HostAction st (.read a) (st.hostRead a)
  /-- A write while hardware reset is asserted changes nothing. -/
  | held (a : HostAddr) (w : Byte) : HostAction st (.write a w) st
  /-- A write to another address than CMD. -/
  | register (a : HostAddr) (w : Byte) : st.resetIn = false → HostAction st (.write a w) (st.writeIdle a w)
  /-- A legal byte written to CMD runs its operation. -/
  | command (a : HostAddr) (w : Byte) (i : Instr) {t : State} : st.resetIn = false → exec i st = .next t →
      HostAction st (.write a w) t
  /-- An illegal byte written to CMD is refused. -/
  | illegal (a : HostAddr) (w : Byte) : st.resetIn = false → HostAction st (.write a w) st.refuse
  /-- Hardware reset is asserted. -/
  | assert : HostAction st .hwReset st.hwReset
  /-- Hardware reset is released. -/
  | release : HostAction st .hwRelease st.hwRelease

theorem hostStep_cases {st t : State} {act : HostAct} (h : hostStep st act = .next t) : HostAction st act t := by
  cases act with
  | read a => cases h; exact .read a
  | write a w =>
    by_cases hheld : st.resetIn = true
    · rw [hostStep, if_pos hheld] at h
      cases h
      exact .held a w
    have hrun : st.resetIn = false := Bool.eq_false_of_not_eq_true hheld
    by_cases hcmd : a.toNat = 0
    · rw [hostStep, if_neg hheld, if_pos hcmd] at h
      cases hw : decode w with
      | ok i =>
        rw [hw] at h
        exact .command a w i hrun h
      | error e =>
        rw [hw] at h
        cases h
        exact .illegal a w hrun
    · rw [hostStep, if_neg hheld, if_neg hcmd] at h
      cases h
      exact .register a w hrun
  | hwReset => cases h; exact .assert
  | hwRelease => cases h; exact .release

/-- A step is a statement of the running operation, nothing at all, or the host's next action on the idle block. -/
theorem step_cases {s t : State} (h : step s = .next t) :
    (s.busy = true ∧ t = s.seqStep) ∨ (s.busy = false ∧ s.host = [] ∧ t = s) ∨
    (s.busy = false ∧ ∃ e es, s.host = e :: es ∧ HostAction (s.arrive e es) e.act t) := by
  by_cases hbusy : s.busy = true
  · rw [step, if_pos hbusy] at h
    cases h
    exact .inl ⟨hbusy, rfl⟩
  have hidle : s.busy = false := Bool.eq_false_of_not_eq_true hbusy
  rw [step, if_neg hbusy] at h
  cases hhost : s.host with
  | nil =>
    rw [hhost] at h
    cases h
    exact .inr (.inl ⟨hidle, rfl, rfl⟩)
  | cons e es =>
    rw [hhost] at h
    exact .inr (.inr ⟨hidle, e, es, rfl, hostStep_cases h⟩)

end Sys2Proof.Machine
end

section
/-! PROOFS. The invariant of a run (10_state R39): the table under every operation, and the invariant under every step. -/

namespace Sys2Proof.Machine

/-! ### The table's invariant -/

/-- What the table keeps through every statement of every operation: `num_devices` fits the capacity, the memory is canonical
and inside the window, every byte of an entry below `num_devices` is written (10_state R39, 20_memory R64). -/
structure State.TableOk (st : State) : Prop where
  count : st.numDevices.toNat ≤ st.cfg.maxDevices
  canonical : st.devices.wf = true
  window : ∀ cell ∈ st.devices, tableBase ≤ cell.1 ∧ cell.1 < tableAddr st.cfg.maxDevices 0
  written : ∀ k j, k < st.numDevices.toNat → j < Config.addrBytes → (st.devices.read (tableAddr k j)).isSome

/-- The table's invariant, and all elements at their reset values if hardware reset is asserted: the part of `State.Inv` an
operation can end in. -/
def State.TableSound (st : State) : Prop := st.TableOk ∧ (st.resetIn = true → st.AtReset)

/-- What the table's invariant depends on. -/
def State.table (st : State) : Config × Byte × Memory := (st.cfg, st.numDevices, st.devices)

theorem State.TableOk.of_table {st t : State} (h : st.TableOk) (e : t.table = st.table) : t.TableOk := by
  injection e with ecfg e
  injection e with enum edev
  constructor
  · rw [enum, ecfg]; exact h.count
  · rw [edev]; exact h.canonical
  · rw [edev, ecfg]; exact h.window
  · rw [enum, edev]; exact h.written

theorem State.AtReset.tableOk {st : State} (h : st.AtReset) (hdev : st.devices = []) : st.TableOk := by
  have hnum : st.numDevices.toNat = 0 := by rw [h.numDevices]; rfl
  constructor
  · omega
  · rw [hdev]; rfl
  · rw [hdev]; exact fun _ hc => absurd hc List.not_mem_nil
  · intro k j hk
    omega

theorem hwReset_tableSound (st : State) : st.hwReset.TableSound :=
  ⟨(hwReset_atReset st).tableOk rfl, fun _ => hwReset_atReset st⟩

/-- The invariant in its two parts: the block at rest, and the table. -/
theorem inv_iff {st : State} : st.Inv ↔ st.ended ∧ st.TableSound := by
  constructor
  · intro h
    exact ⟨⟨h.idle, h.seqIdle, h.released⟩, ⟨h.count, h.canonical, h.window, h.written⟩, h.held⟩
  · rintro ⟨⟨hidle, hseq, hrel⟩, ⟨hcount, hcan, hwin, hwrit⟩, hheld⟩
    exact ⟨hidle, hseq, hrel, hcount, hcan, hwin, hwrit, hheld⟩

/-! ### The table under the operations -/

/-- The table's invariant outside hardware reset: what holds while an operation runs. -/
def State.Running (st : State) : Prop := st.TableOk ∧ st.resetIn = false

theorem State.Running.tableSound {st : State} (h : st.Running) : st.TableSound :=
  ⟨h.1, fun hr => absurd (hr.symm.trans h.2) Bool.noConfusion⟩

theorem State.Running.finish {st : State} (h : st.Running) (r : Result) : (st.finish r).TableSound :=
  State.Running.tableSound ⟨h.1.of_table rfl, h.2⟩

/-- The table and the reset input: the frame of every statement that stores nothing. -/
def State.tableFrame (st : State) : (Config × Byte × Memory) × Bool := (st.table, st.resetIn)

theorem State.Running.of_frame {st t : State} (h : st.Running) (e : t.tableFrame = st.tableFrame) : t.Running := by
  injection e with etable ereset
  exact ⟨h.1.of_table etable, ereset.trans h.2⟩

/-- No operation but SEARCH writes the table. -/
theorem opUpd_tableFrame {i : Instr} (hi : i ≠ .search) {f : State → State} (h : OpUpd i f) (st : State) :
    (f st).tableFrame = st.tableFrame := by
  cases i with
  | resetPulse => obtain ⟨_, _, _, _, h⟩ := resetUpd_shape h st; rw [h]; rfl
  | writeBit v => exact h.elim
  | readBitOr p => obtain ⟨_, _, _, h⟩ := readUpd_shape h st; rw [h]; rfl
  | writeOctet => obtain ⟨_, h⟩ := sendUpd_shape h st; rw [h]; rfl
  | readOctet => obtain ⟨_, _, _, _, _, h⟩ := receiveUpd_shape h st; rw [h]; rfl
  | sendCommand => obtain ⟨_, _, _, _, _, h⟩ := commandUpd_shape h st; rw [h]; rfl
  | search => exact absurd rfl hi

/-- The table inside a SEARCH: the passes so far fit the capacity and have written their entries. -/
structure State.Searching (st : State) : Prop where
  running : st.Running
  fits : st.devicePosition.toNat ≤ st.cfg.maxDevices
  stored : ∀ k j, k < st.devicePosition.toNat → j < Config.addrBytes → (st.devices.read (tableAddr k j)).isSome

/-- A pass before its store writes neither the table nor the index of the entry. -/
theorem unseen_passFrame : Unseen PositionUpd fun st => (st.tableFrame, st.devicePosition) where
  upd := fun f hf st => by
    obtain ⟨_, _, _, _, _, _, _, _, _, _, _, _, _, h⟩ := positionUpd_shape hf st
    rw [h]
    rfl
  host := fun f hf st => by
    obtain ⟨_, _, _, _, _, _, _, _, _, _, _, _, _, h⟩ := positionUpd_shape hf st
    rw [h]
  lineTo := fun _ _ _ _ _ => rfl
  finish := fun _ _ => rfl
  noHost := fun _ => rfl

theorem State.Searching.of_frame {st t : State} (h : st.Searching)
    (e : (t.tableFrame, t.devicePosition) = (st.tableFrame, st.devicePosition)) : t.Searching := by
  injection e with eframe epos
  have etable : t.table = st.table := congrArg Prod.fst eframe
  have ecfg : t.cfg = st.cfg := congrArg Prod.fst etable
  have edev : t.devices = st.devices := congrArg (fun x => x.2.2) etable
  refine ⟨h.running.of_frame eframe, ?_, ?_⟩
  · rw [epos, ecfg]; exact h.fits
  · rw [epos, edev]; exact h.stored

/-- A pass with room for one more entry stores one, in its place (42_search R198). -/
theorem State.Searching.storePass {st : State} (h : st.Searching) (hroom : st.devicePosition.toNat < st.cfg.maxDevices) :
    st.storePass.Searching := by
  obtain ⟨⟨⟨hcount, hcan, hwin, hwrit⟩, hrun⟩, -, hstored⟩ := h
  have hmax := st.cfg.maxDevices_le
  have hnext : st.storePass.devicePosition.toNat = st.devicePosition.toNat + 1 := by
    rw [storePass_devicePosition, BitVec.toNat_add, show (1#8).toNat = 1 from rfl]
    omega
  have hkeep : ∀ k j, j < Config.addrBytes → (st.devices.read (tableAddr k j)).isSome →
      (st.storePass.devices.read (tableAddr k j)).isSome := by
    intro k j hj hk
    rw [storePass_devices, Memory.read_writeEntry]
    split
    · rfl
    · exact hk
  refine ⟨⟨⟨hcount, Memory.wf_writeEntry _ _ hcan, ?_, fun k j hk hj => hkeep k j hj (hwrit k j hk hj)⟩, hrun⟩, ?_, ?_⟩
  · intro cell hcell
    rcases Memory.mem_writeEntry hcell with ⟨hlo, hhi⟩ | hold
    · show tableBase ≤ cell.1 ∧ cell.1 < tableAddr st.cfg.maxDevices 0
      rw [tableAddr_eq] at hlo hhi ⊢
      have : tableBase = 2048 := rfl
      omega
    · exact hwin cell hold
  · rw [hnext, storePass_cfg]
    omega
  · intro k j hk hj
    by_cases hlast : k = st.devicePosition.toNat
    · subst hlast
      rw [storePass_devices, Memory.holdsEntry_writeEntry _ _ _ j hj]
      rfl
    · exact hkeep k j hj (hstored k j (by omega) hj)

/-- The count a SEARCH ends `Ok` with (42_search R199). -/
theorem State.Searching.countDevices {st : State} (h : st.Searching) : st.countDevices.Running :=
  ⟨⟨h.fits, h.running.1.canonical, h.running.1.window, h.stored⟩, h.running.2⟩

/-- Room for one more entry: a pass keeps the search's invariant. -/
theorem searchPass_searching : Triple (fun st => st.Searching ∧ st.devicePosition.toNat < st.cfg.maxDevices) searchPass
    (fun _ => State.Searching) State.TableSound := by
  rw [searchPass_eq]
  refine triple_bind _ (built_passBody.frame_triple unseen_passFrame ?_ (fun r _ h => h.1.running.finish r)
    fun t _ => hwReset_tableSound t) fun _ => triple_upd fun st h => h.1.storePass h.2
  rintro st t ⟨hst, hroom⟩ e
  have ecfg : t.cfg = st.cfg := congrArg (fun x => x.1.1.1) e
  have epos : t.devicePosition = st.devicePosition := congrArg Prod.snd e
  exact ⟨hst.of_frame e, by rw [ecfg, epos]; exact hroom⟩

theorem searchLoop_tableSound (fuel : Nat) :
    Triple State.Searching (searchLoop fuel) (fun _ => State.Running) State.TableSound := by
  induction fuel with
  | zero => exact triple_finish fun _ h => h.running.finish _
  | succ n ih =>
    refine triple_bind (fun full st => st.Searching ∧ (full = false → st.devicePosition.toNat < st.cfg.maxDevices))
      (triple_look fun st h => ⟨h, fun hfull => ?_⟩) fun full => ?_
    · have := h.fits
      have := of_decide_eq_false hfull
      omega
    refine triple_bind (fun _ st => st.Searching ∧ st.devicePosition.toNat < st.cfg.maxDevices)
      (triple_finishIf (fun _ _ h => h.1.running.finish _) fun hfull _ h => ⟨h.1, h.2 hfull⟩) fun _ => ?_
    refine triple_bind _ searchPass_searching fun _ =>
      triple_bind (fun _ => State.Searching) (triple_look fun _ h => h) fun done => ?_
    exact triple_ite (fun _ => triple_bind (fun _ => State.Running) (triple_upd fun _ h => h.countDevices) fun _ =>
      triple_finish fun _ h => h.finish _) fun _ => ih

/-- SEARCH begins with no entry stored. -/
theorem State.Running.startSearch {st : State} (h : st.Running) : st.startSearch.Searching :=
  ⟨⟨h.1.of_table rfl, h.2⟩, Nat.zero_le _, fun k _ hk => absurd hk (Nat.not_lt_zero k)⟩

/-- Every operation, run from a sound table, ends with one. -/
theorem exec_tableSound (i : Instr) {st t : State} (h : st.Running) (hidle : st.busy = false) (ht : exec i st = .next t) :
    t.TableSound := by
  have haccept : (st.accept i).Running := ⟨h.1.of_table rfl, h.2⟩
  have of_triple : ∀ {body : Op Unit}, Triple State.Running body (fun _ => State.Running) State.TableSound →
      exec i st = runOp i body st → t.TableSound := by
    intro body htriple he
    rw [he, runOp_idle _ _ hidle h.2] at ht
    injection ht with ht
    rw [← ht]
    exact triple_lastState htriple (fun _ _ hu => hu.tableSound) (fun _ hu => hu) haccept
  by_cases hi : i = .search
  · subst hi
    exact of_triple (triple_bind _ (triple_upd fun _ h => h.startSearch) fun _ => searchLoop_tableSound _) rfl
  · obtain ⟨body, hb, he⟩ := exec_built i st
    have u : Unseen (OpUpd i) State.tableFrame := unseen_opUpd fun _ hf => opUpd_tableFrame hi hf
    exact of_triple (hb.frame_triple u (fun _ _ h e => h.of_frame e) (fun r _ h => h.finish r) fun t _ => hwReset_tableSound t) he

/-! ### The invariant under every step -/

/-- 60_exceptions R236, R237: an operation accepted with the line released ends with `BUSY` clear and the line released. -/
theorem exec_ended {i : Instr} {st t : State} (hidle : st.busy = false) (hrun : st.resetIn = false)
    (hrel : st.driveLow = false) (ht : exec i st = .next t) : t.ended := by
  obtain ⟨body, hends, he⟩ := exec_endsHere i st
  rw [he, runOp_idle _ _ hidle hrun] at ht
  injection ht with ht
  rw [← ht]
  exact triple_lastState hends (fun _ _ h => h.elim) (fun _ h => h) hrel

/-- The host's next action arriving changes nothing the invariant speaks of. -/
theorem State.Inv.arrive {st : State} (h : st.Inv) (e : HostEvent) (es : List HostEvent) : (st.arrive e es).Inv := by
  refine ⟨h.idle, h.seqIdle, h.released, h.count, h.canonical, h.window, h.written, fun hr => ?_⟩
  have hreset := h.held hr
  exact { hreset with now := by rw [State.now, if_pos hr] }

/-- A host read keeps the invariant: it changes its answer and the count of free bytes alone. -/
theorem State.Inv.hostRead {st : State} (h : st.Inv) (a : HostAddr) : (st.hostRead a).Inv := by
  obtain ⟨v, n, hr⟩ := hostRead_shape st a
  rw [hr]
  exact ⟨h.idle, h.seqIdle, h.released, h.count, h.canonical, h.window, h.written, fun hr => { h.held hr with }⟩

theorem hwReset_inv (st : State) : st.hwReset.Inv := inv_iff.2 ⟨hwReset_ended st, hwReset_tableSound st⟩

/-- Outside hardware reset the invariant reaches neither `DATA` nor `ILL`. -/
theorem State.Inv.write {st : State} (h : st.Inv) (hrun : st.resetIn = false) (d : Byte) (b : Bool) :
    ({ st with data := d, ill := b }).Inv :=
  ⟨h.idle, h.seqIdle, h.released, h.count, h.canonical, h.window, h.written,
    fun hr => absurd (hr.symm.trans hrun) Bool.noConfusion⟩

theorem State.Inv.writeIdle {st : State} (h : st.Inv) (hrun : st.resetIn = false) (a : HostAddr) (w : Byte) :
    (st.writeIdle a w).Inv := by
  unfold State.writeIdle
  split
  · exact h.write hrun w st.ill
  · exact h

theorem State.Inv.hwRelease {st : State} (h : st.Inv) : st.hwRelease.Inv := by
  unfold State.hwRelease
  split
  · exact ⟨h.idle, h.seqIdle, h.released, h.count, h.canonical, h.window, h.written, Bool.noConfusion⟩
  · exact h

theorem State.Inv.exec {i : Instr} {st t : State} (h : st.Inv) (hrun : st.resetIn = false) (ht : exec i st = .next t) :
    t.Inv := by
  obtain ⟨⟨hidle, -, hrel⟩, htable, -⟩ := inv_iff.1 h
  exact inv_iff.2 ⟨exec_ended hidle hrun hrel ht, exec_tableSound i ⟨htable, hrun⟩ hidle ht⟩

/-- Every host action on the idle block keeps the invariant. -/
theorem State.Inv.hostAction {st t : State} (h : st.Inv) {act : HostAct} (ht : HostAction st act t) : t.Inv := by
  cases ht with
  | read a => exact h.hostRead a
  | held a w => exact h
  | register a w hrun => exact h.writeIdle hrun a w
  | command a w i hrun hexec => exact h.exec hrun hexec
  | illegal a w hrun => exact h.write hrun st.data true
  | assert => exact hwReset_inv st
  | release => exact h.hwRelease

/-- Settles O53: an idle block does nothing or takes the host's next action, and each kind of action keeps the invariant. -/
theorem invariantIsKept : Obligations.InvariantIsKept := by
  intro s t h ht
  rcases step_cases ht with ⟨hbusy, -⟩ | ⟨-, -, rfl⟩ | ⟨-, e, es, -, hact⟩
  · exact absurd (hbusy.symm.trans h.idle) Bool.noConfusion
  · exact h
  · exact (h.arrive e es).hostAction hact

end Sys2Proof.Machine
end

section
/-! PROOFS. The state after reset (10_state R42), and what the operations and the steps leave unchanged (R21 to R30). -/

namespace Sys2Proof.Machine

/-! ### The state after reset -/

theorem resetOf_atReset (c : Config) : (State.resetOf c).AtReset :=
  ⟨rfl, rfl, rfl, rfl, rfl, rfl, rfl, rfl, rfl, rfl, rfl, fun _ => rfl⟩

/-- Settles O4: `State.resetOf` gives every element its stated value. -/
theorem resetValues : Obligations.ResetValues := fun c => ⟨rfl, resetOf_atReset c⟩

/-- Settles O52: the reset values leave the block at rest with an empty table. -/
theorem invariantHoldsAtReset : Obligations.InvariantHoldsAtReset := fun c =>
  inv_iff.2 ⟨⟨rfl, rfl, rfl⟩, (resetOf_atReset c).tableOk rfl, fun _ => resetOf_atReset c⟩

/-! ### What no operation writes -/

/-- The state less every element that an update of an operation writes. -/
def State.control (st : State) : State :=
  { st with
    data := 0#8, presHighQ := 0#8, presLowQ := 0#8, numDevices := 0#8, devices := [], rom := 0#64, devicePosition := 0#8
    lastDisc := none, curDisc := none, position := 0#7, i := 0#4, v := false, c := false, b := false, s := false, e := false
    nFloat := 0#8, tRel := 0#16, freeCtr := 0 }

theorem positionUpd_control {f : State → State} (h : PositionUpd f) (st : State) : (f st).control = st.control := by
  obtain ⟨_, _, _, _, _, _, _, _, _, _, _, _, _, h⟩ := positionUpd_shape h st
  rw [h]
  rfl

theorem opUpd_control (i : Instr) {f : State → State} (h : OpUpd i f) (st : State) : (f st).control = st.control := by
  cases i with
  | resetPulse => exact positionUpd_control (.command f (.reset f h)) st
  | writeBit v => exact h.elim
  | readBitOr p => obtain ⟨_, _, _, h⟩ := readUpd_shape h st; rw [h]; rfl
  | writeOctet => exact positionUpd_control (.command f (.send f h)) st
  | readOctet => obtain ⟨_, _, _, _, _, h⟩ := receiveUpd_shape h st; rw [h]; rfl
  | sendCommand => exact positionUpd_control (.command f h) st
  | search =>
    obtain h | ⟨_, _, _, _, h⟩ := searchUpd_shape h st
    · exact positionUpd_control h st
    · rw [h]; rfl

theorem opUpd_cmd (i : Instr) {f : State → State} (h : OpUpd i f) (st : State) : (f st).cmd = st.cmd :=
  (congrArg State.cmd (opUpd_control i h st) :)

theorem opUpd_ill (i : Instr) {f : State → State} (h : OpUpd i f) (st : State) : (f st).ill = st.ill :=
  (congrArg State.ill (opUpd_control i h st) :)

/-- Settles O43: acceptance latches the byte, and no update of an operation writes `cmd`. -/
theorem commandStaysLatched : Obligations.CommandStaysLatched := fun i _ _ hs ht =>
  exec_frame (g := State.cmd) (unseen_opUpd fun _ hf => opUpd_cmd i hf) hs ht

/-! ### What some operations do not write -/

/-- Settles O44: the updates of every other operation keep the table. -/
theorem onlySearchWritesTheTable : Obligations.OnlySearchWritesTheTable := by
  intro i s t hs hi ht
  have hframe : t.tableFrame = s.tableFrame := exec_frame (unseen_opUpd fun _ hf => opUpd_tableFrame hi hf) hs ht
  have hnum : t.numDevices = s.numDevices := congrArg (fun x => x.1.2.1) hframe
  have hdev : t.devices = s.devices := congrArg (fun x => x.1.2.2) hframe
  exact ⟨hnum, fun a => by rw [hdev]⟩

theorem positionUpd_data {f : State → State} (h : PositionUpd f) (st : State) : (f st).data = st.data := by
  obtain ⟨_, _, _, _, _, _, _, _, _, _, _, _, _, h⟩ := positionUpd_shape h st
  rw [h]

/-- Of the operations, READ_BIT_OR and READ_OCTET alone write `DATA`. -/
theorem opUpd_data {i : Instr} (hbit : ∀ p, i ≠ .readBitOr p) (hoctet : i ≠ .readOctet) {f : State → State}
    (h : OpUpd i f) (st : State) : (f st).data = st.data := by
  cases i with
  | resetPulse => exact positionUpd_data (.command f (.reset f h)) st
  | writeBit v => exact h.elim
  | readBitOr p => exact absurd rfl (hbit p)
  | writeOctet => exact positionUpd_data (.command f (.send f h)) st
  | readOctet => exact absurd rfl hoctet
  | sendCommand => exact positionUpd_data (.command f h) st
  | search =>
    obtain h | ⟨_, _, _, _, h⟩ := searchUpd_shape h st
    · exact positionUpd_data h st
    · rw [h]

/-- Settles O45: none of the five is one of the two operations whose updates write `DATA`. -/
theorem dataIsKept : Obligations.DataIsKept := by
  intro i s t hs hi ht
  refine exec_frame (g := State.data) (unseen_opUpd fun _ hf => opUpd_data ?_ ?_ hf) hs ht
  all_goals rcases hi with rfl | ⟨v, rfl⟩ | rfl | rfl | rfl <;> simp

/-- The presence counters `pres_high_q`, `pres_low_q`. -/
def State.counters (st : State) : Byte × Byte := (st.presHighQ, st.presLowQ)

/-- Operations without a reset sequence do not write the presence counters. -/
theorem opUpd_counters {i : Instr} (hreset : i ≠ .resetPulse ∧ i ≠ .sendCommand ∧ i ≠ .search) {f : State → State}
    (h : OpUpd i f) (st : State) : (f st).counters = st.counters := by
  obtain ⟨hpulse, hcommand, hsearch⟩ := hreset
  cases i with
  | resetPulse => exact absurd rfl hpulse
  | writeBit v => exact h.elim
  | readBitOr p => obtain ⟨_, _, _, h⟩ := readUpd_shape h st; rw [h]; rfl
  | writeOctet => obtain ⟨_, h⟩ := sendUpd_shape h st; rw [h]; rfl
  | readOctet => obtain ⟨_, _, _, _, _, h⟩ := receiveUpd_shape h st; rw [h]; rfl
  | sendCommand => exact absurd rfl hcommand
  | search => exact absurd rfl hsearch

/-- Settles O46: none of the four contains a reset sequence. -/
theorem presenceCountersAreKept : Obligations.PresenceCountersAreKept := by
  intro i s t hs hi ht
  have hframe : t.counters = s.counters :=
    exec_frame (unseen_opUpd fun _ hf => opUpd_counters (by rcases hi with ⟨v, rfl⟩ | ⟨p, rfl⟩ | rfl | rfl <;> simp) hf) hs ht
  exact ⟨congrArg Prod.fst hframe, congrArg Prod.snd hframe⟩

/-! ### What no step changes -/

theorem busyAct_cfg (st : State) (act : HostAct) : (st.busyAct act).cfg = st.cfg := by
  by_cases h : act = .hwReset
  · subst h
    exact hwReset_cfg st
  · exact (congrArg State.cfg (busyAct_noHost st h).1 :)

/-- A statement that takes no time leaves the parameters and `ILL` alone. -/
theorem stmtStep_status (s : State) {a : Stmt} (k : List Stmt) (h : ∀ n, a ≠ .wait n) :
    (s.stmtStep a k).cfg = s.cfg ∧ (s.stmtStep a k).ill = s.ill := by
  cases a with
  | wait n => exact absurd rfl (h n)
  | decidePair =>
    obtain ⟨b, d, hd⟩ := decideBit_shape (Fin.ofNat 64 s.position.toNat) s
    simp only [State.stmtStep]
    split
    · exact ⟨rfl, rfl⟩
    · rw [hd]
      exact ⟨rfl, rfl⟩
  | drive => exact ⟨driveLine_cfg s, driveLine_ill s⟩
  | release => exact ⟨releaseLine_cfg s, releaseLine_ill s⟩
  | _ =>
    rw [State.stmtStep]
    repeat' split
    all_goals exact ⟨rfl, rfl⟩

theorem waitStep_cfg (s : State) (n : Nat) (k : List Stmt) : (s.waitStep n k).cfg = s.cfg := by
  unfold State.waitStep
  split
  · split
    · exact busyAct_cfg _ _
    · rfl
  · rfl

theorem waitStep_ill {s : State} (hreset : s.noHwReset) (h : s.ill = true) (n : Nat) (k : List Stmt) :
    (s.waitStep n k).ill = true := by
  unfold State.waitStep
  split
  · next e es hhost =>
    have he : e.act ≠ .hwReset := hreset e (by rw [hhost]; exact List.mem_cons_self)
    split
    · exact (busyAct_noHost _ he).2.2 h
    · exact h
  · exact h

/-- A step of the sequencer is a statement that takes no time, or one step of a `Wait`. -/
theorem seqStep_cases (s : State) :
    (∃ n k, s.seqStep = s.waitStep n k) ∨ ∃ a k, (∀ n, a ≠ .wait n) ∧ s.seqStep = s.stmtStep a k := by
  unfold State.seqStep
  cases hseq : s.seq with
  | nil => exact .inl ⟨1, [], rfl⟩
  | cons a k =>
    by_cases ha : ∃ n, a = .wait n
    · obtain ⟨n, rfl⟩ := ha
      exact .inl ⟨n, k, rfl⟩
    · exact .inr ⟨a, k, fun n hn => ha ⟨n, hn⟩, rfl⟩

theorem seqStep_cfg (s : State) : s.seqStep.cfg = s.cfg := by
  rcases seqStep_cases s with ⟨n, k, h⟩ | ⟨a, k, ha, h⟩ <;> rw [h]
  · exact waitStep_cfg s n k
  · exact (stmtStep_status s k ha).1

theorem seqStep_ill {s : State} (hreset : s.noHwReset) (h : s.ill = true) : s.seqStep.ill = true := by
  rcases seqStep_cases s with ⟨n, k, hstep⟩ | ⟨a, k, ha, hstep⟩ <;> rw [hstep]
  · exact waitStep_ill hreset h n k
  · exact (stmtStep_status s k ha).2.trans h

theorem writeIdle_cfg (st : State) (a : HostAddr) (w : Byte) : (st.writeIdle a w).cfg = st.cfg := by
  unfold State.writeIdle
  split <;> rfl

theorem writeIdle_ill (st : State) (a : HostAddr) (w : Byte) : (st.writeIdle a w).ill = st.ill := by
  unfold State.writeIdle
  split <;> rfl

/-- No operation changes the parameters, a hardware reset during it included. -/
theorem exec_cfg {i : Instr} {st t : State} (hidle : st.busy = false) (hrun : st.resetIn = false) (ht : exec i st = .next t) :
    t.cfg = st.cfg := by
  obtain ⟨body, hb, he⟩ := exec_built i st
  rw [he, runOp_idle _ _ hidle hrun] at ht
  cases ht
  have htriple := hb.frame_triple (g := State.cfg) (unseen_opUpd fun _ hf => opUpd_cfg i hf)
    (I := fun u => u.cfg = st.cfg) (E := fun u => u.cfg = st.cfg) (fun _ _ h e => e.trans h) (fun _ _ h => h)
    fun u h => (hwReset_cfg u).trans h
  exact triple_lastState htriple (fun _ _ h => h) (fun _ h => h) (accept_cfg st i)

/-- Settles O49: neither the sequencer nor any host action changes a parameter. -/
theorem parametersNeverChange : Obligations.ParametersNeverChange := by
  intro s t ht
  rcases step_cases ht with ⟨-, rfl⟩ | ⟨-, -, rfl⟩ | ⟨hidle, e, es, -, hact⟩
  · exact seqStep_cfg s
  · rfl
  generalize e.act = act at hact
  cases hact with
  | read a =>
    obtain ⟨v, n, h⟩ := hostRead_shape (s.arrive e es) a
    rw [h]
    rfl
  | held a w => rfl
  | register a w => exact writeIdle_cfg _ a w
  | command a w i hrun hexec => exact exec_cfg (st := s.arrive e es) hidle hrun hexec
  | illegal a w => rfl
  | assert => exact hwReset_cfg _
  | release => exact hwRelease_cfg _

/-- With no hardware reset pending no statement of an operation clears `ILL`. -/
theorem kept_ill (i : Instr) :
    Kept (OpUpd i) fun a b => a.noHwReset → b.noHwReset ∧ (a.ill = true → b.ill = true) where
  refl := fun _ h => ⟨h, id⟩
  trans := fun _ _ _ h1 h2 h => by
    obtain ⟨hb, hab⟩ := h1 h
    obtain ⟨hc, hbc⟩ := h2 hb
    exact ⟨hc, hbc ∘ hab⟩
  upd := fun _ hf st h => ⟨noHwReset_of_host (opUpd_host i hf st) h, (opUpd_ill i hf st).trans⟩
  sample := fun _ h => ⟨h, id⟩
  drive := fun st h => ⟨noHwReset_of_host (driveLine_host st) h, (driveLine_ill st).trans⟩
  release := fun st h => ⟨noHwReset_of_host (releaseLine_host st) h, (releaseLine_ill st).trans⟩
  wait := fun n st h => by
    obtain ⟨t, ht, -, hreset, hill⟩ := wait_spec n st h
    rw [ht]
    exact ⟨hreset, hill⟩
  finish := fun _ _ h => ⟨h, id⟩

theorem exec_ill {i : Instr} {st t : State} (hidle : st.busy = false) (hrun : st.resetIn = false) (hreset : st.noHwReset)
    (h : st.ill = true) (ht : exec i st = .next t) : t.ill = true := by
  obtain ⟨body, hb, he⟩ := exec_built i st
  rw [he, runOp_idle _ _ hidle hrun] at ht
  cases ht
  exact (hb.keeps (kept_ill i) (st.accept i) (accept_noHwReset i hreset)).2 h

/-- Settles O47: the hardware reset, which is excluded, is the one thing that clears `ILL`. -/
theorem illIsSticky : Obligations.IllIsSticky := by
  intro s t hreset hill ht
  rcases step_cases ht with ⟨-, rfl⟩ | ⟨-, -, rfl⟩ | ⟨hidle, e, es, hhost, hact⟩
  · exact seqStep_ill hreset hill
  · exact hill
  have he : e.act ≠ .hwReset := hreset e (by rw [hhost]; exact List.mem_cons_self)
  have hes : (s.arrive e es).noHwReset := fun x hx => hreset x (by rw [hhost]; exact List.mem_cons_of_mem _ hx)
  generalize e.act = act at hact he
  cases hact with
  | read a =>
    obtain ⟨v, n, h⟩ := hostRead_shape (s.arrive e es) a
    rw [h]
    exact hill
  | held a w => exact hill
  | register a w => exact (writeIdle_ill _ a w).trans hill
  | command a w i hrun hexec => exact exec_ill (st := s.arrive e es) hidle hrun hes hill hexec
  | illegal a w => rfl
  | assert => exact absurd rfl he
  | release => exact (hwRelease_ill _).trans hill

end Sys2Proof.Machine
end

section
/-! PROOFS. An accepted presence pulse has at least three quarters (41_transaction R160 step 5, 10_state R39 (f)). -/

namespace Sys2Proof.Machine

variable {α β : Type}

/-! ### Pieces of a sequence that only a hardware reset can end -/

/-- Nothing is claimed of a run. -/
theorem triple_true {P : State → Prop} {x : Op α} : Triple P x (fun _ _ => True) fun _ => True := by
  intro st _
  cases x.run st <;> trivial

theorem triple_and {P E E' : State → Prop} {Q Q' : α → State → Prop} {x : Op α} (h : Triple P x Q E) (h' : Triple P x Q' E') :
    Triple P x (fun a st => Q a st ∧ Q' a st) fun st => E st ∧ E' st := by
  intro st hst
  have h1 := h st hst
  have h2 := h' st hst
  cases hx : x.run st with
  | ok a t =>
    rw [hx] at h1 h2
    exact ⟨h1, h2⟩
  | error e t =>
    rw [hx] at h1 h2
    exact ⟨h1, h2⟩

/-- An operation can end in `x` by a hardware reset alone. -/
def EndsByReset (x : Op α) : Prop := Triple (fun _ => True) x (fun _ _ => True) fun st => st.resetIn = true

theorem endsByReset_bind {x : Op α} {f : α → Op β} (hx : EndsByReset x) (hf : ∀ a, EndsByReset (f a)) :
    EndsByReset (x >>= f) := triple_bind _ hx hf

theorem endsByReset_pure (a : α) : EndsByReset (pure a : Op α) := triple_pure fun _ _ => trivial

theorem endsByReset_upd (f : State → State) : EndsByReset (upd f) := triple_upd fun _ _ => trivial

theorem endsByReset_look (f : State → α) : EndsByReset (look f) := triple_look fun _ _ => trivial

theorem endsByReset_sample : EndsByReset sample := triple_sample fun _ _ => trivial

theorem endsByReset_wait (n : Nat) : EndsByReset (wait n) :=
  triple_wait n (fun _ _ _ _ => trivial) (fun _ _ _ _ => trivial) fun st _ => hwReset_resetIn st

theorem endsByReset_ite {p : Prop} [Decidable p] {x y : Op α} (hx : EndsByReset x) (hy : EndsByReset y) :
    EndsByReset (if p then x else y) := triple_ite (fun _ => hx) fun _ => hy

theorem endsByReset_floatLoop (fuel : Nat) : EndsByReset (floatLoop fuel) := by
  induction fuel with
  | zero => exact endsByReset_pure _
  | succ n ih =>
    exact endsByReset_bind endsByReset_sample fun _ => endsByReset_ite (endsByReset_pure _) <|
      endsByReset_bind (endsByReset_look _) fun _ => endsByReset_ite (endsByReset_pure _) <|
        endsByReset_bind (endsByReset_wait _) fun _ => endsByReset_bind (endsByReset_upd _) fun _ => ih

theorem endsByReset_highLoop (fuel : Nat) : EndsByReset (highLoop fuel) := by
  induction fuel with
  | zero => exact endsByReset_pure _
  | succ n ih =>
    exact endsByReset_bind endsByReset_sample fun _ => endsByReset_ite
      (endsByReset_bind (endsByReset_wait _) fun _ => endsByReset_bind (endsByReset_upd _) fun _ =>
        endsByReset_bind (endsByReset_look _) fun _ => endsByReset_ite (endsByReset_pure _) ih) (endsByReset_pure _)

theorem endsByReset_lowLoop (fuel : Nat) : EndsByReset (lowLoop fuel) := by
  induction fuel with
  | zero => exact endsByReset_pure _
  | succ n ih =>
    exact endsByReset_bind endsByReset_sample fun _ => endsByReset_ite (endsByReset_pure _)
      (endsByReset_bind (endsByReset_wait _) fun _ => endsByReset_bind (endsByReset_upd _) fun _ =>
        endsByReset_bind (endsByReset_look _) fun _ => endsByReset_ite (endsByReset_pure _) ih)

theorem endsByReset_acceptPresence : EndsByReset acceptPresence :=
  endsByReset_bind (endsByReset_look _) fun _ => endsByReset_ite (endsByReset_pure _) <|
    endsByReset_bind (endsByReset_upd _) fun _ => endsByReset_bind (endsByReset_look _) fun _ => endsByReset_ite
      (endsByReset_bind (endsByReset_wait _) fun _ => endsByReset_pure _) (endsByReset_pure _)

theorem endsByReset_resetSeq : EndsByReset resetSeq :=
  endsByReset_bind (endsByReset_look _) fun _ => endsByReset_bind (endsByReset_upd _) fun _ =>
    endsByReset_bind (endsByReset_upd _) fun _ => endsByReset_bind (endsByReset_wait _) fun _ =>
      endsByReset_bind (endsByReset_upd _) fun _ => endsByReset_bind (endsByReset_upd _) fun _ =>
        endsByReset_bind (endsByReset_floatLoop _) fun _ => endsByReset_ite
          (endsByReset_bind (endsByReset_highLoop _) fun _ => endsByReset_ite
            (endsByReset_bind (endsByReset_lowLoop _) fun _ => endsByReset_ite endsByReset_acceptPresence
              (endsByReset_pure _)) (endsByReset_pure _)) (endsByReset_pure _)

/-! ### The width of the presence pulse -/

/-- `pres_low_q` counts an accepted presence pulse. -/
def State.Wide (st : State) : Prop := Config.presLowMinQ ≤ st.presLowQ.toNat

/-- What a reset sequence may return in a state: `Ok` after an accepted pulse only, and never `TooManyDevices`. -/
def State.Presented (r : Result) (st : State) : Prop := r ≠ .tooManyDevices ∧ (r = .ok → st.Wide)

/-- Where an operation that begins with a reset sequence may end: a hardware reset apart, `Ok` after an accepted pulse only,
and so for `TooManyDevices` where the table has room for at least one pass. -/
def State.EndsPresented (st : State) : Prop :=
  st.resetIn = true ∨ (st.result = .ok ∨ st.result = .tooManyDevices ∧ 0 < st.cfg.maxDevices → st.Wide)

theorem State.Wide.of_presLowQ {st t : State} (h : st.Wide) (e : t.presLowQ = st.presLowQ) : t.Wide := by
  unfold State.Wide
  rw [e]
  exact h

theorem State.Wide.finish {st : State} (h : st.Wide) (r : Result) : (st.finish r).EndsPresented := .inr fun _ => h

theorem State.Presented.finish {r : Result} {st : State} (h : st.Presented r) : (st.finish r).EndsPresented :=
  .inr fun hr => hr.elim (fun hok => h.2 hok) fun hmany => absurd hmany.1 h.1

theorem presented_of_failure {r : Result} (hok : r ≠ .ok) (hmany : r ≠ .tooManyDevices) (st : State) : st.Presented r :=
  ⟨hmany, fun h => absurd h hok⟩

/-- `Built` code that does not write `pres_low_q` keeps an accepted pulse, whatever it ends in. -/
theorem Built.wide {P : (State → State) → Prop} (u : Unseen P State.presLowQ) {x : Op α} (h : Built P x) :
    Triple State.Wide x (fun _ => State.Wide) State.EndsPresented :=
  h.frame_triple u (fun _ _ hw e => hw.of_presLowQ e) (fun r _ hw => hw.finish r) fun st _ => .inl (hwReset_resetIn st)

theorem acceptPresence_presented :
    Triple (fun _ => True) acceptPresence (fun r st => st.Presented r) fun _ => True := by
  have hwait : ∀ n, Triple State.Wide (wait n) (fun _ => State.Wide) fun _ => True := fun n =>
    triple_wait n (fun _ _ _ h => h) (fun st _ ha h => h.of_presLowQ (congrArg State.presLowQ (busyAct_noHost st ha).1 :))
      fun _ _ => trivial
  refine triple_bind (fun short st => short = false → st.Wide)
    (triple_look fun st _ hshort => Nat.not_lt.mp (of_decide_eq_false hshort)) fun short => ?_
  refine triple_ite (fun _ => triple_pure fun st _ => presented_of_failure (by simp) (by simp) st) fun hlong => ?_
  refine triple_bind (fun _ => State.Wide) (triple_upd fun _ h => h (Bool.eq_false_of_not_eq_true hlong)) fun _ => ?_
  refine triple_bind (fun _ => State.Wide) (triple_look fun _ h => h) fun t => triple_ite (fun _ => ?_) fun _ => ?_
  · exact triple_bind _ (hwait _) fun _ => triple_pure fun _ h => ⟨by simp, fun _ => h⟩
  · exact triple_pure fun _ h => ⟨by simp, fun _ => h⟩

/-- 41_transaction R160: what `ResetSeq` returns, whatever the line and the host do. -/
theorem resetSeq_presented : Triple (fun _ => True) resetSeq (fun r st => st.Presented r) fun _ => True := by
  have failure : ∀ {P : State → Prop} {r : Result}, r ≠ .ok → r ≠ .tooManyDevices →
      Triple P (pure r) (fun r st => st.Presented r) fun _ => True :=
    fun hok hmany => triple_pure fun st _ => presented_of_failure hok hmany st
  refine triple_bind _ triple_true fun c => triple_bind _ triple_true fun _ => triple_bind _ triple_true fun _ => ?_
  refine triple_bind _ triple_true fun _ => triple_bind _ triple_true fun _ => triple_bind _ triple_true fun _ => ?_
  refine triple_bind _ triple_true fun _ => triple_ite (fun _ => ?_) fun _ => failure (by simp) (by simp)
  refine triple_bind _ triple_true fun _ => triple_ite (fun _ => ?_) fun _ => failure (by simp) (by simp)
  exact triple_bind _ triple_true fun _ => triple_ite (fun _ => acceptPresence_presented) fun _ => failure (by simp) (by simp)

/-- The same inside an operation: only a hardware reset can end it there. -/
theorem resetSeq_endsPresented :
    Triple (fun _ => True) resetSeq (fun r st => st.Presented r) State.EndsPresented :=
  triple_conseq (triple_and resetSeq_presented endsByReset_resetSeq) (fun _ h => h) (fun _ _ h => h.1) fun _ h => .inl h.2

theorem unseen_send_presLowQ : Unseen SendUpd State.presLowQ where
  upd := fun f hf st => by obtain ⟨_, h⟩ := sendUpd_shape hf st; rw [h]
  host := fun f hf st => by obtain ⟨_, h⟩ := sendUpd_shape hf st; rw [h]
  lineTo := fun _ _ _ _ _ => rfl
  finish := fun _ _ => rfl
  noHost := fun _ => rfl

theorem sendCommandSeq_presented (byte : Byte) :
    Triple (fun _ => True) (sendCommandSeq byte) (fun r st => st.Presented r) State.EndsPresented := by
  refine triple_bind _ resetSeq_endsPresented fun r => triple_ite (fun hr => ?_) fun _ => triple_pure fun _ h => h
  refine triple_bind (fun _ => State.Wide) ?_ fun _ => triple_pure fun _ h => ⟨by simp, fun _ => h⟩
  exact triple_conseq ((built_writeOctetSeq byte).wide unseen_send_presLowQ) (fun _ h => h.2 hr) (fun _ _ h => h) fun _ h => h

/-! ### The passes of a search -/

/-- The updates of one position of a pass: those of `PositionUpd` without the reset sequence's. -/
inductive BitUpd : (State → State) → Prop
  | slot (f : State → State) : SlotUpd id f → BitUpd f
  | position (p : Nat) : BitUpd (State.setPosition p)
  | v (x : Bool) : BitUpd fun st => { st with v := x }
  | c (x : Bool) : BitUpd fun st => { st with c := x }
  | decide (p : Fin 64) : BitUpd (State.decideBit p)
  | latch (p : Nat) : BitUpd (State.latchRom p)

theorem built_searchPosition_bit (p : Nat) : Built BitUpd (searchPosition p) :=
  .bind (.upd (.position p)) fun _ => .bind ((built_readSlot id).mono .slot) fun _ => .bind (.upd (.v _)) fun _ =>
    .bind (built_finishIf _ _) fun _ => .bind ((built_readSlot id).mono .slot) fun _ => .bind (.upd (.c _)) fun _ =>
      .bind (built_finishIf _ _) fun _ => .bind (built_finishIf _ _) fun _ => .bind (.upd (.decide _)) fun _ =>
        .bind (.look _) fun _ => .bind (built_writeSlot _) fun _ => .upd (.latch p)

theorem bitUpd_shape {f : State → State} (h : BitUpd f) (st : State) :
    ∃ s e cd p v c b r, f st = { st with s := s, e := e, curDisc := cd, position := p, v := v, c := c, b := b, rom := r } := by
  cases h with
  | slot f h =>
    obtain ⟨_, _, h⟩ := slotUpd_shape h st
    exact ⟨_, _, _, _, _, _, _, _, h⟩
  | decide p =>
    obtain ⟨_, _, h⟩ := decideBit_shape p st
    exact ⟨_, _, _, _, _, _, _, _, h⟩
  | _ => exact ⟨_, _, _, _, _, _, _, _, rfl⟩

theorem unseen_bit_presLowQ : Unseen BitUpd State.presLowQ where
  upd := fun f hf st => by obtain ⟨_, _, _, _, _, _, _, _, h⟩ := bitUpd_shape hf st; rw [h]
  host := fun f hf st => by obtain ⟨_, _, _, _, _, _, _, _, h⟩ := bitUpd_shape hf st; rw [h]
  lineTo := fun _ _ _ _ _ => rfl
  finish := fun _ _ => rfl
  noHost := fun _ => rfl

/-- A pass that goes on has accepted a presence pulse. -/
theorem searchPass_wide : Triple (fun _ => True) searchPass (fun _ => State.Wide) State.EndsPresented := by
  refine triple_bind (fun _ _ => True) (triple_look fun _ _ => trivial) fun c => ?_
  refine triple_bind (fun _ _ => True) (triple_upd fun _ _ => trivial) fun _ => ?_
  refine triple_bind _ (sendCommandSeq_presented _) fun r => triple_bind (fun _ => State.Wide) ?_ fun _ => ?_
  · refine triple_finishIf (fun _ _ h => h.finish) fun hr _ h => h.2 ?_
    simpa using hr
  refine triple_bind _ ((built_forUp built_searchPosition_bit 0 _).wide unseen_bit_presLowQ) fun _ => ?_
  exact triple_bind (fun _ => State.Wide) (triple_upd fun _ h => h) fun _ => triple_upd fun _ h => h

/-- The pass loop after a pass, or before the first one. -/
theorem searchLoop_endsPresented (fuel : Nat) :
    Triple (fun st => st.Wide ∨ st.devicePosition = 0#8 ∧ 0 < fuel) (searchLoop fuel) (fun _ _ => False)
      State.EndsPresented := by
  induction fuel with
  | zero => exact triple_finish fun _ h => (h.resolve_right fun h => absurd h.2 (lt_irrefl 0)).finish _
  | succ n ih =>
    refine triple_bind (fun full st => full = true → st.Wide ∨ st.cfg.maxDevices = 0)
      (triple_look fun st h hfull => h.imp_right fun h => ?_) fun full => ?_
    · rw [← of_decide_eq_true hfull, h.1]
      rfl
    refine triple_bind (fun _ _ => True) (triple_finishIf (fun hfull st h => ?_) fun _ _ _ => trivial) fun _ => ?_
    · rcases h hfull with hwide | hnone
      · exact hwide.finish _
      · refine .inr fun hr => ?_
        rcases hr with hok | ⟨-, hroom⟩
        · cases hok
        · exact absurd hnone hroom.ne'
    refine triple_bind _ searchPass_wide fun _ => triple_bind (fun _ => State.Wide) (triple_look fun _ h => h) fun done => ?_
    refine triple_ite (fun _ => ?_) fun _ => triple_conseq ih (fun _ h => .inl h) (fun _ _ h => h) fun _ h => h
    exact triple_bind (fun _ => State.Wide) (triple_upd fun _ h => h) fun _ => triple_finish fun _ h => h.finish _

/-! ### Whole operations -/

/-- The statements of the operations that begin with a reset sequence. -/
theorem exec_presented_body {i : Instr} (hi : i = .resetPulse ∨ i = .sendCommand ∨ i = .search) (st : State) :
    ∃ body : Op Unit, exec i st = runOp i body st ∧
      Triple (fun _ => True) body (fun _ _ => False) State.EndsPresented := by
  rcases hi with rfl | rfl | rfl
  · exact ⟨_, rfl, triple_bind _ resetSeq_endsPresented fun _ => triple_finish fun _ h => h.finish⟩
  · exact ⟨_, rfl, triple_bind _ (sendCommandSeq_presented _) fun _ => triple_finish fun _ h => h.finish⟩
  · refine ⟨_, rfl, triple_bind (fun _ st => st.devicePosition = 0#8) (triple_upd fun _ _ => rfl) fun _ => ?_⟩
    exact triple_conseq (searchLoop_endsPresented _) (fun _ h => .inr ⟨h, Nat.succ_pos _⟩) (fun _ _ h => h) fun _ h => h

theorem opUpd_resetIn (i : Instr) {f : State → State} (h : OpUpd i f) (st : State) : (f st).resetIn = st.resetIn :=
  (congrArg State.resetIn (opUpd_control i h st) :)

theorem exec_wide {i : Instr} {s t : State} (hs : s.Ready) (hi : i = .resetPulse ∨ i = .sendCommand ∨ i = .search)
    (ht : exec i s = .next t) (hresult : t.result = .ok ∨ t.result = .tooManyDevices ∧ 0 < s.cfg.maxDevices) : t.Wide := by
  have hrun : t.resetIn = false :=
    (exec_frame (g := State.resetIn) (unseen_opUpd fun _ hf => opUpd_resetIn i hf) hs ht).trans hs.running
  rw [← exec_cfg hs.idle hs.running ht] at hresult
  obtain ⟨body, he, htriple⟩ := exec_presented_body hi s
  rw [he, runOp_idle _ _ hs.idle hs.running] at ht
  cases ht
  have hend := triple_lastState htriple (fun _ _ h => h.elim) (fun _ h => h) (st := s.accept i) trivial
  exact hend.resolve_left (by rw [hrun]; exact Bool.noConfusion) hresult

/-- Settles O29: `ResetSeq` returns `Ok` behind the test of step 5 only, and nothing after it writes `pres_low_q`. -/
theorem okPresenceIsAtLeastThreeQuarters : Obligations.OkPresenceIsAtLeastThreeQuarters := by
  refine ⟨fun s t _ hrun => ?_, fun i s t hs hi ht hok => exec_wide hs hi ht (.inl hok), fun s t hs hroom ht hmany =>
    exec_wide hs (.inr (.inr rfl)) ht (.inr ⟨hmany, hroom⟩)⟩
  have h := resetSeq_presented s trivial
  rw [hrun] at h
  exact h.2 rfl

end Sys2Proof.Machine
end

section
/-! PROOFS. The sequencer executes an operation's statements to exactly the state `exec` gives (10_state R38). -/

namespace Sys2Proof.Machine

variable {α β : Type} {P : State → Prop}

/-! ### Following the statements -/

/-- The state with the sequencer at `q`. -/
def State.withSeq (q : List Stmt) (st : State) : State := { st with seq := q }

/-- The sequencer, stepped from `s` while `BUSY = 1`, comes to `t`. -/
def Reaches (s t : State) : Prop := ∃ n, State.seqRun n s = t

theorem Reaches.refl (s : State) : Reaches s s := ⟨0, rfl⟩

theorem Reaches.step {s t : State} (hbusy : s.busy = true) (h : Reaches s.seqStep t) : Reaches s t := by
  obtain ⟨n, hn⟩ := h
  exact ⟨n + 1, by rw [State.seqRun, if_pos hbusy, hn]⟩

theorem Reaches.trans {s t u : State} (h : Reaches s t) (h' : Reaches t u) : Reaches s u := by
  obtain ⟨n, hn⟩ := h
  induction n generalizing s with
  | zero =>
    cases hn
    exact h'
  | succ n ih =>
    by_cases hbusy : s.busy = true
    · rw [State.seqRun, if_pos hbusy] at hn
      exact .step hbusy (ih hn)
    · rw [State.seqRun, if_neg hbusy] at hn
      exact hn ▸ h'

/-- From `st`, the statements `p` do what `x` does: where `x` goes on they are used up and `k` is left, where the operation
ends in `x` the sequencer comes to the very state it ends in. -/
def Follows (st : State) (p : List Stmt) (x : Op α) (k : List Stmt) : Prop :=
  match x.run st with
  | .ok _ t => t.busy = true ∧ Reaches (st.withSeq (p ++ k)) (t.withSeq k)
  | .error _ t => Reaches (st.withSeq (p ++ k)) t

theorem Follows.of_ok {st t : State} {p k : List Stmt} {x : Op α} {v : α} (hrun : x.run st = .ok v t) (hbusy : t.busy = true)
    (h : Reaches (st.withSeq (p ++ k)) (t.withSeq k)) : Follows st p x k := by
  unfold Follows
  rw [hrun]
  exact ⟨hbusy, h⟩

theorem Follows.of_error {st t : State} {p k : List Stmt} {x : Op α} {e : Stop} (hrun : x.run st = .error e t)
    (h : Reaches (st.withSeq (p ++ k)) t) : Follows st p x k := by
  unfold Follows
  rw [hrun]
  exact h

/-- One statement, after which the rest of `x` follows from `st'` with `q` to execute. -/
theorem Follows.step {st st' : State} {a : Stmt} {q k : List Stmt} {x y : Op α} (hbusy : st.busy = true)
    (hstep : (st.withSeq (a :: k)).stmtStep a k = st'.withSeq (q ++ k)) (hrun : x.run st = y.run st')
    (h : Follows st' q y k) : Follows st [a] x k := by
  have hhead : ∀ {t}, Reaches (st'.withSeq (q ++ k)) t → Reaches (st.withSeq ([a] ++ k)) t := fun hr =>
    .step hbusy (by show Reaches ((st.withSeq (a :: k)).stmtStep a k) _; rwa [hstep])
  unfold Follows at h ⊢
  rw [hrun]
  cases hy : y.run st' with
  | ok v t =>
    rw [hy] at h
    exact ⟨h.1, hhead h.2⟩
  | error e t =>
    rw [hy] at h
    exact hhead h

/-- One statement that does the whole of `x`. -/
theorem Follows.one {st t : State} {a : Stmt} {k : List Stmt} {x : Op α} {v : α} (hbusy : st.busy = true)
    (hrun : x.run st = .ok v t) (hkeep : t.busy = true) (hstep : (st.withSeq (a :: k)).stmtStep a k = t.withSeq k) :
    Follows st [a] x k :=
  .step (q := []) (y := pure v) hbusy hstep hrun (.of_ok (pure_run v t) hkeep (.refl _))

/-- One statement that ends the operation. -/
theorem Follows.stop {st t : State} {a : Stmt} {k : List Stmt} {x : Op α} {e : Stop} (hbusy : st.busy = true)
    (hrun : x.run st = .error e t) (hstep : (st.withSeq (a :: k)).stmtStep a k = t) : Follows st [a] x k :=
  .of_error hrun (.step hbusy (by show Reaches ((st.withSeq (a :: k)).stmtStep a k) t; rw [hstep]; exact .refl t))

/-- From every state of the running operation in `P`, whatever comes after. -/
def Sequenced (P : State → Prop) (p : List Stmt) (x : Op α) : Prop :=
  ∀ st k, P st → st.busy = true → Follows st p x k

theorem Sequenced.bind {p q : List Stmt} {x : Op α} {f : α → Op β} {R : α → State → Prop} (hx : Sequenced P p x)
    (hR : Triple P x R fun _ => True) (hf : ∀ a, Sequenced (R a) q (f a)) : Sequenced P (p ++ q) (x >>= f) := by
  intro st k hst hbusy
  have h1 := hx st (q ++ k) hst hbusy
  have h2 := hR st hst
  unfold Follows at h1
  cases hr : x.run st with
  | ok a t =>
    rw [hr] at h1 h2
    obtain ⟨hb, hreach⟩ := h1
    have h3 := hf a t k h2 hb
    rw [← List.append_assoc] at hreach
    unfold Follows at h3 ⊢
    rw [bind_ok hr]
    cases hfr : (f a).run t with
    | ok b u =>
      rw [hfr] at h3
      exact ⟨h3.1, hreach.trans h3.2⟩
    | error e u =>
      rw [hfr] at h3
      exact hreach.trans h3
  | error e t =>
    rw [hr, ← List.append_assoc] at h1
    exact .of_error (bind_error hr) h1

/-- `Sequenced.bind` where nothing need be known of the state between the two. -/
theorem Sequenced.andThen {p q : List Stmt} {x : Op α} {f : α → Op β} (hx : Sequenced P p x)
    (hf : ∀ a, Sequenced (fun _ => True) q (f a)) : Sequenced P (p ++ q) (x >>= f) := hx.bind triple_true hf

theorem Sequenced.weaken {p : List Stmt} {x : Op α} {P' : State → Prop} (h : Sequenced P' p x) (hP : ∀ st, P st → P' st) :
    Sequenced P p x := fun st k hst => h st k (hP st hst)

theorem sequenced_pure (a : α) : Sequenced P [] (pure a : Op α) := fun st _ _ hbusy =>
  .of_ok (pure_run a st) hbusy (.refl _)

/-- A statement that is an update of the state. -/
theorem sequenced_upd {a : Stmt} {f : State → State} (hbusy : ∀ st, (f st).busy = st.busy)
    (hstep : ∀ st k, P st → (st.withSeq (a :: k)).stmtStep a k = (f st).withSeq k) : Sequenced P [a] (upd f) :=
  fun st k hst hb => .one hb (upd_run f st) ((hbusy st).trans hb) (hstep st k hst)

/-- A statement that is replaced by others. -/
theorem Sequenced.expand {a : Stmt} {q : List Stmt} {x : Op α} (h : Sequenced P q x)
    (hstep : ∀ st k, P st → (st.withSeq (a :: k)).stmtStep a k = st.withSeq (q ++ k)) : Sequenced P [a] x :=
  fun st k hst hb => .step hb (hstep st k hst) rfl (h st k hst hb)

/-- A look at something the precondition fixes. -/
theorem Sequenced.look {γ : Type} {g : State → γ} {c : γ} {p : List Stmt} {f : γ → Op β} (hc : ∀ st, P st → g st = c)
    (h : Sequenced P p (f c)) : Sequenced P p (Machine.look g >>= f) := by
  intro st k hst hb
  have hrun : (Machine.look g >>= f).run st = (f c).run st := by rw [bind_ok (look_run g st), hc st hst]
  unfold Follows
  rw [hrun]
  exact h st k hst hb

theorem sequenced_finish (r : Result) : Sequenced P [.finish r] (finish r) := fun st _ _ hb => .stop hb (finish_run r st) rfl

theorem sequenced_drive : Sequenced P [.drive] drive := by
  refine sequenced_upd driveLine_busy fun st k _ => ?_
  show ({ (st.withSeq _).driveLine with seq := k } : State) = st.driveLine.withSeq k
  unfold State.driveLine
  by_cases h : st.driveLow = true
  · rw [if_pos h, if_pos (by exact h)]
    rfl
  · rw [if_neg h, if_neg (by exact h)]
    rfl

theorem sequenced_release : Sequenced P [.release] release := by
  refine sequenced_upd releaseLine_busy fun st k _ => ?_
  show ({ (st.withSeq _).releaseLine with seq := k } : State) = st.releaseLine.withSeq k
  unfold State.releaseLine
  by_cases h : st.driveLow = true
  · rw [if_pos h, if_pos (by exact h)]
    rfl
  · rw [if_neg h, if_neg (by exact h)]
    rfl

/-! ### `Wait` -/

/-- A hardware reset forgets where the sequencer stood. -/
theorem hwReset_withSeq (st : State) (q : List Stmt) : (st.withSeq q).hwReset = st.hwReset := by
  have hrel : (st.withSeq q).releaseLine = st.releaseLine.withSeq q := by
    unfold State.releaseLine
    by_cases h : st.driveLow = true
    · rw [if_pos h, if_pos (by exact h)]
      rfl
    · rw [if_neg h, if_neg (by exact h)]
  unfold State.hwReset
  rw [hrel]
  rfl

/-- A read while an operation runs does not see where the sequencer stands. -/
theorem readBusy_withSeq (st : State) (q : List Stmt) (a : HostAddr) :
    (st.withSeq q).readBusy a = ((st.readBusy a).1, (st.readBusy a).2.withSeq q) := by
  unfold State.readBusy
  generalize a.toNat = n
  match n with
  | 0 | 1 | 2 | 3 | 4 | 5 | 6 | 7 => rfl
  | _ + 8 => rfl

/-- Any other host access during an operation leaves the sequencer where it stands. -/
theorem busyAct_withSeq {st : State} (hbusy : st.busy = true) (q : List Stmt) {act : HostAct} (h : act ≠ .hwReset) :
    (st.withSeq q).busyAct act = (st.busyAct act).withSeq q := by
  cases act with
  | read a =>
    have hread : ∀ {u : State}, u.busy = true →
        u.hostRead a = { (u.readBusy a).2 with answers := ⟨u.clock, a, (u.readBusy a).1⟩ :: (u.readBusy a).2.answers } := by
      intro u hu
      rw [State.hostRead, if_pos hu]
    show (st.withSeq q).hostRead a = (st.hostRead a).withSeq q
    rw [hread hbusy, hread (u := st.withSeq q) hbusy, readBusy_withSeq]
    rfl
  | write a w =>
    show (if a.toNat = 0 ∨ a.toNat = 1 then (st.withSeq q).refuse else st.withSeq q) =
      (if a.toNat = 0 ∨ a.toNat = 1 then st.refuse else st).withSeq q
    split <;> rfl
  | hwReset => exact absurd rfl h
  | hwRelease => rfl

theorem busyAct_busy (st : State) {act : HostAct} (h : act ≠ .hwReset) : (st.busyAct act).busy = st.busy :=
  (congrArg State.busy (busyAct_noHost st h).1 :)

theorem busyAct_clock (st : State) {act : HostAct} (h : act ≠ .hwReset) : (st.busyAct act).clock = st.clock :=
  (congrArg State.clock (busyAct_noHost st h).1 :)

/-- A `Wait` in which no host action is due ends. -/
theorem waitStep_ends {s : State} {n : Nat} (k : List Stmt) (h : ∀ e ∈ s.host.head?, ¬ e.tick < s.clock + n) :
    s.waitStep n k = { s with clock := s.clock + n, seq := k } := by
  unfold State.waitStep
  cases hhost : s.host with
  | nil => rfl
  | cons e es => exact if_neg (h e (by rw [hhost]; rfl))

/-- A `Wait` in which a host action is due serves it. -/
theorem waitStep_serves {s : State} {n : Nat} {e : HostEvent} {es : List HostEvent} (k : List Stmt) (hhost : s.host = e :: es)
    (hlt : e.tick < s.clock + n) :
    s.waitStep n k = ((s.arrive e es).withSeq (.wait (s.clock + n - max s.clock e.tick) :: k)).busyAct e.act := by
  unfold State.waitStep
  rw [hhost]
  exact if_pos hlt

theorem serveUntil_ends {till : Nat} {es : List HostEvent} (st : State) (h : ∀ e ∈ es.head?, ¬ e.tick < till) :
    serveUntil till es st = .ok () { st with clock := till, host := es } := by
  cases es with
  | nil => rfl
  | cons e es => exact if_neg (h e rfl)

/-- Where no host action is due, `Wait` and `serveUntil` let the time pass. -/
theorem waitFollows_ends {st : State} {n : Nat} (k : List Stmt) (hbusy : st.busy = true)
    (h : ∀ e ∈ st.host.head?, ¬ e.tick < st.clock + n) : Follows st [.wait n] (serveUntil (st.clock + n) st.host) k :=
  .one hbusy (serveUntil_ends st h) hbusy (waitStep_ends k h)

/-- The sequencer's `Wait` serves the host's actions as `serveUntil` does, one at a time. -/
theorem serveUntil_follows {till : Nat} (k : List Stmt) (es : List HostEvent) {st : State} {n : Nat} (hhost : st.host = es)
    (htill : st.clock + n = till) (hbusy : st.busy = true) : Follows st [.wait n] (serveUntil till es) k := by
  induction es generalizing st n with
  | nil =>
    rw [← htill, ← hhost]
    exact waitFollows_ends k hbusy (by rw [hhost]; simp)
  | cons e es ih =>
    by_cases hlt : e.tick < till
    · have hserve : (st.withSeq (.wait n :: k)).stmtStep (.wait n) k =
          ((st.arrive e es).withSeq (.wait (st.clock + n - max st.clock e.tick) :: k)).busyAct e.act :=
        waitStep_serves (s := st.withSeq (.wait n :: k)) k hhost (by rw [← htill] at hlt; exact hlt)
      by_cases hreset : e.act = .hwReset
      · have hrun : serveUntil till (e :: es) st = .error .hardReset (st.arrive e es).hwReset := by
          simp only [serveUntil, if_pos hlt, hreset, if_true]
          rfl
        refine .stop hbusy hrun ?_
        rw [hserve, hreset]
        exact hwReset_withSeq _ _
      · have hrun : serveUntil till (e :: es) st = serveUntil till es ((st.arrive e es).busyAct e.act) := by
          simp only [serveUntil, if_pos hlt, if_neg hreset]
        refine .step (q := [.wait (st.clock + n - max st.clock e.tick)]) hbusy ?_ hrun (ih ?_ ?_ ?_)
        · exact hserve.trans (busyAct_withSeq (st := st.arrive e es) hbusy _ hreset)
        · exact (busyAct_noHost _ hreset).2.1
        · rw [busyAct_clock _ hreset, htill]
          show max st.clock e.tick + _ = till
          omega
        · exact (busyAct_busy _ hreset).trans hbusy
    · rw [← htill, ← hhost]
      refine waitFollows_ends k hbusy fun x hx => ?_
      rw [hhost] at hx
      cases hx
      rwa [htill]

theorem sequenced_wait (n : Nat) : Sequenced P [.wait n] (wait n) := fun st k _ hb =>
  serveUntil_follows (st := st) k st.host rfl rfl hb

/-! ### Slots -/

/-- 40_timeslot R131. -/
theorem sequenced_writeSlot {c : Config} (b : Bool) :
    Sequenced (fun st => st.cfg = c) (writeSlotStmts c b) (writeSlot b) := by
  refine .look (fun _ h => h) ?_
  have hend : Sequenced (fun _ => True) [.wait (Config.tSlot - c.tWLow), .release, .wait c.tRec]
      (wait (Config.tSlot - c.tWLow) >>= fun _ => release >>= fun _ => wait c.tRec) :=
    (sequenced_wait _).andThen (q := [_, _]) fun _ => sequenced_release.andThen (q := [_]) fun _ => sequenced_wait _
  cases b
  · exact sequenced_drive.andThen (q := [_, _, _, _]) fun _ => (sequenced_wait _).andThen (q := [_, _, _]) fun _ =>
      (sequenced_pure ()).andThen (q := [_, _, _]) fun _ => hend
  · exact sequenced_drive.andThen (q := [_, _, _, _, _]) fun _ => (sequenced_wait _).andThen (q := [_, _, _, _]) fun _ =>
      sequenced_release.andThen (q := [_, _, _]) fun _ => hend

/-- `Sample()` and the update that latches its value, as the one statement they are to the sequencer: by definition
`sample >>= fun x => upd (f x) >>= fun _ => g x` is `latch f >>= g`. -/
def latch (f : Bool → State → State) : Op Bool := fun st => .ok st.lineIn (f st.lineIn st.noteSample)

theorem sequenced_sampleData : Sequenced P [.sampleData] (latch fun x st => id { st with s := x }) :=
  fun _ _ _ hb => .one hb rfl hb rfl

theorem sequenced_sampleEnd : Sequenced P [.sampleEnd] (latch fun y st => { st with e := y }) :=
  fun _ _ _ hb => .one hb rfl hb rfl

/-- 40_timeslot R132; `atSample` is what the statements `q` after the data sample do. -/
theorem sequenced_readSlot {c : Config} {q : List Stmt} {atSample : State → State}
    (h : Sequenced (fun _ => True) (.sampleData :: q) (latch fun x st => atSample { st with s := x })) :
    Sequenced (fun st => st.cfg = c) (readSlotStmts c q) (readSlot atSample) := by
  refine .look (fun _ h => h) ?_
  have hend : ∀ x : Bool, Sequenced (fun _ => True) [.wait (Config.tSlot - c.tRLow - c.tRSample), .sampleEnd]
      (wait (Config.tSlot - c.tRLow - c.tRSample) >>= fun _ =>
        latch (fun y st => { st with e := y }) >>= fun y => pure (x, slotResult y)) := fun x =>
    (sequenced_wait _).andThen (q := [_]) fun _ => sequenced_sampleEnd.andThen (q := []) fun y => sequenced_pure _
  have hslot : readSlotStmts c q = [.drive] ++ ([.wait c.tRLow] ++ ([.release] ++ ([.wait c.tRSample] ++
      (.sampleData :: q ++ [.wait (Config.tSlot - c.tRLow - c.tRSample), .sampleEnd])))) := by
    simp [readSlotStmts]
  rw [hslot]
  exact sequenced_drive.andThen fun _ => (sequenced_wait _).andThen fun _ => sequenced_release.andThen fun _ =>
    (sequenced_wait _).andThen fun _ => h.andThen fun x => hend x

end Sys2Proof.Machine
end

section
/-! PROOFS. The sequencer through the sequences: octets, the reset sequence, a search (10_state R38). -/

namespace Sys2Proof.Machine

variable {α β : Type} {P : State → Prop}

/-! ### What is known between the statements -/

/-- What only the host, the line and the time of a `Wait` could change, were it visible, stays. -/
theorem triple_wait_keeps {I : State → Prop} (n : Nat) (hhost : ∀ st : State, I st.noHost ↔ I st := by exact fun _ => Iff.rfl)
    (htime : ∀ (st : State) k, I st → I { st with clock := k } := by exact fun _ _ h => h) :
    Triple I (wait n) (fun _ => I) fun _ => True := by
  refine triple_wait n (fun st k es h => ?_) (fun st _ ha h => ?_) fun _ _ => trivial
  · exact (hhost _).1 ((hhost { st with clock := k }).2 (htime st k h))
  · rw [← hhost, (busyAct_noHost st ha).1, hhost]
    exact h

/-- A frame without updates. -/
theorem unseen_line {γ : Type} {g : State → γ}
    (hline : ∀ (st : State) l d n tr, g { st with line := l, driveLow := d, clock := n, trace := tr } = g st := by intros; rfl)
    (hfinish : ∀ (r : Result) st, g (st.finish r) = g st := by intros; rfl)
    (hnoHost : ∀ st : State, g st.noHost = g st := by intros; rfl) : Unseen (fun _ => False) g :=
  ⟨fun _ hf => hf.elim, fun _ hf => hf.elim, hline, hfinish, hnoHost⟩

/-- `Built` code keeps the value of a frame. -/
theorem Built.keeps_frame {Q : (State → State) → Prop} {γ : Type} {g : State → γ} {a : γ} {x : Op α} (h : Built Q x)
    (u : Unseen Q g) : Triple (fun st => g st = a) x (fun _ st => g st = a) fun _ => True :=
  h.frame_triple u (fun _ _ h e => e.trans h) (fun _ _ _ => trivial) fun _ _ => trivial

/-- What a read slot returns is what it leaves in `s` and `e`. -/
theorem readSlot_latched {f : State → State} (hf : ∀ st, (f st).s = st.s) :
    Triple P (readSlot f) (fun x st => x = (st.s, slotResult st.e)) fun _ => True := by
  refine triple_bind _ triple_true fun c => triple_bind _ triple_true fun _ => triple_bind _ triple_true fun _ => ?_
  refine triple_bind _ triple_true fun _ => triple_bind _ triple_true fun _ => triple_bind _ triple_true fun x => ?_
  refine triple_bind (fun _ st => st.s = x) (triple_upd fun st _ => hf _) fun _ => ?_
  refine triple_bind _ (triple_wait_keeps _) fun _ => triple_bind (fun _ st => st.s = x) (triple_sample fun _ h => h) fun y => ?_
  refine triple_bind (fun _ st => st.s = x ∧ st.e = y) (triple_upd fun _ h => ⟨h, rfl⟩) fun _ => ?_
  exact triple_pure fun st ⟨hx, hy⟩ => by rw [hx, hy]

theorem unseen_slot {γ : Type} {g : State → γ} (hs : ∀ (st : State) x, g { st with s := x } = g st := by intros; rfl)
    (he : ∀ (st : State) x, g { st with e := x } = g st := by intros; rfl)
    (hline : ∀ (st : State) l d n tr, g { st with line := l, driveLow := d, clock := n, trace := tr } = g st := by intros; rfl)
    (hfinish : ∀ (r : Result) st, g (st.finish r) = g st := by intros; rfl)
    (hnoHost : ∀ st : State, g st.noHost = g st := by intros; rfl) : Unseen (SlotUpd id) g where
  upd := fun f hf st => by
    cases hf with
    | data x => exact hs st x
    | slotEnd x => exact he st x
  host := fun f hf st => by
    obtain ⟨_, _, h⟩ := slotUpd_shape hf st
    rw [h]
  lineTo := hline
  finish := hfinish
  noHost := hnoHost

/-- A read slot: its value is latched, and a frame that does not see the latches is kept. -/
theorem readSlot_keeps {γ : Type} {g : State → γ} {a : γ} (u : Unseen (SlotUpd id) g) :
    Triple (fun st => g st = a) (readSlot id) (fun x st => x = (st.s, slotResult st.e) ∧ g st = a) fun _ => True :=
  triple_conseq (triple_and (readSlot_latched fun _ => rfl) ((built_readSlot id).keeps_frame u)) (fun _ h => h)
    (fun _ _ h => h) fun _ _ => trivial

/-! ### Loops -/

/-- A loop whose body begins with its index is one whose body ends with the next index. -/
theorem forUp_shift (a : Nat → State → State) (body : Nat → Op Unit) (s n : Nat) :
    (forUp (fun k => upd (a k) >>= fun _ => body k) s n >>= fun _ => upd (a (s + n))) =
      upd (a s) >>= fun _ => forUp (fun k => body k >>= fun _ => upd (a (k + 1))) s n := by
  induction n generalizing s with
  | zero => rfl
  | succ n ih =>
    rw [forUp_succ, forUp_succ, bind_assoc, bind_assoc, show s + (n + 1) = s + 1 + n by omega, ih]
    simp only [bind_assoc]

/-- The statement `a` that heads a loop: with `N` iterations done it is used up, before that it puts the statements of the
next iteration before itself. -/
theorem sequenced_loop {a : Stmt} {N : Nat} {I : Nat → State → Prop} {body : Nat → Op Unit} (q : Nat → List Stmt)
    (hexit : ∀ st k, I N st → (st.withSeq (a :: k)).stmtStep a k = st.withSeq k)
    (henter : ∀ j < N, ∀ st k, I j st → (st.withSeq (a :: k)).stmtStep a k = st.withSeq (q j ++ [a] ++ k))
    (hbody : ∀ j < N, Sequenced (I j) (q j) (body j))
    (hkeep : ∀ j < N, Triple (I j) (body j) (fun _ => I (j + 1)) fun _ => True) (n : Nat) {j : Nat} (hj : j + n = N) :
    Sequenced (I j) [a] (forUp body j n) := by
  induction n generalizing j with
  | zero =>
    obtain rfl : j = N := hj
    exact (sequenced_pure ()).expand hexit
  | succ n ih =>
    have hlt : j < N := by omega
    exact ((hbody j hlt).bind (hkeep j hlt) fun _ => ih (by omega)).expand (henter j hlt)

/-! ### Octets -/

theorem ofNat4_succ (k : Nat) : BitVec.ofNat 4 k + 1#4 = BitVec.ofNat 4 (k + 1) := (BitVec.ofNat_add k 1).symm

theorem toNat_ofNat4 {k : Nat} (h : k ≤ 8) : (BitVec.ofNat 4 k).toNat = k := by
  rw [BitVec.toNat_ofNat]
  omega

/-- The head of an octet loop: `i` is the iteration. -/
def State.octetAt (c : Config) (k : Nat) (st : State) : Prop := (st.i, st.cfg) = (BitVec.ofNat 4 k, c)

theorem State.octetAt.index {c : Config} {k : Nat} {st : State} (h : st.octetAt c k) (hk : k ≤ 8) : st.i.toNat = k := by
  rw [show st.i = BitVec.ofNat 4 k from congrArg Prod.fst h, toNat_ofNat4 hk]

theorem State.octetAt.cfg {c : Config} {k : Nat} {st : State} (h : st.octetAt c k) : st.cfg = c := congrArg Prod.snd h

/-- `i <- 0`. -/
theorem sequenced_octetStart {f : Unit → Op α} {c : Config} {q : List Stmt} (h : Sequenced (State.octetAt c 0) q (f ())) :
    Sequenced (fun st => st.cfg = c) (.octetStart :: q) (upd (State.setI 0) >>= f) :=
  (sequenced_upd (f := State.setI 0) (fun _ => rfl) fun _ _ _ => rfl).bind (p := [_]) (R := fun _ => State.octetAt c 0)
    (triple_upd fun _ h => by rw [State.octetAt, setI_i, setI_cfg, h]) fun _ => h

/-- The end of an iteration. -/
theorem sequenced_octetNext {c : Config} (k : Nat) :
    Sequenced (State.octetAt c k) [.octetNext] (upd (State.setI (k + 1))) :=
  sequenced_upd (fun _ => rfl) fun st _ h => by
    show ({ st with i := st.i + 1#4, seq := _ } : State) = { st with i := BitVec.ofNat 4 (k + 1), seq := _ }
    rw [show st.i = BitVec.ofNat 4 k from congrArg Prod.fst h, ofNat4_succ]

theorem octetNext_keeps {c : Config} (k : Nat) :
    Triple (State.octetAt c k) (upd (State.setI (k + 1))) (fun _ => State.octetAt c (k + 1)) fun _ => True :=
  triple_upd fun _ h => by rw [State.octetAt, setI_i, setI_cfg, h.cfg]

theorem writeSlot_octetAt {c : Config} (k : Nat) (b : Bool) :
    Triple (State.octetAt c k) (writeSlot b) (fun _ => State.octetAt c k) fun _ => True :=
  (built_writeSlot b).keeps_frame (g := fun st => (st.i, st.cfg)) unseen_line

/-- `WriteOctetSeq`, 41_transaction R162. -/
theorem sequenced_writeOctetSeq {c : Config} (byte : Byte) :
    Sequenced (fun st => st.cfg = c) (writeOctetStmts byte) (writeOctetSeq byte) := by
  have hshift : writeOctetSeq byte = upd (State.setI 0) >>= fun _ =>
      forUp (fun k => writeSlot (byte.getLsbD k) >>= fun _ => upd (State.setI (k + 1))) 0 8 :=
    forUp_shift State.setI (fun k => writeSlot (byte.getLsbD k)) 0 8
  rw [hshift]
  refine sequenced_octetStart (sequenced_loop (N := 8) (fun j => writeSlotStmts c (byte.getLsbD j) ++ [.octetNext])
    (fun st k h => ?_) (fun j hj st k h => ?_) (fun j _ => ?_) (fun j _ => ?_) 8 rfl)
  · exact if_pos (h.index le_rfl)
  · refine (if_neg (show ¬ st.i.toNat = 8 by rw [h.index hj.le]; omega)).trans ?_
    show st.withSeq (writeSlotStmts st.cfg (byte.getLsbD st.i.toNat) ++ .octetNext :: .octetSend byte :: k) = _
    rw [h.index hj.le, h.cfg, List.append_assoc, List.append_assoc]
    rfl
  · exact ((sequenced_writeSlot _).weaken fun _ h => h.cfg).bind (writeSlot_octetAt j _) fun _ => sequenced_octetNext j
  · exact triple_bind _ (writeSlot_octetAt j _) fun _ => octetNext_keeps j

/-- One slot of READ_OCTET after its index is set. -/
def receiveSlot (k : Nat) : Op Unit :=
  readSlot id >>= fun x => upd (State.orData k) >>= fun _ =>
    if x.2 = .ok then pure () else upd State.anyData >>= fun _ => finish .commError

/-- The OR into `DATA`, and the abort (41_transaction R166). -/
theorem sequenced_octetLatch {c : Config} {k : Nat} (hk : k ≤ 8) (x : Bool × Result) :
    Sequenced (fun st => x = (st.s, slotResult st.e) ∧ st.octetAt c k) [.octetLatch] (upd (State.orData k) >>= fun _ =>
      if x.2 = .ok then pure () else upd State.anyData >>= fun _ => finish .commError) := by
  rintro st q ⟨rfl, hi⟩ hb
  have hindex := hi.index hk
  cases he : st.e with
  | true =>
    refine .one hb (bind_ok (upd_run _ _)) hb ?_
    refine (if_pos he).trans ?_
    show ({ st.orData st.i.toNat with seq := q } : State) = _
    rw [hindex]
    rfl
  | false =>
    refine .stop hb (e := .finished) (bind_ok (upd_run _ _)) ?_
    refine (if_neg fun h => Bool.noConfusion (he.symm.trans h)).trans ?_
    show ((st.withSeq _).orData st.i.toNat).anyData.finish .commError = _
    rw [hindex]
    rfl

theorem receiveSlot_octetAt {c : Config} (k : Nat) :
    Triple (State.octetAt c k) (receiveSlot k) (fun _ => State.octetAt c k) fun _ => True := by
  have hg : ∀ f : State → State, f = State.orData k ∨ f = State.anyData ∨ SlotUpd id f →
      (∀ st, ((f st).i, (f st).cfg) = (st.i, st.cfg)) ∧ ∀ st, (f st).host = st.host := by
    rintro f (rfl | rfl | hf)
    · exact ⟨fun _ => rfl, fun _ => rfl⟩
    · exact ⟨fun _ => rfl, fun _ => rfl⟩
    · exact ⟨fun st => by obtain ⟨_, _, h⟩ := slotUpd_shape hf st; rw [h],
        fun st => by obtain ⟨_, _, h⟩ := slotUpd_shape hf st; rw [h]⟩
  have hbuilt : Built (fun f => f = State.orData k ∨ f = State.anyData ∨ SlotUpd id f) (receiveSlot k) :=
    .bind ((built_readSlot id).mono fun _ h => .inr (.inr h)) fun _ => .bind (.upd (.inl rfl)) fun _ =>
      built_ite _ (.pure _) (.bind (.upd (.inr (.inl rfl))) fun _ => .finish _)
  exact hbuilt.keeps_frame (g := fun st => (st.i, st.cfg))
    ⟨fun f hf => (hg f hf).1, fun f hf => (hg f hf).2, fun _ _ _ _ _ => rfl, fun _ _ => rfl, fun _ => rfl⟩

theorem sequenced_receiveSlot {c : Config} {k : Nat} (hk : k ≤ 8) :
    Sequenced (State.octetAt c k) (readSlotStmts c [] ++ [.octetLatch]) (receiveSlot k) :=
  ((sequenced_readSlot sequenced_sampleData).weaken fun _ h => h.cfg).bind
    (readSlot_keeps (g := fun st => (st.i, st.cfg)) unseen_slot) fun x => sequenced_octetLatch hk x

/-- READ_OCTET's statements, 41_transaction R166. -/
theorem sequenced_readOctetBody {c : Config} :
    Sequenced (fun st => st.cfg = c) [.clearData, .octetStart, .octetReceive] readOctetBody := by
  have hshift : (forUp receiveBit 0 8 >>= fun _ => upd (State.setI 8)) = upd (State.setI 0) >>= fun _ =>
      forUp (fun k => receiveSlot k >>= fun _ => upd (State.setI (k + 1))) 0 8 := forUp_shift State.setI receiveSlot 0 8
  unfold readOctetBody
  rw [hshift]
  refine (sequenced_upd (f := fun st => { st with data := 0#8 }) (fun _ => rfl) fun _ _ _ => rfl).bind (p := [_])
    (R := fun _ st => st.cfg = c)
    (triple_upd fun _ h => h) fun _ => sequenced_octetStart (sequenced_loop (N := 8)
      (fun j => readSlotStmts c [] ++ [.octetLatch] ++ [.octetNext])
      (fun st k h => ?_) (fun j hj st k h => ?_) (fun j hj => ?_) (fun j _ => ?_) 8 rfl)
  · exact if_pos (h.index le_rfl)
  · refine (if_neg (show ¬ st.i.toNat = 8 by rw [h.index hj.le]; omega)).trans ?_
    show st.withSeq (readSlotStmts st.cfg [] ++ .octetLatch :: .octetNext :: .octetReceive :: k) = _
    rw [h.cfg, List.append_assoc, List.append_assoc]
    rfl
  · exact (sequenced_receiveSlot hj.le).bind (receiveSlot_octetAt j) fun _ => sequenced_octetNext j
  · exact triple_bind _ (receiveSlot_octetAt j) fun _ => octetNext_keeps j

/-! ### The reset sequence -/

/-- A phase of the reset sequence: where `y` says no, the operation ends with `r`. -/
def guarded (y : Op Bool) (r : Result) : Op Unit := y >>= fun b => finishIf (!b) r

/-- A Result other than `Ok` ends the operation. -/
def orFinish (r : Result) : Op Unit := finishIf (r ≠ .ok) r

theorem orFinish_of_ne {r : Result} (hr : r ≠ .ok) : orFinish r = finish r := by
  unfold orFinish
  rw [decide_eq_true hr]
  rfl

/-- `ResetSeq` as its callers use it. -/
def resetOrFinish : Op Unit := resetSeq >>= orFinish

/-- A phase that says no with a Result other than `Ok` ends the operation with it. -/
theorem guarded_bind (y : Op Bool) (x : Op Result) {r : Result} (hr : r ≠ .ok) :
    (y >>= fun b => (if b = true then x else pure r) >>= orFinish) = guarded y r >>= fun _ => x >>= orFinish := by
  unfold guarded
  rw [bind_assoc]
  congr 1
  funext b
  cases b with
  | true => rfl
  | false => exact orFinish_of_ne hr

theorem floatLoop_waits (fuel : Nat) {st : State} (h : st.lineIn = false) (hn : st.nFloat.toNat ≠ st.cfg.floatTimeoutUs) :
    (guarded (floatLoop (fuel + 1)) .commError).run st =
      (wait 1 >>= fun _ => upd State.countFloat >>= fun _ => guarded (floatLoop fuel) .commError).run st.noteSample := by
  have hloop : (floatLoop (fuel + 1)).run st =
      (wait 1 >>= fun _ => upd State.countFloat >>= fun _ => floatLoop fuel).run st.noteSample := by
    conv => lhs; unfold floatLoop
    rw [bind_ok (sample_run _), h]
    refine (bind_ok (look_run _ _)).trans ?_
    rw [show decide (st.noteSample.nFloat.toNat = st.noteSample.cfg.floatTimeoutUs) = false from decide_eq_false hn]
    rfl
  unfold guarded
  rw [bind_run, hloop, ← bind_run]
  simp only [bind_assoc]

/-- Step 2 of `ResetSeq`. -/
theorem sequenced_floatLoop (fuel : Nat) :
    Sequenced (fun st => st.nFloat.toNat + fuel = st.cfg.floatTimeoutUs + 1 ∧ 0 < fuel) [.floatTest]
      (guarded (floatLoop fuel) .commError) := by
  induction fuel with
  | zero => exact fun _ _ h => absurd h.2 (lt_irrefl 0)
  | succ fuel ih =>
    rintro st k ⟨hn, -⟩ hb
    by_cases hline : st.lineIn = true
    · exact .one (v := ()) (t := st.noteSample) hb (bind_ok (floatLoop_high fuel hline)) hb (if_pos hline)
    have hlow : st.lineIn = false := Bool.eq_false_of_not_eq_true hline
    by_cases hout : st.nFloat.toNat = st.cfg.floatTimeoutUs
    · exact .stop hb (bind_ok (floatLoop_last fuel hlow hout)) ((if_neg hline).trans (if_pos hout))
    · have hmax := st.cfg.floatTimeoutUs_range.2
      refine .step (st' := st.noteSample) (q := [.wait 1, .floatNext, .floatTest]) hb ((if_neg hline).trans (if_neg hout))
        (floatLoop_waits fuel hlow hout) ?_
      have hnext : Sequenced (fun st => st.nFloat.toNat + (fuel + 1) = st.cfg.floatTimeoutUs + 1 ∧ 0 < fuel)
          [.wait 1, .floatNext, .floatTest]
          (wait 1 >>= fun _ => upd State.countFloat >>= fun _ => guarded (floatLoop fuel) .commError) := by
        refine (sequenced_wait 1).bind (p := [_]) (triple_wait_keeps 1) fun _ => ?_
        refine (sequenced_upd (f := State.countFloat) (fun _ => rfl) fun _ _ _ => rfl).bind (p := [_])
          (triple_upd fun u h => ?_) fun _ => ih
        have := u.cfg.floatTimeoutUs_range.2
        refine ⟨?_, h.2⟩
        rw [countFloat_nFloat, countFloat_cfg, BitVec.toNat_add, show (1#8).toNat = 1 from rfl]
        omega
      exact hnext st.noteSample k ⟨hn, by have : st.nFloat.toNat + (fuel + 1) = st.cfg.floatTimeoutUs + 1 := hn; omega⟩ hb

/-- A quarter counted by `f` once its `Wait` is done: beyond the bound the operation ends with `r`. -/
def countQuarter (f : State → State) (beyond : State → Bool) (r : Result) : Op Unit :=
  upd f >>= fun _ => look beyond >>= fun d => finishIf d r

theorem countQuarter_within {f : State → State} {beyond : State → Bool} (r : Result) {st : State} (h : beyond (f st) = false) :
    (countQuarter f beyond r).run st = .ok () (f st) := by
  refine (bind_ok (upd_run f st)).trans ((bind_ok (look_run beyond _)).trans ?_)
  rw [h]
  rfl

theorem countQuarter_beyond {f : State → State} {beyond : State → Bool} (r : Result) {st : State} (h : beyond (f st) = true) :
    (countQuarter f beyond r).run st = .error .finished ((f st).finish r) := by
  refine (bind_ok (upd_run f st)).trans ((bind_ok (look_run beyond _)).trans ?_)
  rw [h]
  rfl

/-- Steps 3 and 4 of `ResetSeq` are one loop: while the line reads `level`, a quarter is waited for, counted by `f` in `count`
and compared with `bound`. The statement `head` is the loop's test, `next` the count. -/
structure QuarterPhase (level : Bool) (loop : Nat → Op Bool) (head next : Stmt) (f : State → State) (count : State → Byte)
    (bound : Config → Nat) (r : Result) : Prop where
  stops : ∀ fuel (st : State), st.lineIn ≠ level → (loop (fuel + 1)).run st = .ok true st.noteSample
  waits : ∀ fuel (st : State), st.lineIn = level → (loop (fuel + 1)).run st =
    (wait Config.tQ >>= fun _ => upd f >>= fun _ => look (fun st => decide ((count st).toNat > bound st.cfg)) >>= fun d =>
      if d = true then pure false else loop fuel).run st.noteSample
  headStep : ∀ (st : State) k, (st.withSeq (head :: k)).stmtStep head k =
    if st.lineIn = level then st.noteSample.withSeq (.wait Config.tQ :: next :: head :: k) else st.noteSample.withSeq k
  nextStep : ∀ (st : State) k, (st.withSeq (next :: k)).stmtStep next k =
    if (count (f st)).toNat > bound (f st).cfg then (f st).finish r else (f st).withSeq k
  counts : ∀ st, count (f st) = count st + 1#8
  cfg : ∀ st, (f st).cfg = st.cfg
  busy : ∀ st, (f st).busy = st.busy
  sample : ∀ st : State, count st.noteSample = count st
  time : ∀ (st : State) k, count { st with clock := k } = count st
  noHost : ∀ st : State, count st.noHost = count st
  bound_le : ∀ c, bound c ≤ 254

theorem highPhase : QuarterPhase true highLoop .highTest .highNext State.countHigh State.presHighQ Config.presHighMaxQ
    .noDevices where
  stops := fun fuel st h => highLoop_low fuel (Bool.eq_false_of_not_eq_true h)
  waits := fun fuel st h => by
    conv => lhs; unfold highLoop
    rw [bind_ok (sample_run _), h]
    rfl
  headStep := fun _ _ => rfl
  nextStep := fun _ _ => rfl
  counts := countHigh_presHighQ
  cfg := countHigh_cfg
  busy := countHigh_busy
  sample := fun _ => rfl
  time := fun _ _ => rfl
  noHost := noHost_presHighQ
  bound_le := fun c => c.presHighMaxQ_range.2

theorem lowPhase : QuarterPhase false lowLoop .lowTest .lowNext State.countLow State.presLowQ Config.presLowMaxQ
    .commError where
  stops := fun fuel st h => lowLoop_high fuel (Bool.eq_true_of_not_eq_false h)
  waits := fun fuel st h => by
    conv => lhs; unfold lowLoop
    rw [bind_ok (sample_run _), h]
    rfl
  headStep := fun st k => by
    show (if st.lineIn = true then _ else _) = _
    cases st.lineIn <;> rfl
  nextStep := fun _ _ => rfl
  counts := countLow_presLowQ
  cfg := countLow_cfg
  busy := countLow_busy
  sample := fun _ => rfl
  time := fun _ _ => rfl
  noHost := noHost_presLowQ
  bound_le := fun c => c.presLowMaxQ_range.2

section

variable {level : Bool} {loop : Nat → Op Bool} {head next : Stmt} {f : State → State} {count : State → Byte}
  {bound : Config → Nat} {r : Result} (phase : QuarterPhase level loop head next f count bound r)

/-- The bound's test. -/
def beyondBound (count : State → Byte) (bound : Config → Nat) (st : State) : Bool := decide ((count st).toNat > bound st.cfg)

include phase

theorem QuarterPhase.guarded_waits (fuel : Nat) {st : State} (h : st.lineIn = level) :
    (guarded (loop (fuel + 1)) r).run st = (wait Config.tQ >>= fun _ => countQuarter f (beyondBound count bound) r >>= fun _ =>
      guarded (loop fuel) r).run st.noteSample := by
  unfold guarded countQuarter
  rw [bind_run, phase.waits fuel st h, ← bind_run]
  simp only [bind_assoc]
  congr 3
  funext _
  congr 1
  funext _
  congr 1
  funext d
  cases d <;> rfl

theorem QuarterPhase.sequenced_next : Sequenced P [next] (countQuarter f (beyondBound count bound) r) := by
  intro st k _ hb
  by_cases h : (count (f st)).toNat > bound (f st).cfg
  · exact .stop hb (countQuarter_beyond r (decide_eq_true h)) ((phase.nextStep st k).trans (if_pos h))
  · exact .one hb (countQuarter_within r (decide_eq_false h)) ((phase.busy st).trans hb)
      ((phase.nextStep st k).trans (if_neg h))

theorem QuarterPhase.next_keeps (fuel : Nat) :
    Triple (fun st => (count st).toNat + (fuel + 1) = bound st.cfg + 1) (countQuarter f (beyondBound count bound) r)
      (fun _ st => (count st).toNat + fuel = bound st.cfg + 1 ∧ 0 < fuel) fun _ => True := by
  refine triple_bind (fun _ st => (count st).toNat + fuel = bound st.cfg + 1) (triple_upd fun st h => ?_) fun _ =>
    triple_bind (fun d st => (count st).toNat + fuel = bound st.cfg + 1 ∧ (d = false → 0 < fuel)) (triple_look fun st h => ⟨h, ?_⟩)
      fun d => triple_finishIf (fun _ _ _ => trivial) fun hd _ h => ⟨h.1, h.2 hd⟩
  · have := phase.bound_le st.cfg
    rw [phase.counts, phase.cfg, BitVec.toNat_add, show (1#8).toNat = 1 from rfl]
    omega
  · intro hd
    have := of_decide_eq_false hd
    omega

/-- The loop; its precondition says that the bound stops it before its `fuel` is used up. -/
theorem QuarterPhase.sequenced_loop (fuel : Nat) :
    Sequenced (fun st => (count st).toNat + fuel = bound st.cfg + 1 ∧ 0 < fuel) [head] (guarded (loop fuel) r) := by
  induction fuel with
  | zero => exact fun _ _ h => absurd h.2 (lt_irrefl 0)
  | succ fuel ih =>
    intro st k hst hb
    by_cases hline : st.lineIn = level
    · refine .step (st' := st.noteSample) (q := [.wait Config.tQ, next, head]) hb ((phase.headStep st k).trans (if_pos hline))
        (phase.guarded_waits fuel hline) ?_
      refine (sequenced_wait (P := fun st => (count st).toNat + (fuel + 1) = bound st.cfg + 1) _).bind (p := [_])
        (triple_wait_keeps _ (fun st => ?_) fun st k h => ?_) (fun _ => ?_) st.noteSample k ?_ hb
      · rw [phase.noHost, noHost_cfg]
      · rw [phase.time]
        exact h
      · exact phase.sequenced_next.bind (p := [_]) (phase.next_keeps fuel) fun _ => ih
      · show (count st.noteSample).toNat + (fuel + 1) = bound st.cfg + 1
        rw [phase.sample]
        exact hst.1
    · exact .one (v := ()) (t := st.noteSample) hb (bind_ok (phase.stops fuel st hline)) hb
        ((phase.headStep st k).trans (if_neg hline))

end

/-- Steps 5 and 6 of `ResetSeq`. -/
theorem sequenced_acceptPresence :
    Sequenced P [.acceptPresence] (acceptPresence >>= orFinish) := by
  intro st k _ hb
  by_cases hshort : st.presLowQ.toNat < Config.presLowMinQ
  · exact .stop hb (bind_ok (acceptPresence_short hshort)) (if_pos hshort)
  have hrun : (acceptPresence >>= orFinish).run st =
      (if st.noteRelease.tRel.toNat < recoveryTicks then wait (recoveryTicks - st.noteRelease.tRel.toNat)
        else pure ()).run st.noteRelease := by
    unfold acceptPresence
    rw [bind_assoc, bind_ok (look_run _ _), decide_eq_false hshort, if_neg Bool.false_ne_true, bind_assoc,
      bind_ok (upd_run _ _), bind_assoc, bind_ok (look_run _ _)]
    split
    · rw [bind_assoc]
      exact congrArg (fun x : Op Unit => x.run st.noteRelease) (bind_pure (wait _))
    · rfl
  by_cases hearly : st.noteRelease.tRel.toNat < recoveryTicks
  · rw [if_pos hearly] at hrun
    exact .step (st' := st.noteRelease) (q := [_]) hb ((if_neg hshort).trans (if_pos hearly)) hrun
      (sequenced_wait (P := fun _ => True) _ _ k trivial hb)
  · rw [if_neg hearly] at hrun
    exact .one (v := ()) (t := st.noteRelease) hb hrun hb ((if_neg hshort).trans (if_neg hearly))

theorem resetOrFinish_eq : resetOrFinish = look State.cfg >>= fun c => upd State.clearPresence >>= fun _ => drive >>= fun _ =>
    wait (Config.resetLowSlots * Config.tSlot) >>= fun _ => release >>= fun _ => upd (fun st => { st with nFloat := 0#8 }) >>=
      fun _ => guarded (floatLoop (c.floatTimeoutUs + 1)) .commError >>= fun _ =>
        guarded (highLoop (c.presHighMaxQ + 1)) .noDevices >>= fun _ => guarded (lowLoop (c.presLowMaxQ + 1)) .commError >>=
          fun _ => acceptPresence >>= orFinish := by
  unfold resetOrFinish resetSeq
  simp only [bind_assoc, guarded_bind _ _ (show Result.commError ≠ .ok by decide),
    guarded_bind _ _ (show Result.noDevices ≠ .ok by decide)]

/-- The float and the high phase each write one counter of their own. -/
theorem built_floatLoop_only (fuel : Nat) : Built (fun f => f = State.countFloat) (floatLoop fuel) := by
  induction fuel with
  | zero => exact .pure _
  | succ n ih =>
    exact .bind .sample fun _ => built_ite _ (.pure _) <| .bind (.look _) fun _ => built_ite _ (.pure _) <|
      .bind (.wait _) fun _ => .bind (.upd rfl) fun _ => ih

theorem built_highLoop_only (fuel : Nat) : Built (fun f => f = State.countHigh) (highLoop fuel) := by
  induction fuel with
  | zero => exact .pure _
  | succ n ih =>
    exact .bind .sample fun _ => built_ite _ (.bind (.wait _) fun _ => .bind (.upd rfl) fun _ =>
      .bind (.look _) fun _ => built_ite _ (.pure _) ih) (.pure _)

theorem floatLoop_keeps (fuel : Nat) (a : Byte × Byte × Config) :
    Triple (fun st => (st.presHighQ, st.presLowQ, st.cfg) = a) (guarded (floatLoop fuel) .commError)
      (fun _ st => (st.presHighQ, st.presLowQ, st.cfg) = a) fun _ => True :=
  Built.keeps_frame (g := fun st => (st.presHighQ, st.presLowQ, st.cfg))
    (.bind (built_floatLoop_only fuel) fun _ => built_finishIf _ _)
    ⟨by rintro _ rfl _; rfl, by rintro _ rfl _; rfl, fun _ _ _ _ _ => rfl, fun _ _ => rfl, fun _ => rfl⟩

theorem highLoop_keeps (fuel : Nat) (a : Byte × Config) :
    Triple (fun st => (st.presLowQ, st.cfg) = a) (guarded (highLoop fuel) .noDevices)
      (fun _ st => (st.presLowQ, st.cfg) = a) fun _ => True :=
  Built.keeps_frame (g := fun st => (st.presLowQ, st.cfg))
    (.bind (built_highLoop_only fuel) fun _ => built_finishIf _ _)
    ⟨by rintro _ rfl _; rfl, by rintro _ rfl _; rfl, fun _ _ _ _ _ => rfl, fun _ _ => rfl, fun _ => rfl⟩

/-- `ResetSeq`, 41_transaction R160. -/
theorem sequenced_resetSeq : Sequenced P resetSeqStmts resetOrFinish := by
  rw [resetOrFinish_eq]
  intro st k hst
  refine Sequenced.look (P := fun u => u.cfg = st.cfg) (fun _ h => h) ?_ st k rfl
  have hframe : Unseen (fun _ => False) fun st : State => (st.presHighQ, st.presLowQ, st.cfg) := unseen_line
  refine (sequenced_upd (f := State.clearPresence) (fun _ => rfl) fun _ _ _ => rfl).bind (p := [_])
    (R := fun _ u => (u.presHighQ, u.presLowQ, u.cfg) = (0#8, 0#8, st.cfg)) (triple_upd fun u h => ?_) fun _ => ?_
  · rw [clearPresence_presHighQ, clearPresence_presLowQ, clearPresence_cfg, h]
  refine sequenced_drive.bind (p := [_]) (Built.drive.keeps_frame hframe) fun _ => ?_
  refine (sequenced_wait _).bind (p := [_]) ((Built.wait _).keeps_frame hframe) fun _ => ?_
  refine sequenced_release.bind (p := [_]) (Built.release.keeps_frame hframe) fun _ => ?_
  refine (sequenced_upd (f := fun st => { st with nFloat := 0#8 }) (fun _ => rfl) fun _ _ _ => rfl).bind (p := [_])
    (R := fun _ u => u.nFloat = 0#8 ∧ (u.presHighQ, u.presLowQ, u.cfg) = (0#8, 0#8, st.cfg))
    (triple_upd fun _ h => ⟨rfl, h⟩) fun _ => ?_
  refine ((sequenced_floatLoop _).weaken fun u hu => ?_).bind (p := [_]) (triple_conseq
    (floatLoop_keeps _ (0#8, 0#8, st.cfg)) (fun _ h => h.2) (fun _ _ h => h) fun _ h => h) fun _ => ?_
  · obtain ⟨hzero, hu⟩ := hu
    have hcfg : u.cfg = st.cfg := congrArg (fun x => x.2.2) hu
    rw [hzero, hcfg]
    exact ⟨Nat.zero_add _, Nat.succ_pos _⟩
  refine ((highPhase.sequenced_loop _).weaken fun u hu => ?_).bind (p := [_]) (triple_conseq
    (highLoop_keeps _ (0#8, st.cfg)) (fun _ h => (congrArg Prod.snd h :)) (fun _ _ h => h) fun _ h => h) fun _ => ?_
  · have hzero : u.presHighQ = 0#8 := congrArg Prod.fst hu
    have hcfg : u.cfg = st.cfg := congrArg (fun x => x.2.2) hu
    rw [hzero, hcfg]
    exact ⟨Nat.zero_add _, Nat.succ_pos _⟩
  refine ((lowPhase.sequenced_loop _).weaken fun u hu => ?_).andThen (p := [_]) fun _ => sequenced_acceptPresence
  have hzero : u.presLowQ = 0#8 := congrArg Prod.fst hu
  have hcfg : u.cfg = st.cfg := congrArg Prod.snd hu
  rw [hzero, hcfg]
  exact ⟨Nat.zero_add _, Nat.succ_pos _⟩

/-- A command sent or the operation ended: the reset sequence, then the octet (41_transaction R168). -/
theorem sendCommandSeq_orFinish (byte : Byte) :
    (sendCommandSeq byte >>= orFinish) = resetOrFinish >>= fun _ => writeOctetSeq byte := by
  unfold sendCommandSeq resetOrFinish
  rw [bind_assoc, bind_assoc]
  congr 1
  funext r
  by_cases hr : r = .ok
  · subst hr
    show (writeOctetSeq byte >>= fun _ => pure .ok) >>= orFinish = _
    rw [bind_assoc]
    exact bind_pure _
  · rw [if_neg hr, orFinish_of_ne hr]
    exact orFinish_of_ne hr

theorem sequenced_command {c : Config} (byte : Byte) :
    Sequenced (fun st => st.cfg = c) (resetSeqStmts ++ writeOctetStmts byte) (resetOrFinish >>= fun _ => writeOctetSeq byte) :=
  sequenced_resetSeq.bind (((built_resetSeq.bind fun r => built_finishIf _ r).keeps_frame (g := State.cfg)
    ⟨fun _ hf st => by obtain ⟨_, _, _, _, h⟩ := resetUpd_shape hf st; rw [h],
      fun _ hf st => by obtain ⟨_, _, _, _, h⟩ := resetUpd_shape hf st; rw [h], fun _ _ _ _ _ => rfl, fun _ _ => rfl,
      fun _ => rfl⟩)) fun _ => sequenced_writeOctetSeq byte

end Sys2Proof.Machine
end

section
/-! PROOFS. The sequencer through SEARCH, and through every operation (10_state R38). -/

namespace Sys2Proof.Machine

variable {α β : Type} {P : State → Prop}

/-! ### One position of a pass -/

/-- A slot's sample latched by `set`, or the abort. -/
def latchSlot (set : Bool → State → State) (x : Bool × Result) : Op Unit :=
  upd (set x.1) >>= fun _ => finishIf (x.2 ≠ .ok) .commError

/-- The bit-pair decided and written back, or the search ended (42_search R193 to R197). -/
def decidePair (p : Nat) (none : Bool) : Op Unit :=
  finishIf none (if p = 0 then .noDevices else .commError) >>= fun _ => upd (State.decideBit (Fin.ofNat 64 p)) >>= fun _ =>
    look State.b >>= writeSlot

/-- `searchPosition` once its position is set. -/
def positionBody (p : Nat) : Op Unit :=
  readSlot id >>= fun x => latchSlot (fun v st => { st with v := v }) x >>= fun _ =>
    readSlot id >>= fun y => latchSlot (fun c st => { st with c := c }) y >>= fun _ =>
      decidePair p (x.1 && y.1) >>= fun _ => upd (State.latchRom p)

theorem searchPosition_eq (p : Nat) : searchPosition p = upd (State.setPosition p) >>= fun _ => positionBody p := by
  unfold searchPosition positionBody latchSlot decidePair
  simp only [bind_assoc]

/-- The statements of `positionBody`. -/
def positionStmts (c : Config) : List Stmt :=
  readSlotStmts c [] ++ ([.latchV] ++ (readSlotStmts c [] ++ ([.latchC] ++ ([.decidePair] ++ [.romLatch]))))

theorem sequenced_latchSlot {a : Stmt} {set : Bool → State → State} (hbusy : ∀ x st, (set x st).busy = st.busy)
    (hstep : ∀ st k, (st.withSeq (a :: k)).stmtStep a k =
      if st.e = true then (set st.s st).withSeq k else (set st.s st).finish .commError) (x : Bool × Result) :
    Sequenced (fun st => x = (st.s, slotResult st.e)) [a] (latchSlot set x) := by
  rintro st k rfl hb
  cases he : st.e with
  | true =>
    exact .one (v := ()) (t := set st.s st) hb (bind_ok (upd_run _ _)) ((hbusy _ _).trans hb)
      ((hstep st k).trans (if_pos he))
  | false =>
    refine .stop (e := .finished) (t := (set st.s st).finish .commError) hb (bind_ok (upd_run _ _)) ((hstep st k).trans (if_neg ?_))
    rw [he]
    exact Bool.noConfusion

theorem latchSlot_triple {set : Bool → State → State} {x : Bool × Result} {I : State → Prop} (h : ∀ st, P st → I (set x.1 st)) :
    Triple P (latchSlot set x) (fun _ => I) fun _ => True :=
  triple_bind (fun _ => I) (triple_upd h) fun _ => triple_finishIf (fun _ _ _ => trivial) fun _ _ h => h

/-- The head of the position loop: `position` is the iteration. -/
def State.positionAt (c : Config) (p : Nat) (st : State) : Prop := (st.position, st.cfg) = (BitVec.ofNat 7 p, c)

theorem State.positionAt.index {c : Config} {p : Nat} {st : State} (h : st.positionAt c p) (hp : p ≤ 64) :
    st.position.toNat = p := by
  rw [show st.position = BitVec.ofNat 7 p from congrArg Prod.fst h, BitVec.toNat_ofNat]
  omega

theorem State.positionAt.cfg {c : Config} {p : Nat} {st : State} (h : st.positionAt c p) : st.cfg = c := congrArg Prod.snd h

theorem decideBit_withSeq (p : Fin 64) (st : State) (q : List Stmt) :
    (st.withSeq q).decideBit p = (st.decideBit p).withSeq q := by
  unfold State.decideBit
  by_cases h : (!st.v && !st.c) = true
  · rw [if_pos h, if_pos (by exact h)]
    rfl
  · rw [if_neg h, if_neg (by exact h)]
    rfl

theorem decideBit_cfg (p : Fin 64) (st : State) : (st.decideBit p).cfg = st.cfg := by
  obtain ⟨_, _, h⟩ := decideBit_shape p st
  rw [h]

theorem decideBit_busy (p : Fin 64) (st : State) : (st.decideBit p).busy = st.busy := by
  obtain ⟨_, _, h⟩ := decideBit_shape p st
  rw [h]

theorem sequenced_decidePair {c : Config} {p : Nat} (hp : p ≤ 64) (none : Bool) :
    Sequenced (fun st => (st.v && st.c) = none ∧ st.positionAt c p) [.decidePair] (decidePair p none) := by
  rintro st k ⟨rfl, hpos⟩ hb
  have hindex := hpos.index hp
  cases hnone : st.v && st.c with
  | true =>
    refine .stop (e := .finished) hb rfl ((if_pos hnone).trans ?_)
    show (st.withSeq _).finish (if st.position.toNat = 0 then .noDevices else .commError) = _
    rw [hindex]
    rfl
  | false =>
    have hrun : (decidePair p false).run st =
        (writeSlot (st.decideBit (Fin.ofNat 64 p)).b).run (st.decideBit (Fin.ofNat 64 p)) := by
      refine (bind_ok (pure_run _ _)).trans ((bind_ok (upd_run _ _)).trans ?_)
      rw [bind_ok (look_run _ _)]
    have hcfg : (st.decideBit (Fin.ofNat 64 p)).cfg = c := (decideBit_cfg _ _).trans hpos.cfg
    refine .step (q := writeSlotStmts c (st.decideBit (Fin.ofNat 64 p)).b) hb ?_ hrun
      (sequenced_writeSlot _ _ k hcfg ((decideBit_busy _ _).trans hb))
    refine (if_neg (fun h => Bool.noConfusion (hnone.symm.trans h))).trans ?_
    show (let d := (st.withSeq _).decideBit (Fin.ofNat 64 st.position.toNat)
      d.withSeq (writeSlotStmts d.cfg d.b ++ k)) = _
    rw [hindex, decideBit_withSeq, ← hcfg]
    rfl

theorem readSlot_positionAt {c : Config} {p : Nat} {x : Bool} :
    Triple (fun st => st.v = x ∧ st.positionAt c p) (readSlot id)
      (fun y st => y = (st.s, slotResult st.e) ∧ st.v = x ∧ st.positionAt c p) fun _ => True :=
  triple_conseq (readSlot_keeps (g := fun st => (st.v, st.position, st.cfg)) (a := (x, BitVec.ofNat 7 p, c)) unseen_slot)
    (fun _ h => by rw [h.1, ← (show _ = _ from h.2)]) (fun _ _ h => ⟨h.1, congrArg Prod.fst h.2, congrArg Prod.snd h.2⟩)
    fun _ h => h

theorem built_decidePair (p : Nat) (none : Bool) : Built (fun f => f = State.decideBit (Fin.ofNat 64 p)) (decidePair p none) :=
  .bind (built_finishIf _ _) fun _ => .bind (.upd rfl) fun _ => .bind (.look _) fun _ => built_writeSlot _

theorem decidePair_positionAt {c : Config} {p : Nat} (q : Nat) (none : Bool) :
    Triple (State.positionAt c p) (decidePair q none) (fun _ => State.positionAt c p) fun _ => True :=
  (built_decidePair q none).keeps_frame (g := fun st => (st.position, st.cfg))
    ⟨by rintro _ rfl st; obtain ⟨_, _, h⟩ := decideBit_shape (Fin.ofNat 64 q) st; rw [h],
      by rintro _ rfl st; obtain ⟨_, _, h⟩ := decideBit_shape (Fin.ofNat 64 q) st; rw [h],
      fun _ _ _ _ _ => rfl, fun _ _ => rfl, fun _ => rfl⟩

theorem sequenced_romLatch {c : Config} {p : Nat} (hp : p ≤ 64) :
    Sequenced (State.positionAt c p) [.romLatch] (upd (State.latchRom p)) :=
  sequenced_upd (fun _ => rfl) fun st k h => by
    show (st.latchRom st.position.toNat).withSeq k = _
    rw [h.index hp]

/-- The first slot of a position: its sample latched in `v`. -/
theorem latchV_positionAt {c : Config} {p : Nat} (x : Bool × Result) :
    Triple (fun st => x = (st.s, slotResult st.e) ∧ st.positionAt c p) (latchSlot (fun v st => { st with v := v }) x)
      (fun _ st => st.v = x.1 ∧ st.positionAt c p) fun _ => True := latchSlot_triple fun _ h => ⟨rfl, h.2⟩

/-- The second slot of a position: its sample latched in `c`. -/
theorem latchC_positionAt {c : Config} {p : Nat} {v : Bool} (y : Bool × Result) :
    Triple (fun st => y = (st.s, slotResult st.e) ∧ st.v = v ∧ st.positionAt c p)
      (latchSlot (fun c st => { st with c := c }) y)
      (fun _ st => (st.v && st.c) = (v && y.1) ∧ st.positionAt c p) fun _ => True :=
  latchSlot_triple fun _ h => ⟨by rw [← h.2.1], h.2.2⟩

/-- The two slots, the decision and the latch of `rom[p]`. -/
theorem sequenced_positionBody {c : Config} {p : Nat} (hp : p < 64) :
    Sequenced (State.positionAt c p) (positionStmts c) (positionBody p) := by
  have hread : Sequenced (fun st => st.cfg = c) (readSlotStmts c []) (readSlot id) := sequenced_readSlot sequenced_sampleData
  have hlatchV := sequenced_latchSlot (a := .latchV) (set := fun v st => { st with v := v }) (fun _ _ => rfl) fun _ _ => rfl
  have hlatchC := sequenced_latchSlot (a := .latchC) (set := fun c st => { st with c := c }) (fun _ _ => rfl) fun _ _ => rfl
  refine (hread.weaken fun _ h => h.cfg).bind (readSlot_keeps (g := fun st => (st.position, st.cfg)) unseen_slot) fun x => ?_
  refine ((hlatchV x).weaken fun _ h => h.1).bind (latchV_positionAt x) fun _ => ?_
  refine (hread.weaken fun _ h => h.2.cfg).bind readSlot_positionAt fun y => ?_
  refine ((hlatchC y).weaken fun _ h => h.1).bind (latchC_positionAt y) fun _ => ?_
  refine (sequenced_decidePair hp.le _).bind (R := fun _ => State.positionAt c p) ?_ fun _ => sequenced_romLatch hp.le
  exact triple_conseq (decidePair_positionAt p _) (fun _ h => h.2) (fun _ _ h => h) fun _ h => h

theorem positionBody_positionAt {c : Config} {p : Nat} (q : Nat) :
    Triple (State.positionAt c p) (positionBody q) (fun _ => State.positionAt c p) fun _ => True := by
  refine triple_bind _ (readSlot_keeps (g := fun st => (st.position, st.cfg)) unseen_slot) fun x => ?_
  refine triple_bind _ (latchV_positionAt x) fun _ => triple_bind _ readSlot_positionAt fun y => ?_
  refine triple_bind _ (latchC_positionAt y) fun _ => triple_bind (fun _ => State.positionAt c p) ?_ fun _ =>
    triple_upd fun _ h => h
  exact triple_conseq (decidePair_positionAt q _) (fun _ h => h.2) (fun _ _ h => h) fun _ h => h

theorem ofNat7_succ (p : Nat) : BitVec.ofNat 7 p + 1#7 = BitVec.ofNat 7 (p + 1) := (BitVec.ofNat_add p 1).symm

theorem sequenced_positionNext {c : Config} (p : Nat) :
    Sequenced (State.positionAt c p) [.positionNext] (upd (State.setPosition (p + 1))) :=
  sequenced_upd (fun _ => rfl) fun st _ h => by
    show ({ st with position := st.position + 1#7, seq := _ } : State) = { st with position := BitVec.ofNat 7 (p + 1), seq := _ }
    rw [show st.position = BitVec.ofNat 7 p from congrArg Prod.fst h, ofNat7_succ]

/-- The 64 positions of a pass. -/
def positions : Op Unit := forUp searchPosition 0 Config.addrBits >>= fun _ => upd (State.setPosition Config.addrBits)

theorem positions_eq : positions = upd (State.setPosition 0) >>= fun _ =>
    forUp (fun p => positionBody p >>= fun _ => upd (State.setPosition (p + 1))) 0 64 := by
  rw [← forUp_shift State.setPosition positionBody 0 64]
  unfold positions
  rw [show searchPosition = fun p => upd (State.setPosition p) >>= fun _ => positionBody p from funext searchPosition_eq]
  rfl

theorem sequenced_positions {c : Config} : Sequenced (fun st => st.cfg = c) [.positionStart, .positionTop] positions := by
  rw [positions_eq]
  refine (sequenced_upd (f := State.setPosition 0) (fun _ => rfl) fun _ _ _ => rfl).bind (p := [_])
    (R := fun _ => State.positionAt c 0) (triple_upd fun _ h => ?_) fun _ =>
      sequenced_loop (N := 64) (fun _ => positionStmts c ++ [.positionNext]) (fun st k h => ?_) (fun j hj st k h => ?_)
        (fun j hj => ?_) (fun j _ => ?_) 64 rfl
  · rw [State.positionAt, setPosition_position, setPosition_cfg, h]
  · exact if_pos (h.index le_rfl)
  · refine (if_neg (show ¬ st.position.toNat = 64 by rw [h.index hj.le]; omega)).trans ?_
    show st.withSeq (readSlotStmts st.cfg [] ++ .latchV :: readSlotStmts st.cfg [] ++
      .latchC :: .decidePair :: .romLatch :: .positionNext :: .positionTop :: k) = _
    rw [show st.cfg = c from h.cfg]
    simp [positionStmts]
  · exact (sequenced_positionBody hj).bind (positionBody_positionAt j) fun _ => sequenced_positionNext j
  · exact triple_bind _ (positionBody_positionAt j) fun _ => triple_upd fun _ h => by
      rw [State.positionAt, setPosition_position, setPosition_cfg, h.cfg]

/-! ### The passes -/

/-- A pass between its start and its store. -/
def passCore (c : Config) : Op Unit := (resetOrFinish >>= fun _ => writeOctetSeq c.searchCmd) >>= fun _ => positions

theorem passBody_eq : passBody = look State.cfg >>= fun c => upd State.startPass >>= fun _ => passCore c := by
  have hcore : ∀ c : Config, passCore c = sendCommandSeq c.searchCmd >>= fun r => orFinish r >>= fun _ => positions := by
    intro c
    rw [passCore, ← sendCommandSeq_orFinish, bind_assoc]
  simp only [hcore]
  rfl

/-- What a pass before its store keeps: the parameters and the index of its entry. -/
theorem Built.keeps_entry {x : Op α} (h : Built PositionUpd x) (c : Config) (d : BitVec 8) :
    Triple (fun st => st.cfg = c ∧ st.devicePosition = d) x (fun _ st => st.cfg = c ∧ st.devicePosition = d) fun _ => True := by
  refine h.frame_triple unseen_passFrame (fun st t hst e => ?_) (fun _ _ _ => trivial) fun _ _ => trivial
  have ecfg : t.cfg = st.cfg := congrArg (fun x => x.1.1.1) e
  have epos : t.devicePosition = st.devicePosition := congrArg Prod.snd e
  exact ⟨ecfg.trans hst.1, epos.trans hst.2⟩

theorem built_resetOrFinish : Built ResetUpd resetOrFinish := built_resetSeq.bind fun _ => built_finishIf _ _

theorem built_command (byte : Byte) : Built PositionUpd (resetOrFinish >>= fun _ => writeOctetSeq byte) :=
  (built_resetOrFinish.mono fun f h => .command f (.reset f h)).bind fun _ =>
    (built_writeOctetSeq byte).mono fun f h => .command f (.send f h)

theorem built_passCore (c : Config) : Built PositionUpd (passCore c) :=
  (built_command _).bind fun _ => (built_forUp built_searchPosition _ _).bind fun _ => .upd (.position _)

theorem sequenced_passCore (c : Config) (d : BitVec 8) : Sequenced (fun st => st.cfg = c ∧ st.devicePosition = d)
    ((resetSeqStmts ++ writeOctetStmts c.searchCmd) ++ [.positionStart, .positionTop]) (passCore c) :=
  ((sequenced_command c.searchCmd).weaken fun _ h => h.1).bind ((built_command _).keeps_entry c d) fun _ =>
    sequenced_positions.weaken fun _ h => h.1

/-- A pass from its end: the store, and the search ended or the next pass. -/
def passTail (fuel : Nat) : Op Unit :=
  upd State.storePass >>= fun _ => look (fun st => decide (st.curDisc = none)) >>= fun last =>
    if last = true then upd State.countDevices >>= fun _ => finish .ok else searchLoop fuel

theorem searchLoop_full (fuel : Nat) {st : State} (h : st.devicePosition.toNat = st.cfg.maxDevices) :
    (searchLoop (fuel + 1)).run st = .error .finished (st.finish .tooManyDevices) := by
  unfold searchLoop
  rw [bind_ok (look_run _ _), decide_eq_true h]
  rfl

theorem searchLoop_pass (fuel : Nat) {st : State} (h : st.devicePosition.toNat ≠ st.cfg.maxDevices) :
    (searchLoop (fuel + 1)).run st = (passCore st.cfg >>= fun _ => passTail fuel).run st.startPass := by
  have hloop : searchLoop (fuel + 1) = look (fun st => decide (st.devicePosition.toNat = st.cfg.maxDevices)) >>= fun full =>
      finishIf full .tooManyDevices >>= fun _ => passBody >>= fun _ => passTail fuel := by
    conv => lhs; unfold searchLoop
    rw [searchPass_eq]
    simp only [bind_assoc]
    rfl
  rw [hloop, bind_ok (look_run _ _), decide_eq_false h, finishIf_false, bind_ok (pure_run _ _), passBody_eq, bind_assoc,
    bind_ok (look_run _ _), bind_assoc, bind_ok (upd_run _ _)]

/-- The end of a pass, if the rest of the loop follows from its top. -/
theorem sequenced_passTail {c : Config} {d : BitVec 8} {fuel : Nat}
    (h : Sequenced (fun st => st.cfg = c ∧ st.devicePosition = d + 1#8) [.passTop] (searchLoop fuel)) :
    Sequenced (fun st => st.cfg = c ∧ st.devicePosition = d) [.passEnd] (passTail fuel) := by
  rintro st k ⟨hcfg, hpos⟩ hb
  have hrun : (passTail fuel).run st =
      (if decide (st.curDisc = none) = true then upd State.countDevices >>= fun _ => finish .ok else searchLoop fuel).run
        st.storePass := by
    unfold passTail
    rw [bind_ok (upd_run _ _), bind_ok (look_run _ _)]
    rfl
  by_cases hlast : st.curDisc = none
  · rw [decide_eq_true hlast, if_pos rfl] at hrun
    exact .stop (e := .finished) (t := st.storePass.countDevices.finish .ok) hb hrun (if_pos hlast)
  · rw [decide_eq_false hlast, if_neg Bool.false_ne_true] at hrun
    exact .step (st' := st.storePass) (q := [.passTop]) hb (if_neg hlast) hrun (h st.storePass k ⟨hcfg, congrArg (· + 1#8) hpos⟩ hb)

/-- The pass loop; its `fuel` is never used up. -/
theorem sequenced_searchLoop {c : Config} (fuel : Nat) {d : BitVec 8} (hd : d.toNat + fuel = c.maxDevices + 1) (hfuel : 0 < fuel) :
    Sequenced (fun st => st.cfg = c ∧ st.devicePosition = d) [.passTop] (searchLoop fuel) := by
  induction fuel generalizing d with
  | zero => exact absurd hfuel (lt_irrefl 0)
  | succ fuel ih =>
    rintro st k ⟨rfl, rfl⟩ hb
    by_cases hfull : st.devicePosition.toNat = st.cfg.maxDevices
    · exact .stop hb (searchLoop_full fuel hfull) (if_pos hfull)
    have hmax := st.cfg.maxDevices_le
    have hnext : (st.devicePosition + 1#8).toNat = st.devicePosition.toNat + 1 := by
      rw [BitVec.toNat_add, show (1#8).toNat = 1 from rfl]
      omega
    have htail := sequenced_passTail (ih (by rw [hnext]; omega) (by omega))
    refine .step (st' := st.startPass) hb ?_ (searchLoop_pass fuel hfull)
      ((sequenced_passCore st.cfg st.devicePosition).bind ((built_passCore _).keeps_entry _ _) (fun _ => htail) _ k ⟨rfl, rfl⟩ hb)
    refine (if_neg hfull).trans ?_
    show st.startPass.withSeq (resetSeqStmts ++ writeOctetStmts st.cfg.searchCmd ++
      .positionStart :: .positionTop :: .passEnd :: k) = _
    simp

/-! ### Whole operations -/

/-- Nothing goes on behind a `finish`. -/
theorem triple_then_finish {x : Op α} {r : α → Result} :
    Triple P (x >>= fun a => finish (r a)) (fun _ _ => False) fun _ => True :=
  triple_bind _ triple_true fun _ => triple_finish fun _ _ => trivial

theorem searchLoop_ends (fuel : Nat) : Triple (fun _ => True) (searchLoop fuel) (fun _ _ => False) fun _ => True := by
  induction fuel with
  | zero => exact triple_finish fun _ _ => trivial
  | succ n ih =>
    refine triple_bind _ triple_true fun _ => triple_bind _ triple_true fun _ => triple_bind _ triple_true fun _ => ?_
    exact triple_bind _ triple_true fun _ => triple_ite (fun _ => triple_then_finish) fun _ => ih

/-- A Result finishes the operation as such, or as `Ok` after the test for the others. -/
theorem bind_finish_eq (x : Op Result) : (x >>= finish) = (x >>= orFinish) >>= fun _ => finish .ok := by
  rw [bind_assoc]
  congr 1
  funext r
  by_cases hr : r = .ok
  · subst hr
    rfl
  · rw [orFinish_of_ne hr]
    rfl

/-- READ_BIT_OR's statements at the data-sample tick (40_timeslot R135). -/
theorem sequenced_sampleOr (p : Nat) :
    Sequenced P [.sampleData, .orData p] (latch fun x st => State.orData p { st with s := x }) := by
  intro st k _ hb
  refine .of_ok (t := State.orData p { st.noteSample with s := st.lineIn }) rfl hb (.step hb (.step hb (.refl _)))

/-- READ_BIT_OR's `finish` with the Result of its slot. -/
theorem sequenced_finishRead (x : Bool × Result) :
    Sequenced (fun st => x = (st.s, slotResult st.e)) [.finishRead] (finish x.2) := by
  rintro st k rfl hb
  exact .stop hb (finish_run _ _) rfl

/-- Every operation: its program does what its statements do, and they end it. -/
theorem exec_sequenced (i : Instr) (s : State) : ∃ body : Op Unit, exec i s = runOp i body s ∧
    Sequenced (fun st => st.cfg = s.cfg) (program s.cfg s.data i) body ∧
    Triple (fun _ => True) body (fun _ _ => False) fun _ => True := by
  cases i with
  | resetPulse =>
    refine ⟨_, rfl, ?_, triple_then_finish⟩
    show Sequenced _ (resetSeqStmts ++ [.finish .ok]) (resetSeq >>= finish)
    rw [bind_finish_eq]
    exact sequenced_resetSeq.andThen fun _ => sequenced_finish _
  | writeBit v => exact ⟨_, rfl, (sequenced_writeSlot _).andThen fun _ => sequenced_finish _, triple_then_finish⟩
  | readBitOr p =>
    exact ⟨readSlot (State.orData (readPosition p)) >>= fun x => finish x.2, rfl,
      (sequenced_readSlot (sequenced_sampleOr _)).bind (readSlot_latched fun _ => rfl) sequenced_finishRead, triple_then_finish⟩
  | writeOctet => exact ⟨_, rfl, (sequenced_writeOctetSeq _).andThen fun _ => sequenced_finish _, triple_then_finish⟩
  | readOctet =>
    exact ⟨_, execReadOctet_eq s, sequenced_readOctetBody.andThen (q := [_]) fun _ => sequenced_finish _, triple_then_finish⟩
  | sendCommand =>
    refine ⟨_, rfl, ?_, triple_then_finish⟩
    show Sequenced _ (resetSeqStmts ++ writeOctetStmts s.data ++ [.finish .ok]) (sendCommandSeq s.data >>= finish)
    rw [bind_finish_eq, sendCommandSeq_orFinish]
    exact (sequenced_command _).andThen fun _ => sequenced_finish _
  | search =>
    refine ⟨_, rfl, ?_, triple_bind _ triple_true fun _ => searchLoop_ends _⟩
    exact (sequenced_upd (f := State.startSearch) (fun _ => rfl) fun _ _ _ => rfl).bind (p := [_])
      (R := fun _ st => st.cfg = s.cfg ∧ st.devicePosition = 0#8) (triple_upd fun _ h => ⟨h, rfl⟩) fun _ =>
        sequenced_searchLoop _ (Nat.zero_add _) (Nat.succ_pos _)

/-- Settles O51: acceptance loads the operation's program, and the sequencer follows its statements to their end. -/
theorem sequencerRunsTheOperation : Obligations.SequencerRunsTheOperation := by
  intro i s t hidle hrun ht
  obtain ⟨body, he, hseq, hends⟩ := exec_sequenced i s
  rw [he, runOp_idle _ _ hidle hrun] at ht
  cases ht
  have hfollows := hseq (s.accept i) [] rfl rfl
  have hend := hends (s.accept i) trivial
  have hload : (s.accept i).withSeq (program s.cfg s.data i ++ []) = s.accept i := by
    rw [List.append_nil]
    rfl
  unfold Follows at hfollows
  rw [hload] at hfollows
  cases hr : body.run (s.accept i) with
  | ok v u =>
    rw [hr] at hend
    exact hend.elim
  | error e u =>
    rw [hr] at hfollows
    exact hfollows

end Sys2Proof.Machine
end

section
/-! PROOFS. The host interface (20_memory R60 to R72): one rule for each access, on the idle block and during an operation. -/

namespace Sys2Proof.Machine

/-! ### What an access does -/

theorem lineIn_driven {st : State} (h : st.driveLow = true) : st.lineIn = false := by
  rw [State.lineIn, if_pos h]

theorem writeIdle_eq (st : State) (a : HostAddr) (w : Byte) :
    st.writeIdle a w = { st with data := if a.toNat = 1 then w else st.data } := by
  unfold State.writeIdle
  split <;> rfl

theorem writeBusy_eq (st : State) (a : HostAddr) :
    st.writeBusy a = { st with ill := st.ill || decide (a.toNat = 0 ∨ a.toNat = 1) } := by
  unfold State.writeBusy
  by_cases h : a.toNat = 0 ∨ a.toNat = 1
  · rw [if_pos h, decide_eq_true h, Bool.or_true]
    rfl
  · rw [if_neg h, decide_eq_false h, Bool.or_false]

theorem hostRead_idle {st u : State} {a : HostAddr} {v : Byte} (hidle : st.busy = false) (h : st.readIdle a = (v, u)) :
    st.hostRead a = { u with answers := ⟨st.clock, a, v⟩ :: u.answers } := by
  have hnot : ¬ st.busy = true := by simp [hidle]
  rw [State.hostRead, if_neg hnot, h]

theorem hostRead_busy {st u : State} {a : HostAddr} {v : Byte} (hbusy : st.busy = true) (h : st.readBusy a = (v, u)) :
    st.hostRead a = { u with answers := ⟨st.clock, a, v⟩ :: u.answers } := by
  rw [State.hostRead, if_pos hbusy, h]

/-- STATUS: `BUSY` in bit 0, `ILL` in bit 1, the rest 0 (20_memory R61). -/
theorem statusByte_bits (st : State) :
    st.statusByte.getLsbD 0 = st.busy ∧ st.statusByte.getLsbD 1 = st.ill ∧ ∀ j, 2 ≤ j → st.statusByte.getLsbD j = false := by
  have hbit : ∀ j, st.statusByte.getLsbD j = (decide (j = 0) && st.busy || decide (j = 1) && st.ill) := by
    intro j
    rw [State.statusByte, getLsbD_orBit _ _ _ _ (by decide), getLsbD_orBit _ _ _ _ (by decide), BitVec.getLsbD_zero,
      Bool.false_or]
  refine ⟨(hbit 0).trans (by simp), (hbit 1).trans (by simp), fun j hj => ?_⟩
  rw [hbit, decide_eq_false (by omega), decide_eq_false (by omega)]
  rfl

/-- MAX_DEVICES shows the capacity: it fits a byte (00_scope R6). -/
theorem capacityByte_toNat (c : Config) : (BitVec.ofNat 8 c.maxDevices).toNat = c.maxDevices := toNat_ofNat8 c.maxDevices_le

/-- The eight registers of 20_memory R61, by their addresses 0 to 7. -/
def State.register (st : State) : Nat → Byte
  | 0 => st.cmd
  | 1 => st.data
  | 2 => st.statusByte
  | 3 => st.result.code
  | 4 => st.presHighQ
  | 5 => st.presLowQ
  | 6 => st.numDevices
  | _ => BitVec.ofNat 8 st.cfg.maxDevices

theorem readIdle_register (st : State) {a : HostAddr} (h : a.toNat < 8) : st.readIdle a = (st.register a.toNat, st) := by
  unfold State.readIdle
  generalize a.toNat = n at h
  match n with
  | 0 | 1 | 2 | 3 | 4 | 5 | 6 | 7 => rfl
  | _ + 8 => omega

theorem readIdle_beyond (st : State) {a : HostAddr} (h : 8 ≤ a.toNat) :
    st.readIdle a =
      if tableBase ≤ a.toNat ∧ a.toNat < tableAddr st.cfg.maxDevices 0 then st.readTable a.toNat else (0x00#8, st) := by
  unfold State.readIdle
  generalize a.toNat = n at h
  match n with
  | 0 | 1 | 2 | 3 | 4 | 5 | 6 | 7 => omega
  | _ + 8 => rfl

theorem readIdle_reserved (st : State) {a : HostAddr} (h : 8 ≤ a.toNat)
    (hout : a.toNat < 0x800 ∨ 0x800 + 8 * st.cfg.maxDevices ≤ a.toNat) : st.readIdle a = (0x00#8, st) := by
  rw [readIdle_beyond st h, if_neg]
  rw [tableAddr_eq, show tableBase = 2048 from rfl]
  omega

/-- A byte of the table window is a byte of an entry (20_memory R64). -/
theorem readIdle_table (st : State) {a : HostAddr} {k j : Nat} (hk : k < st.cfg.maxDevices) (hj : j < 8)
    (ha : a.toNat = tableAddr k j) : st.readIdle a = st.readTable (tableAddr k j) := by
  have hwindow : tableBase ≤ a.toNat ∧ a.toNat < tableAddr st.cfg.maxDevices 0 := by
    rw [ha, tableAddr_eq, tableAddr_eq, show tableBase = 2048 from rfl]
    omega
  rw [readIdle_beyond st (by rw [ha, tableAddr_eq]; omega), if_pos hwindow, ha]

/-- The entry a window address belongs to. -/
theorem tableAddr_entry (k : Nat) {j : Nat} (hj : j < 8) : (tableAddr k j - tableBase) / Config.addrBytes = k := by
  rw [tableAddr_eq, show tableBase = 2048 from rfl, show Config.addrBytes = 8 from rfl]
  omega

/-- A byte of an entry that the count covers reads as the byte stored. -/
theorem readTable_counted (st : State) {k j : Nat} {v : Byte} (hj : j < 8) (hk : k < st.numDevices.toNat)
    (h : st.devices.read (tableAddr k j) = some v) : st.readTable (tableAddr k j) = (v, st) := by
  rw [State.readTable, tableAddr_entry k hj, if_pos hk, h]

/-- A byte of an entry that the count does not cover reads as a free value (93 U2). -/
theorem readTable_uncounted (st : State) {k j : Nat} (hj : j < 8) (hk : st.numDevices.toNat ≤ k) :
    st.readTable (tableAddr k j) = (Config.freeByte st.freeCtr, { st with freeCtr := st.freeCtr + 1 }) := by
  rw [State.readTable, tableAddr_entry k hj, if_neg (Nat.not_lt.2 hk)]
  rfl

theorem readBusy_cases (st : State) (a : HostAddr) :
    (a.toNat = 2 ∧ st.readBusy a = (st.statusByte, st)) ∨
    (a.toNat = 7 ∧ st.readBusy a = (BitVec.ofNat 8 st.cfg.maxDevices, st)) ∨
    (a.toNat ≠ 2 ∧ a.toNat ≠ 7 ∧ st.readBusy a = (Config.freeByte st.freeCtr, { st with freeCtr := st.freeCtr + 1 })) := by
  unfold State.readBusy
  split
  · next h => exact .inl ⟨h, rfl⟩
  · next h => exact .inr (.inl ⟨h, rfl⟩)
  · next h2 h7 => exact .inr (.inr ⟨h2, h7, rfl⟩)

/-- What a read during an operation answers, and that it changes the answers and the count of free bytes alone (20_memory
R72). -/
theorem busyAct_read {st : State} (hbusy : st.busy = true) (a : HostAddr) :
    ∃ v n, st.busyAct (.read a) = { st with answers := ⟨st.clock, a, v⟩ :: st.answers, freeCtr := n } ∧
      (a.toNat = 2 → v = st.statusByte) ∧ (a.toNat = 7 → v.toNat = st.cfg.maxDevices) ∧
      (a.toNat ≠ 2 → a.toNat ≠ 7 → v = Config.freeByte st.freeCtr) := by
  rcases readBusy_cases st a with ⟨h, hread⟩ | ⟨h, hread⟩ | ⟨h2, h7, hread⟩
  · exact ⟨_, _, hostRead_busy hbusy hread, fun _ => rfl, by omega, by omega⟩
  · exact ⟨_, _, hostRead_busy hbusy hread, by omega, fun _ => capacityByte_toNat st.cfg, by omega⟩
  · exact ⟨_, _, (hostRead_busy hbusy hread :), fun h => absurd h h2, fun h => absurd h h7, fun _ _ => rfl⟩

/-! ### The step that serves an access -/

theorem step_idle {s : State} {e : HostEvent} {es : List HostEvent} (hidle : s.busy = false) (hhost : s.host = e :: es) :
    step s = hostStep (s.arrive e es) e.act := by
  have hnot : ¬ s.busy = true := by simp [hidle]
  rw [step, if_neg hnot, hhost]

/-- A legal byte written to CMD. -/
theorem hostStep_command {st : State} {a : HostAddr} {w : Byte} {i : Instr} (hrun : st.resetIn = false) (ha : a.toNat = 0)
    (hw : decode w = .ok i) : hostStep st (.write a w) = exec i st := by
  have hnot : ¬ st.resetIn = true := by simp [hrun]
  rw [hostStep, if_neg hnot, if_pos ha, hw]

/-- A write to another address than CMD. -/
theorem hostStep_write {st : State} {a : HostAddr} (w : Byte) (hrun : st.resetIn = false) (ha : a.toNat ≠ 0) :
    hostStep st (.write a w) = .next { st with data := if a.toNat = 1 then w else st.data } := by
  have hnot : ¬ st.resetIn = true := by simp [hrun]
  rw [hostStep, if_neg hnot, if_neg ha, writeIdle_eq]

/-- A read on the idle block. -/
theorem step_read {s u : State} {k : Nat} {a : HostAddr} {es : List HostEvent} {v : Byte} (hidle : s.busy = false)
    (hhost : s.host = ⟨k, .read a⟩ :: es) (h : (s.arrive ⟨k, .read a⟩ es).readIdle a = (v, u)) :
    step s = .next { u with answers := ⟨max s.clock k, a, v⟩ :: u.answers } := by
  rw [step_idle hidle hhost, hostStep, hostRead_idle (st := s.arrive _ es) hidle h]
  rfl

/-- An access that falls into the running `Wait`. -/
theorem step_waiting {s : State} {n : Nat} {q : List Stmt} {e : HostEvent} {es : List HostEvent} (hbusy : s.busy = true)
    (hseq : s.seq = .wait n :: q) (hhost : s.host = e :: es) (hlt : e.tick < s.clock + n) :
    step s = .next (((s.arrive e es).withSeq (.wait (s.clock + n - max s.clock e.tick) :: q)).busyAct e.act) := by
  rw [step, if_pos hbusy, State.seqStep, hseq, ← waitStep_serves q hhost hlt]
  rfl

/-! ### The obligations -/

/-- Settles O9: the access is served in the `Wait`, and a write during an operation can only raise `ILL`. -/
theorem writesWhileBusyAreRefused : Obligations.WritesWhileBusyAreRefused := by
  intro s n k q a w es hbusy hseq hhost hlt
  rw [step_waiting hbusy hseq hhost hlt, State.busyAct, writeBusy_eq]
  rfl

/-- Settles O10: the access is served in the `Wait`, and a read during an operation changes the count of free bytes alone. -/
theorem readsWhileBusy : Obligations.ReadsWhileBusy := by
  intro s n k q a es hbusy hseq hhost hlt
  obtain ⟨hbit0, hbit1, hrest⟩ := statusByte_bits s
  obtain ⟨v, m, hread, hstatus, hmax, hfree⟩ :=
    busyAct_read (st := (s.arrive ⟨k, .read a⟩ es).withSeq (.wait (s.clock + n - max s.clock k) :: q)) hbusy a
  refine ⟨_, v, (step_waiting hbusy hseq hhost hlt).trans (congrArg _ hread), rfl, fun h => ?_, hmax, hfree, rfl, rfl⟩
  have hv : v = s.statusByte := hstatus h
  rw [hv]
  exact ⟨hbit0.trans hbusy, hbit1, hrest⟩

/-- Settles O11: each address below 8 answers its register and draws no free byte. -/
theorem registersReadWhileIdle : Obligations.RegistersReadWhileIdle := by
  intro s k a es hidle hhost ha
  obtain ⟨hbit0, hbit1, hrest⟩ := statusByte_bits s
  have hread : ∀ n, a.toNat = n → s.register a.toNat = s.register n := fun _ => congrArg s.register
  refine ⟨s.register a.toNat, step_read hidle hhost (readIdle_register (s.arrive _ es) ha), hread 0, hread 1, fun h => ?_,
    fun h => ?_, hread 4, hread 5, hread 6, fun h => ?_⟩
  · rw [hread 2 h]
    exact ⟨hbit0.trans hidle, hbit1, hrest⟩
  · rw [hread 3 h, State.register]
    cases s.result <;> rfl
  · rw [hread 7 h]
    exact capacityByte_toNat s.cfg

/-- Settles O12: the address names its entry, which the count covers or does not. -/
theorem tableWindowReads : Obligations.TableWindowReads := by
  intro s tick k j a w es hidle hhost hk hj ha
  have hread := readIdle_table (s.arrive ⟨tick, .read a⟩ es) hk hj ha
  refine ⟨fun hcount hentry => ?_, fun hcount => ?_⟩
  · exact step_read hidle hhost (hread.trans (readTable_counted _ hj hcount (hentry j hj)))
  · exact step_read hidle hhost (hread.trans (readTable_uncounted _ hj hcount))

/-- Settles O13: such an address is neither a register's nor in the table window. -/
theorem reservedAddressesReadZero : Obligations.ReservedAddressesReadZero := fun s _ _ es hidle hhost ha hout =>
  step_read hidle hhost (readIdle_reserved (s.arrive _ es) ha hout)

/-- Settles O7: the idle block takes the write, and the byte decodes. -/
theorem stepRunsTheCommandWritten : Obligations.StepRunsTheCommandWritten := fun s _ _ _ es _ hidle hrun hhost ha hw =>
  (step_idle hidle hhost).trans (hostStep_command (st := s.arrive _ es) hrun ha hw)

/-- Settles O14: the idle block takes the write, which can only reach `DATA`. -/
theorem writesWhileIdle : Obligations.WritesWhileIdle := fun s _ _ w es hidle hrun hhost ha =>
  (step_idle hidle hhost).trans (hostStep_write (st := s.arrive _ es) w hrun ha)

/-- Settles O16: `Sample()` answers the line's level, which is low while the block drives it. -/
theorem drivenLineReadsLow : Obligations.DrivenLineReadsLow := by
  intro s t hdrive hrun
  rw [sample_run, lineIn_driven hdrive] at hrun
  cases hrun

end Sys2Proof.Machine
end

section
/-! PROOFS. No host access but the hardware reset reaches a running operation (20_memory R71, R72, R80). -/

namespace Sys2Proof.Machine

variable {α : Type}

/-! ### READ_OCTET fails with `CommError` only -/

/-- What only a hardware reset can end goes on with none pending. -/
theorem GoesOn.triple {x : Op α} {E : State → Prop} (hgoes : GoesOn x) (hblind : Blind x) :
    Triple State.noHwReset x (fun _ => State.noHwReset) E := by
  intro st h
  obtain ⟨a, t, ht⟩ := hgoes st h
  have hkept := (hblind st h).2
  rw [ht] at hkept ⊢
  exact hkept

/-- An update of the block leaves the host's pending actions alone. -/
theorem triple_upd_noHwReset {f : State → State} {E : State → Prop} (hhost : ∀ st, (f st).host = st.host) :
    Triple State.noHwReset (upd f) (fun _ => State.noHwReset) E :=
  triple_upd fun st h => noHwReset_of_host (hhost st) h

theorem receiveBit_fails_commError (k : Nat) :
    Triple State.noHwReset (receiveBit k) (fun _ => State.noHwReset) fun t => t.result = .commError := by
  refine triple_bind _ (triple_upd_noHwReset fun _ => rfl) fun _ => ?_
  refine triple_bind _ (goesOn_readSlot_id.triple (blind_readSlot (fun _ => rfl) fun _ => rfl)) fun x => ?_
  refine triple_bind _ (triple_upd_noHwReset fun _ => rfl) fun _ => triple_ite (fun _ => triple_pure fun _ h => h) fun _ => ?_
  exact triple_bind _ (triple_upd_noHwReset fun _ => rfl) fun _ => triple_finish fun _ _ => rfl

theorem readOctetBody_fails_commError :
    Triple State.noHwReset readOctetBody (fun _ => State.noHwReset) fun t => t.result = .commError :=
  triple_bind _ (triple_upd_noHwReset fun _ => rfl) fun _ =>
    triple_bind _ (triple_forUp (I := fun _ => State.noHwReset) 8 0 fun k _ _ => receiveBit_fails_commError k) fun _ =>
      triple_upd_noHwReset fun _ => rfl

/-! ### An operation with and without the host -/

/-- The block with no host action pending. -/
theorem State.Ready.alone {s : State} (h : s.Ready) : ({ s with host := [] } : State).Ready :=
  ⟨h.idle, h.released, h.running, fun _ he => absurd he List.not_mem_nil⟩

/-- Every operation but READ_OCTET is blind to the host; its statements depend on the parameters and on `DATA` at acceptance
alone. -/
theorem exec_blind {i : Instr} (hi : i ≠ .readOctet) (st : State) :
    ∃ body : Op Unit, Blind body ∧ ∀ q : State, q.cfg = st.cfg → q.data = st.data → exec i q = runOp i body q := by
  cases i with
  | resetPulse => exact ⟨_, blind_bind blind_resetSeq blind_finish, fun _ _ _ => rfl⟩
  | writeBit v => exact ⟨_, blind_bind (blind_writeSlot _) fun _ => blind_finish _, fun _ _ _ => rfl⟩
  | readBitOr p =>
    exact ⟨_, blind_bind (blind_readSlot (f := State.orData _) (fun _ => rfl) fun _ => rfl) fun r => blind_finish r.2,
      fun _ _ _ => rfl⟩
  | writeOctet =>
    exact ⟨_, blind_bind (blind_writeOctetSeq st.data) fun _ => blind_finish _, fun _ _ hd => by rw [← hd]; rfl⟩
  | readOctet => exact absurd rfl hi
  | sendCommand => exact ⟨_, blind_bind (blind_sendCommandSeq st.data) blind_finish, fun _ _ hd => by rw [← hd]; rfl⟩
  | search =>
    exact ⟨_, blind_bind (blind_upd (f := State.startSearch) (fun _ => rfl) fun _ => rfl) fun _ =>
      blind_searchLoop (st.cfg.maxDevices + 1), fun _ hc _ => by rw [← hc]; rfl⟩

/-- With and without the host's accesses an operation leaves the same block, but that a READ_OCTET that fails leaves another
free value in `DATA`. -/
theorem exec_undisturbed (i : Instr) {s : State} (h : s.Ready) :
    ∃ t u, exec i s = .next t ∧ exec i { s with host := [] } = .next u ∧ t.blank = u.blank ∧
      (t.data = u.data ∨ (i = .readOctet ∧ t.result = .commError)) := by
  have of_noHost : ∀ {t u v : State}, t.noHost = v → u.noHost = v → t.blank = u.blank ∧ t.data = u.data := by
    intro t u v ht hu
    have hn := ht.trans hu.symm
    exact ⟨blank_of_noHost hn, (congrArg State.data hn :)⟩
  by_cases hi : i = .readOctet
  · subst hi
    cases hr : readOctetBody.run (s.noHost.accept .readOctet) with
    | ok a v =>
      obtain ⟨t, ht, hn⟩ := readOctet_ok h hr
      obtain ⟨u, hu, hm⟩ := readOctet_ok h.alone hr
      obtain ⟨hblank, hdata⟩ := of_noHost hn hm
      exact ⟨t, u, ht, hu, hblank, .inl hdata⟩
    | error e v =>
      obtain ⟨t, -, ht, -, hn⟩ := readOctet_error h hr
      obtain ⟨u, -, hu, -, hm⟩ := readOctet_error h.alone hr
      have hv := readOctetBody_fails_commError (s.noHost.accept .readOctet) fun _ he => absurd he List.not_mem_nil
      rw [hr] at hv
      have ht' : t.blank = v.blank := blank_of_noHost (st := { v with data := t.data }) hn
      have hu' : u.blank = v.blank := blank_of_noHost (st := { v with data := u.data }) hm
      exact ⟨t, u, ht, hu, ht'.trans hu'.symm, .inr ⟨rfl, (congrArg State.result hn :).trans hv⟩⟩
  · obtain ⟨body, hblind, hrun⟩ := exec_blind hi s
    obtain ⟨t, ht, hn⟩ := runOp_blind i h hblind
    obtain ⟨u, hu, hm⟩ := runOp_blind i h.alone hblind
    obtain ⟨hblank, hdata⟩ := of_noHost hn hm
    exact ⟨t, u, (hrun s rfl rfl).trans ht, (hrun { s with host := [] } rfl rfl).trans hu, hblank, .inl hdata⟩

/-- Settles O50: the operation's statements are blind to the host, READ_OCTET's but for the free value of a failing slot. -/
theorem hostCannotDisturbAnOperation : Obligations.HostCannotDisturbAnOperation := by
  intro i s t u h ht hu
  obtain ⟨t', u', ht', hu', hblank, hdata⟩ := exec_undisturbed i h
  cases ht.symm.trans ht'
  cases hu.symm.trans hu'
  refine ⟨hblank, fun hor => ?_⟩
  rcases hdata with hd | ⟨hi, hfail⟩
  · exact hd
  · rw [hfail] at hor
    exact absurd hor (by simp [hi])

end Sys2Proof.Machine
end

section
/-! PROOFS. The operations on the reference bus (20_memory R82 to R84). -/

namespace Sys2Proof.Machine

/-! ### RESET_PULSE -/

/-- RESET_PULSE ends as its reset sequence does when the host does nothing. -/
theorem exec_resetPulse_of {s u : State} {r : Result} (h : s.Ready)
    (hr : resetSeq.run (s.noHost.accept .resetPulse) = .ok r u) :
    ∃ t, exec .resetPulse s = .next t ∧ t.noHost = u.finish r :=
  runOp_blind_of h (blind_bind blind_resetSeq blind_finish) ((bind_ok hr).trans (finish_run r u))

/-- With no device the line stays high after a reset pulse. -/
theorem afterReset_empty {st : State} {b : Bus} {cmd : Byte} (hline : st.line = .bus b) (hb : b.Standard cmd st.clock [])
    {t : Nat} (ht : st.clock + resetLow ≤ t) : st.afterReset t = true := by
  rw [State.afterReset, hline, bus_pulse_eq]
  show (b.pulsed st.clock resetLow).level t = true
  rw [hb.reset.2 t ht]
  rfl

/-- Settles O30: the devices give a presence pulse of 2 and 8 quarters, which the reference bounds admit. -/
theorem referenceBusAnswersReset : Obligations.ReferenceBusAnswersReset := by
  intro s b roms h hcfg hline hb hne
  obtain ⟨hhigh, hlow⟩ : 2 ≤ s.cfg.presHighMaxQ ∧ 8 ≤ s.cfg.presLowMaxQ := by
    rw [hcfg]
    decide
  obtain ⟨hhost, hrel⟩ := noHost_accept_quiet .resetPulse h
  have hp : (s.noHost.accept .resetPulse).Presence 0 2 8 := presence_on_bus hline hb hne hhigh hlow
  obtain ⟨t, ht, hn⟩ := exec_resetPulse_of h (resetSeq_ok hhost hrel hp)
  exact ⟨t, ht, (congrArg State.result hn :), (congrArg State.presHighQ hn :), (congrArg State.presLowQ hn :),
    (congrArg State.clock hn :)⟩

/-- The reset sequence on an empty bus: the line stays high beyond the bound on the quarters before a presence pulse. -/
theorem resetSeq_on_empty_bus {st : State} {b : Bus} {cmd : Byte} (hhost : st.host = []) (hrel : st.driveLow = false)
    (hline : st.line = .bus b) (hb : b.Standard cmd st.clock []) :
    ∃ u, resetSeq.run st = .ok .noDevices u ∧ u.presHighQ = BitVec.ofNat 8 (st.cfg.presHighMaxQ + 1) ∧ u.presLowQ = 0#8 ∧
      u.clock = quarter (st.clock + resetLow) 0 (st.cfg.presHighMaxQ + 1) := by
  have hfloats : floatsAt st.afterReset (st.clock + resetLow) 0 :=
    ⟨afterReset_empty hline hb le_rfl, fun j hj => absurd hj (Nat.not_lt_zero j)⟩
  have hhigh : ∀ j ≤ st.cfg.presHighMaxQ, st.afterReset (quarter (st.clock + resetLow) 0 j) = true :=
    fun j _ => afterReset_empty hline hb (by unfold quarter; omega)
  exact ⟨_, resetSeq_no_presence hhost hrel (Nat.zero_le _) hfloats hhigh, rfl, rfl, rfl⟩

/-- Settles O31: the reset sequence finds no presence pulse, and the reference bound is 90 quarters. -/
theorem emptyReferenceBusIsAbsent : Obligations.EmptyReferenceBusIsAbsent := by
  intro s b h hcfg hline hb
  have hmax : s.cfg.presHighMaxQ = 90 := by
    rw [hcfg]
    rfl
  obtain ⟨hhost, hrel⟩ := noHost_accept_quiet .resetPulse h
  obtain ⟨u, hu, hhigh, hlow, hclock⟩ := resetSeq_on_empty_bus hhost hrel hline hb
  rw [accept_cfg, noHost_cfg, hmax] at hhigh hclock
  obtain ⟨t, ht, hn⟩ := exec_resetPulse_of h hu
  exact ⟨t, ht, (congrArg State.result hn :), (congrArg State.presHighQ hn :).trans hhigh,
    (congrArg State.presLowQ hn :).trans hlow, (congrArg State.clock hn :).trans hclock⟩

/-! ### Every operation -/

theorem keepsBus_readOctetBody {c : Config} {roms : List Address} (hc : c.SuitsReferenceBus) :
    KeepsBus c roms readOctetBody :=
  keepsBus_bind (keepsBus_upd ⟨fun _ => rfl, fun _ => rfl, fun _ => rfl, fun _ => rfl, fun _ => rfl⟩) fun _ =>
    keepsBus_bind (keepsBus_forUp (keepsBus_receiveBit hc) _ _) fun _ =>
      keepsBus_upd ⟨fun _ => rfl, fun _ => rfl, fun _ => rfl, fun _ => rfl, fun _ => rfl⟩

/-- The statements of every operation keep a standard bus. -/
theorem keepsBus_exec (roms : List Address) (i : Instr) {s : State} (hc : s.cfg.SuitsReferenceBus) :
    ∃ body : Op Unit, KeepsBus s.cfg roms body ∧ exec i s = runOp i body s := by
  cases i with
  | resetPulse => exact ⟨_, keepsBus_bind (keepsBus_resetSeq hc) keepsBus_finish, rfl⟩
  | writeBit v => exact ⟨_, keepsBus_bind (keepsBus_writeSlot hc _) fun _ => keepsBus_finish _, rfl⟩
  | readBitOr p =>
    exact ⟨_, keepsBus_bind (keepsBus_readSlot hc fun d x => orBit d (readPosition p) x) fun r => keepsBus_finish r.2, rfl⟩
  | writeOctet => exact ⟨_, keepsBus_bind (keepsBus_writeOctetSeq hc _) fun _ => keepsBus_finish _, rfl⟩
  | readOctet => exact ⟨_, keepsBus_bind (keepsBus_readOctetBody hc) fun _ => keepsBus_finish _, execReadOctet_eq s⟩
  | sendCommand => exact ⟨_, keepsBus_bind (keepsBus_sendCommandSeq hc _) keepsBus_finish, rfl⟩
  | search =>
    exact ⟨_, keepsBus_bind (keepsBus_upd (f := State.startSearch)
      ⟨fun _ => rfl, fun _ => rfl, fun _ => rfl, fun _ => rfl, fun _ => rfl⟩) fun _ => keepsBus_searchLoop hc _, rfl⟩

/-- With no host action pending every operation leaves a standard bus such a bus. -/
theorem exec_onBus {i : Instr} {s u : State} {roms : List Address} (h : s.Ready) (hc : s.cfg.SuitsReferenceBus)
    (hbus : s.OnBus s.cfg roms) (hu : exec i s = .next u) : u.OnBus s.cfg roms := by
  obtain ⟨body, hkeeps, he⟩ := keepsBus_exec roms i hc
  rw [he, runOp_idle _ _ h.idle h.running] at hu
  cases hu
  have haccept : (s.accept i).OnBus s.cfg roms := ⟨hbus.host, hbus.released, rfl, hbus.bus⟩
  exact triple_lastState hkeeps (fun _ _ hq => hq) (fun _ hq => hq) haccept

/-- Settles O57: the host does not reach the line, and with no host action pending every statement keeps the bus. -/
theorem standardBusStaysStandard : Obligations.StandardBusStaysStandard := by
  intro i s t b roms h hc hline hb ht
  obtain ⟨t', u, ht', hu, hblank, -⟩ := exec_undisturbed i h
  cases ht.symm.trans ht'
  have hsame : t.line = u.line := (congrArg State.line hblank :)
  rw [hsame, blank_clock hblank]
  exact (exec_onBus h.alone hc ⟨rfl, h.released, rfl, b, hline, hb⟩ hu).bus

end Sys2Proof.Machine
end

section
/-! PROOFS. The command byte (30_encoding R100 to R103, R108): its fields, its decoder, and what an illegal one does. -/

namespace Sys2Proof

/-! ### The fields of a command byte -/

theorem zField_commandByte (arg : BitVec 3) (op : BitVec 4) : zField (commandByte arg op) = false := by
  rw [zField, commandByte, BitVec.getLsbD_append, BitVec.getLsbD_append]
  rfl

theorem opField_commandByte (arg : BitVec 3) (op : BitVec 4) : opField (commandByte arg op) = op :=
  BitVec.extractLsb'_append_eq_right

theorem argField_commandByte (arg : BitVec 3) (op : BitVec 4) : argField (commandByte arg op) = arg := by
  rw [argField, commandByte, BitVec.extractLsb'_append_eq_of_le (by decide)]
  exact BitVec.extractLsb'_append_eq_right

/-- A byte with `Z = 0` is what its other two fields make (30_encoding R100). -/
theorem commandByte_fields {w : Byte} (hz : zField w = false) : commandByte (argField w) (opField w) = w := by
  have htop : 0#1 = w.extractLsb' 7 1 := by
    ext j hj
    obtain rfl : j = 0 := by omega
    simpa [zField] using hz.symm
  have hupper : 0#1 ++ argField w = w.extractLsb' 4 4 := by
    rw [htop]
    exact BitVec.extractLsb'_append_extractLsb'_eq_extractLsb' rfl
  rw [commandByte, hupper]
  exact (BitVec.extractLsb'_append_extractLsb'_eq_extractLsb' rfl).trans BitVec.extractLsb'_eq_self

/-! ### An operation's fields -/

/-- `OP` of an operation (30_encoding R102). -/
def Instr.opcode : Instr → BitVec 4
  | .resetPulse => 1#4
  | .writeBit _ => 2#4
  | .readBitOr _ => 3#4
  | .writeOctet => 4#4
  | .readOctet => 5#4
  | .sendCommand => 6#4
  | .search => 7#4

/-- `ARG` of an operation: its immediate, or 0 (30_encoding R101). -/
def Instr.immediate : Instr → BitVec 3
  | .writeBit v => v
  | .readBitOr p => p
  | _ => 0#3

theorem encode_eq (i : Instr) : encode i = commandByte i.immediate i.opcode := by
  cases i <;> rfl

/-- The byte `w` is format C with the fields of the well-formed operation `i` (30_encoding R100 to R102). -/
structure Encodes (w : Byte) (i : Instr) : Prop where
  z : zField w = false
  op : opField w = i.opcode
  arg : argField w = i.immediate
  wf : i.wf = true

theorem encodes_iff {w : Byte} {i : Instr} : Encodes w i ↔ i.wf = true ∧ encode i = w := by
  constructor
  · rintro ⟨hz, hop, harg, hwf⟩
    exact ⟨hwf, by rw [encode_eq, ← hop, ← harg, commandByte_fields hz]⟩
  · rintro ⟨hwf, rfl⟩
    rw [encode_eq]
    exact ⟨zField_commandByte _ _, opField_commandByte _ _, argField_commandByte _ _, hwf⟩

/-! ### The decoder -/

theorem plainOp_ok_iff {w : Byte} {i j : Instr} : plainOp w i = .ok j ↔ argField w = 0#3 ∧ i = j := by
  rw [plainOp]
  by_cases harg : argField w = 0#3
  · rw [if_pos harg, Except.ok.injEq, and_iff_right harg]
  · rw [if_neg harg, iff_false_right (fun h => harg h.1)]
    exact nofun

/-- The five operations without an immediate. -/
theorem encodes_of_plainOp {w : Byte} {i j : Instr} (h : plainOp w i = .ok j) (hz : zField w = false)
    (hop : (opField w).toNat = i.opcode.toNat) (himm : i.immediate = 0#3) (hwf : i.wf = true) : Encodes w j := by
  obtain ⟨harg, rfl⟩ := plainOp_ok_iff.1 h
  exact ⟨hz, BitVec.eq_of_toNat_eq hop, harg.trans himm.symm, hwf⟩

/-- What the decoder accepts has the fields of the operation it answers. -/
theorem encodes_of_decode {w : Byte} {i : Instr} (h : decode w = .ok i) : Encodes w i := by
  rw [decode] at h
  by_cases hset : zField w = true
  · rw [if_pos hset] at h
    cases h
  have hz : zField w = false := Bool.eq_false_of_not_eq_true hset
  rw [if_neg hset] at h
  split at h
  · next hop => exact encodes_of_plainOp h hz hop rfl rfl
  · next hop =>
    split at h
    · next hbit =>
      cases h
      exact ⟨hz, BitVec.eq_of_toNat_eq hop, rfl, decide_eq_true hbit⟩
    · cases h
  · next hop =>
    cases h
    exact ⟨hz, BitVec.eq_of_toNat_eq hop, rfl, rfl⟩
  · next hop => exact encodes_of_plainOp h hz hop rfl rfl
  · next hop => exact encodes_of_plainOp h hz hop rfl rfl
  · next hop => exact encodes_of_plainOp h hz hop rfl rfl
  · next hop => exact encodes_of_plainOp h hz hop rfl rfl
  · cases h

/-- The decoder answers the operation whose fields the byte has. -/
theorem decode_of_encodes {w : Byte} {i : Instr} (h : Encodes w i) : decode w = .ok i := by
  obtain ⟨hz, hop, harg, hwf⟩ := h
  rw [decode, hz, hop, harg]
  cases i with
  | writeBit v => exact if_pos (of_decide_eq_true hwf)
  | readBitOr p => rfl
  | _ => exact plainOp_ok_iff.2 ⟨harg, rfl⟩

theorem decode_ok_iff {w : Byte} {i : Instr} : decode w = .ok i ↔ i.wf = true ∧ encode i = w :=
  ⟨fun h => encodes_iff.1 (encodes_of_decode h), fun h => decode_of_encodes (encodes_iff.2 h)⟩

end Sys2Proof

namespace Sys2Proof.Machine

/-! ### `legal(w)` -/

/-- WRITE_BIT's `ARG` is 0 or 1 when its two upper bits are 0. -/
theorem argBit_iff (w : Byte) : w.extractLsb' 5 2 = 0#2 ↔ (argField w).toNat < 2 := by
  simp only [argField, ← BitVec.toNat_inj, BitVec.extractLsb'_toNat, Nat.shiftRight_eq_div_pow, BitVec.toNat_ofNat]
  omega

/-- R103's `legal` by the fields of R100. -/
theorem legal_iff_fields (w : Byte) : legal w = true ↔ zField w = false ∧
    (opField w = 1#4 ∧ argField w = 0#3 ∨ opField w = 2#4 ∧ (argField w).toNat < 2 ∨ opField w = 3#4 ∨
      (opField w = 4#4 ∨ opField w = 5#4 ∨ opField w = 6#4 ∨ opField w = 7#4) ∧ argField w = 0#3) := by
  simp only [legal, argBit_iff, Bool.and_eq_true, Bool.or_eq_true, Bool.not_eq_true', decide_eq_true_eq, or_assoc]
  rfl

/-- The legal bytes are those of the well-formed operations. -/
theorem legal_iff_encodes {w : Byte} : legal w = true ↔ ∃ i, Encodes w i := by
  rw [legal_iff_fields]
  constructor
  · rintro ⟨hz, ⟨hop, harg⟩ | ⟨hop, hbit⟩ | hop | ⟨hop | hop | hop | hop, harg⟩⟩
    · exact ⟨.resetPulse, hz, hop, harg, rfl⟩
    · exact ⟨.writeBit (argField w), hz, hop, rfl, decide_eq_true hbit⟩
    · exact ⟨.readBitOr (argField w), hz, hop, rfl, rfl⟩
    · exact ⟨.writeOctet, hz, hop, harg, rfl⟩
    · exact ⟨.readOctet, hz, hop, harg, rfl⟩
    · exact ⟨.sendCommand, hz, hop, harg, rfl⟩
    · exact ⟨.search, hz, hop, harg, rfl⟩
  · rintro ⟨i, hz, hop, harg, hwf⟩
    refine ⟨hz, ?_⟩
    rw [hop, harg]
    cases i with
    | writeBit v => exact .inr (.inl ⟨rfl, of_decide_eq_true hwf⟩)
    | readBitOr p => exact .inr (.inr (.inl rfl))
    | _ => decide

theorem isOk_decode (w : Byte) : (decode w).isOk = legal w := by
  cases hw : decode w with
  | ok i => exact (legal_iff_encodes.2 ⟨i, encodes_of_decode hw⟩).symm
  | error e =>
    refine (Bool.eq_false_iff.2 fun hlegal => ?_).symm
    obtain ⟨i, hi⟩ := legal_iff_encodes.1 hlegal
    cases hw.symm.trans (decode_of_encodes hi)

theorem decode_error_of_illegal {w : Byte} (h : legal w = false) : ∃ e, decode w = .error e := by
  rw [← isOk_decode] at h
  cases hw : decode w with
  | ok i =>
    rw [hw] at h
    cases h
  | error e => exact ⟨e, rfl⟩

/-- An illegal byte written to CMD. -/
theorem hostStep_illegal {st : State} {a : HostAddr} {w : Byte} (hrun : st.resetIn = false) (ha : a.toNat = 0)
    (hw : legal w = false) : hostStep st (.write a w) = .next st.refuse := by
  have hnot : ¬ st.resetIn = true := by simp [hrun]
  obtain ⟨e, he⟩ := decode_error_of_illegal hw
  rw [hostStep, if_neg hnot, if_pos ha, he]

/-! ### The obligations -/

/-- Settles O1: decoding answers the operation whose fields the byte has, and these are the fields its encoding writes. -/
theorem decodeAndEncodeAgree : Obligations.DecodeAndEncodeAgree :=
  ⟨fun _ hwf => decode_ok_iff.2 ⟨hwf, rfl⟩, fun _ _ h => decode_ok_iff.1 h⟩

/-- Settles O2: the legal bytes are those with the fields of a well-formed operation; the count runs over the 256 bytes. -/
theorem legalBytesAreTheFifteen : Obligations.LegalBytesAreTheFifteen := ⟨isOk_decode, by decide⟩

/-- Settles O8: the idle block decodes the byte to an error and refuses it; a `Wait` refuses it undecoded. -/
theorem illegalByteOnlySetsIll : Obligations.IllegalByteOnlySetsIll := by
  intro s k a w es hhost ha hw
  refine ⟨fun hidle hrun => ?_, fun n q hbusy hseq hlt => ?_⟩
  · exact (step_idle hidle hhost).trans (hostStep_illegal (st := s.arrive _ es) hrun ha hw)
  · rw [step_waiting hbusy hseq hhost hlt, State.busyAct, State.writeBusy, if_pos (.inl ha)]
    rfl

end Sys2Proof.Machine
end

section
/-! PROOFS. WRITE_BIT and READ_BIT_OR (40_timeslot R131, R132, R134, R135): one slot, then the finish. -/

namespace Sys2Proof.Machine

/-- Acceptance on the idle block and the finish after it leave their marks on `cmd`, `RESULT` and `seq` alone. -/
theorem accept_finish (i : Instr) (r : Result) {st : State} (hidle : st.busy = false) :
    (st.accept i).finish r = { st with cmd := encode i, result := r, seq := [] } := by
  ext1
  case busy => exact hidle.symm
  all_goals rfl

/-- A legal WRITE_BIT's value is 1 exactly if its `ARG` is. -/
theorem writeValue_eq_decide : ∀ v : BitVec 3, v.toNat < 2 → writeValue v = decide (v = 1#3) := by decide

/-- WRITE_BIT leaves what its write slot does when the host does nothing, and the finish. -/
theorem exec_writeBit_of_ready (v : BitVec 3) {s : State} (h : s.Ready) :
    ∃ t, exec (.writeBit v) s = .next t ∧ t.noHost =
      ((s.noHost.accept (.writeBit v)).lineTo (s.line.pulse s.clock (lowTime s.cfg (writeValue v)))
        (s.clock + slotWrite s.cfg) (writeSlotTrace s.cfg s.clock (writeValue v))).finish .ok := by
  obtain ⟨hhost, hrel⟩ := noHost_accept_quiet (.writeBit v) h
  exact runOp_blind_of h (blind_bind (blind_writeSlot _) fun _ => blind_finish _)
    ((bind_ok (writeSlot_quiet _ hhost hrel)).trans (finish_run _ _))

/-- READ_BIT_OR leaves what its read slot does when the host does nothing, and the finish with the slot's Result. -/
theorem exec_readBitOr_of_ready (p : BitVec 3) {s : State} (h : s.Ready) :
    ∃ t, exec (.readBitOr p) s = .next t ∧ t.noHost =
      (((s.noHost.accept (.readBitOr p)).lineTo (s.line.pulse s.clock s.cfg.tRLow) (s.clock + Config.tSlot)
        (readSlotTrace s.cfg s.clock (s.line.readBit s.cfg s.clock 0) (s.line.readEnd s.cfg s.clock 0))).sampled
          (s.line.readBit s.cfg s.clock 0) (s.line.readEnd s.cfg s.clock 0)
          (orBit s.data (readPosition p) (s.line.readBit s.cfg s.clock 0))).finish
            (slotResult (s.line.readEnd s.cfg s.clock 0)) := by
  obtain ⟨hhost, hrel⟩ := noHost_accept_quiet (.readBitOr p) h
  exact runOp_blind_of h
    (blind_bind (blind_readSlot (f := State.orData _) (fun _ => rfl) fun _ => rfl) fun x => blind_finish x.2)
    ((bind_ok (readSlot_quiet (fun d x => orBit d (readPosition p) x) hhost hrel)).trans (finish_run _ _))

/-- Settles O17: the operation is its write slot and the finish, and no statement of it samples the line. -/
theorem writeBitWaveform : Obligations.WriteBitWaveform := by
  intro s v h hv
  obtain ⟨t, ht, hn⟩ := exec_writeBit_of_ready v h
  rw [writeValue_eq_decide v hv] at hn
  exact ⟨t, ht, hn.trans (congrArg (State.lineTo _ _ _) (accept_finish _ .ok (st := s.noHost) h.idle))⟩

/-- Settles O18: the operation is its read slot, the OR at the data-sample tick whatever the end sample, and the finish. -/
theorem readBitOrResult : Obligations.ReadBitOrResult := by
  intro s p h
  obtain ⟨t, ht, hn⟩ := exec_readBitOr_of_ready p h
  have hdata : t.data = orBit s.data p.toNat (s.line.readBit s.cfg s.clock 0) := (congrArg State.data hn :)
  refine ⟨t, ht, fun j => ?_, ?_⟩
  · rw [hdata, getLsbD_orBit _ _ _ _ p.isLt]
  · rw [hdata]
    exact hn.trans (congrArg (fun u => State.sampled _ _ _ (State.lineTo _ _ _ u))
      (accept_finish _ _ (st := s.noHost) h.idle))

end Sys2Proof.Machine
end

section
/-! PROOFS. WRITE_OCTET, READ_OCTET and RESET_PULSE (41_transaction R160 to R166): what each sequence does when the host does
nothing is what the operation leaves. -/

namespace Sys2Proof.Machine

/-! ### WRITE_OCTET -/

/-- Settles O19: the operation is its eight write slots and the finish, and no statement of it samples the line. -/
theorem writeOctetWaveform : Obligations.WriteOctetWaveform := by
  intro s h
  obtain ⟨hhost, hrel⟩ := noHost_accept_quiet .writeOctet h
  obtain ⟨t, ht, hn⟩ := runOp_blind_of h (blind_bind (blind_writeOctetSeq s.data) fun _ => blind_finish .ok)
    ((bind_ok (writeOctetSeq_quiet s.data hhost hrel)).trans (finish_run _ _))
  exact ⟨t, ht, hn.trans (congrArg (fun u => (State.octetSent u s.data 8).setI 8)
    (accept_finish _ .ok (st := s.noHost) h.idle))⟩

/-! ### READ_OCTET -/

/-- READ_OCTET's statements begin with `DATA` cleared and no slot read. -/
theorem readOctetBody_run (st : State) :
    readOctetBody.run st = (forUp receiveBit 0 8 >>= fun _ => upd (State.setI 8)).run (st.octetRead 0) := by
  have hclear : ({ st with data := 0#8 } : State) = st.octetRead 0 := by
    ext1 <;> simp [State.octetRead, State.indexed, octetIndex, LineEnv.afterReads, LineEnv.readByte, readOctetTrace]
  rw [readOctetBody, bind_ok (upd_run _ _), hclear]

/-- The state after slot `m`, whatever `DATA` holds, has that slot's samples and index. -/
theorem octetRead_succ (st : State) (m : Nat) (d : Byte) :
    ({ st.octetRead (m + 1) with data := d } : State) =
      ((st.lineTo (st.line.afterReads st.cfg st.clock (m + 1)) (st.clock + (m + 1) * Config.tSlot)
        (readOctetTrace st.line st.cfg st.clock (m + 1))).indexed (BitVec.ofNat 4 m)).sampled
          (st.line.readBit st.cfg st.clock m) (st.line.readEnd st.cfg st.clock m) d := by
  rw [State.octetRead, if_neg (Nat.succ_ne_zero m), if_neg (Nat.succ_ne_zero m), Nat.add_sub_cancel]
  rfl

/-- Settles O20: no slot aborts, and the OR of each sample lands in a bit of `DATA` that is still 0. -/
theorem readOctetAssemblesTheSamples : Obligations.ReadOctetAssemblesTheSamples := by
  intro s h hends
  obtain ⟨hhost, hrel⟩ := noHost_accept_quiet .readOctet h
  have hbody : readOctetBody.run (s.noHost.accept .readOctet) =
      .ok () (((s.noHost.accept .readOctet).octetRead 8).setI 8) := by
    rw [readOctetBody_run, bind_ok (octetRead_all hhost hrel hends), upd_run]
  obtain ⟨t, ht, hn⟩ := readOctet_ok h hbody
  have hdata : t.data = s.line.readByte s.cfg s.clock 8 := (congrArg State.data hn :)
  refine ⟨t, ht, fun k hk => ?_, ?_⟩
  · rw [hdata, readByte_bit _ _ _ _ _ le_rfl hk]
  · rw [hdata, hn, ← hends 7 (by decide)]
    exact congrArg (fun u => (State.octetRead u 8).setI 8) (accept_finish _ .ok (st := s.noHost) h.idle)

/-- Settles O21: the slots before `m` go through, and slot `m` draws the free value and finishes. -/
theorem readOctetAbortsAtTheFirstLowEnd : Obligations.ReadOctetAbortsAtTheFirstLowEnd := by
  intro s m h hm hends hlow
  obtain ⟨hhost, hrel⟩ := noHost_accept_quiet .readOctet h
  have hbody : readOctetBody.run (s.noHost.accept .readOctet) =
      .error .finished (((s.noHost.accept .readOctet).octetRead (m + 1)).anyData.finish .commError) := by
    rw [readOctetBody_run, bind_error (octetRead_abort hhost hrel m hm hends hlow)]
  obtain ⟨t, n, ht, hdata, hn⟩ := readOctet_error h hbody
  have hread := congrArg (fun u : State => ({ u.octetRead (m + 1) with data := t.data } : State).noHost)
    (accept_finish .readOctet .commError (st := s.noHost) h.idle)
  refine ⟨t, n, ht, hdata, ?_⟩
  rw [← hlow, Nat.mul_comm 60]
  refine hn.trans (hread.trans ?_)
  rw [octetRead_succ]
  rfl

/-! ### RESET_PULSE -/

/-- The ticks from acceptance to a quarter. -/
theorem quarter_eq (t f j : Nat) : quarter (t + resetLow) f j = t + (resetLow + f + Config.tQ * j) := by
  rw [quarter, Nat.add_assoc, Nat.add_assoc, Nat.add_assoc]

/-- RESET_PULSE whose reset sequence, when the host does nothing, takes `d` ticks and leaves these counters and this
waveform. -/
theorem exec_resetPulse_counted {s : State} {r : Result} {tick d hi lo f : Nat} {tr : List (Nat × LineEvent)} (h : s.Ready)
    (hr : resetSeq.run (s.noHost.accept .resetPulse) = .ok r ((((s.noHost.accept .resetPulse).lineTo
      (s.line.pulse s.clock resetLow) tick tr).counted hi lo).floated f))
    (htick : tick = s.clock + d) :
    ∃ t, exec .resetPulse s = .next t ∧ t.noHost = ({ s with
      cmd := encode .resetPulse
      result := r
      seq := []
      presHighQ := BitVec.ofNat 8 hi
      presLowQ := BitVec.ofNat 8 lo
      nFloat := BitVec.ofNat 8 f
      line := s.line.pulse s.clock resetLow
      clock := s.clock + d
      trace := tr ++ s.trace }).noHost := by
  subst htick
  obtain ⟨t, ht, hn⟩ := exec_resetPulse_of h hr
  exact ⟨t, ht, hn.trans (congrArg (fun u => ((State.lineTo _ _ _ u).counted hi lo).floated f)
    (accept_finish _ r (st := s.noHost) h.idle))⟩

/-- The state in which a reset sequence that `st` begins returns `Ok`. -/
def State.resetAccepted (st : State) (f h l : Nat) : State :=
  (((st.lineTo (st.line.pulse st.clock resetLow) (st.clock + resetDuration f h l)
    (resetTrace st.clock f h l)).counted h l).floated f).timed (f + Config.tQ * (h + l))

/-- The reset sequence of an operation accepted in `s`, the host doing nothing, with an accepted presence pulse. -/
theorem resetSeq_accepted (i : Instr) {s : State} {f h l : Nat} (hs : s.Ready) (hp : s.Presence f h l) :
    resetSeq.run (s.noHost.accept i) = .ok .ok ((s.noHost.accept i).resetAccepted f h l) :=
  resetSeq_ok rfl hs.released { hp with }

/-- Settles O22: the reset sequence returns `Ok` at the end of the recovery window or of the pulse, whichever is later. -/
theorem resetPulseFindsPresence : Obligations.ResetPulseFindsPresence := by
  intro s f h l hs hp
  obtain ⟨t, ht, hn⟩ := exec_resetPulse_of hs (resetSeq_accepted .resetPulse hs hp)
  exact ⟨t, ht, hn.trans (congrArg (fun u => State.resetAccepted u f h l)
    (accept_finish _ .ok (st := s.noHost) hs.idle))⟩

/-- Settles O23: the float loop runs into its timeout. -/
theorem resetPulseOnAShortedLine : Obligations.ResetPulseOnAShortedLine := by
  intro s h hlow
  obtain ⟨hhost, hrel⟩ := noHost_accept_quiet .resetPulse h
  exact exec_resetPulse_counted h (resetSeq_never_floats hhost hrel hlow) (Nat.add_assoc _ _ _)

/-- Settles O24: the high loop exceeds its bound. -/
theorem resetPulseWithoutPresence : Obligations.ResetPulseWithoutPresence := by
  intro s f h hf hfloats hhigh
  obtain ⟨hhost, hrel⟩ := noHost_accept_quiet .resetPulse h
  exact exec_resetPulse_counted h (resetSeq_no_presence hhost hrel hf hfloats hhigh) (quarter_eq _ _ _)

/-- Settles O25: the low loop exceeds its bound. -/
theorem resetPulseWithAStuckSlave : Obligations.ResetPulseWithAStuckSlave := by
  intro s f h hs hf hfloats hb hfalls hlow
  obtain ⟨hhost, hrel⟩ := noHost_accept_quiet .resetPulse hs
  exact exec_resetPulse_counted hs (resetSeq_stuck_low hhost hrel hf hfloats hb hfalls hlow) (quarter_eq _ _ _)

/-- Settles O26: both quarter loops end within their bounds, and step 5 rejects the count. -/
theorem resetPulseRejectsAShortPulse : Obligations.ResetPulseRejectsAShortPulse := by
  intro s f h l hs hf hfloats hb hfalls hrises hshort
  obtain ⟨hhost, hrel⟩ := noHost_accept_quiet .resetPulse hs
  exact exec_resetPulse_counted hs (resetSeq_short hhost hrel hf hfloats hb hfalls hrises hshort) (quarter_eq _ _ _)

end Sys2Proof.Machine
end

section
/-! PROOFS. The command dispatch (41_transaction R167, R168): SEND_COMMAND and the reset sequence it begins with. -/

namespace Sys2Proof.Machine

variable {α β : Type}

/-! ### The reset sequence does not know whose it is -/

/-- The state with another command latched and another program in the sequencer. -/
def State.latched (w : Byte) (q : List Stmt) (st : State) : State := { st with cmd := w, seq := q }

/-- An operation is running and no assertion of the hardware reset is pending. -/
structure State.Undisturbed (st : State) : Prop where
  busy : st.busy = true
  noReset : st.noHwReset

/-- Short of a hardware reset `x` goes on, and it neither depends on the command latched and the sequencer's program nor
changes them. -/
def IgnoresCommand (x : Op α) : Prop :=
  ∀ w q st, st.Undisturbed →
    ∃ a t, x.run st = .ok a t ∧ x.run (st.latched w q) = .ok a (t.latched w q) ∧ t.Undisturbed

theorem ignoresCommand_pure (a : α) : IgnoresCommand (pure a : Op α) := fun _ _ st h => ⟨a, st, rfl, rfl, h⟩

theorem ignoresCommand_bind {x : Op α} {f : α → Op β} (hx : IgnoresCommand x) (hf : ∀ a, IgnoresCommand (f a)) :
    IgnoresCommand (x >>= f) := by
  intro w q st h
  obtain ⟨a, t, hrun, hrun', ht⟩ := hx w q st h
  rw [bind_ok hrun, bind_ok hrun']
  exact hf a w q t ht

theorem ignoresCommand_ite {p : Prop} [Decidable p] {x y : Op α} (hx : IgnoresCommand x) (hy : IgnoresCommand y) :
    IgnoresCommand (if p then x else y) := by
  split
  · exact hx
  · exact hy

theorem ignoresCommand_upd {f : State → State} (hf : ∀ w q st, f (st.latched w q) = (f st).latched w q)
    (hbusy : ∀ st, (f st).busy = st.busy) (hhost : ∀ st, (f st).host = st.host) : IgnoresCommand (upd f) :=
  fun w q st h => ⟨(), f st, rfl, by rw [upd_run, hf], (hbusy st).trans h.busy, noHwReset_of_host (hhost st) h.noReset⟩

theorem ignoresCommand_look {f : State → α} (hf : ∀ w q st, f (st.latched w q) = f st) : IgnoresCommand (look f) :=
  fun w q st h => ⟨f st, st, rfl, by rw [look_run, hf], h⟩

theorem ignoresCommand_sample : IgnoresCommand sample := fun _ _ st h =>
  ⟨st.lineIn, st.noteSample, rfl, rfl, h.busy, h.noReset⟩

theorem ignoresCommand_drive : IgnoresCommand drive := by
  refine ignoresCommand_upd (fun w q st => ?_) driveLine_busy driveLine_host
  ext1 <;> simp [State.latched]

theorem ignoresCommand_release : IgnoresCommand release := by
  refine ignoresCommand_upd (fun w q st => ?_) releaseLine_busy releaseLine_host
  ext1 <;> simp [State.latched]

/-- A read while an operation runs does not see which operation it is. -/
theorem readBusy_latched (w : Byte) (q : List Stmt) (st : State) (a : HostAddr) :
    (st.latched w q).readBusy a = ((st.readBusy a).1, (st.readBusy a).2.latched w q) := by
  rcases readBusy_cases st a with ⟨ha, h⟩ | ⟨ha, h⟩ | ⟨h2, h7, h⟩
  · rw [h, State.readBusy, ha]
    rfl
  · rw [h, State.readBusy, ha]
    rfl
  · rcases readBusy_cases (st.latched w q) a with ⟨ha, -⟩ | ⟨ha, -⟩ | ⟨-, -, h'⟩
    · exact absurd ha h2
    · exact absurd ha h7
    · rw [h, h']
      rfl

theorem busyAct_latched {st : State} (hbusy : st.busy = true) (w : Byte) (q : List Stmt) {act : HostAct}
    (h : act ≠ .hwReset) : (st.latched w q).busyAct act = (st.busyAct act).latched w q := by
  cases act with
  | read a =>
    have hread : st.hostRead a = _ := hostRead_busy hbusy rfl
    show (st.latched w q).hostRead a = (st.hostRead a).latched w q
    rw [hread, hostRead_busy (st := st.latched w q) hbusy (readBusy_latched w q st a)]
    rfl
  | write a v =>
    show (st.latched w q).writeBusy a = (st.writeBusy a).latched w q
    rw [writeBusy_eq, writeBusy_eq]
    rfl
  | hwReset => exact absurd rfl h
  | hwRelease => rfl

theorem serveUntil_latched (w : Byte) (q : List Stmt) (till : Nat) (es : List HostEvent) {st : State} (hbusy : st.busy = true)
    (h : ∀ e ∈ es, e.act ≠ .hwReset) :
    serveUntil till es (st.latched w q) = mapState (State.latched w q) (serveUntil till es st) := by
  induction es generalizing st with
  | nil => rfl
  | cons e es ih =>
    have he : e.act ≠ .hwReset := h e List.mem_cons_self
    rw [serveUntil, serveUntil]
    by_cases hlt : e.tick < till
    · rw [if_pos hlt, if_pos hlt]
      simp only [if_neg he]
      have hact : ((st.latched w q).arrive e es).busyAct e.act = ((st.arrive e es).busyAct e.act).latched w q :=
        busyAct_latched (st := st.arrive e es) hbusy w q he
      rw [hact]
      exact ih ((busyAct_busy _ he).trans hbusy) fun x hx => h x (List.mem_cons_of_mem _ hx)
    · rw [if_neg hlt, if_neg hlt]
      rfl

theorem ignoresCommand_wait (n : Nat) : IgnoresCommand (wait n) := by
  intro w q st h
  obtain ⟨t, ht, hn, hreset, -⟩ := wait_spec n st h.noReset
  have hlatched : (wait n).run (st.latched w q) = mapState (State.latched w q) ((wait n).run st) :=
    serveUntil_latched w q (st.clock + n) st.host h.busy h.noReset
  exact ⟨(), t, ht, by rw [hlatched, ht]; rfl, (congrArg State.busy hn :).trans h.busy, hreset⟩

theorem ignoresCommand_resetUpd {f : State → State} (hf : ResetUpd f) : IgnoresCommand (upd f) := by
  cases hf <;> exact ignoresCommand_upd (fun _ _ _ => rfl) (fun _ => rfl) fun _ => rfl

theorem ignoresCommand_floatLoop (fuel : Nat) : IgnoresCommand (floatLoop fuel) := by
  induction fuel with
  | zero => exact ignoresCommand_pure _
  | succ n ih =>
    exact ignoresCommand_bind ignoresCommand_sample fun _ => ignoresCommand_ite (ignoresCommand_pure _) <|
      ignoresCommand_bind (ignoresCommand_look fun _ _ _ => rfl) fun _ => ignoresCommand_ite (ignoresCommand_pure _) <|
        ignoresCommand_bind (ignoresCommand_wait _) fun _ => ignoresCommand_bind (ignoresCommand_resetUpd .float) fun _ => ih

theorem ignoresCommand_highLoop (fuel : Nat) : IgnoresCommand (highLoop fuel) := by
  induction fuel with
  | zero => exact ignoresCommand_pure _
  | succ n ih =>
    refine ignoresCommand_bind ignoresCommand_sample fun _ => ignoresCommand_ite ?_ (ignoresCommand_pure _)
    exact ignoresCommand_bind (ignoresCommand_wait _) fun _ => ignoresCommand_bind (ignoresCommand_resetUpd .high) fun _ =>
      ignoresCommand_bind (ignoresCommand_look fun _ _ _ => rfl) fun _ => ignoresCommand_ite (ignoresCommand_pure _) ih

theorem ignoresCommand_lowLoop (fuel : Nat) : IgnoresCommand (lowLoop fuel) := by
  induction fuel with
  | zero => exact ignoresCommand_pure _
  | succ n ih =>
    refine ignoresCommand_bind ignoresCommand_sample fun _ => ignoresCommand_ite (ignoresCommand_pure _) ?_
    exact ignoresCommand_bind (ignoresCommand_wait _) fun _ => ignoresCommand_bind (ignoresCommand_resetUpd .low) fun _ =>
      ignoresCommand_bind (ignoresCommand_look fun _ _ _ => rfl) fun _ => ignoresCommand_ite (ignoresCommand_pure _) ih

theorem ignoresCommand_acceptPresence : IgnoresCommand acceptPresence :=
  ignoresCommand_bind (ignoresCommand_look fun _ _ _ => rfl) fun _ => ignoresCommand_ite (ignoresCommand_pure _) <|
    ignoresCommand_bind (ignoresCommand_resetUpd .release) fun _ =>
      ignoresCommand_bind (ignoresCommand_look fun _ _ _ => rfl) fun _ =>
        ignoresCommand_ite (ignoresCommand_bind (ignoresCommand_wait _) fun _ => ignoresCommand_pure _)
          (ignoresCommand_pure _)

theorem ignoresCommand_resetSeq : IgnoresCommand resetSeq := by
  refine ignoresCommand_bind (ignoresCommand_look fun _ _ _ => rfl) fun c =>
    ignoresCommand_bind (ignoresCommand_resetUpd .clear) fun _ => ignoresCommand_bind ignoresCommand_drive fun _ =>
      ignoresCommand_bind (ignoresCommand_wait _) fun _ => ignoresCommand_bind ignoresCommand_release fun _ =>
        ignoresCommand_bind (ignoresCommand_resetUpd .start) fun _ => ?_
  refine ignoresCommand_bind (ignoresCommand_floatLoop _) fun _ => ignoresCommand_ite ?_ (ignoresCommand_pure _)
  refine ignoresCommand_bind (ignoresCommand_highLoop _) fun _ => ignoresCommand_ite ?_ (ignoresCommand_pure _)
  exact ignoresCommand_bind (ignoresCommand_lowLoop _) fun _ =>
    ignoresCommand_ite ignoresCommand_acceptPresence (ignoresCommand_pure _)

/-! ### SEND_COMMAND -/

/-- Settles O27: the reset sequence returns `Ok`, so the eight slots of `DATA` follow it. -/
theorem sendCommandSendsData : Obligations.SendCommandSendsData := by
  intro s f h l hs hp
  obtain ⟨t, ht, hn⟩ := runOp_blind_of hs (blind_bind (blind_sendCommandSeq s.data) blind_finish)
    ((bind_ok (sendCommandSeq_ok (resetSeq_accepted .sendCommand hs hp) rfl hs.released)).trans (finish_run _ _))
  refine ⟨t, ht, ?_⟩
  rw [hn, List.append_assoc]
  exact congrArg (fun u => ((State.resetAccepted u f h l).octetSent s.data 8).setI 8)
    (accept_finish _ .ok (st := s.noHost) hs.idle)

/-- Settles O28: the two operations run the same reset sequence, and behind a failing one comes the finish in both. -/
theorem sendCommandPropagatesResetFailure : Obligations.SendCommandPropagatesResetFailure := by
  intro s t h ht hfail
  obtain ⟨r, u, hrun, hrun', -⟩ := ignoresCommand_resetSeq (encode .sendCommand) (program s.cfg s.data .sendCommand)
    (s.accept .resetPulse) ⟨rfl, h.noReset⟩
  have hpulse : exec .resetPulse s = .next (u.finish r) := by
    refine (runOp_idle _ _ h.idle h.running).trans ?_
    rw [bind_ok hrun]
    rfl
  cases ht.symm.trans hpulse
  have hrunSend : resetSeq.run (s.accept .sendCommand) = .ok r (u.latched _ _) := hrun'
  refine (runOp_idle _ _ h.idle h.running).trans ?_
  rw [bind_ok (sendCommandSeq_fails hrunSend hfail)]
  rfl

end Sys2Proof.Machine
end

section
/-! PROOFS. SEARCH without capacity, the bit taken at a collision, and one position of a pass (42_search R191, R193 to R197). -/

namespace Sys2Proof.Machine

variable {α : Type}

/-! ### SEARCH when the host does nothing -/

/-- SEARCH leaves what its pass loop does when the host does nothing. -/
theorem exec_search_blind {s : State} (h : s.Ready) : ∃ t, exec .search s = .next t ∧ t.noHost =
    lastState ((searchLoop (s.cfg.maxDevices + 1)).run (s.noHost.accept .search).startSearch) :=
  runOp_blind .search h (blind_bind (blind_upd (f := State.startSearch) (fun _ => rfl) fun _ => rfl) fun _ =>
    blind_searchLoop (s.cfg.maxDevices + 1))

/-- Settles O32: the loop's test ends the search before its first pass. -/
theorem searchWithoutCapacity : Obligations.SearchWithoutCapacity := by
  intro s h hnone
  have hfull : (s.accept .search).startSearch.devicePosition.toNat = (s.accept .search).startSearch.cfg.maxDevices :=
    hnone.symm
  refine (runOp_idle .search _ h.idle h.running).trans ?_
  rw [bind_ok (upd_run _ _), searchLoop_full s.cfg.maxDevices hfull]
  exact congrArg (fun u => Host.Outcome.next (State.startSearch u)) (accept_finish .search .tooManyDevices h.idle)

/-! ### A collision -/

theorem collisionBit_below {l p : Fin 64} (rom : Address) (h : p < l) : collisionBit (some l) rom p = rom.getLsbD p :=
  if_pos h

theorem collisionBit_at (l : Fin 64) (rom : Address) : collisionBit (some l) rom l = true :=
  (if_neg (lt_irrefl l)).trans (decide_eq_true rfl)

theorem collisionBit_beyond {l p : Fin 64} (rom : Address) (h : l < p) : collisionBit (some l) rom p = false :=
  (if_neg h.le.not_gt).trans (decide_eq_false h.ne')

/-- Settles O33: the three places a position can have to the marker, and no marker. -/
theorem collisionResolution : Obligations.CollisionResolution := by
  intro last rom p
  refine ⟨?_, ?_, ?_⟩
  · rintro l rfl hlt
    exact collisionBit_below rom hlt
  · rintro l rfl rfl
    exact collisionBit_at p rom
  · rintro (rfl | ⟨l, rfl, hlt⟩)
    · rfl
    · exact collisionBit_beyond rom hlt

/-! ### One position -/

/-- What goes on in the quiet run goes on with the host. -/
theorem Blind.ok {x : Op α} (hx : Blind x) {st u : State} {a : α} (h : st.noHwReset) (hu : x.run st.noHost = .ok a u) :
    ∃ t, x.run st = .ok a t ∧ t.noHost = u := by
  have hmap := (hx st h).1
  rw [hu] at hmap
  cases hr : x.run st with
  | ok b t =>
    rw [hr, mapState_ok] at hmap
    cases hmap
    exact ⟨t, rfl, rfl⟩
  | error e t =>
    rw [hr] at hmap
    cases hmap

/-- What ends the quiet run ends the run with the host. -/
theorem Blind.error {x : Op α} (hx : Blind x) {st u : State} {e : Stop} (h : st.noHwReset)
    (hu : x.run st.noHost = .error e u) : ∃ t, x.run st = .error e t ∧ t.noHost = u := by
  have hmap := (hx st h).1
  rw [hu] at hmap
  cases hr : x.run st with
  | ok b t =>
    rw [hr] at hmap
    cases hmap
  | error e' t =>
    rw [hr, mapState_error] at hmap
    cases hmap
    exact ⟨t, rfl, rfl⟩

/-- A position that ends the quiet search ends the search, with the same Result, tick and `rom`. -/
theorem searchPosition_error {s u : State} {p : Nat} (h : s.noHwReset)
    (hu : (searchPosition p).run s.noHost = .error .finished u) :
    ∃ t, (searchPosition p).run s = .error .finished t ∧ t.result = u.result ∧ t.clock = u.clock ∧ t.rom = u.rom := by
  obtain ⟨t, ht, rfl⟩ := (blind_searchPosition p).error h hu
  exact ⟨t, ht, rfl, rfl, rfl⟩

theorem decidedBit_eq (last : Option (Fin 64)) (rom : Address) (p : Fin 64) (v c : Bool) :
    decidedBit last rom p v c = if v = false ∧ c = false then collisionBit last rom p else v := by
  cases v <;> cases c <;> rfl

theorem markerAfter_eq (cur : Option (Fin 64)) (p : Fin 64) (v c b : Bool) :
    markerAfter cur p v c b = if v = false ∧ c = false ∧ b = false then some p else cur := by
  cases v <;> cases c <;> cases b <;> rfl

/-- Settles O34: the four ways through a position, by the two end samples and the pair. -/
theorem onePositionOfAPass : Obligations.OnePositionOfAPass := by
  intro s p h hrel v c
  have hhost : s.noHost.host = [] := rfl
  have hrel' : s.noHost.driveLow = false := hrel
  refine ⟨fun h1 => ?_, fun h1 h2 => ?_, fun h1 h2 => ⟨fun ⟨hv, hc⟩ => ?_, fun hvc => ?_⟩⟩
  · obtain ⟨t, ht, hresult, hclock, hrom⟩ := searchPosition_error h (searchPosition_firstFails p hhost hrel' h1)
    exact ⟨t, ht, hresult, hclock, hrom⟩
  · obtain ⟨t, ht, hresult, hclock, hrom⟩ := searchPosition_error h (searchPosition_secondFails p hhost hrel' h1 h2)
    exact ⟨t, ht, hresult, hclock.trans (pairRead_clock s.noHost p), hrom⟩
  · obtain ⟨t, ht, hresult, hclock, hrom⟩ := searchPosition_error h (searchPosition_silent p hhost hrel' h1 h2 hv hc)
    refine ⟨t, ht, hclock.trans (pairRead_clock s.noHost p), hrom, hresult.trans ?_⟩
    simp only [finish_result, Fin.ext_iff, Fin.val_zero]
  · obtain ⟨t, ht, hn⟩ := (blind_searchPosition p).ok h (searchPosition_decides p hhost hrel' h1 h2 hvc)
    generalize hb : decidedBit s.noHost.lastDisc _ p _ _ = b at hn
    have hrom : t.rom = setBit s.rom p b := (congrArg State.rom hn :).trans (pairDone_rom _ _ _)
    refine ⟨t, b, ht, hb.symm.trans (decidedBit_eq _ _ _ _ _), fun j => ?_,
      (congrArg State.curDisc hn :).trans ((pairDone_curDisc _ _ _).trans (markerAfter_eq _ _ _ _ _)),
      (congrArg State.lastDisc hn :).trans (pairDone_lastDisc _ _ _), (congrArg State.data hn :).trans (pairDone_data _ _ _),
      (congrArg State.devices hn :).trans (pairDone_devices _ _ _),
      (congrArg State.numDevices hn :).trans (pairDone_numDevices _ _ _),
      (congrArg State.line hn :).trans (pairDone_line _ _ _), (congrArg State.clock hn :).trans (pairDone_clock _ _ _)⟩
    rw [hrom, getLsbD_setBit _ _ _ _ p.isLt]

end Sys2Proof.Machine
end

section
/-! PROOFS. SEARCH on a bus of standard devices (42_search R202, R203, R205, R206). -/

namespace Sys2Proof.Machine

variable {s : State} {b : Bus} {roms sorted : List Address}

/-- SEARCH on a bus of standard devices ends as its pass loop does there. -/
theorem exec_search_on_bus (h : s.Ready) (hc : s.cfg.SuitsReferenceBus) (hline : s.line = .bus b)
    (hb : b.Standard s.cfg.searchCmd s.clock roms) (hperm : roms.Perm sorted)
    (hasc : sorted.Pairwise fun x y => keyK x < keyK y) (hne : sorted ≠ []) :
    ∃ t, exec .search s = .next t ∧ t.LoopEnd roms sorted s.cfg s.clock s.devices s.numDevices s.data := by
  have hstart := loopAt_start (st := s.noHost.accept .search) (roms := roms) rfl h.released hline hb hne
  obtain ⟨u, hu, hend⟩ := searchLoop_on_bus (c := s.cfg) hc ⟨fun _ => hperm.mem_iff, hasc⟩ (s.cfg.maxDevices + 1)
    (Nat.zero_add _) hstart
  obtain ⟨t, ht, hn⟩ := exec_search_blind h
  rw [hu, lastState_error] at hn
  subst hn
  exact ⟨t, ht, { hend with }⟩

/-- Settles O36: the loop's end where every code fits. -/
theorem searchEnumeratesTheBus : Obligations.SearchEnumeratesTheBus := by
  intro s b roms sorted h hc hline hb hperm hasc hne hfit
  obtain ⟨t, ht, hend⟩ := exec_search_on_bus h hc hline hb hperm hasc hne
  obtain ⟨hresult, hcount, hclock⟩ := hend.found hfit
  exact ⟨t, ht, hresult, hcount, fun k hk => hend.entries k hk (hk.trans_le hfit), hclock, hend.bus⟩

/-- Settles O37: the loop's end where the table is full first. -/
theorem searchOverflowsInOrder : Obligations.SearchOverflowsInOrder := by
  intro s b roms sorted h hc hline hb hperm hasc hmore
  have hne : sorted ≠ [] := List.ne_nil_of_length_pos (Nat.zero_lt_of_lt hmore)
  obtain ⟨t, ht, hend⟩ := exec_search_on_bus h hc hline hb hperm hasc hne
  obtain ⟨hresult, hcount, hclock⟩ := hend.full hmore
  exact ⟨t, ht, hresult, hcount, hend.entries, hclock, hend.bus⟩

/-- Settles O38: the loop's end for one code. -/
theorem searchFindsTheSingleDevice : Obligations.SearchFindsTheSingleDevice := by
  intro s b rom h hc hline hb hroom
  obtain ⟨t, ht, hend⟩ := exec_search_on_bus h hc hline hb (.refl [rom]) (List.pairwise_singleton _ _) (by simp)
  obtain ⟨hresult, hcount, hclock⟩ := hend.found hroom
  obtain ⟨hhigh, hlow⟩ := hend.presence hroom
  have hone : min [rom].length s.cfg.maxDevices = 1 := Nat.min_eq_left hroom
  refine ⟨t, ht, hresult, BitVec.eq_of_toNat_eq hcount, hend.entries 0 Nat.zero_lt_one hroom, hhigh, hlow, hend.data,
    hclock.trans (by simp), fun a ha => hend.others a ?_⟩
  rwa [hone]

/-! ### A second SEARCH -/

/-- Two memories that hold the same entries and agree outside them agree everywhere. -/
theorem read_eq_of_entries {m m' : Memory} (hin : ∀ k (hk : k < sorted.length), m.holdsEntry k sorted[k])
    (hin' : ∀ k (hk : k < sorted.length), m'.holdsEntry k sorted[k])
    (hout : ∀ a, ¬(0x800 ≤ a ∧ a < 0x800 + 8 * sorted.length) → m'.read a = m.read a) (a : Nat) : m'.read a = m.read a := by
  by_cases ha : 0x800 ≤ a ∧ a < 0x800 + 8 * sorted.length
  · have haddr : a = tableAddr ((a - 0x800) / 8) ((a - 0x800) % 8) := by
      rw [tableAddr_eq]
      omega
    have hk : (a - 0x800) / 8 < sorted.length := by omega
    have hj : (a - 0x800) % 8 < Config.addrBytes := Nat.mod_lt _ (by decide)
    rw [haddr, hin _ hk _ hj, hin' _ hk _ hj]
  · exact hout a ha

theorem Bus.Standard.mono {cmd : Byte} {t t' : Nat} (h : b.Standard cmd t roms) (ht : t ≤ t') : b.Standard cmd t' roms :=
  { h with up := h.up.trans ht, quiet := fun d hd => (h.quiet d hd).mono ht }

/-- Settles O56: the first SEARCH leaves such a bus, so the second finds the same codes and stores them where they stand. -/
theorem searchIsIdempotent : Obligations.SearchIsIdempotent := by
  intro s b roms sorted h hc hline hb hperm hasc hne hfit
  obtain ⟨t, ht, hend⟩ := exec_search_on_bus h hc hline hb hperm hasc hne
  obtain ⟨hresult, hcount, -⟩ := hend.found hfit
  have hcfg : t.cfg = s.cfg := exec_cfg h.idle h.running ht
  obtain ⟨b', hline', hb'⟩ := hend.bus
  refine ⟨t, ht, fun u hu hucfg huline hlater hdev _ => ?_⟩
  have hsame : u.cfg = s.cfg := hucfg.trans hcfg
  obtain ⟨w, hw, hend'⟩ := exec_search_on_bus (b := b') hu (by rwa [hsame]) (huline.trans hline')
    (by rw [hsame]; exact hb'.mono hlater) hperm hasc hne
  rw [hsame] at hend'
  obtain ⟨hresult', hcount', -⟩ := hend'.found hfit
  refine ⟨w, hw, hresult'.trans hresult.symm, BitVec.eq_of_toNat_eq (hcount'.trans hcount.symm), read_eq_of_entries
    (fun k hk => hend.entries k hk (hk.trans_le hfit)) (fun k hk => hend'.entries k hk (hk.trans_le hfit)) fun a ha => ?_⟩
  rw [← hdev]
  exact hend'.others a (by rwa [Nat.min_eq_left hfit])

end Sys2Proof.Machine
end

section
/-! PROOFS. What a search pass stores, and the pass loop around it (42_search R198 to R200). -/

namespace Sys2Proof.Machine

/-- What no statement of a pass before its store changes. -/
def State.stored (st : State) : Config × Memory × BitVec 8 × Option (Fin 64) × Byte × Byte :=
  (st.cfg, st.devices, st.devicePosition, st.lastDisc, st.numDevices, st.data)

theorem stored_eq {st u : State} (h : u.stored = st.stored) : u.cfg = st.cfg ∧ u.devices = st.devices ∧
    u.devicePosition = st.devicePosition ∧ u.lastDisc = st.lastDisc ∧ u.numDevices = st.numDevices ∧ u.data = st.data := by
  simpa only [State.stored, Prod.mk.injEq] using h

theorem unseen_stored : Unseen PositionUpd State.stored where
  upd := fun f hf st => by
    obtain ⟨_, _, _, _, _, _, _, _, _, _, _, _, _, h⟩ := positionUpd_shape hf st
    rw [h]
    rfl
  host := fun f hf st => by
    obtain ⟨_, _, _, _, _, _, _, _, _, _, _, _, _, h⟩ := positionUpd_shape hf st
    rw [h]
  lineTo := fun _ _ _ _ _ => rfl
  finish := fun _ _ => rfl
  noHost := fun _ => rfl

/-- A pass that completes ends in its store. -/
theorem searchPass_ok_stored {s t : State} (h : s.noHwReset) (ht : searchPass.run s = .ok () t) :
    ∃ u : State, t = u.storePass ∧ u.stored = s.stored := by
  have hframe := built_passBody.frame unseen_stored h
  rw [searchPass_eq, bind_run] at ht
  cases hr : passBody.run s with
  | ok a u =>
    rw [hr] at ht hframe
    cases ht
    exact ⟨u, rfl, hframe⟩
  | error e u =>
    rw [hr] at ht
    cases ht

/-- A pass that ends the search does not reach its store. -/
theorem searchPass_error_stored {s t : State} {e : Stop} (h : s.noHwReset) (ht : searchPass.run s = .error e t) :
    t.stored = s.stored := by
  have hframe := built_passBody.frame unseen_stored h
  rw [searchPass_eq, bind_run] at ht
  cases hr : passBody.run s with
  | ok a u =>
    rw [hr] at ht
    cases ht
  | error e' u =>
    rw [hr] at ht hframe
    cases ht
    exact hframe

/-- A pass that completes stores its code in the entry its index names, leaves the entries before it, and counts itself. -/
theorem searchPass_storesEntry {s t : State} (h : s.noHwReset) (ht : searchPass.run s = .ok () t) :
    t.cfg = s.cfg ∧ t.devices = s.devices.writeEntry s.devicePosition.toNat t.rom ∧
      t.devicePosition = s.devicePosition + 1#8 ∧ t.lastDisc = t.curDisc ∧ t.numDevices = s.numDevices ∧ t.data = s.data := by
  obtain ⟨u, rfl, hu⟩ := searchPass_ok_stored h ht
  obtain ⟨hcfg, hdev, hpos, -, hnum, hdata⟩ := stored_eq hu
  rw [← hpos, ← hdev]
  exact ⟨hcfg, rfl, rfl, rfl, hnum, hdata⟩

/-- Settles O55: the statements of a pass before its store keep the table, its index and the marker. -/
theorem passStoresItsRom : Obligations.PassStoresItsRom := by
  refine fun s h => ⟨fun t ht => ?_, fun e t ht => (stored_eq (searchPass_error_stored h ht)).2⟩
  obtain ⟨-, hdev, hpos, hlast, hnum, hdata⟩ := searchPass_storesEntry h ht
  rw [hdev]
  refine ⟨Memory.holdsEntry_writeEntry _ _ _, hpos, hlast, hnum, hdata, fun a ha => ?_⟩
  rw [Memory.read_writeEntry, if_neg]
  simp only [tableAddr_eq] at ha ⊢
  omega

/-! ### The pass loop around a pass -/

theorem noHwReset_of_nil {st : State} (h : st.host = []) : st.noHwReset := by
  rw [State.noHwReset, h]
  exact fun _ he => absurd he List.not_mem_nil

/-- With room in the table the next index does not overflow. -/
theorem devicePosition_succ {st : State} (h : st.devicePosition.toNat < st.cfg.maxDevices) :
    (st.devicePosition + 1#8).toNat = st.devicePosition.toNat + 1 := by
  have := st.cfg.maxDevices_le
  rw [BitVec.toNat_add, show (1#8).toNat = 1 from rfl]
  omega

/-- The pass loop behind a pass that completed: the count and the finish, or the loop's top again (42_search R199). -/
def afterPass (fuel : Nat) : Op Unit := do
  let done ← look fun st => decide (st.curDisc = none)
  if done then
    upd State.countDevices
    finish .ok
  else searchLoop fuel

theorem searchLoop_next (fuel : Nat) {st : State} (h : st.devicePosition.toNat ≠ st.cfg.maxDevices) :
    (searchLoop (fuel + 1)).run st = (searchPass >>= fun _ => afterPass fuel).run st := by
  conv => lhs; unfold searchLoop
  rw [bind_ok (look_run _ _), decide_eq_false h, finishIf_false, bind_ok (pure_run _ _)]
  rfl

theorem afterPass_last (fuel : Nat) {st : State} (h : st.curDisc = none) :
    (afterPass fuel).run st = .error .finished (st.countDevices.finish .ok) := by
  rw [afterPass, bind_ok (look_run _ _), decide_eq_true h]
  rfl

theorem afterPass_more (fuel : Nat) {st : State} (h : st.curDisc ≠ none) :
    (afterPass fuel).run st = (searchLoop fuel).run st := by
  rw [afterPass, bind_ok (look_run _ _), decide_eq_false h]
  rfl

end Sys2Proof.Machine
end

section
/-! PROOFS. Two runs of a search from states that agree on the parameters, the tick and the line (42_search R205). -/

namespace Sys2Proof.Machine

variable {α β : Type}

/-! ### Two runs of one piece of an operation -/

/-- Two runs that go on with one value in states `Q` relates, or both end the operation, in states `E` relates. -/
inductive Paired (Q : α → State → State → Prop) (E : State → State → Prop) :
    EStateM.Result Stop State α → EStateM.Result Stop State α → Prop
  | ok (a : α) {t t' : State} : Q a t t' → Paired Q E (.ok a t) (.ok a t')
  | error (e : Stop) {t t' : State} : E t t' → Paired Q E (.error e t) (.error e t')

theorem paired_bind {Q : α → State → State → Prop} {Q' : β → State → State → Prop} {E E' : State → State → Prop}
    {x : Op α} {f : α → Op β} {st st' : State} (hx : Paired Q E (x.run st) (x.run st'))
    (hok : ∀ a t t', x.run st = .ok a t → x.run st' = .ok a t' → Q a t t' → Paired Q' E' ((f a).run t) ((f a).run t'))
    (herror : ∀ e t t', x.run st = .error e t → x.run st' = .error e t' → E t t' → E' t t') :
    Paired Q' E' ((x >>= f).run st) ((x >>= f).run st') := by
  rw [bind_run, bind_run]
  generalize hr : x.run st = r, hr' : x.run st' = r' at hx
  cases hx with
  | ok a h => exact hok a _ _ hr hr' h
  | error e h => exact .error e (herror e _ _ hr hr' h)

/-- From states that `P` relates, two runs of `x` go the same way. -/
def Twin (P : State → State → Prop) (x : Op α) (Q : α → State → State → Prop) (E : State → State → Prop) : Prop :=
  ∀ st st', P st st' → Paired Q E (x.run st) (x.run st')

theorem twin_bind {P E : State → State → Prop} {Q : β → State → State → Prop} (R : α → State → State → Prop) {x : Op α}
    {f : α → Op β} (hx : Twin P x R E) (hf : ∀ a, Twin (R a) (f a) Q E) : Twin P (x >>= f) Q E := fun st st' h =>
  paired_bind (hx st st' h) (fun a t t' _ _ hR => hf a t t' hR) fun _ _ _ _ _ hE => hE

theorem twin_upd {P E : State → State → Prop} {Q : Unit → State → State → Prop} {f : State → State}
    (h : ∀ st st', P st st' → Q () (f st) (f st')) : Twin P (upd f) Q E := fun st st' hP => .ok () (h st st' hP)

theorem twin_look {P E : State → State → Prop} {f : State → α} (h : ∀ st st', P st st' → f st' = f st) :
    Twin P (look f) (fun _ => P) E := fun st st' hP => by
  rw [look_run, look_run, h st st' hP]
  exact .ok _ hP

theorem twin_finishIf {P E : State → State → Prop} {Q : Unit → State → State → Prop} {b : Bool} {r : Result}
    (hf : b = true → ∀ st st', P st st' → E (st.finish r) (st'.finish r)) (hp : b = false → ∀ st st', P st st' → Q () st st') :
    Twin P (finishIf b r) Q E := fun st st' hP => by
  cases b
  · exact .ok () (hp rfl st st' hP)
  · exact .error .finished (hf rfl st st' hP)

theorem twin_forUp {I : Nat → State → State → Prop} {E : State → State → Prop} {body : Nat → Op Unit} (n a : Nat)
    (h : ∀ k, a ≤ k → k < a + n → Twin (I k) (body k) (fun _ => I (k + 1)) E) :
    Twin (I a) (forUp body a n) (fun _ => I (a + n)) E := by
  induction n generalizing a with
  | zero => exact fun _ _ hI => .ok () hI
  | succ n ih =>
    rw [forUp_succ, show a + (n + 1) = a + 1 + n by omega]
    exact twin_bind (fun _ => I (a + 1)) (h a le_rfl (by omega)) fun _ => ih (a + 1) fun k h1 h2 => h k (by omega) (by omega)

/-! ### The reset sequence and the search command -/

/-- How a reset sequence that begins at tick `t` can end (41_transaction R165), `L` being the level of the line after its
pulse: its Result, its last tick and its two counters. -/
inductive ResetWay (c : Config) (L : Nat → Bool) (t : Nat) : Result → Nat → Nat → Nat → Prop
  | neverFloats : (∀ j ≤ c.floatTimeoutUs, L (t + resetLow + j) = false) →
      ResetWay c L t .commError (t + resetLow + c.floatTimeoutUs) 0 0
  | noPresence {f : Nat} : f ≤ c.floatTimeoutUs → floatsAt L (t + resetLow) f →
      (∀ j ≤ c.presHighMaxQ, L (quarter (t + resetLow) f j) = true) →
      ResetWay c L t .noDevices (quarter (t + resetLow) f (c.presHighMaxQ + 1)) (c.presHighMaxQ + 1) 0
  | stuckLow {f h : Nat} : f ≤ c.floatTimeoutUs → floatsAt L (t + resetLow) f → h ≤ c.presHighMaxQ →
      highFor L (t + resetLow) f h → (∀ j ≤ c.presLowMaxQ, L (quarter (t + resetLow) f (h + j)) = false) →
      ResetWay c L t .commError (quarter (t + resetLow) f (h + c.presLowMaxQ + 1)) h (c.presLowMaxQ + 1)
  | short {f h l : Nat} : f ≤ c.floatTimeoutUs → floatsAt L (t + resetLow) f → h ≤ c.presHighMaxQ →
      highFor L (t + resetLow) f h → lowFor L (t + resetLow) f h l → l < Config.presLowMinQ →
      ResetWay c L t .commError (quarter (t + resetLow) f (h + l)) h l
  | accepted {f h l : Nat} : f ≤ c.floatTimeoutUs → floatsAt L (t + resetLow) f → h ≤ c.presHighMaxQ →
      highFor L (t + resetLow) f h → l ≤ c.presLowMaxQ → lowFor L (t + resetLow) f h l → Config.presLowMinQ ≤ l →
      ResetWay c L t .ok (t + resetDuration f h l) h l

/-- A sequence of samples takes a value within a bound, first at some index, or never. -/
theorem first_or_never (p : Nat → Bool) (v : Bool) (bound : Nat) :
    (∃ m ≤ bound, p m = v ∧ ∀ j < m, p j = !v) ∨ ∀ j ≤ bound, p j = !v := by
  by_cases h : ∃ m, m ≤ bound ∧ p m = v
  · obtain ⟨hle, hv⟩ := Nat.find_spec h
    exact .inl ⟨Nat.find h, hle, hv, fun j hj => Bool.eq_not.2 fun hj' => Nat.find_min h hj ⟨hj.le.trans hle, hj'⟩⟩
  · exact .inr fun j hj => Bool.eq_not.2 fun hv => h ⟨j, hj, hv⟩

/-- Every line lets a reset sequence end in one of its ways. -/
theorem resetWay_exists (c : Config) (L : Nat → Bool) (t : Nat) : ∃ r m h l, ResetWay c L t r m h l := by
  rcases first_or_never (fun j => L (t + resetLow + j)) true c.floatTimeoutUs with ⟨f, hf, hfloats⟩ | hnever
  case inr => exact ⟨_, _, _, _, .neverFloats hnever⟩
  rcases first_or_never (fun j => L (quarter (t + resetLow) f j)) false c.presHighMaxQ with ⟨h, hh, hfall, hhigh⟩ | hnever
  case inr => exact ⟨_, _, _, _, .noPresence hf hfloats hnever⟩
  have hpos : 1 ≤ h := Nat.one_le_iff_ne_zero.2 fun h0 => by
    subst h0
    exact Bool.noConfusion (hfall.symm.trans hfloats.1)
  have hhighFor : highFor L (t + resetLow) f h := ⟨hpos, hfall, hhigh⟩
  rcases first_or_never (fun j => L (quarter (t + resetLow) f (h + j))) true c.presLowMaxQ with ⟨l, hl, hrise, hlow⟩ | hnever
  case inr => exact ⟨_, _, _, _, .stuckLow hf hfloats hh hhighFor hnever⟩
  have hlpos : 1 ≤ l := Nat.one_le_iff_ne_zero.2 fun h0 => by
    subst h0
    exact Bool.noConfusion (hfall.symm.trans hrise)
  have hlowFor : lowFor L (t + resetLow) f h l := ⟨hlpos, hrise, hlow⟩
  by_cases hshort : l < Config.presLowMinQ
  · exact ⟨_, _, _, _, .short hf hfloats hh hhighFor hlowFor hshort⟩
  · exact ⟨_, _, _, _, .accepted hf hfloats hh hhighFor hl hlowFor (Nat.le_of_not_lt hshort)⟩

theorem ResetWay.result_ne {c : Config} {L : Nat → Bool} {t m h l : Nat} {r : Result} (hw : ResetWay c L t r m h l) :
    r ≠ .tooManyDevices := by
  cases hw <;> exact Result.noConfusion

/-- The state with what a reset sequence and a command byte write. -/
def State.commanded (l : LineEnv) (n : Nat) (hi lo : Nat) (tr : List (Nat × LineEvent)) (nf : BitVec 8) (x : BitVec 16)
    (k : BitVec 4) (st : State) : State :=
  { st with
    line := l, clock := n, presHighQ := BitVec.ofNat 8 hi, presLowQ := BitVec.ofNat 8 lo
    trace := tr, nFloat := nf, tRel := x, i := k }

/-- `ResetSeq` takes the way its line lets it take. -/
theorem resetSeq_of_way {st : State} {r : Result} {m h l : Nat} (hh : st.host = []) (hd : st.driveLow = false)
    (hw : ResetWay st.cfg st.afterReset st.clock r m h l) :
    ∃ tr nf x, resetSeq.run st = .ok r (st.commanded (st.line.pulse st.clock resetLow) m h l tr nf x st.i) := by
  cases hw with
  | neverFloats hlow => exact ⟨_, _, _, resetSeq_never_floats hh hd hlow⟩
  | noPresence hf hfloats hhigh => exact ⟨_, _, _, resetSeq_no_presence hh hd hf hfloats hhigh⟩
  | stuckLow hf hfloats hb hfall hlow => exact ⟨_, _, _, resetSeq_stuck_low hh hd hf hfloats hb hfall hlow⟩
  | short hf hfloats hb hfall hrise hshort => exact ⟨_, _, _, resetSeq_short hh hd hf hfloats hb hfall hrise hshort⟩
  | accepted hf hfloats hb hfall hl hrise hwide =>
    have hrun := resetSeq_ok hh hd ⟨hfloats, hfall, hrise, hf, hb, hl, hwide⟩
    generalize st.clock + resetDuration _ _ _ = m at hrun ⊢
    exact ⟨_, _, _, hrun⟩

/-- `SendCommandSeq(byte)` by the way of its reset sequence: the byte follows an accepted presence pulse. -/
theorem sendCommandSeq_of_way (byte : Byte) {st : State} {r : Result} {m h l : Nat} (hh : st.host = [])
    (hd : st.driveLow = false) (hw : ResetWay st.cfg st.afterReset st.clock r m h l) :
    ∃ tr nf x k, (sendCommandSeq byte).run st = .ok r (st.commanded
      (if r = .ok then (st.line.pulse st.clock resetLow).afterWrites st.cfg m byte 8 else st.line.pulse st.clock resetLow)
      (if r = .ok then m + 8 * slotWrite st.cfg else m) h l tr nf x k) := by
  obtain ⟨tr, nf, x, hr⟩ := resetSeq_of_way hh hd hw
  by_cases hok : r = .ok
  · subst hok
    simp only [if_true]
    exact ⟨_, _, _, _, sendCommandSeq_ok hr hh hd⟩
  · simp only [if_neg hok]
    exact ⟨_, _, _, _, sendCommandSeq_fails hr hok⟩

/-! ### States in which two searches go the same way -/

/-- Two searches between statements, the host doing nothing: the same parameters, line, tick and previous marker, and while
there is a previous marker the same code. -/
structure State.Alike (st u : State) : Prop where
  host : st.host = [] ∧ u.host = []
  released : st.driveLow = false ∧ u.driveLow = false
  cfg : u.cfg = st.cfg
  line : u.line = st.line
  clock : u.clock = st.clock
  lastDisc : u.lastDisc = st.lastDisc
  rom : st.lastDisc ≠ none → u.rom = st.rom

/-- Two passes agree in what they have found: the counters and the marker. -/
structure State.SameFinds (st u : State) : Prop where
  presHighQ : u.presHighQ = st.presHighQ
  presLowQ : u.presLowQ = st.presLowQ
  curDisc : u.curDisc = st.curDisc

/-- Two passes at position `p`: the same bits decided so far. -/
structure State.AlikeAt (p : Nat) (st u : State) : Prop extends State.Alike st u, State.SameFinds st u where
  bits : ∀ j < p, u.rom.getLsbD j = st.rom.getLsbD j

/-- Two passes that have ended the search: with the same failure, at the same tick and on the same line. -/
structure State.AlikeEnd (st u : State) : Prop extends State.SameFinds st u where
  result : u.result = st.result
  fails : st.result ≠ .ok ∧ st.result ≠ .tooManyDevices
  line : u.line = st.line
  clock : u.clock = st.clock

theorem State.AlikeAt.finish {p : Nat} {st u : State} (h : st.AlikeAt p u) {r : Result} (hr : r ≠ .ok ∧ r ≠ .tooManyDevices) :
    (st.finish r).AlikeEnd (u.finish r) :=
  ⟨⟨h.presHighQ, h.presLowQ, h.curDisc⟩, rfl, hr, h.line, h.clock⟩

/-- The search command of two passes; short of a hardware reset it does not end the search. -/
theorem sendCommandSeq_twin {E : State → State → Prop} (byte : Byte) :
    Twin (fun st u => st.Alike u ∧ u.curDisc = st.curDisc) (sendCommandSeq byte)
      (fun r st u => r ≠ .tooManyDevices ∧ st.AlikeAt 0 u) E := by
  rintro st u ⟨⟨⟨hh, hh'⟩, ⟨hd, hd'⟩, hcfg, hline, hclock, hlast, hrom⟩, hcur⟩
  obtain ⟨r, m, h, l, hw⟩ := resetWay_exists st.cfg st.afterReset st.clock
  have hsame : u.afterReset = st.afterReset := by
    funext t
    rw [State.afterReset, State.afterReset, hline, hclock]
  have hw' : ResetWay u.cfg u.afterReset u.clock r m h l := by rwa [hcfg, hsame, hclock]
  obtain ⟨_, _, _, _, hrun⟩ := sendCommandSeq_of_way byte hh hd hw
  obtain ⟨_, _, _, _, hrun'⟩ := sendCommandSeq_of_way byte hh' hd' hw'
  rw [hrun, hrun', hline, hcfg, hclock]
  generalize (if r = .ok then _ else _ : LineEnv) = l', (if r = .ok then _ else _ : Nat) = m'
  exact .ok r ⟨hw.result_ne, ⟨⟨hh, hh'⟩, ⟨hd, hd'⟩, hcfg, rfl, rfl, hlast, hrom⟩, ⟨rfl, rfl, hcur⟩,
    fun j hj => absurd hj (Nat.not_lt_zero j)⟩

/-- The bit decided does not depend on the code a previous pass left unless there was one. -/
theorem decidedBit_congr {last : Option (Fin 64)} {rom rom' : Address} (p : Fin 64) (v c : Bool)
    (h : last ≠ none → rom' = rom) : decidedBit last rom' p v c = decidedBit last rom p v c := by
  cases last with
  | none => rfl
  | some l => rw [h (Option.some_ne_none l)]

/-- The two slots of a position do not reach what its pass has found so far. -/
theorem State.AlikeAt.pairRead {p : Nat} {st u : State} (h : st.AlikeAt p u) : (st.pairRead p).AlikeAt p (u.pairRead p) := by
  constructor
  · constructor <;> simp only [pairRead_host, pairRead_driveLow, pairRead_cfg, pairRead_line, pairRead_clock,
      pairRead_lastDisc, pairRead_rom, h.line, h.cfg, h.clock, h.lastDisc]
    · exact h.host
    · exact h.released
    · exact h.rom
  · constructor <;> simp only [pairRead_presHighQ, pairRead_presLowQ, pairRead_curDisc, h.presHighQ, h.presLowQ, h.curDisc]
  · simpa only [pairRead_rom] using h.bits

/-- A first slot that ends low ends both searches. -/
theorem State.AlikeAt.firstFails {p : Nat} {st u : State} (h : st.AlikeAt p u) (v v' : Bool) :
    (((st.pairSlots p 1).valued v).finish .commError).AlikeEnd (((u.pairSlots p 1).valued v').finish .commError) := by
  constructor
  · constructor <;> simp [State.valued, State.pairSlots, h.presHighQ, h.presLowQ, h.curDisc]
  all_goals simp [State.valued, State.pairSlots, h.line, h.cfg, h.clock]

/-- A decided position. -/
theorem State.AlikeAt.pairDone {p : Fin 64} {st u : State} (h : st.AlikeAt p u) (b : Bool) :
    (st.pairDone p b).AlikeAt (p + 1) (u.pairDone p b) := by
  constructor
  · constructor <;> simp only [pairDone_host, pairDone_driveLow, pairDone_cfg, pairDone_line, pairDone_clock, pairDone_lastDisc,
      pairDone_rom, h.line, h.cfg, h.clock, h.lastDisc]
    · exact h.host
    · exact h.released
    · exact fun hne => by rw [h.rom hne]
  · constructor <;> simp only [pairDone_presHighQ, pairDone_presLowQ, pairDone_curDisc, h.presHighQ, h.presLowQ, h.curDisc,
      h.line, h.cfg, h.clock]
  · intro j hj
    rw [pairDone_rom, pairDone_rom, getLsbD_setBit _ _ _ _ p.isLt, getLsbD_setBit _ _ _ _ p.isLt]
    split
    · rfl
    · exact h.bits j (by omega)

/-- One position of two passes: by the end samples and the pair, which the two share. -/
theorem searchPosition_twin (p : Fin 64) :
    Twin (State.AlikeAt p) (searchPosition p) (fun _ => State.AlikeAt (p + 1)) State.AlikeEnd := by
  intro st u h
  obtain ⟨hh, hh'⟩ := h.host
  obtain ⟨hd, hd'⟩ := h.released
  have hend : ∀ k, u.line.readEnd u.cfg u.clock k = st.line.readEnd st.cfg st.clock k := by
    rw [h.line, h.cfg, h.clock]
    exact fun _ => rfl
  have hbit : ∀ k, u.line.readBit u.cfg u.clock k = st.line.readBit st.cfg st.clock k := by
    rw [h.line, h.cfg, h.clock]
    exact fun _ => rfl
  cases h1 : st.line.readEnd st.cfg st.clock 0
  · rw [searchPosition_firstFails p hh hd h1, searchPosition_firstFails p hh' hd' ((hend 0).trans h1)]
    exact .error _ (h.firstFails _ _)
  have h1' := (hend 0).trans h1
  cases h2 : st.line.readEnd st.cfg st.clock 1
  · rw [searchPosition_secondFails p hh hd h1 h2, searchPosition_secondFails p hh' hd' h1' ((hend 1).trans h2)]
    exact .error _ (h.pairRead.finish (by decide))
  have h2' := (hend 1).trans h2
  by_cases hvc : st.line.readBit st.cfg st.clock 0 = true ∧ st.line.readBit st.cfg st.clock 1 = true
  · obtain ⟨hv, hc⟩ := hvc
    rw [searchPosition_silent p hh hd h1 h2 hv hc,
      searchPosition_silent p hh' hd' h1' h2' ((hbit 0).trans hv) ((hbit 1).trans hc)]
    exact .error _ (h.pairRead.finish (by split <;> decide))
  · rw [searchPosition_decides p hh hd h1 h2 hvc, searchPosition_decides p hh' hd' h1' h2' (by rwa [hbit, hbit]), hbit, hbit,
      h.lastDisc, decidedBit_congr p _ _ h.rom]
    exact .ok () (h.pairDone _)

/-- One pass of two searches up to its store. -/
theorem passBody_twin : Twin State.Alike passBody (fun _ => State.AlikeAt 64) State.AlikeEnd := by
  refine twin_bind _ (twin_look fun _ _ h => h.cfg) fun c => ?_
  refine twin_bind (fun _ st u => st.Alike u ∧ u.curDisc = st.curDisc) (twin_upd fun st u h => ⟨{ h with }, rfl⟩) fun _ => ?_
  refine twin_bind _ (sendCommandSeq_twin c.searchCmd) fun r => ?_
  refine twin_bind (fun _ => State.AlikeAt 0) (twin_finishIf (fun hr st u h => ?_) fun _ _ _ h => h.2) fun _ => ?_
  · exact h.2.finish ⟨by simpa using hr, h.1⟩
  refine twin_bind _ (twin_forUp 64 0 fun k _ hk => searchPosition_twin ⟨k, by omega⟩) fun _ => ?_
  exact twin_upd fun st u h => { h with }

/-- One pass of two searches. -/
theorem searchPass_twin : Twin State.Alike searchPass
    (fun _ st u => st.Alike u ∧ st.SameFinds u ∧ u.rom = st.rom) State.AlikeEnd := by
  rw [searchPass_eq]
  refine twin_bind _ passBody_twin fun _ => twin_upd fun st u h => ?_
  have hrom : u.rom = st.rom := BitVec.eq_of_getLsbD_eq h.bits
  exact ⟨⟨h.host, h.released, h.cfg, h.line, h.clock, h.curDisc, fun _ => hrom⟩, ⟨h.presHighQ, h.presLowQ, h.curDisc⟩, hrom⟩

/-! ### The pass loop of two searches -/

/-- Two searches at the top of the pass loop after equally many passes: the same finds, unless there was no pass, and the
same entries. -/
structure State.AlikeLoop (st u : State) : Prop extends State.Alike st u where
  devicePosition : u.devicePosition = st.devicePosition
  finds : 0 < st.devicePosition.toNat → st.SameFinds u
  entries : ∀ k j, k < st.devicePosition.toNat → j < 8 → u.devices.read (tableAddr k j) = st.devices.read (tableAddr k j)

/-- Two searches have ended alike (42_search R205). -/
structure State.SameSearch (st u : State) : Prop where
  result : u.result = st.result
  clock : u.clock = st.clock
  line : u.line = st.line
  finds : 0 < st.cfg.maxDevices → st.SameFinds u
  devicePosition : u.devicePosition = st.devicePosition
  lastDisc : u.lastDisc = st.lastDisc
  numDevices : st.result = .ok → u.numDevices = st.numDevices
  entries : ∀ k j, k < st.devicePosition.toNat → j < 8 → u.devices.read (tableAddr k j) = st.devices.read (tableAddr k j)

/-- One pass of two searches leads from the loop's top to the loop's top. -/
theorem State.AlikeLoop.pass {st u t t' : State} (h : st.AlikeLoop u) (hroom : st.devicePosition.toNat < st.cfg.maxDevices)
    (ht : searchPass.run st = .ok () t) (ht' : searchPass.run u = .ok () t') (hpost : t.Alike t' ∧ t.SameFinds t' ∧ t'.rom = t.rom) :
    t.AlikeLoop t' := by
  obtain ⟨halike, hfinds, hrom⟩ := hpost
  obtain ⟨-, hdev, hpos, -⟩ := searchPass_storesEntry (noHwReset_of_nil h.host.1) ht
  obtain ⟨-, hdev', hpos', -⟩ := searchPass_storesEntry (noHwReset_of_nil h.host.2) ht'
  refine ⟨halike, by rw [hpos, hpos', h.devicePosition], fun _ => hfinds, fun k j hk hj => ?_⟩
  rw [hpos, devicePosition_succ hroom] at hk
  rw [hdev, hdev', h.devicePosition, hrom]
  by_cases hlast : k = st.devicePosition.toNat
  · rw [hlast, Memory.holdsEntry_writeEntry _ _ _ j hj, Memory.holdsEntry_writeEntry _ _ _ j hj]
  · rw [Memory.read_writeEntry_other _ _ hj hlast, Memory.read_writeEntry_other _ _ hj hlast]
    exact h.entries k j (by omega) hj

/-- Two searches with the table full. -/
theorem State.AlikeLoop.full {st u : State} (h : st.AlikeLoop u) (hpass : 0 < st.cfg.maxDevices → 0 < st.devicePosition.toNat) :
    (st.finish .tooManyDevices).SameSearch (u.finish .tooManyDevices) where
  result := rfl
  clock := h.clock
  line := h.line
  finds := fun hroom => { h.finds (hpass hroom) with }
  devicePosition := h.devicePosition
  lastDisc := h.lastDisc
  numDevices := Result.noConfusion
  entries := h.entries

/-- Two searches whose last pass left no marker. -/
theorem State.AlikeLoop.done {st u : State} (h : st.AlikeLoop u) (hpass : 0 < st.devicePosition.toNat) :
    (st.countDevices.finish .ok).SameSearch (u.countDevices.finish .ok) where
  result := rfl
  clock := h.clock
  line := h.line
  finds := fun _ => { h.finds hpass with }
  devicePosition := h.devicePosition
  lastDisc := h.lastDisc
  numDevices := fun _ => h.devicePosition
  entries := h.entries

/-- A pass that fails both searches has touched neither the entries nor the index and the marker. -/
theorem State.AlikeLoop.fail {st u t t' : State} {e : Stop} (h : st.AlikeLoop u) (ht : searchPass.run st = .error e t)
    (ht' : searchPass.run u = .error e t') (hend : t.AlikeEnd t') : t.SameSearch t' := by
  obtain ⟨-, hdev, hpos, hlast, -⟩ := stored_eq (searchPass_error_stored (noHwReset_of_nil h.host.1) ht)
  obtain ⟨-, hdev', hpos', hlast', -⟩ := stored_eq (searchPass_error_stored (noHwReset_of_nil h.host.2) ht')
  refine ⟨hend.result, hend.clock, hend.line, fun _ => hend.toSameFinds, ?_, ?_, fun hok => absurd hok hend.fails.1, ?_⟩
  · rw [hpos, hpos', h.devicePosition]
  · rw [hlast, hlast', h.lastDisc]
  · rw [hdev, hdev', hpos]
    exact h.entries

/-- The pass loop of two searches. -/
theorem searchLoop_twin (fuel : Nat) {st u : State} (h : st.AlikeLoop u)
    (hfuel : st.devicePosition.toNat + fuel = st.cfg.maxDevices + 1) :
    Paired (fun _ _ _ => False) State.SameSearch ((searchLoop fuel).run st) ((searchLoop fuel).run u) := by
  induction fuel generalizing st u with
  | zero => exact .error .finished (h.full (by omega))
  | succ fuel ih =>
    by_cases hfull : st.devicePosition.toNat = st.cfg.maxDevices
    · rw [searchLoop_full fuel hfull, searchLoop_full fuel (by rw [h.devicePosition, h.cfg, hfull])]
      exact .error .finished (h.full (by omega))
    rw [searchLoop_next fuel hfull, searchLoop_next fuel (by rwa [h.devicePosition, h.cfg])]
    refine paired_bind (searchPass_twin st u h.toAlike) (fun _ t t' ht ht' hpost => ?_) fun e t t' => h.fail
    have htop := h.pass (by omega) ht ht' hpost
    obtain ⟨hcfg, -, hpos, -⟩ := searchPass_storesEntry (noHwReset_of_nil h.host.1) ht
    have hcount : t.devicePosition.toNat = st.devicePosition.toNat + 1 := by rw [hpos, devicePosition_succ (by omega)]
    by_cases hlast : t.curDisc = none
    · rw [afterPass_last fuel hlast, afterPass_last fuel (hpost.2.1.curDisc.trans hlast)]
      exact .error .finished (htop.done (by omega))
    · rw [afterPass_more fuel hlast, afterPass_more fuel (by rwa [hpost.2.1.curDisc])]
      exact ih htop (by rw [hcount, hcfg]; omega)

/-- Settles O39: both searches begin with no marker, no entry and the same line, and their passes go the same way. -/
theorem searchForgetsThePast : Obligations.SearchForgetsThePast := by
  intro s s' t t' h h' hcfg hclock hline ht ht'
  obtain ⟨u, hu, hn⟩ := exec_search_blind h
  obtain ⟨u', hu', hn'⟩ := exec_search_blind h'
  cases ht.symm.trans hu
  cases ht'.symm.trans hu'
  have hstart : (s.noHost.accept .search).startSearch.AlikeLoop (s'.noHost.accept .search).startSearch :=
    ⟨⟨⟨rfl, rfl⟩, ⟨h.released, h'.released⟩, hcfg.symm, hline.symm, hclock.symm, rfl, fun hne => absurd rfl hne⟩, rfl,
      fun h0 => absurd h0 (lt_irrefl 0), fun k _ hk => absurd hk (Nat.not_lt_zero k)⟩
  have hpair := searchLoop_twin (s.cfg.maxDevices + 1) hstart (Nat.zero_add _)
  rw [← hcfg] at hn'
  generalize (searchLoop _).run _ = r at hpair hn
  generalize (searchLoop _).run _ = r' at hpair hn'
  have hsame : t.noHost.SameSearch t'.noHost := by
    rw [hn, hn']
    cases hpair with
    | error e hend => exact hend
    | ok _ hfalse => exact hfalse.elim
  obtain ⟨hresult, hclock, hline, hfinds, hpos, hlast, hnum, hentries⟩ := hsame
  refine ⟨hresult.symm, hclock.symm, hline.symm, fun hroom => ?_, hpos.symm, hlast.symm, fun hok => (hnum hok).symm,
    fun k j hk hj => (hentries k j hk hj).symm⟩
  rw [← exec_cfg h.idle h.running ht] at hroom
  obtain ⟨hhigh, hlow, hcur⟩ := hfinds hroom
  exact ⟨hhigh.symm, hlow.symm, hcur.symm⟩

end Sys2Proof.Machine
end

section
/-! PROOFS. What SEARCH leaves, by outcome (42_search R191, R198 to R200, R207). -/

namespace Sys2Proof.Machine

/-- The passes of a search accepted in `s` so far: they fit the capacity, have written their entries and no other byte. -/
structure State.Passes (s st : State) : Prop where
  fits : st.devicePosition.toNat ≤ s.cfg.maxDevices
  written : ∀ k j, k < st.devicePosition.toNat → j < 8 → (st.devices.read (tableAddr k j)).isSome
  others : ∀ a, ¬(0x800 ≤ a ∧ a < 0x800 + 8 * st.devicePosition.toNat) → st.devices.read a = s.devices.read a

/-- The pass loop's top: where there was a pass it left a marker, and its code in the last entry. -/
structure State.SearchTop (s st : State) : Prop extends State.Passes s st where
  host : st.host = []
  released : st.driveLow = false
  cfg : st.cfg = s.cfg
  numDevices : st.numDevices = s.numDevices
  last : 0 < st.devicePosition.toNat →
    st.lastDisc ≠ none ∧ st.devices.holdsEntry (st.devicePosition.toNat - 1) st.rom

/-- How a search accepted in `s` ends (42_search R207). -/
structure State.SearchEnd (s st : State) : Prop extends State.Passes s st where
  ok : st.result = .ok → 1 ≤ st.devicePosition.toNat ∧ st.numDevices = st.devicePosition ∧ st.lastDisc = none ∧
    st.curDisc = none
  kept : st.result ≠ .ok → st.numDevices = s.numDevices
  full : st.result = .tooManyDevices → st.devicePosition.toNat = s.cfg.maxDevices ∧
    (0 < s.cfg.maxDevices → st.lastDisc ≠ none)
  last : st.result = .ok ∨ st.result = .tooManyDevices → 0 < st.devicePosition.toNat →
    st.devices.holdsEntry (st.devicePosition.toNat - 1) st.rom

variable {s st t : State}

/-- A pass that completes adds its entry. -/
theorem State.Passes.pass (h : s.Passes st) (hroom : st.devicePosition.toNat < s.cfg.maxDevices)
    (hdev : t.devices = st.devices.writeEntry st.devicePosition.toNat t.rom)
    (hcount : t.devicePosition.toNat = st.devicePosition.toNat + 1) : s.Passes t := by
  refine ⟨by omega, fun k j hk hj => ?_, fun a ha => ?_⟩
  · rw [hdev]
    by_cases hlast : k = st.devicePosition.toNat
    · rw [hlast, Memory.holdsEntry_writeEntry _ _ _ j hj]
      rfl
    · rw [Memory.read_writeEntry_other _ _ hj hlast]
      exact h.written k j (by omega) hj
  · rw [hcount] at ha
    rw [hdev, read_write_outside ha]
    exact h.others a (by omega)

theorem State.SearchTop.alike (h : s.SearchTop st) : st.Alike st :=
  ⟨⟨h.host, h.host⟩, ⟨h.released, h.released⟩, rfl, rfl, rfl, rfl, fun _ => rfl⟩

/-- A pass that completes goes on with the host doing nothing and the line released; one that ends the search ends it with a
failure of its own. -/
theorem State.SearchTop.pass (h : s.SearchTop st) : Triple (fun q => q = st) searchPass
    (fun _ q => q.host = [] ∧ q.driveLow = false) fun q => q.result ≠ .ok ∧ q.result ≠ .tooManyDevices := by
  rintro q rfl
  have hpair := searchPass_twin q q h.alike
  generalize searchPass.run q = r at hpair ⊢
  cases hpair with
  | ok a hpost => exact ⟨hpost.1.host.1, hpost.1.released.1⟩
  | error e hend => exact hend.fails

/-- The table is full. -/
theorem State.SearchTop.full (h : s.SearchTop st) (hfull : st.devicePosition.toNat = s.cfg.maxDevices) :
    s.SearchEnd (st.finish .tooManyDevices) where
  toPasses := { h.toPasses with }
  ok := Result.noConfusion
  kept := fun _ => h.numDevices
  full := fun _ => ⟨hfull, fun hroom => (h.last (hfull.symm ▸ hroom)).1⟩
  last := fun _ hpass => (h.last hpass).2

/-- A pass ended the search. -/
theorem State.SearchTop.fail {e : Stop} (h : s.SearchTop st) (ht : searchPass.run st = .error e t)
    (hfails : t.result ≠ .ok ∧ t.result ≠ .tooManyDevices) : s.SearchEnd t := by
  obtain ⟨-, hdev, hpos, -, hnum, -⟩ := stored_eq (searchPass_error_stored (noHwReset_of_nil h.host) ht)
  refine ⟨⟨?_, ?_, ?_⟩, fun hok => absurd hok hfails.1, fun _ => hnum.trans h.numDevices,
    fun hfull => absurd hfull hfails.2, fun hor => (hor.elim hfails.1 hfails.2).elim⟩
  · rw [hpos]
    exact h.fits
  · rw [hpos, hdev]
    exact h.written
  · rw [hpos, hdev]
    exact h.others

/-- The pass loop from its top. -/
theorem searchLoop_searchEnd (fuel : Nat) (h : s.SearchTop st) (hfuel : st.devicePosition.toNat + fuel = s.cfg.maxDevices + 1) :
    ∃ e u, (searchLoop fuel).run st = .error e u ∧ s.SearchEnd u := by
  induction fuel generalizing st with
  | zero => exact absurd h.fits (by omega)
  | succ fuel ih =>
    by_cases hfull : st.devicePosition.toNat = s.cfg.maxDevices
    · exact ⟨_, _, searchLoop_full fuel (by rw [h.cfg, hfull]), h.full hfull⟩
    have hroom : st.devicePosition.toNat < s.cfg.maxDevices := lt_of_le_of_ne h.fits hfull
    rw [searchLoop_next fuel (by rwa [h.cfg])]
    have hpass := h.pass st rfl
    cases ht : searchPass.run st with
    | error e t =>
      rw [ht] at hpass
      exact ⟨e, t, bind_error ht, h.fail ht hpass⟩
    | ok a t =>
      rw [ht] at hpass
      obtain ⟨hhost, hrel⟩ := hpass
      obtain ⟨hcfg, hdev, hpos, hlast, hnum, -⟩ := searchPass_storesEntry (noHwReset_of_nil h.host) ht
      have hcount : t.devicePosition.toNat = st.devicePosition.toNat + 1 := by
        rw [hpos, devicePosition_succ (by rwa [h.cfg])]
      have hpasses := h.toPasses.pass hroom hdev hcount
      have hentry : t.devices.holdsEntry (t.devicePosition.toNat - 1) t.rom := by
        rw [hdev, hcount]
        exact Memory.holdsEntry_writeEntry _ _ _
      rw [bind_ok ht]
      by_cases hnone : t.curDisc = none
      · refine ⟨_, _, afterPass_last fuel hnone, ⟨{ hpasses with }, fun _ => ⟨?_, rfl, hlast.trans hnone, hnone⟩,
          fun hfails => absurd rfl hfails, Result.noConfusion, fun _ _ => hentry⟩⟩
        show 1 ≤ t.devicePosition.toNat
        omega
      · rw [afterPass_more fuel hnone]
        exact ih ⟨hpasses, hhost, hrel, hcfg.trans h.cfg, hnum.trans h.numDevices, fun _ => ⟨by rwa [hlast], hentry⟩⟩
          (by omega)

/-- Settles O35: the loop keeps what its passes have stored, and each way out of it leaves what its Result says. -/
theorem searchOutcomes : Obligations.SearchOutcomes := by
  intro s h
  obtain ⟨t, ht, hn⟩ := exec_search_blind h
  have hstart : s.SearchTop (s.noHost.accept .search).startSearch :=
    ⟨⟨Nat.zero_le _, fun k _ hk => absurd hk (Nat.not_lt_zero k), fun _ _ => rfl⟩, rfl, h.released, rfl, rfl,
      fun h0 => absurd h0 (lt_irrefl 0)⟩
  obtain ⟨e, u, hu, hend⟩ := searchLoop_searchEnd (s.cfg.maxDevices + 1) hstart (Nat.zero_add _)
  rw [hu, lastState_error] at hn
  subst hn
  obtain ⟨⟨hfits, hwritten, hothers⟩, hok, hkept, hfull, hlast⟩ := hend
  exact ⟨t, ht, dataIsKept _ _ _ h (by simp) ht, commandStaysLatched _ _ _ h ht, hfits, hok, hkept, hfull, hlast, hwritten,
    hothers⟩

end Sys2Proof.Machine
end

section
/-! PROOFS. How an operation can end, and what sets `ILL` (60_exceptions R236, R237, R243, R252). -/

namespace Sys2Proof.Machine

/-! ### Every operation ends with the line released -/

/-- Settles O40: every operation's statements end it, and they leave the line released whatever ends them. -/
theorem everyOperationEndsReleased : Obligations.EveryOperationEndsReleased := by
  intro i s hidle hrun hrel
  obtain ⟨body, -, he⟩ := exec_endsHere i s
  have hexec := he.trans (runOp_idle i body hidle hrun)
  exact ⟨_, hexec, exec_ended hidle hrun hrel hexec⟩

/-! ### The Results of each operation -/

/-- 41_transaction R165: whatever the line does, RESET_PULSE ends with a Result of its reset sequence. -/
theorem exec_resetPulse_result {s : State} (h : s.Ready) :
    ∃ t, exec .resetPulse s = .next t ∧ t.result ≠ .tooManyDevices := by
  obtain ⟨hhost, hrel⟩ := noHost_accept_quiet .resetPulse h
  obtain ⟨r, m, hi, lo, hway⟩ := resetWay_exists s.cfg (s.noHost.accept .resetPulse).afterReset s.clock
  obtain ⟨tr, nf, x, hrun⟩ := resetSeq_of_way hhost hrel hway
  obtain ⟨t, ht, hn⟩ := exec_resetPulse_of h hrun
  have hresult : t.result = r := (congrArg State.result hn :)
  exact ⟨t, ht, hresult ▸ hway.result_ne⟩

/-- 41_transaction R168: SEND_COMMAND ends with the Result of its reset sequence. -/
theorem exec_sendCommand_result {s : State} (h : s.Ready) :
    ∃ t, exec .sendCommand s = .next t ∧ t.result ≠ .tooManyDevices := by
  obtain ⟨hhost, hrel⟩ := noHost_accept_quiet .sendCommand h
  obtain ⟨r, m, hi, lo, hway⟩ := resetWay_exists s.cfg (s.noHost.accept .sendCommand).afterReset s.clock
  obtain ⟨tr, nf, x, k, hrun⟩ := sendCommandSeq_of_way s.data hhost hrel hway
  obtain ⟨t, ht, hn⟩ := runOp_blind_of h (blind_bind (blind_sendCommandSeq s.data) blind_finish)
    ((bind_ok hrun).trans (finish_run _ _))
  have hresult : t.result = r := (congrArg State.result hn :)
  exact ⟨t, ht, hresult ▸ hway.result_ne⟩

/-- 41_transaction R166: READ_OCTET ends at the first slot that ends low, or goes through. -/
theorem exec_readOctet_result {s : State} (h : s.Ready) :
    ∃ t, exec .readOctet s = .next t ∧ (t.result = .ok ∨ t.result = .commError) := by
  rcases first_or_never (s.line.readEnd s.cfg s.clock) false 7 with ⟨m, hm, hlow, hends⟩ | hends
  · obtain ⟨t, -, ht, -, hn⟩ := readOctetAbortsAtTheFirstLowEnd s m h (Nat.lt_succ_of_le hm) hends hlow
    exact ⟨t, ht, .inr (congrArg State.result hn :)⟩
  · obtain ⟨t, ht, -, hn⟩ := readOctetAssemblesTheSamples s h fun k hk => hends k (Nat.le_of_lt_succ hk)
    exact ⟨t, ht, .inl (congrArg State.result hn :)⟩

/-- A read slot ends `Ok` or `CommError` (40_timeslot R132). -/
theorem slotResult_cases (e : Bool) : slotResult e = .ok ∨ slotResult e = .commError := by cases e <;> decide

/-- Every operation ends, with a Result that R252 allows it. -/
theorem exec_mayFinish (i : Instr) {s : State} (h : s.Ready) : ∃ t, exec i s = .next t ∧ mayFinish i t.result = true := by
  cases i with
  | resetPulse =>
    obtain ⟨t, ht, hresult⟩ := exec_resetPulse_result h
    exact ⟨t, ht, decide_eq_true hresult⟩
  | writeBit v =>
    obtain ⟨t, ht, hn⟩ := exec_writeBit_of_ready v h
    have hresult : t.result = .ok := (congrArg State.result hn :)
    exact ⟨t, ht, decide_eq_true hresult⟩
  | readBitOr p =>
    obtain ⟨t, ht, hn⟩ := exec_readBitOr_of_ready p h
    have hresult : t.result = slotResult (s.line.readEnd s.cfg s.clock 0) := (congrArg State.result hn :)
    exact ⟨t, ht, decide_eq_true (hresult ▸ slotResult_cases _)⟩
  | writeOctet =>
    obtain ⟨t, ht, hn⟩ := writeOctetWaveform s h
    have hresult : t.result = .ok := (congrArg State.result hn :)
    exact ⟨t, ht, decide_eq_true hresult⟩
  | readOctet =>
    obtain ⟨t, ht, hresult⟩ := exec_readOctet_result h
    exact ⟨t, ht, decide_eq_true hresult⟩
  | sendCommand =>
    obtain ⟨t, ht, hresult⟩ := exec_sendCommand_result h
    exact ⟨t, ht, decide_eq_true hresult⟩
  | search =>
    obtain ⟨t, ht, -⟩ := exec_search_blind h
    exact ⟨t, ht, rfl⟩

/-- Settles O41: each operation's Result is that of its last slot or of its reset sequence, or the `Ok` of its finish. -/
theorem resultsByOperation : Obligations.ResultsByOperation := by
  intro i s t h ht
  obtain ⟨u, hu, hresult⟩ := exec_mayFinish i h
  cases ht.symm.trans hu
  exact hresult

/-! ### What sets `ILL` -/

/-- Among the accesses `es` a running operation refuses one due before tick `n` (20_memory R71). -/
def RefusesBefore (es : List HostEvent) (n : Nat) : Prop := ∃ x ∈ es, x.tick < n ∧ x.act.writesCommandOrData = true

/-- In an operation accepted with the accesses `es` pending: what is pending is of `es`, and if `ILL` is set, one of `es` was
refused by now. -/
structure State.IllAccounted (es : List HostEvent) (st : State) : Prop where
  pending : st.host ⊆ es
  refused : st.ill = true → RefusesBefore es st.clock

variable {es : List HostEvent}

theorem State.IllAccounted.congr {st t : State} (h : st.IllAccounted es) (hhost : t.host = st.host)
    (hill : t.ill = st.ill) (hclock : t.clock = st.clock) : t.IllAccounted es := by
  constructor
  · rw [hhost]
    exact h.pending
  · rw [hill, hclock]
    exact h.refused

/-- During an operation a write to CMD or DATA alone sets `ILL`. -/
theorem busyAct_setsIll {st : State} {act : HostAct} (h : (st.busyAct act).ill = true) :
    st.ill = true ∨ act.writesCommandOrData = true := by
  cases act with
  | read a =>
    obtain ⟨v, n, hr⟩ := hostRead_shape st a
    rw [State.busyAct, hr] at h
    exact .inl h
  | write a w =>
    by_cases ha : a.toNat = 0 ∨ a.toNat = 1
    · exact .inr (decide_eq_true ha)
    · rw [State.busyAct, State.writeBusy, if_neg ha] at h
      exact .inl h
  | hwReset => cases h
  | hwRelease => exact .inl h

/-- The accesses served before `till` set `ILL` by a refusal before `till`; a hardware reset among them clears it. -/
theorem serveUntil_illAccounted (till : Nat) (q : List HostEvent) {st : State} (hq : q ⊆ es)
    (hill : st.ill = true → RefusesBefore es till) : (lastState (serveUntil till q st)).IllAccounted es := by
  induction q generalizing st with
  | nil => exact ⟨hq, hill⟩
  | cons e q ih =>
    obtain ⟨he, hrest⟩ := List.cons_subset.1 hq
    unfold serveUntil
    by_cases hdue : e.tick < till
    · rw [if_pos hdue]
      by_cases hreset : e.act = .hwReset
      · simp only [hreset, if_true]
        exact ⟨(hwReset_host _).symm ▸ hrest, Bool.noConfusion⟩
      · simp only [if_neg hreset]
        exact ih hrest fun h => (busyAct_setsIll h).elim hill fun hw => ⟨e, he, hdue, hw⟩
    · rw [if_neg hdue]
      exact ⟨hq, hill⟩

theorem opUpd_clock (i : Instr) {f : State → State} (h : OpUpd i f) (st : State) : (f st).clock = st.clock :=
  (congrArg State.clock (opUpd_control i h st) :)

/-- Of an operation's statements a `Wait` alone can set `ILL`. -/
theorem kept_illAccounted (i : Instr) : Kept (OpUpd i) fun a b => a.IllAccounted es → b.IllAccounted es where
  refl := fun _ => id
  trans := fun _ _ _ h1 h2 => h2 ∘ h1
  upd := fun _ hf st h => h.congr (opUpd_host i hf st) (opUpd_ill i hf st) (opUpd_clock i hf st)
  sample := fun _ h => h.congr rfl rfl rfl
  drive := fun st h => h.congr (driveLine_host st) (driveLine_ill st) (driveLine_clock st)
  release := fun st h => h.congr (releaseLine_host st) (releaseLine_ill st) (releaseLine_clock st)
  wait := fun n st h => by
    refine serveUntil_illAccounted (st.clock + n) st.host h.pending fun hill => ?_
    obtain ⟨x, hx, hdue, hw⟩ := h.refused hill
    exact ⟨x, hx, Nat.lt_add_right n hdue, hw⟩
  finish := fun _ _ h => h.congr rfl rfl rfl

/-- An operation accepted with `ILL` clear ends with `ILL` set only behind a refusal. -/
theorem exec_setsIll {i : Instr} {st t : State} (hidle : st.busy = false) (hrun : st.resetIn = false) (hill : st.ill = false)
    (ht : exec i st = .next t) (h : t.ill = true) : RefusesBefore st.host t.clock := by
  obtain ⟨body, hb, he⟩ := exec_built i st
  rw [he, runOp_idle _ _ hidle hrun] at ht
  cases ht
  have haccept : (st.accept i).IllAccounted st.host :=
    ⟨List.Subset.refl _, fun h => absurd (h.symm.trans hill) Bool.noConfusion⟩
  exact (hb.keeps (kept_illAccounted i) (st.accept i) haccept).refused h

/-- An action on the idle block that writes no illegal byte to CMD leaves `ILL` alone, or runs an operation. -/
theorem hostStep_keepsIll {st t : State} {act : HostAct} (hlegal : ∀ a w, act = .write a w → a.toNat = 0 → legal w = true)
    (hill : st.ill = false) (h : hostStep st act = .next t) :
    t.ill = false ∨ st.resetIn = false ∧ act.writesCommand = true ∧ ∃ i, exec i st = .next t := by
  cases act with
  | read a =>
    obtain ⟨v, n, hr⟩ := hostRead_shape st a
    rw [hostStep, hr] at h
    cases h
    exact .inl hill
  | write a w =>
    by_cases hheld : st.resetIn = true
    · rw [hostStep, if_pos hheld] at h
      cases h
      exact .inl hill
    have hrun : st.resetIn = false := Bool.eq_false_of_not_eq_true hheld
    by_cases ha : a.toNat = 0
    · have hok : (decode w).isOk = true := (isOk_decode w).trans (hlegal a w rfl ha)
      cases hw : decode w with
      | ok i =>
        rw [hostStep_command hrun ha hw] at h
        exact .inr ⟨hrun, decide_eq_true ⟨ha, hok⟩, i, h⟩
      | error e =>
        rw [hw] at hok
        cases hok
    · rw [hostStep_write w hrun ha] at h
      cases h
      exact .inl hill
  | hwReset =>
    cases h
    exact .inl rfl
  | hwRelease =>
    cases h
    exact .inl ((hwRelease_ill st).trans hill)

/-- Settles O48: beside an illegal command only an operation's `Wait`s can set `ILL`, by a refused access due in them. -/
theorem illIsSetByRefusalsOnly : Obligations.IllIsSetByRefusalsOnly := by
  intro s t e es hidle hill hhost hlegal hstep hquiet
  rw [step_idle hidle hhost] at hstep
  rcases hostStep_keepsIll hlegal (st := s.arrive e es) hill hstep with hclear | ⟨hrun, hcommand, i, hexec⟩
  · exact hclear
  · refine Bool.eq_false_of_not_eq_true fun hset => ?_
    obtain ⟨x, hx, hdue, hw⟩ := exec_setsIll (st := s.arrive e es) hidle hrun hill hexec hset
    exact absurd ((hquiet hcommand x hx hdue).symm.trans hw) Bool.noConfusion

end Sys2Proof.Machine
end

section
/-! PROOFS. The hardware reset input (70 R270, R271): on the idle block, while it is asserted, and during an operation. -/

namespace Sys2Proof.Machine

/-! ### On the idle block, and while it stays asserted -/

/-- Settles O5: the idle block takes the assertion as its next action, at the tick it arrives. -/
theorem hardwareResetWhileIdle : Obligations.HardwareResetWhileIdle := by
  intro s e es hidle hhost hact
  refine ⟨(s.arrive e es).hwReset, ?_, hwReset_cfg _, hwReset_atReset _, rfl, hwReset_clock _, hwReset_host _⟩
  rw [step_idle hidle hhost, hact]
  rfl

/-- `now` is 0 as long as hardware reset is asserted (00_scope R10). -/
theorem now_held {st : State} (h : st.resetIn = true) : st.now = 0 := if_pos h

/-- A write while hardware reset is asserted changes nothing (70 R270). -/
theorem hostStep_write_held {st : State} (h : st.resetIn = true) (a : HostAddr) (w : Byte) :
    hostStep st (.write a w) = .next st := if_pos h

/-- The release changes only where `now` counts from. -/
theorem hwRelease_held {st : State} (h : st.resetIn = true) :
    st.hwRelease = { st with resetIn := false, resetAt := st.clock } := if_pos h

/-- Right after the release `now` is 0. -/
theorem now_hwRelease {st : State} (h : st.resetIn = true) : st.hwRelease.now = 0 := by
  rw [hwRelease_held h]
  exact Nat.sub_self st.clock

/-- While hardware reset is asserted an action arrives with every element still at its reset value. -/
theorem State.AtReset.arrive {st : State} (h : st.AtReset) (hheld : st.resetIn = true) (e : HostEvent) (es : List HostEvent) :
    (st.arrive e es).AtReset :=
  { h with now := now_held (st := st.arrive e es) hheld }

/-- Under an asserted hardware reset each host action keeps the reset values, and the release alone clears the input. -/
theorem hostStep_held {st : State} (hheld : st.resetIn = true) (act : HostAct) :
    ∃ t, hostStep st act = .next t ∧ (st.AtReset → t.AtReset) ∧ t.resetIn = decide (act ≠ .hwRelease) ∧ t.now = 0 := by
  cases act with
  | read a =>
    obtain ⟨v, n, hr⟩ := hostRead_shape st a
    refine ⟨st.hostRead a, rfl, ?_⟩
    rw [hr]
    exact ⟨fun h => { h with }, hheld, now_held (by exact hheld)⟩
  | write a w => exact ⟨st, hostStep_write_held hheld a w, id, hheld, now_held hheld⟩
  | hwReset => exact ⟨st.hwReset, rfl, fun _ => hwReset_atReset st, rfl, now_held rfl⟩
  | hwRelease =>
    have hnow := now_hwRelease hheld
    refine ⟨st.hwRelease, rfl, ?_⟩
    rw [hwRelease_held hheld] at hnow ⊢
    exact ⟨fun h => { h with now := hnow }, rfl, hnow⟩

/-- Settles O54: the idle block takes the host's next action, and each kind of action is held off the elements. -/
theorem hardwareResetIsHeld : Obligations.HardwareResetIsHeld := by
  intro s e es hidle hheld hhost
  have hstep := step_idle hidle hhost
  have hheld' : (s.arrive e es).resetIn = true := hheld
  refine ⟨?_, fun a w hact => ?_, fun a hact => ?_, fun hact => ?_⟩
  · obtain ⟨t, ht, hreset, hin, hnow⟩ := hostStep_held hheld' e.act
    exact ⟨t, hstep.trans ht, fun h => hreset (h.arrive hheld e es), hin, hnow⟩
  · rw [hstep, hact]
    exact hostStep_write_held hheld' a w
  · obtain ⟨v, n, hr⟩ := hostRead_shape (s.arrive e es) a
    refine ⟨v, n, ?_⟩
    rw [hstep, hact, hostStep, hr]
    rfl
  · rw [hstep, hact, hostStep, hwRelease_held hheld']
    rfl

/-! ### During an operation -/

/-- A reset that is still to come after time has passed is due no earlier than now. -/
theorem State.StillBefore.due_later {L L' es : List HostEvent} {st t : State} (h : st.StillBefore L es t L')
    (hlater : st.clock < t.clock) : ∃ x ∈ L, t.clock ≤ x.tick := by
  rcases h.due with ⟨hsame, -⟩ | ⟨y, ys, rfl, hdue⟩
  · exact absurd hsame hlater.ne'
  · exact ⟨y, h.rest.subset List.mem_cons_self, hdue⟩

/-- The statements of an operation, run with a hardware reset pending that is due before their undisturbed end, are stopped
by it (70 R271). -/
theorem Interruptible.stopped {α : Type} {x : Op α} (hx : Interruptible x) {L es : List HostEvent} {st q : State}
    (hL : EndsInReset L) (hhost : st.host = L ++ es) (hquiet : q.host = []) (hblank : q.blank = st.blank)
    (hlater : st.clock < (lastState (x.run q)).clock) (hdue : ∀ y ∈ L, y.tick < (lastState (x.run q)).clock) :
    st.StoppedBy L es (lastState (x.run st)) := by
  have notBefore : ∀ {t u : State} {L' : List HostEvent}, lastState (x.run q) = u → u.blank = t.blank →
      ¬ st.StillBefore L es t L' := by
    intro t u L' hu hub hbefore
    rw [hu, blank_clock hub] at hlater hdue
    obtain ⟨y, hy, hle⟩ := hbefore.due_later hlater
    exact absurd (hdue y hy) (Nat.not_lt.2 hle)
  rcases hx L es st q hL hhost hquiet hblank with ⟨t, ht, hstopped⟩ | ⟨a, t, u, L', -, hu, -, hub, -, hbefore⟩ |
    ⟨t, u, L', -, hu, hub, hbefore⟩
  · rw [ht]
    exact hstopped
  · exact absurd hbefore (notBefore (by rw [hu, lastState_ok]) hub)
  · exact absurd hbefore (notBefore (by rw [hu, lastState_error]) hub)

/-- Settles O6: the undisturbed operation is the same statements run with no access pending, so the reset stops them before
their end. -/
theorem hardwareResetStopsTheOperation : Obligations.HardwareResetStopsTheOperation := by
  intro i s u pre es e hidle hrun hhost hpre hreset hu hlater hdue
  obtain ⟨body, hbuilt, hexec⟩ := exec_built_all i s
  have hinterruptible : Interruptible body := hbuilt.interruptible fun _ hf => ⟨opUpd_passive i hf, opUpd_cfg i hf⟩
  rw [hexec { s with host := [] } rfl rfl, runOp_idle i body (by exact hidle) (by exact hrun)] at hu
  cases hu
  have hstopped := hinterruptible.stopped (st := s.accept i) (q := ({ s with host := [] } : State).accept i) (es := es)
    (endsInReset_append hpre hreset) (by rw [accept_host, hhost, List.append_assoc, List.singleton_append]) rfl rfl hlater hdue
  exact ⟨_, (hexec s rfl rfl).trans (runOp_idle i body hidle hrun), hstopped.cfg, hstopped.atReset, hstopped.asserted,
    hstopped.clock, hstopped.host⟩

end Sys2Proof.Machine
end

section
/-! PROOFS. How long an operation can take (70 R284). -/

namespace Sys2Proof.Machine

variable {α β : Type} {c : Config} {n d d' : Nat}

/-! ### The time a piece of an operation can take -/

/-- An operation of the block with parameters `c` goes on, the line released, and it is tick `n` at the latest. -/
structure State.Within (c : Config) (n : Nat) (st : State) : Prop where
  cfg : st.cfg = c
  noReset : st.noHwReset
  released : st.driveLow = false
  clock : st.clock ≤ n

/-- Between two slots, `x` takes `d` ticks at most, whether it goes on or ends the operation. -/
def Lasts (c : Config) (d : Nat) (x : Op α) : Prop :=
  ∀ n, Triple (State.Within c n) x (fun _ => State.Within c (n + d)) fun st => st.clock ≤ n + d

theorem State.Within.later {n' : Nat} {st : State} (h : st.Within c n) (hn : n ≤ n') : st.Within c n' :=
  { h with clock := h.clock.trans hn }

/-- What the updates of an operation write has no part in it. -/
theorem State.Within.of_control {st t : State} (h : st.Within c n) (e : t.control = st.control) : t.Within c n where
  cfg := (congrArg State.cfg e :).trans h.cfg
  noReset := noHwReset_of_host (congrArg State.host e :) h.noReset
  released := (congrArg State.driveLow e :).trans h.released
  clock := (congrArg State.clock e :).trans_le h.clock

theorem Lasts.mono {x : Op α} (h : Lasts c d x) (hd : d ≤ d') : Lasts c d' x := fun n =>
  triple_conseq (h n) (fun _ => id) (fun _ _ hst => hst.later (Nat.add_le_add_left hd n)) fun _ hst =>
    hst.trans (Nat.add_le_add_left hd n)

theorem lasts_bind {x : Op α} {f : α → Op β} (hx : Lasts c d x) (hf : ∀ a, Lasts c d' (f a)) :
    Lasts c (d + d') (x >>= f) := by
  intro n
  rw [← Nat.add_assoc]
  exact triple_bind (fun _ => State.Within c (n + d))
    (triple_conseq (hx n) (fun _ => id) (fun _ _ => id) fun _ hst => Nat.le_add_right_of_le hst) fun a => hf a (n + d)

theorem lasts_pure (a : α) : Lasts c 0 (pure a : Op α) := fun _ => triple_pure fun _ => id

theorem lasts_look (f : State → α) : Lasts c 0 (look f) := fun _ => triple_look fun _ => id

theorem lasts_upd {f : State → State} (h : ∀ st, (f st).control = st.control := by intros; rfl) : Lasts c 0 (upd f) :=
  fun _ => triple_upd fun st hst => hst.of_control (h st)

theorem lasts_finish (r : Result) : Lasts c 0 (finish r) := fun _ => triple_finish fun _ hst => hst.clock

theorem lasts_thenFinish {x : Op α} (hx : Lasts c d x) (r : α → Result) : Lasts c d (x >>= fun a => finish (r a)) :=
  lasts_bind hx fun a => lasts_finish (r a)

theorem lasts_finishIf (b : Bool) (r : Result) : Lasts c 0 (finishIf b r) := fun _ =>
  triple_finishIf (fun _ _ hst => hst.clock) fun _ _ => id

theorem lasts_ite {p : Prop} [Decidable p] {x y : Op α} (hx : Lasts c d x) (hy : Lasts c d y) :
    Lasts c d (if p then x else y) := fun n => triple_ite (fun _ => hx n) fun _ => hy n

theorem lasts_forUp {body : Nat → Op Unit} (h : ∀ k, Lasts c d (body k)) (m a : Nat) : Lasts c (m * d) (forUp body a m) := by
  induction m generalizing a with
  | zero => exact (lasts_pure ()).mono (Nat.zero_le _)
  | succ m ih => exact (lasts_bind (h a) fun _ => ih (a + 1)).mono (by rw [Nat.succ_mul, Nat.add_comm])

/-- What is blind to the host takes the time it takes when the host does nothing. -/
theorem lasts_of_quiet {x : Op α} (hb : Blind x) (h : ∀ st : State, st.host = [] → st.driveLow = false → st.cfg = c →
    ∃ a t, x.run st = .ok a t ∧ t.cfg = c ∧ t.driveLow = false ∧ t.clock ≤ st.clock + d) : Lasts c d x := by
  intro n st hst
  obtain ⟨a, u, hu, hcfg, hrel, hclock⟩ := h st.noHost rfl hst.released hst.cfg
  obtain ⟨t, ht, rfl⟩ := hb.ok hst.noReset hu
  have hreset := (hb st hst.noReset).2
  rw [ht] at hreset ⊢
  exact ⟨hcfg, hreset, hrel, hclock.trans (Nat.add_le_add_right hst.clock d)⟩

/-! ### Slots, octets and the reset sequence -/

theorem lasts_writeSlot (b : Bool) : Lasts c (slotWrite c) (writeSlot b) :=
  lasts_of_quiet (blind_writeSlot b) fun st hhost hrel hcfg =>
    ⟨_, _, writeSlot_quiet b hhost hrel, hcfg, hrel, by rw [lineTo_clock, hcfg]⟩

/-- A read slot, whatever its data sample makes of `DATA`. -/
theorem lasts_readSlot (g : Byte → Bool → Byte) : Lasts c Config.tSlot (readSlot fun st => { st with data := g st.data st.s }) :=
  lasts_of_quiet (blind_readSlot (fun _ => rfl) fun _ => rfl) fun st hhost hrel hcfg =>
    ⟨_, _, readSlot_quiet g hhost hrel, hcfg, hrel, by rw [sampled_clock, lineTo_clock]⟩

/-- A read slot that leaves `DATA` alone. -/
theorem lasts_readSlot_id : Lasts c Config.tSlot (readSlot id) := lasts_readSlot fun d _ => d

theorem lasts_writeOctetSeq (byte : Byte) : Lasts c (8 * slotWrite c) (writeOctetSeq byte) :=
  (lasts_bind (lasts_forUp (fun _ => lasts_bind lasts_upd fun _ => lasts_writeSlot _) 8 0) fun _ => lasts_upd).mono (by omega)

/-- Every way of a reset sequence ends within `D_RESET_MAX`. -/
theorem ResetWay.tick_le {L : Nat → Bool} {t m h l : Nat} {r : Result} (hw : ResetWay c L t r m h l) : m ≤ t + resetMax c := by
  have hlow : Config.presLowMinQ ≤ c.presLowMaxQ := c.presLowMaxQ_range.1
  cases hw <;> simp only [resetMax, resetDuration, quarter, Config.tQ] <;> omega

theorem lasts_resetSeq : Lasts c (resetMax c) resetSeq := by
  refine lasts_of_quiet blind_resetSeq fun st hhost hrel hcfg => ?_
  obtain ⟨r, m, h, l, hw⟩ := resetWay_exists st.cfg st.afterReset st.clock
  obtain ⟨tr, nf, x, hrun⟩ := resetSeq_of_way hhost hrel hw
  exact ⟨_, _, hrun, hcfg, hrel, hcfg ▸ hw.tick_le⟩

theorem lasts_sendCommandSeq (byte : Byte) : Lasts c (resetMax c + 8 * slotWrite c) (sendCommandSeq byte) :=
  lasts_bind lasts_resetSeq fun _ => lasts_ite (lasts_bind (lasts_writeOctetSeq byte) fun _ => lasts_pure _)
    ((lasts_pure _).mono (Nat.zero_le _))

theorem lasts_receiveBit (k : Nat) : Lasts c Config.tSlot (receiveBit k) :=
  (lasts_bind lasts_upd fun _ => lasts_bind lasts_readSlot_id fun _ => lasts_bind lasts_upd fun _ =>
    lasts_ite (lasts_pure _) (lasts_bind lasts_upd fun _ => lasts_finish _)).mono (by omega)

theorem lasts_readOctet : Lasts c (8 * Config.tSlot) readOctetBody :=
  (lasts_bind lasts_upd fun _ => lasts_bind (lasts_forUp lasts_receiveBit 8 0) fun _ => lasts_upd).mono (by omega)

/-! ### The search -/

theorem decideBit_control (p : Fin 64) (st : State) : (st.decideBit p).control = st.control :=
  positionUpd_control (.decide p) st

theorem lasts_searchPosition (p : Nat) : Lasts c (2 * Config.tSlot + slotWrite c) (searchPosition p) :=
  (lasts_bind lasts_upd fun _ => lasts_bind lasts_readSlot_id fun _ => lasts_bind lasts_upd fun _ =>
    lasts_bind (lasts_finishIf _ _) fun _ => lasts_bind lasts_readSlot_id fun _ => lasts_bind lasts_upd fun _ =>
      lasts_bind (lasts_finishIf _ _) fun _ => lasts_bind (lasts_finishIf _ _) fun _ =>
        lasts_bind (lasts_upd (decideBit_control _)) fun _ => lasts_bind (lasts_look _) fun _ =>
          lasts_bind (lasts_writeSlot _) fun _ => lasts_upd).mono (by omega)

/-- The upper bound on one pass (70 R284). -/
def passMax (c : Config) : Nat := resetMax c + 8 * slotWrite c + 64 * (2 * Config.tSlot + slotWrite c)

theorem lasts_searchPass : Lasts c (passMax c) searchPass :=
  (lasts_bind (lasts_look _) fun _ => lasts_bind lasts_upd fun _ => lasts_bind (lasts_sendCommandSeq _) fun _ =>
    lasts_bind (lasts_finishIf _ _) fun _ => lasts_bind (lasts_forUp lasts_searchPosition Config.addrBits 0) fun _ =>
      lasts_bind lasts_upd fun _ => lasts_upd).mono (by simp only [passMax, Config.addrBits]; omega)

/-- The pass loop with room for `room` more entries makes at most that many passes. -/
theorem searchLoop_lasts (room : Nat) :
    Triple (fun st => st.Within c n ∧ st.devicePosition.toNat + room = c.maxDevices) (searchLoop (room + 1))
      (fun _ _ => False) fun st => st.clock ≤ n + room * passMax c := by
  induction room generalizing n with
  | zero =>
    rintro st ⟨hst, hroom⟩
    rw [searchLoop_full 0 (hst.cfg ▸ hroom)]
    exact Nat.le_add_right_of_le hst.clock
  | succ room ih =>
    rintro st ⟨hst, hroom⟩
    have hlt : st.devicePosition.toNat < st.cfg.maxDevices := by rw [hst.cfg]; omega
    have hpass := lasts_searchPass n st hst
    rw [searchLoop_next (room + 1) hlt.ne, Nat.succ_mul, Nat.add_comm (room * _), ← Nat.add_assoc]
    cases ht : searchPass.run st with
    | error e t =>
      rw [ht] at hpass
      rw [bind_error ht]
      exact Nat.le_add_right_of_le hpass
    | ok a t =>
      rw [ht] at hpass
      rw [bind_ok ht]
      by_cases hnone : t.curDisc = none
      · rw [afterPass_last (room + 1) hnone]
        exact Nat.le_add_right_of_le hpass.clock
      · obtain ⟨-, -, hcount, -⟩ := searchPass_storesEntry hst.noReset ht
        rw [afterPass_more (room + 1) hnone]
        exact ih t ⟨hpass, by rw [hcount, devicePosition_succ hlt]; omega⟩

/-! ### Every operation -/

/-- SEARCH begins with no entry stored, so all of the capacity is room. -/
theorem lasts_search : Lasts c (durationBound c .search) (upd State.startSearch >>= fun _ => searchLoop (c.maxDevices + 1)) :=
  fun _ => triple_bind _
    (triple_upd fun _ hst => ⟨hst.of_control rfl, Nat.zero_add _⟩)
    fun _ => triple_conseq (searchLoop_lasts c.maxDevices) (fun _ => id) (fun _ _ => False.elim) fun _ => id

/-- Every operation's statements keep to its bound. -/
theorem exec_lasts (i : Instr) (s : State) :
    ∃ body : Op Unit, Lasts s.cfg (durationBound s.cfg i) body ∧ exec i s = runOp i body s := by
  cases i with
  | resetPulse => exact ⟨_, lasts_thenFinish lasts_resetSeq id, rfl⟩
  | writeBit v => exact ⟨_, lasts_thenFinish (lasts_writeSlot _) fun _ => .ok, rfl⟩
  | readBitOr p => exact ⟨_, lasts_thenFinish (lasts_readSlot fun d x => orBit d (readPosition p) x) Prod.snd, rfl⟩
  | writeOctet => exact ⟨_, lasts_thenFinish (lasts_writeOctetSeq _) fun _ => .ok, rfl⟩
  | readOctet => exact ⟨_, lasts_thenFinish lasts_readOctet fun _ => .ok, execReadOctet_eq s⟩
  | sendCommand => exact ⟨_, lasts_thenFinish (lasts_sendCommandSeq _) id, rfl⟩
  | search => exact ⟨_, lasts_search, rfl⟩

/-- Settles O42: the bounds of an operation's parts add up to its own, and a search makes no more passes than its table
holds entries. -/
theorem durationsAreBounded : Obligations.DurationsAreBounded := by
  intro i s t h ht
  obtain ⟨body, hlasts, hexec⟩ := exec_lasts i s
  cases ht.symm.trans (hexec.trans (runOp_idle i body h.idle h.running))
  exact triple_lastState (hlasts s.clock) (fun _ _ hst => hst.clock) (fun _ hst => hst)
    ⟨rfl, h.noReset, h.released, le_rfl⟩

end Sys2Proof.Machine
end

section
/-! PROOFS. Bytes written out from the opcode table (30_encoding R102): the legal ones are encodings, and each illegal one
meets its reason of R108 in its fields. -/

namespace Sys2Proof

/-! ### Why a byte is refused -/

theorem decode_zSet {w : Byte} (hz : zField w = true) : decode w = .error .zSet := if_pos hz

theorem decode_reservedOp {w : Byte} (hz : zField w = false)
    (hop : (opField w).toNat = 0 ∨ 8 ≤ (opField w).toNat) : decode w = .error .reservedOp := by
  rw [decode, if_neg (Bool.eq_false_iff.1 hz)]
  split
  case h_8 => rfl
  all_goals omega

theorem decode_argNotBit {w : Byte} (hz : zField w = false) (hop : opField w = 2#4)
    (harg : 2 ≤ (argField w).toNat) : decode w = .error .argNotBit := by
  rw [decode, if_neg (Bool.eq_false_iff.1 hz), hop]
  exact if_neg harg.not_gt

/-- The five operations without an immediate (30_encoding R101). -/
theorem decode_argNotZero {w : Byte} (hz : zField w = false)
    (hop : opField w = 1#4 ∨ opField w = 4#4 ∨ opField w = 5#4 ∨ opField w = 6#4 ∨ opField w = 7#4)
    (harg : argField w ≠ 0#3) : decode w = .error .argNotZero := by
  rw [decode, if_neg (Bool.eq_false_iff.1 hz)]
  rcases hop with hop | hop | hop | hop | hop <;> rw [hop] <;> exact if_neg harg

end Sys2Proof

namespace Sys2Proof.Machine

/-- Settles O3: the first eight bytes are the encodings of their well-formed operations, the last four have the fields of
their reasons. -/
theorem tableBytesDecode : Obligations.TableBytesDecode :=
  ⟨decode_ok_iff.2 (by decide), decode_ok_iff.2 (by decide), decode_ok_iff.2 (by decide), decode_ok_iff.2 (by decide),
    decode_ok_iff.2 (by decide), decode_ok_iff.2 (by decide), decode_ok_iff.2 (by decide), decode_ok_iff.2 (by decide),
    decode_argNotBit rfl rfl (by decide), decode_argNotZero rfl (.inl rfl) (by decide),
    decode_reservedOp rfl (by decide), decode_zSet rfl⟩

end Sys2Proof.Machine
end
